-- ==== Sys2Proof/Word.lean ====
section
/-!
DEFINITION. The word types of the manual: 64-bit core words, 32-bit instruction words, bytes.
-/
namespace Sys2Proof

/-- A general register of the Soeth core, a system register or a dword of memory (R162, R165). -/
abbrev Word := BitVec 64

/-- One instruction word or configuration command (R127, R145). -/
abbrev Word32 := BitVec 32

/-- One byte of memory. -/
abbrev Byte := BitVec 8

/-- A token payload (R46). -/
abbrev Payload := BitVec 512

end Sys2Proof
end

