-- ==== Sys2Proof/Syntax.lean ====
section
/-!
DEFINITION. The syntax of every step of the machine: one constructor per row of the opcode table. The first 127 rows are the
instruction words of the Soeth core (05_encodings), the next are the configuration commands (R145 to R149), and the rest are
the steps and events that the fabric, the board, the task queue unit and the host side take.
-/
namespace Sys2Proof

/-- g0 to g31 (R120). -/
abbrev Reg := Fin 32
/-- p0 to p7. -/
abbrev PReg := Fin 8
/-- sh0 to sh7. -/
abbrev ShReg := Fin 8
/-- qp0 to qp7, or an engine queue 0 to 7 (R129). -/
abbrev QReg := Fin 8
/-- A completion tag, 0 to 63 (R99). -/
abbrev Tag := Fin 64

/-- Ordering scopes, in the order of R109 and of the encoding (R137). -/
inductive Scope where
  | region | die | device | domain | system
  deriving DecidableEq, Repr

/-- Access sizes of MEMORD (R137). -/
inductive Size where
  | b | h | w | d
  deriving DecidableEq, Repr

/-- The system registers, in number order (R143). -/
inductive SysReg where
  | status | cause | trappc | badaddr | asid | prio | tags | wid | widw
  deriving DecidableEq, Repr

/-- Kinds of shape register (R140, R209). -/
inductive ShapeKind where
  | vec | fp8 | e2m1 | bf16 | rank
  deriving DecidableEq, Repr

/-- Modes of a collective (R94, R142). -/
inductive CollMode where
  | fast | canonical | exact
  deriving DecidableEq, Repr

/-- Operands of a three-register word with q bits (R128, R129). -/
structure Rrr where
  d : Reg
  a : Reg
  b : Reg
  qa : Bool
  qb : Bool
  qd : Bool
  deriving DecidableEq, Repr

/-- Operands of a unary function: b = 0 and qb = 0 (R133). -/
structure Unary where
  d : Reg
  a : Reg
  qa : Bool
  qd : Bool
  deriving DecidableEq, Repr

/-- Operands of a compare that writes a predicate: d = 0 and qd = 0 (R135). -/
structure PCmp where
  p : PReg
  a : Reg
  b : Reg
  qa : Bool
  qb : Bool
  deriving DecidableEq, Repr

/-- Operands of an atomic (R138); `dbl` is the 64-bit size. -/
structure Amo where
  d : Reg
  a : Reg
  b : Reg
  dbl : Bool
  acq : Bool
  rel : Bool
  scope : Scope
  deriving DecidableEq, Repr

/-- Operands of a stream command (R142, R194). -/
structure Strm where
  port : Fin 32
  base : Reg
  count : Reg
  tag : Tag
  nt : Bool
  append : Bool
  deriving DecidableEq, Repr

/-- An element of the fabric: its die, its tile in die coordinates (column and row of the grid plus one, so that 0 and 21 are
the ring, R12, R149) and its element address (R16, R150). -/
structure ElemAt where
  die : Fin 4
  x : Nat
  y : Nat
  e : Nat
  deriving DecidableEq, Repr

/-- A token movement: into the input of an element over its edge, or out of a token FIFO channel (R48, R69). -/
inductive Crossing where
  /-- The oldest token on the local edge toward input `i` of `a` enters its queue. -/
  | arrive (a : ElemAt) (i : Fin 4)
  /-- The static link that leaves a tile in direction `d` (0 N, 1 E, 2 S, 3 W) grants one of its channels (R51). -/
  | grant (die : Fin 4) (x y : Nat) (d : Fin 4)
  /-- Packet `n` of a die's dynamic network, from the oldest, moves one router in direction `d`, or is ejected at its tile (R15). -/
  | hop (die : Fin 4) (n : Nat) (d : Fin 4)
  /-- The head of the FIFO channel `a` leaves onto its output edge. -/
  | leave (a : ElemAt)
  deriving DecidableEq, Repr

/-- Where a command begins or completes (R189). -/
inductive BeginAt where
  /-- The oldest command of a core's order buffer. -/
  | core (c : Fin 64)
  /-- A stream engine. -/
  | engine (a : ElemAt)
  /-- The head of an engine queue. -/
  | queue (c : Fin 64) (q : QReg)
  /-- A core's oldest cfg.ld. -/
  | config (c : Fin 64)
  deriving DecidableEq, Repr

/-- A granule access that may perform: its party and which of the party's granules it is (R104, R105, R108). -/
inductive AccessAt where
  /-- The oldest store of a core's order buffer. -/
  | core (c : Fin 64)
  /-- Granule `g` (virtual address over 8) of a stream engine's oldest row. -/
  | stream (a : ElemAt) (g : Nat)
  /-- Granule `g` of destination row `row` of the head of an engine queue. -/
  | queue (c : Fin 64) (q : QReg) (row g : Nat)
  /-- Granule `g` of access `n`, from the oldest, of a memory element. -/
  | fabric (a : ElemAt) (n g : Nat)
  deriving DecidableEq, Repr

/-- Where a path of the board leads (R101, R105). -/
inductive Dest where
  | die (d : Fin 4) | module (m : Fin 64) | tier (p : Fin 2) | host
  deriving DecidableEq, Repr

/-- A path FIFO: the source die, or 4 for the host port; where it leads; and its number among the parallel ones (R101). -/
structure PathId where
  src : Fin 5
  dst : Dest
  k : Nat
  deriving DecidableEq, Repr

/-- A landing port: one per destination and stream (R101). -/
structure LandingId where
  dst : Dest
  stream : ElemAt
  deriving DecidableEq, Repr

/-- A granule of a landing row, and whether its destination, another module, refuses it for want of a page (R118). -/
structure LandingTry where
  granule : Nat
  fault : Bool
  deriving DecidableEq, Repr

/-- What a rank on another module brings to a collective: its parameters and its source elements (R205). -/
structure RemoteRank where
  rank : Nat
  params : Nat
  data : List Byte
  deriving DecidableEq, Repr

/-- A tier range found at enumeration (R381). -/
structure TierRange where
  port : Fin 2
  j : Fin 16
  base : Word
  info : Word
  deriving DecidableEq, Repr

/-- A trained Nguven port and its peer (R375). -/
structure LinkPeer where
  port : Fin 36
  pmod : Fin 64
  pport : Fin 36
  deriving DecidableEq, Repr

/-- A link whose CRC failed (R393, R394). -/
inductive LinkId where
  | nguven (p : Fin 36) | tier (p : Fin 2) | host
  deriving DecidableEq, Repr

/-- Where an uncorrectable error is found, and whether a task read the data (R394). -/
inductive ErrorAt where
  /-- Data at a physical granule; `struct` is the structure code; `task` the reading task. -/
  | data (struct : Nat) (granule : Nat) (task : Option (BitVec 32)) (place : Nat)
  /-- Code memory of a core. -/
  | code (c : Fin 64)
  /-- A field of an element. -/
  | field (a : ElemAt)
  deriving DecidableEq, Repr

/-- One message or part of it as an Ethernet port receives it (R385, R387). -/
structure Packet where
  msg : Nat
  tagged : Bool
  matchBits : Word
  job : BitVec 32
  pid : BitVec 16
  src : BitVec 128
  srcPid : BitVec 16
  rod : Bool
  secure : Bool
  length : Nat
  offset : Nat
  bytes : List Byte
  deriving DecidableEq, Repr

/-- Every step of the machine. A step of one element has no operand here: it is a step of the element in focus, which the move
that takes it names (log 1). -/
inductive Instr where
  /-- R170: Writes the 64-bit wrapped sum of two register or queue-mapped operands. -/
  | add (o : Rrr)
  /-- R170: Writes the 64-bit wrapped difference of two operands. -/
  | sub (o : Rrr)
  /-- R170: Writes the bitwise AND of two operands. -/
  | and (o : Rrr)
  /-- R170: Writes the bitwise OR of two operands. -/
  | or (o : Rrr)
  /-- R170: Writes the bitwise exclusive OR of two operands. -/
  | xor (o : Rrr)
  /-- R170: Writes x AND NOT y. -/
  | andn (o : Rrr)
  /-- R170: Shifts x left by y[5:0] places, zero-filled. -/
  | shl (o : Rrr)
  /-- R170: Shifts x right by y[5:0] places, zero-filled. -/
  | shr (o : Rrr)
  /-- R170: Shifts x right by y[5:0] places, sign-filled. -/
  | sar (o : Rrr)
  /-- R170: Rotates x left by y[5:0] places. -/
  | rotl (o : Rrr)
  /-- R170: Writes the signed smaller of two operands. -/
  | min (o : Rrr)
  /-- R170: Writes the signed larger of two operands. -/
  | max (o : Rrr)
  /-- R170: Writes the unsigned smaller of two operands. -/
  | minu (o : Rrr)
  /-- R170: Writes the unsigned larger of two operands. -/
  | maxu (o : Rrr)
  /-- R170: Writes the count of leading zero bits of x. -/
  | clz (o : Unary)
  /-- R170: Writes the count of trailing zero bits of x. -/
  | ctz (o : Unary)
  /-- R170: Writes the count of one bits of x. -/
  | popc (o : Unary)
  /-- R170: Writes the sign-extended low 32 bits of x + y. -/
  | addw (o : Rrr)
  /-- R170: Writes the sign-extended low 32 bits of x − y. -/
  | subw (o : Rrr)
  /-- R171: Writes the low 64 bits of the product. -/
  | mul (o : Rrr)
  /-- R171: Writes bits 127:64 of the signed product. -/
  | mulh (o : Rrr)
  /-- R171: Writes bits 127:64 of the unsigned product. -/
  | mulhu (o : Rrr)
  /-- R171: Writes the signed quotient rounded toward zero, with fixed results for borderline operands. -/
  | div (o : Rrr)
  /-- R171: Writes the unsigned quotient rounded toward zero. -/
  | divu (o : Rrr)
  /-- R171: Writes the signed remainder. -/
  | rem (o : Rrr)
  /-- R171: Writes the unsigned remainder. -/
  | remu (o : Rrr)
  /-- R173: Writes 1 if the operands are equal, else 0. -/
  | ceq (o : Rrr)
  /-- R173: Writes 1 if the operands differ, else 0. -/
  | cne (o : Rrr)
  /-- R173: Writes 1 if x < y signed. -/
  | clt (o : Rrr)
  /-- R173: Writes 1 if x < y unsigned. -/
  | cltu (o : Rrr)
  /-- R173: Writes 1 if x ≤ y signed. -/
  | cle (o : Rrr)
  /-- R173: Writes 1 if x ≤ y unsigned. -/
  | cleu (o : Rrr)
  /-- R173: Sets predicate p to x = y. -/
  | peq (o : PCmp)
  /-- R173: Sets predicate p to x ≠ y. -/
  | pne (o : PCmp)
  /-- R173: Sets predicate p to x < y signed. -/
  | plt (o : PCmp)
  /-- R173: Sets predicate p to x < y unsigned. -/
  | pltu (o : PCmp)
  /-- R173: Sets predicate p to x ≤ y signed. -/
  | ple (o : PCmp)
  /-- R173: Sets predicate p to x ≤ y unsigned. -/
  | pleu (o : PCmp)
  /-- R173: Writes x if predicate p is 1, else y, popping both queue-mapped sources. -/
  | sel (o : Rrr) (p : PReg)
  /-- R173: Sets predicate p to pa AND pb. -/
  | pand (p a b : PReg)
  /-- R173: Sets predicate p to pa OR pb. -/
  | por (p a b : PReg)
  /-- R173: Sets predicate p to pa XOR pb. -/
  | pxor (p a b : PReg)
  /-- R173: Sets predicate p to pa AND NOT pb. -/
  | pandn (p a b : PReg)
  /-- R173: Sets predicate p to NOT pa. -/
  | pnot (p a : PReg)
  /-- R173: Sets predicate p to whether x is nonzero. -/
  | ptst (p : PReg) (a : Reg) (qa : Bool)
  /-- R173: Writes predicate p as 0 or 1 to the destination. -/
  | pget (d : Reg) (qd : Bool) (p : PReg)
  /-- R179: Pushes a general register as one data token into the vi port bound to a queue-mapped register. -/
  | qpush (q : QReg) (a : Reg)
  /-- R180: Pops the head token of the vo port bound to a queue-mapped register into a general register. -/
  | qpop (d : Reg) (q : QReg)
  /-- R181: Writes the entry count or credit count of a queue-mapped register without popping or waiting. -/
  | qlvl (d : Reg) (q : QReg)
  /-- R182: Waits for an accumulator's tag to be full and reads 64 bits at a byte offset. -/
  | accrd (d a b : Reg)
  /-- R182: Waits until no mma firing uses the accumulator, zeroes it and sets its tag empty. -/
  | accrst (a : Reg)
  /-- R175: Loads with acquire of the named scope in one move. -/
  | lda (d a : Reg) (size : Size) (u : Bool) (scope : Scope)
  /-- R175: Stores as a release of the named scope. -/
  | stl (a b : Reg) (size : Size) (scope : Scope)
  /-- R176: Atomically adds at the home of the granule and returns the old value. -/
  | amoAdd (o : Amo)
  /-- R176: Atomically keeps the signed minimum and returns the old value. -/
  | amoMin (o : Amo)
  /-- R176: Atomically keeps the signed maximum and returns the old value. -/
  | amoMax (o : Amo)
  /-- R176: Atomically swaps in the operand and returns the old value. -/
  | amoSwap (o : Amo)
  /-- R176: Atomically compares with d and swaps in the operand when equal, returning the old value. -/
  | amoCas (o : Amo)
  /-- R176: Atomically ANDs in the operand and returns the old value. -/
  | amoAnd (o : Amo)
  /-- R176: Atomically ORs in the operand and returns the old value. -/
  | amoOr (o : Amo)
  /-- R178: Jumps to the address in ga and writes the link into gd. -/
  | jalr (d a : Reg)
  /-- R199: Places one barrier entry in the stream FIFO of each engine named by the port mask. -/
  | sbar (a : Reg)
  /-- R200: Waits until any masked tag is set, then acquires at device scope. -/
  | twaitAny (a : Reg)
  /-- R200: Waits until every masked tag is set, then acquires at device scope. -/
  | twaitAll (a : Reg)
  /-- R200: Writes the index of the lowest set masked tag, or 64, without waiting. -/
  | tfind (d a : Reg)
  /-- R200: Clears the masked bits of TAGS without changing outstanding counts. -/
  | tclr (a : Reg)
  /-- R206: Places one fence entry in each named engine queue. -/
  | qfence (a : Reg)
  /-- R211: Requests a shape, grants it against region maxima and granules, and writes the grant back. -/
  | shape (sh : ShReg) (a b : Reg) (kind : ShapeKind)
  /-- R212: Sends or places a shape token into each named vi port and sets pub. -/
  | shpub (sh : ShReg) (a : Reg)
  /-- R215: Commits the staged configuration image and waits for the gates to open. -/
  | cfgCmt
  /-- R216: Sends one resume token to a named memory element or stream engine. -/
  | resume (a : Reg)
  /-- R172: Adds a sign-extended immediate. -/
  | addi (d a : Reg) (imm : BitVec 16)
  /-- R172: ANDs a zero-extended immediate. -/
  | andi (d a : Reg) (imm : BitVec 16)
  /-- R172: ORs a zero-extended immediate. -/
  | ori (d a : Reg) (imm : BitVec 16)
  /-- R172: XORs a zero-extended immediate. -/
  | xori (d a : Reg) (imm : BitVec 16)
  /-- R172: Writes 1 if ga is below the sign-extended immediate as signed. -/
  | slti (d a : Reg) (imm : BitVec 16)
  /-- R172: Writes 1 if ga is below the sign-extended immediate as unsigned. -/
  | sltiu (d a : Reg) (imm : BitVec 16)
  /-- R172: Shifts left by an immediate count. -/
  | shli (d a : Reg) (n : Fin 64)
  /-- R172: Shifts right zero-filled by an immediate count. -/
  | shri (d a : Reg) (n : Fin 64)
  /-- R172: Shifts right sign-filled by an immediate count. -/
  | sari (d a : Reg) (n : Fin 64)
  /-- R172: Writes the sign-extended immediate shifted left 16 places. -/
  | lui (d : Reg) (imm : BitVec 16)
  /-- R172: Replaces 16-bit chunk h of gd with the immediate. -/
  | lih (d : Reg) (h : Fin 4) (imm : BitVec 16)
  /-- R174: Loads a sign-extended byte. -/
  | ldb (d a : Reg) (imm : BitVec 16)
  /-- R174: Loads a zero-extended byte. -/
  | ldbu (d a : Reg) (imm : BitVec 16)
  /-- R174: Loads a sign-extended half. -/
  | ldh (d a : Reg) (imm : BitVec 16)
  /-- R174: Loads a zero-extended half. -/
  | ldhu (d a : Reg) (imm : BitVec 16)
  /-- R174: Loads a sign-extended word. -/
  | ldw (d a : Reg) (imm : BitVec 16)
  /-- R174: Loads a zero-extended word. -/
  | ldwu (d a : Reg) (imm : BitVec 16)
  /-- R174: Loads a dword. -/
  | ldd (d a : Reg) (imm : BitVec 16)
  /-- R174: Stores the low byte of gd. -/
  | stb (d a : Reg) (imm : BitVec 16)
  /-- R174: Stores the low half of gd. -/
  | sth (d a : Reg) (imm : BitVec 16)
  /-- R174: Stores the low word of gd. -/
  | stw (d a : Reg) (imm : BitVec 16)
  /-- R174: Stores the dword of gd. -/
  | std (d a : Reg) (imm : BitVec 16)
  /-- R177: Branches when ga = gb. -/
  | beq (a b : Reg) (off : BitVec 16)
  /-- R177: Branches when ga ≠ gb. -/
  | bne (a b : Reg) (off : BitVec 16)
  /-- R177: Branches when ga < gb signed. -/
  | blt (a b : Reg) (off : BitVec 16)
  /-- R177: Branches when ga ≥ gb signed. -/
  | bge (a b : Reg) (off : BitVec 16)
  /-- R177: Branches when ga < gb unsigned. -/
  | bltu (a b : Reg) (off : BitVec 16)
  /-- R177: Branches when ga ≥ gb unsigned. -/
  | bgeu (a b : Reg) (off : BitVec 16)
  /-- R177: Branches when predicate p is 1. -/
  | bpt (p : PReg) (off : BitVec 16)
  /-- R177: Branches when predicate p is 0. -/
  | bpf (p : PReg) (off : BitVec 16)
  /-- R178: Jumps by a signed word offset. -/
  | j (off : BitVec 26)
  /-- R178: Jumps by a signed word offset and links in g31. -/
  | jal (off : BitVec 26)
  /-- R196: Issues an affine load stream command that feeds a vi port on a tag. -/
  | strmLd (o : Strm)
  /-- R197: Issues an affine store stream command that drains a vo port on a tag. -/
  | strmSt (o : Strm)
  /-- R196: Issues an indirect gather stream command that feeds a vi port. -/
  | strmGth (o : Strm)
  /-- R197: Issues an indirect scatter stream command that drains a vo port. -/
  | strmSct (o : Strm)
  /-- R202: Queues a byte copy on an engine queue. -/
  | cpy (q : QReg) (base count : Reg) (tag : Tag)
  /-- R202: Queues a two-dimensional row copy on an engine queue. -/
  | cpy2d (q : QReg) (base count : Reg) (tag : Tag)
  /-- R204: Queues an all-reduce collective on an engine queue. -/
  | collAr (q : QReg) (base count : Reg) (tag : Tag) (mode : CollMode)
  /-- R204: Queues an all-gather collective. -/
  | collAg (q : QReg) (base count : Reg) (tag : Tag) (mode : CollMode)
  /-- R204: Queues a reduce-scatter collective. -/
  | collRs (q : QReg) (base count : Reg) (tag : Tag) (mode : CollMode)
  /-- R204: Queues a broadcast collective. -/
  | collBc (q : QReg) (base count : Reg) (tag : Tag) (mode : CollMode)
  /-- R204: Queues an all-to-all collective. -/
  | collA2a (q : QReg) (base count : Reg) (tag : Tag) (mode : CollMode)
  /-- R207: Issues a release of the named scope covering the core and the masked streams, completing a tag. -/
  | flm (scope : Scope) (m : Reg) (tag : Tag)
  /-- R208: Releases, sends a launch header to the TQU, waits for its answer and writes the status. -/
  | enq (s h m : Reg) (tag : Tag)
  /-- R214: Streams a configuration image to the core's region and stages it with gates closed. -/
  | cfgLd (base count : Reg) (tag : Tag) (part : Bool)
  /-- R218: Pins an expert entry, or fetches it resident, and writes the ERT status. -/
  | ertPin (s k x : Reg) (tag : Tag)
  /-- R218: Reads an expert entry's state into the status register. -/
  | ertProbe (s k : Reg) (tag : Tag)
  /-- R218: Evicts an expert entry once its reference count reaches 0. -/
  | ertEvict (s k : Reg) (tag : Tag)
  /-- R183: Raises a software trap with the given code. -/
  | trap (code : Fin 4096)
  /-- R183: Returns from a trap, restoring SV and IE and clearing TH. -/
  | eret
  /-- R183: Reads a system register into gd. -/
  | mfsr (d : Reg) (r : SysReg)
  /-- R166: Writes a system register under the privilege rules. -/
  | mtsr (r : SysReg) (a : Reg)
  /-- R110: Performs a release then an acquire of the named scope. -/
  | fence (scope : Scope)
  /-- R184: Waits on an address until its home value differs from gd, then acquires. -/
  | wait (d a : Reg) (scope : Scope)
  /-- R185: Waits for earlier accesses to perform and stops fetching. -/
  | halt
  /-- R184: The 131,072-cycle limit of a wait expires and it returns the unchanged value with an acquire. -/
  | waitTimeout (c : Fin 64)
  /-- R168: A pending asynchronous trap is taken between instructions or in an interruptible wait when IE = 1. -/
  | asyncTrap (c : Fin 64)
  /-- R146: A write command sets bits 9:0 of a named element field and clears the rest. -/
  | configWrite (x y : Fin 32) (e : Fin 16) (f : Fin 64) (v : BitVec 10)
  /-- R146: An extend command fills the next 30 bits of the field of the preceding write. -/
  | configExtend (v : BitVec 30)
  /-- R147: A begin command closes every gate of the region and, if full, resets its fields. -/
  | beginCmd (part : Bool) (w h : Fin 8)
  /-- R147: A commit command commits the configuration and opens the gates under R25. -/
  | commit
  /-- R147: A select-region command, written by the load path, names the region the stream configures. -/
  | selectRegion (r : Fin 16)
  /-- R147: A bank-quiesce command performs every store queued at the named MT's bank ports, or at all MTs of the region. -/
  | bankQuiesce (x y : Fin 32) (all : Bool)
  /-- R48: A token crosses between tiles, its header is checked, and it enters the receiving queue. -/
  | tokenCrossing (m : Crossing)
  /-- R60: A takeback at a queue stage annihilates a head of its itag or moves upstream. -/
  | takebackStage (a : ElemAt) (i : Fin 4)
  /-- R61: A takeback reaching an element through an output is recorded, absorbed, held or passed upstream by the element's kind. -/
  | takebackAtElement (a : ElemAt) (o : Fin 2)
  /-- R250: The tile memory control takes an address token or row token and fills its bound slot. -/
  | tslot (a : ElemAt) (i : Fin 4)
  /-- R250: A fill completes and the slot's tag becomes full. -/
  | tileFillComplete (a : ElemAt) (i : Fin 4)
  /-- R269: A ladder serves its oldest request, ranking the vector and replying. -/
  | ladderServe (die : Fin 4) (l : Fin 4)
  /-- R189: A command leaves the order buffer, reads its record or descriptor once and starts. -/
  | commandBegin (w : BeginAt)
  /-- R189: A command completes, writes its status dword and lowers its tag count, setting the tag at 0. -/
  | commandCompletion (w : BeginAt)
  /-- R205: Matching collectives of all ranks exchange parameters and start or end with code 6. -/
  | collectiveMatch (group : Nat) (remote : List RemoteRank)
  /-- R104: A read performs on the board, filling the RDC line if absent. -/
  | readPerform (r : AccessAt)
  /-- R105: A write performs, setting the home copy or the RDC copy and a path FIFO entry. -/
  | writePerform (w : AccessAt) (path : Nat)
  /-- R106: The head of a path FIFO lands, moves to its landing port, or is gathered as a flush marker. -/
  | pathHead (p : PathId)
  /-- R106: A landing port lands the next stream row in row order. -/
  | landingPortLand (port : LandingId) (granule : LandingTry)
  /-- R107: An RDC copy of a granule with no unlanded write is dropped. -/
  | rdcDrop (die : Fin 4) (granule : Nat)
  /-- R109: A release performs once earlier accesses have performed and its flush markers are gathered. -/
  | releasePerform (id : Nat)
  /-- R111: An atomic performs in one move at the home of its granule. -/
  | atomicPerform (c : Fin 64)
  /-- R114: A TFU pins an operand line when the slice has room. -/
  | tfuPin (a : ElemAt) (i : Fin 4) (line : Nat)
  /-- R114: A TFU reads a pinned line's eight granules in one move. -/
  | tfuSnapshot (a : ElemAt) (i : Fin 4) (line : Nat)
  /-- R336: FAULTLIM expires on a withheld access; the region stops at level 0, is freeze-saved and the task becomes Frozen. -/
  | faultCheckpoint (die : Fin 4) (r : Fin 16)
  /-- R316: A freed bank entry is refilled from the oldest spilled entry. -/
  | spillRefill (die : Fin 4) (bank : Fin 16)
  /-- R320: The TQU selects a ready task, tests admission and places or refuses it. -/
  | tquSelect (die : Fin 4)
  /-- R343: A region is loaded with image, text and any restored context and committed. -/
  | regionLoad (die : Fin 4) (r : Fin 16)
  /-- R116: After end-of-run reaches every sink, the release completes, the completion record is written and the tag is set. -/
  | taskRetire (die : Fin 4) (r : Fin 16)
  /-- R337: TASKCMD op 1 starts a drain pre-emption to a level. -/
  | taskcmdDrain (die : Fin 4) (task : BitVec 32) (level : Fin 8)
  /-- R338: TASKCMD op 2 starts a freeze-save. -/
  | taskcmdFreezeSave (die : Fin 4) (task : BitVec 32)
  /-- R186: TASKCMD op 3 ends a task. -/
  | taskcmdEnd (die : Fin 4) (task : BitVec 32)
  /-- R334: TASKCMD op 4 clears the trap records and restarts frozen sources. -/
  | taskcmdRelease (die : Fin 4) (task : BitVec 32)
  /-- R336: TASKCMD op 5 returns a fault-checkpointed task to selection. -/
  | taskcmdFaultServiced (die : Fin 4) (task : BitVec 32)
  /-- R337: A drain completes, the core stops and the context block is written with event 9. -/
  | drainComplete (die : Fin 4) (r : Fin 16)
  /-- R337: DRAINLIM expires on a drain, which becomes a freeze-save. -/
  | drainTimeout (die : Fin 4) (r : Fin 16)
  /-- R338: A freeze-save completes, state is saved and the task becomes Frozen. -/
  | freezeSaveComplete (die : Fin 4) (r : Fin 16)
  /-- R341: Space frees in the context area and the held save is retried. -/
  | contextSaveRetry (die : Fin 4) (r : Fin 16)
  /-- R328: A PORTRES write with bit 63 clear sends a resume token to a port. -/
  | portresPort (die : Fin 4) (v : Word)
  /-- R328: A PORTRES write with bit 63 set resumes a withheld engine-queue or cfg.ld access. -/
  | portresQueue (die : Fin 4) (v : Word)
  /-- R317: Writing TQCTL RESUME restarts a refill held by an error. -/
  | tqResume (die : Fin 4)
  /-- R317: Reading TQERR returns and clears the TQU error. -/
  | tqerrRead (die : Fin 4)
  /-- R355: INVCMD op 1 invalidates a page range of one ASID module-wide. -/
  | invalidateRange (die : Fin 4) (asid : Fin 8192) (pages : Nat)
  /-- R355: INVCMD op 2 invalidates every entry of one ASID. -/
  | invalidateAsid (die : Fin 4) (asid : Fin 8192)
  /-- R355: INVCMD op 3 invalidates every entry of every ASID. -/
  | invalidateAll (die : Fin 4)
  /-- R355: An invalidation finishes, extents are repatched and busy clears. -/
  | invalidationComplete
  /-- R351: Reading INVSTAT returns busy and clears lost. -/
  | invstatRead (die : Fin 4)
  /-- R357: A LOADREQ write queues a load descriptor for the loader. -/
  | loadRequest (die : Fin 4) (v : Word)
  /-- R351: Reading LOADSTAT returns the queue count and clears lost. -/
  | loadstatRead (die : Fin 4)
  /-- R357: The loader serves a request, binds symbols, relocates, checks and writes the load map and status. -/
  | objectLoad
  /-- R365: Writing ERTCTL en = 1 reads and checks the image and writes resident windows. -/
  | ertEnable
  /-- R365: Writing ERTCTL en = 0 waits for fetches and references to drain. -/
  | ertDisable
  /-- R365: Once idle, the ERT writes live states and hands back and clears en. -/
  | ertDisableComplete
  /-- R365: Reading ERTSTAT returns and clears the ERT error. -/
  | ertstatRead
  /-- R365: An ERTUPD write reloads one absent entry from the image. -/
  | ertUpdate (i : Fin 16384)
  /-- R368: The spinner sweeps a class for a free or evictable slot. -/
  | spinner (entry : Fin 16384)
  /-- R369: A waiting fetch enters its tier port's queue when an entry frees. -/
  | fetchQueueEnter (port : Fin 2)
  /-- R369: A fetch completes, writes the window and makes the entry resident or pinned. -/
  | fetchComplete (entry : Fin 16384)
  /-- R371: A tier source read fails, is retried and event 13 is reported. -/
  | fetchSourceError (entry : Fin 16384)
  /-- R372: A task's charged miss time passes its budget and event 12 is reported. -/
  | missBudgetExceeded (task : BitVec 32) (entry : Fin 16384)
  /-- R377: Setting MCTL EVTEN lets held event records be written. -/
  | eventEnable
  /-- R377: An event record is written to the event queue, EVTPROD advances and MSI-X 0 is raised. -/
  | eventRecordWrite
  /-- R375: Reading EVTLOST returns and clears the dropped count. -/
  | evtlostRead
  /-- R381: Setting MCTL TIEREN trains the tier ports and fills TIERRNG. -/
  | tierEnable (ranges : List TierRange)
  /-- R382: Setting MCTL LINKEN trains and enables the Nguven ports. -/
  | linkEnable (peers : List LinkPeer)
  /-- R379: Writing MCTL BOOT loads and checks the firmware image and starts every core. `fault` says that a read of the image
  faulted, `bad` which blocks the firmware found defective (R394). -/
  | boot (fault : Bool) (bad : List (Fin 4 × Fin 20))
  /-- R378: Writing MCTL RESET ends all work, resets registers and holds cores stopped. -/
  | moduleReset
  /-- R380: CORECTL bit 0 resets one core. -/
  | coreReset (c : Fin 64)
  /-- R380: CORECTL bit 1 = 1 stops the core at its next instruction boundary. -/
  | coreStop (c : Fin 64)
  /-- R380: CORECTL bit 1 = 0 restarts a stopped core at its pc. -/
  | coreRestart (c : Fin 64)
  /-- R380: A FAULTACK write ends the firmware's translation-fault wait. -/
  | faultack (c : Fin 64)
  /-- R389: A DIECLK state write starts or holds a clock change. -/
  | clockChange (die : Fin 4) (st : Fin 4)
  /-- R326: A held clock change takes effect once every bounded task fits at the new clock. -/
  | heldClockChange (die : Fin 4)
  /-- R389: A clock change completes and busy clears. -/
  | clockChangeComplete (die : Fin 4)
  /-- R392: Writing 1 to DIECLK trip clears it when the junction is below 95 °C. -/
  | tripClear (die : Fin 4) (tj : Nat)
  /-- R390: A BLKPWR write starts a block's power change, ending tasks on blocks turned off. -/
  | blockPowerChange (die : Fin 4) (v : Word)
  /-- R390: A block's power change completes and waiting tokens proceed. -/
  | blockPowerComplete (die : Fin 4) (block : Fin 20)
  /-- R386: Writing PCTL EN enables or disables an Ethernet port's transport. -/
  | portEnable (p : Fin 16) (en : Bool)
  /-- R375: A write to a register without behaviour of its own sets its value or is ignored. -/
  | registerWrite (fn : Fin 2) (off : Nat) (v : Word)
  /-- R113: A host write over CXL.mem enters the host-port path FIFO. -/
  | hostCxlWrite (addr : Nat) (bytes : List Byte)
  /-- R113: A host read over CXL.mem returns the home copy. -/
  | hostCxlRead (addr n : Nat)
  /-- R383: A Nguven port goes down and its unlanded writes are resent on another port of the mask. -/
  | nguvenPortDown (p : Fin 36)
  /-- R383: A port trains again and joins its masks. -/
  | nguvenPortUp (p : Fin 36)
  /-- R392: A junction reaches 95 °C and event 16 is reported. -/
  | thermalWarning (die : Fin 4) (tj : Nat)
  /-- R392: A junction reaches 110 °C, the die clock stops, trip sets and event 15 is reported. -/
  | thermalTrip (die : Fin 4) (tj : Nat)
  /-- R394: A CRC failure on a link is replayed and counted. -/
  | linkCrcReplay (l : LinkId)
  /-- R394: A configuration command parity failure resends the bitstream and reports event 18. -/
  | configParityRetry (die : Fin 4) (r : Fin 16)
  /-- R394: An uncorrectable error marks the granule, fails a reading task and reports event 17. -/
  | uncorrectableError (w : ErrorAt)
  /-- R387: The transport sees the send producer advance and takes a send entry. -/
  | sendPosted (p : Fin 16)
  /-- R387: The transport sees the receive producer advance and posts a receive. -/
  | receivePosted (p : Fin 16)
  /-- R385: An Ethernet packet arrives and is matched, landed or dropped. -/
  | packetArrival (p : Fin 16) (pkt : Packet)
  /-- R387: Every byte of a received message has landed and its completion entry is written. -/
  | receiveDone (p : Fin 16) (id : Nat)
  /-- R387: The peer acknowledges every packet of a send and its completion entry is written. -/
  | sendDone (p : Fin 16) (id : Nat) (reached : Bool)
  /-- R385: A send refused for want of a receive for 1 s completes with status 3. -/
  | noReceiveTimeout (p : Fin 16) (id : Nat)
  /-- R144: A fetched word with an unassigned opcode, function, sysfn, modifier, kind or mode, a nonzero reserved field, or a bad register field raises the precise illegal-instruction trap. -/
  | illegalInstruction (w : Word32)
  /-- R387: The host advances a port's completion consumer word, and the transport writes the completions it held while the completion queue was full. -/
  | completionConsumerAdvance (p : Fin 16) (v : BitVec 32)
  /-- R386: An Ethernet port's lanes train or lose training, changing PSTAT up and the lanes-trained count. -/
  | portLinkChange (p : Fin 16) (lanes : Fin 3)
  /-- R54: A barrier, end-of-run or shape token that has reached every required input is removed and forwarded on every output. -/
  | controlTokenAlign
  /-- R259: A delay node passes a token to its output after the extra latency. -/
  | dly
  /-- R226: A lane element fires, adding W64 operands with one rounding. -/
  | wAdd
  /-- R226: A lane element fires, subtracting W64 operands. -/
  | wSub
  /-- R226: A lane element fires, multiplying W64 operands. -/
  | wMul
  /-- R226: A lane element fires, forming a × b + c with one rounding. -/
  | wFma
  /-- R226: A lane element fires, taking the smaller W64 operand. -/
  | wMin
  /-- R226: A lane element fires, taking the larger W64 operand. -/
  | wMax
  /-- R226: A lane element fires, clearing the sign. -/
  | wAbs
  /-- R226: A lane element fires, inverting the sign. -/
  | wNeg
  /-- R227: A lane element fires, comparing for equality and setting a predicate. -/
  | wCmpeq
  /-- R227: A lane element fires, comparing a < b and setting a predicate. -/
  | wCmplt
  /-- R227: A lane element fires, comparing a ≤ b and setting a predicate. -/
  | wCmple
  /-- R227: A lane element fires, testing for a NaN operand and setting a predicate. -/
  | wCmpun
  /-- R228: A lane element fires, approximating 2^a at its level. -/
  | sfExp2
  /-- R228: A lane element fires, approximating log2 a. -/
  | sfLog2
  /-- R228: A lane element fires, approximating 1/a. -/
  | sfRcp
  /-- R228: A lane element fires, approximating 1/√a. -/
  | sfRsqrt
  /-- R228: A lane element fires, approximating tanh a. -/
  | sfTanh
  /-- R228: A lane element fires, approximating the logistic sigmoid. -/
  | sfSigm
  /-- R230: A lane element fires, adding multi-limb integer groups and emitting carries. -/
  | iAdd
  /-- R230: A lane element fires, adding groups with a carry-in. -/
  | iAddc
  /-- R230: A lane element fires, subtracting groups and emitting borrows. -/
  | iSub
  /-- R230: A lane element fires, subtracting groups with a borrow-in. -/
  | iSubb
  /-- R231: A lane element fires, writing low 32 bits of lane products. -/
  | iMullo
  /-- R231: A lane element fires, writing high 32 bits of lane products. -/
  | iMulhi
  /-- R232: A lane element fires, ANDing raw images. -/
  | bAnd
  /-- R232: A lane element fires, ORing raw images. -/
  | bOr
  /-- R232: A lane element fires, XORing raw images. -/
  | bXor
  /-- R232: A lane element fires, inverting raw images. -/
  | bNot
  /-- R232: A lane element fires, shifting left. -/
  | bShl
  /-- R232: A lane element fires, shifting right zero-filled. -/
  | bShr
  /-- R232: A lane element fires, shifting right sign-filled. -/
  | bSar
  /-- R232: A lane element fires, rotating left. -/
  | bRotl
  /-- R233: A lane element fires, converting signed 32-bit lanes to W64. -/
  | cvtWS32
  /-- R233: A lane element fires, converting unsigned 32-bit lanes to W64. -/
  | cvtWU32
  /-- R233: A lane element fires, rounding W64 to saturated signed 32-bit lanes. -/
  | cvtS32W
  /-- R233: A lane element fires, rounding W64 to saturated unsigned 32-bit lanes. -/
  | cvtU32W
  /-- R233: A lane element fires, rounding W64 to an integer value. -/
  | wRint
  /-- R233: A lane element fires, returning the value an FP32 store would write. -/
  | qFp32
  /-- R233: A lane element fires, returning the value a BF16 store would write. -/
  | qBf16
  /-- R233: A lane element fires, returning the value an FP16 store would write. -/
  | qFp16
  /-- R233: A lane element fires, returning the value an E5M2 store would write. -/
  | qE5m2
  /-- R233: A lane element fires, returning the value an E4M3 store would write. -/
  | qE4m3
  /-- R234: A lane element fires, moving positions up by n. -/
  | lnUp
  /-- R234: A lane element fires, moving positions down by n. -/
  | lnDown
  /-- R234: A lane element fires, shuffling positions by its table. -/
  | lnShuf
  /-- R234: A lane element fires, broadcasting one position. -/
  | lnBcast
  /-- R235: A lane element fires, summing a payload by the fixed tree. -/
  | redAdd
  /-- R235: A lane element fires, taking a payload's minimum. -/
  | redMin
  /-- R235: A lane element fires, taking a payload's maximum. -/
  | redMax
  /-- R236: A lane element fires, compressing selected live positions. -/
  | vpack
  /-- R236: A lane element fires, expanding values into selected positions. -/
  | vunpack
  /-- R238: An exact-reduce head fires, adding each live value into the 320-bit accumulator. -/
  | xacc
  /-- R237: A limb element takes a carry token and forwards the chain's carries. -/
  | xaccLimb
  /-- R239: After an aligned barrier or end-of-run, the chain emits the rounded sum and flags and resets. -/
  | xaccRead
  /-- R243: A memory element fires, adding an affine load to the pending set. -/
  | memLd
  /-- R243: A memory element fires, adding an affine store to the pending set. -/
  | memSt
  /-- R243: A memory element fires, adding an indexed load to the pending set. -/
  | memLdx
  /-- R243: A memory element fires, adding an indexed store to the pending set. -/
  | memStx
  /-- R244: A fabric access performs and its element emits its row and completion token. -/
  | memoryElementPerformed
  /-- R253: A full accumulator is drained as tokens under the latched shape and its tag becomes empty or open. -/
  | tdrain
  /-- R256: The matrix array fires, adding one firing's k range of A·Bᵀ into an accumulator. -/
  | mma
  /-- R258: The matrix array fires a decayed recurrence pass with a feedback token. -/
  | mrec
  /-- R261: A fork copies its input head to both outputs. -/
  | fork
  /-- R261: A join consumes aligned heads and passes inputs 0 and 1 on. -/
  | join
  /-- R262: An AND join fires, early once settled, sending takebacks up absent inputs. -/
  | ejoinAnd
  /-- R262: An OR join fires, early once settled, sending takebacks up absent inputs. -/
  | ejoinOr
  /-- R262: A select join fires when selector and chosen input are present. -/
  | ejoinSel
  /-- R263: A steer emits its data head on the output its predicate chooses. -/
  | steer
  /-- R267: A steer.ert fires, sending a residency probe for its expert key. -/
  | steerErt
  /-- R267: A probe answer returns and the steer.ert emits the row or ticket by the state found. -/
  | steerErtAnswer
  /-- R265: A merge moves heads into its reorder window and emits in seq order. -/
  | merge
  /-- R266: A round-robin merge emits the next ready input's head. -/
  | mergeRr
  /-- R261: A gate copies its input or skips to null on a failed predicate. -/
  | gate
  /-- R261: A sink consumes every token. -/
  | sink
  /-- R268: A tournament element merges ranked candidate lists and emits the top k. -/
  | cfwd
  /-- R269: A rank.k consumes a vector and sends a ranking request to a ladder. -/
  | rankK
  /-- R269: rank.k receives the ladder's reply and emits index and count tokens. -/
  | rankKReply
  /-- R270: rank.apply weights rows of W by rank into an accumulator row. -/
  | rankApply
  /-- R271: rkval rebuilds a dense vector from a ranked run. -/
  | rkval
  /-- R272: A converter tile decodes a CB2 row into weight tokens. -/
  | cbdec
  /-- R196: A load stream emits a row token, with any barrier or end-of-run, when the port has a credit. -/
  | streamRowEmit
  /-- R197: A store stream takes the head token of its vo port and writes, skips or finishes. -/
  | storeStreamTake
  /-- R117: A resume token at a port lets its withheld access perform once. -/
  | resumeToken
  /-- R344: A token waits at a gated tile longer than WAKELIM and event 8 is reported. -/
  | wakeWatchdog
  /-- R267: A probe reaches the ERT and takes a reference, parks or requests a fetch. -/
  | steerProbe
  /-- R267: A release token lowers its key's reference count. -/
  | ertRelease
  /-- R308: A parked row leaves its parking queue once its entry is resident. -/
  | parkedRowReplay
  deriving DecidableEq, Repr

end Sys2Proof
end

