-- ==== Sys2Proof/WellFormed.lean ====
section
/-!
DEFINITION. Which instruction terms have an encoding: the checks of R129, R133, R137, R143, R144 and R211 that the operand types
do not carry.
-/
namespace Sys2Proof

/-- A register field that names a queue-mapped register has its upper bits zero (R129). -/
def qField (q : Bool) (r : Reg) : Bool := !q || decide (r.val < 8)

def Rrr.ok (o : Rrr) : Bool := qField o.qa o.a && qField o.qb o.b && qField o.qd o.d
def Unary.ok (o : Unary) : Bool := qField o.qa o.a && qField o.qd o.d
def PCmp.ok (o : PCmp) : Bool := qField o.qa o.a && qField o.qb o.b

/-- The registers that software may write (R166); a write that names another is an unassigned encoding. -/
def SysReg.writable : SysReg → Bool
  | .status | .trappc | .asid | .wid => true
  | .cause | .badaddr | .prio | .tags | .widw => false

/-- The kinds whose request has no second register (R211). -/
def ShapeKind.oneRegister : ShapeKind → Bool
  | .vec | .rank => true
  | .fp8 | .e2m1 | .bf16 => false

/-- A core instruction word with every field condition of R144 met. Rows that have no instruction word of the core (steps and
events, configuration commands) and the illegal words answer false. -/
def Instr.wellFormed : Instr → Bool
  | .add o | .sub o | .and o | .or o | .xor o | .andn o | .shl o | .shr o | .sar o | .rotl o | .min o | .max o | .minu o
  | .maxu o | .addw o | .subw o | .mul o | .mulh o | .mulhu o | .div o | .divu o | .rem o | .remu o
  | .ceq o | .cne o | .clt o | .cltu o | .cle o | .cleu o | .sel o _ => o.ok
  | .clz o | .ctz o | .popc o => o.ok
  | .peq o | .pne o | .plt o | .pltu o | .ple o | .pleu o => o.ok
  | .ptst _ a qa => qField qa a
  | .pget d qd _ => qField qd d
  | .lda _ _ size u _ => !(u && decide (size = .d))
  | .shape _ _ b kind => !kind.oneRegister || decide (b.val = 0)
  | .mtsr r _ => r.writable
  | .pand .. | .por .. | .pxor .. | .pandn .. | .pnot .. | .qpush .. | .qpop .. | .qlvl .. | .accrd .. | .accrst ..
  | .stl .. | .amoAdd .. | .amoMin .. | .amoMax .. | .amoSwap .. | .amoCas .. | .amoAnd .. | .amoOr .. | .jalr .. | .sbar ..
  | .twaitAny .. | .twaitAll .. | .tfind .. | .tclr .. | .qfence .. | .shpub .. | .cfgCmt | .resume .. | .addi .. | .andi ..
  | .ori .. | .xori .. | .slti .. | .sltiu .. | .shli .. | .shri .. | .sari .. | .lui .. | .lih .. | .ldb .. | .ldbu ..
  | .ldh .. | .ldhu .. | .ldw .. | .ldwu .. | .ldd .. | .stb .. | .sth .. | .stw .. | .std .. | .beq .. | .bne .. | .blt ..
  | .bge .. | .bltu .. | .bgeu .. | .bpt .. | .bpf .. | .j .. | .jal .. | .strmLd .. | .strmSt .. | .strmGth .. | .strmSct ..
  | .cpy .. | .cpy2d .. | .collAr .. | .collAg .. | .collRs .. | .collBc .. | .collA2a .. | .flm .. | .enq .. | .cfgLd ..
  | .ertPin .. | .ertProbe .. | .ertEvict .. | .trap .. | .eret | .mfsr .. | .fence .. | .wait .. | .halt => true
  | .waitTimeout .. | .asyncTrap .. | .configWrite .. | .configExtend .. | .beginCmd .. | .commit | .selectRegion ..
  | .bankQuiesce .. | .tokenCrossing .. | .takebackStage .. | .takebackAtElement .. | .tslot .. | .tileFillComplete ..
  | .ladderServe .. | .commandBegin .. | .commandCompletion .. | .collectiveMatch .. | .readPerform ..
  | .writePerform .. | .pathHead .. | .landingPortLand .. | .rdcDrop .. | .releasePerform .. | .atomicPerform ..
  | .tfuPin .. | .tfuSnapshot .. | .faultCheckpoint .. | .spillRefill .. | .tquSelect .. | .regionLoad ..
  | .taskRetire .. | .taskcmdDrain .. | .taskcmdFreezeSave .. | .taskcmdEnd .. | .taskcmdRelease ..
  | .taskcmdFaultServiced .. | .drainComplete .. | .drainTimeout .. | .freezeSaveComplete .. | .contextSaveRetry ..
  | .portresPort .. | .portresQueue .. | .tqResume .. | .tqerrRead .. | .invalidateRange .. | .invalidateAsid ..
  | .invalidateAll .. | .invalidationComplete | .invstatRead .. | .loadRequest .. | .loadstatRead .. | .objectLoad
  | .ertEnable | .ertDisable | .ertDisableComplete | .ertstatRead | .ertUpdate .. | .spinner .. | .fetchQueueEnter ..
  | .fetchComplete .. | .fetchSourceError .. | .missBudgetExceeded .. | .eventEnable | .eventRecordWrite
  | .evtlostRead | .tierEnable .. | .linkEnable .. | .boot .. | .moduleReset | .coreReset .. | .coreStop ..
  | .coreRestart .. | .faultack .. | .clockChange .. | .heldClockChange .. | .clockChangeComplete .. | .tripClear ..
  | .blockPowerChange .. | .blockPowerComplete .. | .portEnable .. | .registerWrite .. | .hostCxlWrite ..
  | .hostCxlRead .. | .nguvenPortDown .. | .nguvenPortUp .. | .thermalWarning .. | .thermalTrip .. | .linkCrcReplay ..
  | .configParityRetry .. | .uncorrectableError .. | .sendPosted .. | .receivePosted .. | .packetArrival ..
  | .receiveDone .. | .sendDone .. | .noReceiveTimeout .. | .illegalInstruction .. | .completionConsumerAdvance ..
  | .portLinkChange .. | .controlTokenAlign | .dly | .wAdd | .wSub | .wMul | .wFma | .wMin | .wMax | .wAbs | .wNeg
  | .wCmpeq | .wCmplt | .wCmple | .wCmpun | .sfExp2 | .sfLog2 | .sfRcp | .sfRsqrt | .sfTanh | .sfSigm | .iAdd | .iAddc
  | .iSub | .iSubb | .iMullo | .iMulhi | .bAnd | .bOr | .bXor | .bNot | .bShl | .bShr | .bSar | .bRotl | .cvtWS32
  | .cvtWU32 | .cvtS32W | .cvtU32W | .wRint | .qFp32 | .qBf16 | .qFp16 | .qE5m2 | .qE4m3 | .lnUp | .lnDown | .lnShuf
  | .lnBcast | .redAdd | .redMin | .redMax | .vpack | .vunpack | .xacc | .xaccLimb | .xaccRead | .memLd | .memSt
  | .memLdx | .memStx | .memoryElementPerformed | .tdrain | .mma | .mrec | .fork | .join | .ejoinAnd | .ejoinOr
  | .ejoinSel | .steer | .steerErt | .steerErtAnswer | .merge | .mergeRr | .gate | .sink | .cfwd | .rankK
  | .rankKReply | .rankApply | .rkval | .cbdec | .streamRowEmit | .storeStreamTake | .resumeToken | .wakeWatchdog
  | .steerProbe | .ertRelease | .parkedRowReplay => false

/-- A configuration command with every field condition of R147 met that one word can show. -/
def Instr.wellFormedConfig : Instr → Bool
  | .configWrite .. | .configExtend .. | .commit | .selectRegion .. => true
  | .beginCmd _ w h => decide (1 ≤ w.val) && decide (w.val ≤ 4) && decide (1 ≤ h.val) && decide (h.val ≤ 5)
  | .bankQuiesce x y all => !all || (decide (x.val = 0) && decide (y.val = 0))
  | .add .. | .sub .. | .and .. | .or .. | .xor .. | .andn .. | .shl .. | .shr .. | .sar .. | .rotl .. | .min ..
  | .max .. | .minu .. | .maxu .. | .clz .. | .ctz .. | .popc .. | .addw .. | .subw .. | .mul .. | .mulh ..
  | .mulhu .. | .div .. | .divu .. | .rem .. | .remu .. | .ceq .. | .cne .. | .clt .. | .cltu .. | .cle .. | .cleu ..
  | .peq .. | .pne .. | .plt .. | .pltu .. | .ple .. | .pleu .. | .sel .. | .pand .. | .por .. | .pxor .. | .pandn ..
  | .pnot .. | .ptst .. | .pget .. | .qpush .. | .qpop .. | .qlvl .. | .accrd .. | .accrst .. | .lda .. | .stl ..
  | .amoAdd .. | .amoMin .. | .amoMax .. | .amoSwap .. | .amoCas .. | .amoAnd .. | .amoOr .. | .jalr .. | .sbar ..
  | .twaitAny .. | .twaitAll .. | .tfind .. | .tclr .. | .qfence .. | .shape .. | .shpub .. | .cfgCmt | .resume ..
  | .addi .. | .andi .. | .ori .. | .xori .. | .slti .. | .sltiu .. | .shli .. | .shri .. | .sari .. | .lui ..
  | .lih .. | .ldb .. | .ldbu .. | .ldh .. | .ldhu .. | .ldw .. | .ldwu .. | .ldd .. | .stb .. | .sth .. | .stw ..
  | .std .. | .beq .. | .bne .. | .blt .. | .bge .. | .bltu .. | .bgeu .. | .bpt .. | .bpf .. | .j .. | .jal ..
  | .strmLd .. | .strmSt .. | .strmGth .. | .strmSct .. | .cpy .. | .cpy2d .. | .collAr .. | .collAg .. | .collRs ..
  | .collBc .. | .collA2a .. | .flm .. | .enq .. | .cfgLd .. | .ertPin .. | .ertProbe .. | .ertEvict .. | .trap ..
  | .eret | .mfsr .. | .mtsr .. | .fence .. | .wait .. | .halt | .waitTimeout .. | .asyncTrap .. | .tokenCrossing ..
  | .takebackStage .. | .takebackAtElement .. | .tslot .. | .tileFillComplete .. | .ladderServe .. | .commandBegin ..
  | .commandCompletion .. | .collectiveMatch .. | .readPerform .. | .writePerform .. | .pathHead ..
  | .landingPortLand .. | .rdcDrop .. | .releasePerform .. | .atomicPerform .. | .tfuPin .. | .tfuSnapshot ..
  | .faultCheckpoint .. | .spillRefill .. | .tquSelect .. | .regionLoad .. | .taskRetire .. | .taskcmdDrain ..
  | .taskcmdFreezeSave .. | .taskcmdEnd .. | .taskcmdRelease .. | .taskcmdFaultServiced .. | .drainComplete ..
  | .drainTimeout .. | .freezeSaveComplete .. | .contextSaveRetry .. | .portresPort .. | .portresQueue ..
  | .tqResume .. | .tqerrRead .. | .invalidateRange .. | .invalidateAsid .. | .invalidateAll ..
  | .invalidationComplete | .invstatRead .. | .loadRequest .. | .loadstatRead .. | .objectLoad | .ertEnable
  | .ertDisable | .ertDisableComplete | .ertstatRead | .ertUpdate .. | .spinner .. | .fetchQueueEnter ..
  | .fetchComplete .. | .fetchSourceError .. | .missBudgetExceeded .. | .eventEnable | .eventRecordWrite
  | .evtlostRead | .tierEnable .. | .linkEnable .. | .boot .. | .moduleReset | .coreReset .. | .coreStop ..
  | .coreRestart .. | .faultack .. | .clockChange .. | .heldClockChange .. | .clockChangeComplete .. | .tripClear ..
  | .blockPowerChange .. | .blockPowerComplete .. | .portEnable .. | .registerWrite .. | .hostCxlWrite ..
  | .hostCxlRead .. | .nguvenPortDown .. | .nguvenPortUp .. | .thermalWarning .. | .thermalTrip .. | .linkCrcReplay ..
  | .configParityRetry .. | .uncorrectableError .. | .sendPosted .. | .receivePosted .. | .packetArrival ..
  | .receiveDone .. | .sendDone .. | .noReceiveTimeout .. | .illegalInstruction .. | .completionConsumerAdvance ..
  | .portLinkChange .. | .controlTokenAlign | .dly | .wAdd | .wSub | .wMul | .wFma | .wMin | .wMax | .wAbs | .wNeg
  | .wCmpeq | .wCmplt | .wCmple | .wCmpun | .sfExp2 | .sfLog2 | .sfRcp | .sfRsqrt | .sfTanh | .sfSigm | .iAdd | .iAddc
  | .iSub | .iSubb | .iMullo | .iMulhi | .bAnd | .bOr | .bXor | .bNot | .bShl | .bShr | .bSar | .bRotl | .cvtWS32
  | .cvtWU32 | .cvtS32W | .cvtU32W | .wRint | .qFp32 | .qBf16 | .qFp16 | .qE5m2 | .qE4m3 | .lnUp | .lnDown | .lnShuf
  | .lnBcast | .redAdd | .redMin | .redMax | .vpack | .vunpack | .xacc | .xaccLimb | .xaccRead | .memLd | .memSt
  | .memLdx | .memStx | .memoryElementPerformed | .tdrain | .mma | .mrec | .fork | .join | .ejoinAnd | .ejoinOr
  | .ejoinSel | .steer | .steerErt | .steerErtAnswer | .merge | .mergeRr | .gate | .sink | .cfwd | .rankK
  | .rankKReply | .rankApply | .rkval | .cbdec | .streamRowEmit | .storeStreamTake | .resumeToken | .wakeWatchdog
  | .steerProbe | .ertRelease | .parkedRowReplay => false

end Sys2Proof
end

