-- ==== Sys2Proof/Decode.lean ====
section
/-!
DEFINITION. The decoder of the core's instruction words (R127 to R144) and of the configuration commands (R145 to R147), and an
encoder written from the same tables. Words are read as natural numbers below 2^32.
-/
namespace Sys2Proof

/-- Why a word raises the illegal-instruction trap (R144), or why a configuration command is malformed (R147). -/
inductive IllegalReason where
  | unassignedOpcode | unassignedFunction | reservedField | registerField | unassignedScope | unwritableRegister
  | malformedCommand
  deriving DecidableEq, Repr

abbrev Decoded := Except IllegalReason Instr

/-- The `n`-bit field of `w` whose lowest bit is `lo`. -/
def field (w lo n : Nat) : Nat := w / 2 ^ lo % 2 ^ n

/-- A field that numbers a register or a tag. -/
def fin (k : Nat) (h : 0 < k) (v : Nat) : Fin k := ⟨v % k, Nat.mod_lt _ h⟩

def fieldD (w : Nat) : Reg := fin 32 (by decide) (field w 21 5)
def fieldA (w : Nat) : Reg := fin 32 (by decide) (field w 16 5)
def fieldB (w : Nat) : Reg := fin 32 (by decide) (field w 11 5)
def fieldTag (w : Nat) : Tag := fin 64 (by decide) (field w 5 6)
def imm16 (w : Nat) : BitVec 16 := BitVec.ofNat 16 (field w 0 16)
def bit (w i : Nat) : Bool := decide (field w i 1 = 1)

/-- Accepts `i` when the field condition holds. -/
def guardField (c : Bool) (r : IllegalReason) (i : Instr) : Decoded := if c then .ok i else .error r

/-- A small register file's index in a 5-bit field (R129). -/
def small (r : Reg) (k : Fin 8 → Decoded) : Decoded :=
  if r.val < 8 then k (fin 8 (by decide) r.val) else .error .registerField

def decodeScope (v : Nat) (k : Scope → Decoded) : Decoded :=
  match v with
  | 0 => k .region
  | 1 => k .die
  | 2 => k .device
  | 3 => k .domain
  | 4 => k .system
  | _ => .error .unassignedScope

def rrr (w : Nat) : Rrr :=
  { d := fieldD w, a := fieldA w, b := fieldB w, qa := bit w 10, qb := bit w 9, qd := bit w 8 }
def unary (w : Nat) : Unary := { d := fieldD w, a := fieldA w, qa := bit w 10, qd := bit w 8 }
def pcmp (w : Nat) : PCmp :=
  { p := fin 8 (by decide) (field w 0 3), a := fieldA w, b := fieldB w, qa := bit w 10, qb := bit w 9 }

def withRrr (w : Nat) (k : Rrr → Instr) : Decoded := guardField (rrr w).ok .registerField (k (rrr w))
def withUnary (w : Nat) (k : Unary → Instr) : Decoded :=
  if field w 11 5 = 0 ∧ bit w 9 = false then guardField (unary w).ok .registerField (k (unary w)) else .error .reservedField

/-- ALU, op 0x00 (R133). -/
def decodeAlu (w : Nat) : Decoded :=
  match field w 0 8 with
  | 0x00 => withRrr w .add
  | 0x01 => withRrr w .sub
  | 0x02 => withRrr w .and
  | 0x03 => withRrr w .or
  | 0x04 => withRrr w .xor
  | 0x05 => withRrr w .andn
  | 0x06 => withRrr w .shl
  | 0x07 => withRrr w .shr
  | 0x08 => withRrr w .sar
  | 0x09 => withRrr w .rotl
  | 0x0A => withRrr w .min
  | 0x0B => withRrr w .max
  | 0x0C => withRrr w .minu
  | 0x0D => withRrr w .maxu
  | 0x0E => withUnary w .clz
  | 0x0F => withUnary w .ctz
  | 0x10 => withUnary w .popc
  | 0x11 => withRrr w .addw
  | 0x12 => withRrr w .subw
  | _ => .error .unassignedFunction

/-- MULDIV, op 0x01 (R134). -/
def decodeMulDiv (w : Nat) : Decoded :=
  match field w 0 8 with
  | 0 => withRrr w .mul
  | 1 => withRrr w .mulh
  | 2 => withRrr w .mulhu
  | 3 => withRrr w .div
  | 4 => withRrr w .divu
  | 5 => withRrr w .rem
  | 6 => withRrr w .remu
  | _ => .error .unassignedFunction

/-- A compare into a register: fn 2:0 is zero (R135). -/
def withCmp (w : Nat) (k : Rrr → Instr) : Decoded := if field w 0 3 = 0 then withRrr w k else .error .reservedField

/-- A compare into a predicate: d = 0 and qd = 0 (R135). -/
def withPCmp (w : Nat) (k : PCmp → Instr) : Decoded :=
  if field w 21 5 = 0 ∧ bit w 8 = false then guardField (pcmp w).ok .registerField (k (pcmp w)) else .error .reservedField

/-- A function of two predicates (R135). -/
def withPreds (w : Nat) (k : PReg → PReg → PReg → Instr) : Decoded :=
  if field w 21 5 = 0 ∧ field w 8 3 = 0 then
    small (fieldA w) fun a => small (fieldB w) fun b => .ok (k (fin 8 (by decide) (field w 0 3)) a b)
  else .error .reservedField

/-- CMPSEL, op 0x02 (R135). A q bit beside a register field that the form does not take makes the word illegal (log 121). -/
def decodeCmpSel (w : Nat) : Decoded :=
  match field w 3 5 with
  | 0 => withCmp w .ceq
  | 1 => withCmp w .cne
  | 2 => withCmp w .clt
  | 3 => withCmp w .cltu
  | 4 => withCmp w .cle
  | 5 => withCmp w .cleu
  | 8 => withPCmp w .peq
  | 9 => withPCmp w .pne
  | 10 => withPCmp w .plt
  | 11 => withPCmp w .pltu
  | 12 => withPCmp w .ple
  | 13 => withPCmp w .pleu
  | 16 => withRrr w fun o => .sel o (fin 8 (by decide) (field w 0 3))
  | 17 => withPreds w .pand
  | 18 => withPreds w .por
  | 19 => withPreds w .pxor
  | 20 => withPreds w .pandn
  | 21 =>
    if field w 21 5 = 0 ∧ field w 8 3 = 0 ∧ field w 11 5 = 0 then
      small (fieldA w) fun a => .ok (.pnot (fin 8 (by decide) (field w 0 3)) a)
    else .error .reservedField
  | 22 =>
    if field w 21 5 = 0 ∧ field w 8 2 = 0 ∧ field w 11 5 = 0 then
      guardField (qField (bit w 10) (fieldA w)) .registerField
        (.ptst (fin 8 (by decide) (field w 0 3)) (fieldA w) (bit w 10))
    else .error .reservedField
  | 23 =>
    if field w 16 5 = 0 ∧ field w 9 2 = 0 ∧ field w 11 5 = 0 then
      guardField (qField (bit w 8) (fieldD w)) .registerField
        (.pget (fieldD w) (bit w 8) (fin 8 (by decide) (field w 0 3)))
    else .error .reservedField
  | _ => .error .unassignedFunction

/-- PORT, op 0x03 (R136). -/
def decodePort (w : Nat) : Decoded :=
  match field w 0 11 with
  | 0 => if field w 11 5 = 0 then small (fieldD w) fun q => .ok (.qpush q (fieldA w)) else .error .reservedField
  | 1 => if field w 11 5 = 0 then small (fieldA w) fun q => .ok (.qpop (fieldD w) q) else .error .reservedField
  | 2 => if field w 11 5 = 0 then small (fieldA w) fun q => .ok (.qlvl (fieldD w) q) else .error .reservedField
  | 3 => .ok (.accrd (fieldD w) (fieldA w) (fieldB w))
  | 4 => guardField (decide (field w 11 5 = 0 ∧ field w 21 5 = 0)) .reservedField (.accrst (fieldA w))
  | _ => .error .unassignedFunction

def decodeSize (v : Nat) : Size :=
  match v with
  | 0 => .b
  | 1 => .h
  | 2 => .w
  | _ => .d

/-- MEMORD, op 0x04 (R137). -/
def decodeMemOrd (w : Nat) : Decoded :=
  match field w 8 3 with
  | 0 =>
    if field w 11 5 = 0 ∧ field w 0 2 = 0 then
      decodeScope (field w 2 3) fun sc =>
        guardField (!(bit w 5 && decide (decodeSize (field w 6 2) = .d))) .reservedField
          (.lda (fieldD w) (fieldA w) (decodeSize (field w 6 2)) (bit w 5) sc)
    else .error .reservedField
  | 1 =>
    if field w 21 5 = 0 ∧ field w 0 2 = 0 ∧ bit w 5 = false then
      decodeScope (field w 2 3) fun sc => .ok (.stl (fieldA w) (fieldB w) (decodeSize (field w 6 2)) sc)
    else .error .reservedField
  | _ => .error .unassignedFunction

def withAmo (w : Nat) (k : Amo → Instr) : Decoded :=
  if field w 0 2 = 0 then
    decodeScope (field w 2 3) fun sc =>
      .ok (k { d := fieldD w, a := fieldA w, b := fieldB w, dbl := bit w 7, acq := bit w 6, rel := bit w 5, scope := sc })
  else .error .reservedField

/-- ATOM, op 0x05 (R138). -/
def decodeAtom (w : Nat) : Decoded :=
  match field w 8 3 with
  | 0 => withAmo w .amoAdd
  | 1 => withAmo w .amoMin
  | 2 => withAmo w .amoMax
  | 3 => withAmo w .amoSwap
  | 4 => withAmo w .amoCas
  | 5 => withAmo w .amoAnd
  | 6 => withAmo w .amoOr
  | _ => .error .unassignedFunction

/-- JR, op 0x06 (R139). -/
def decodeJr (w : Nat) : Decoded :=
  match field w 0 11 with
  | 0 => guardField (decide (field w 11 5 = 0)) .reservedField (.jalr (fieldD w) (fieldA w))
  | _ => .error .unassignedFunction

/-- A STRC word of one source register: d, b and the modifier are unused (R140). -/
def onlyA (w : Nat) (k : Reg → Instr) : Decoded :=
  guardField (decide (field w 21 5 = 0 ∧ field w 11 5 = 0 ∧ field w 0 4 = 0)) .reservedField (k (fieldA w))

def decodeShapeKind (v : Nat) (k : ShapeKind → Decoded) : Decoded :=
  match v with
  | 0 => k .vec
  | 1 => k .fp8
  | 2 => k .e2m1
  | 3 => k .bf16
  | 4 => k .rank
  | _ => .error .unassignedFunction

/-- STRC, op 0x07 (R140). -/
def decodeStrc (w : Nat) : Decoded :=
  match field w 4 7 with
  | 0 => onlyA w .sbar
  | 1 => onlyA w .twaitAny
  | 2 => onlyA w .twaitAll
  | 3 =>
    guardField (decide (field w 11 5 = 0 ∧ field w 0 4 = 0)) .reservedField (.tfind (fieldD w) (fieldA w))
  | 4 => onlyA w .tclr
  | 5 => onlyA w .qfence
  | 6 =>
    decodeShapeKind (field w 0 4) fun kind => small (fieldD w) fun sh =>
      guardField (!kind.oneRegister || decide ((fieldB w).val = 0)) .reservedField (.shape sh (fieldA w) (fieldB w) kind)
  | 7 =>
    if field w 11 5 = 0 ∧ field w 0 4 = 0 then small (fieldD w) fun sh => .ok (.shpub sh (fieldA w))
    else .error .reservedField
  | 8 =>
    guardField (decide (field w 21 5 = 0 ∧ field w 16 5 = 0 ∧ field w 11 5 = 0 ∧ field w 0 4 = 0)) .reservedField .cfgCmt
  | 9 => onlyA w .resume
  | _ => .error .unassignedFunction

/-- A shift by an immediate: imm16 bits 15:6 are zero (R132). -/
def withShift (w : Nat) (k : Reg → Reg → Fin 64 → Instr) : Decoded :=
  guardField (decide (field w 6 10 = 0)) .reservedField (k (fieldD w) (fieldA w) (fin 64 (by decide) (field w 0 6)))

def withImm (w : Nat) (k : Reg → Reg → BitVec 16 → Instr) : Decoded := .ok (k (fieldD w) (fieldA w) (imm16 w))

/-- A stream command: flags 4:2 are zero (R142). -/
def withStrm (w : Nat) (k : Strm → Instr) : Decoded :=
  guardField (decide (field w 2 3 = 0)) .reservedField
    (k { port := fieldD w, base := fieldA w, count := fieldB w, tag := fieldTag w, nt := bit w 1, append := bit w 0 })

def decodeMode (v : Nat) (k : CollMode → Decoded) : Decoded :=
  match v with
  | 0 => k .fast
  | 1 => k .canonical
  | 2 => k .exact
  | _ => .error .unassignedFunction

/-- coll, op 0x38 (R142). -/
def decodeColl (w : Nat) : Decoded :=
  small (fieldD w) fun q => decodeMode (field w 0 2) fun m =>
    match field w 2 3 with
    | 0 => .ok (.collAr q (fieldA w) (fieldB w) (fieldTag w) m)
    | 1 => .ok (.collAg q (fieldA w) (fieldB w) (fieldTag w) m)
    | 2 => .ok (.collRs q (fieldA w) (fieldB w) (fieldTag w) m)
    | 3 => .ok (.collBc q (fieldA w) (fieldB w) (fieldTag w) m)
    | 4 => .ok (.collA2a q (fieldA w) (fieldB w) (fieldTag w) m)
    | _ => .error .unassignedFunction

/-- ert, op 0x3C (R142, R217). -/
def decodeErt (w : Nat) : Decoded :=
  if field w 2 3 = 0 then
    match field w 0 2 with
    | 0 => .ok (.ertPin (fieldD w) (fieldA w) (fieldB w) (fieldTag w))
    | 1 => guardField (decide (field w 11 5 = 0)) .reservedField (.ertProbe (fieldD w) (fieldA w) (fieldTag w))
    | 2 => guardField (decide (field w 11 5 = 0)) .reservedField (.ertEvict (fieldD w) (fieldA w) (fieldTag w))
    | _ => .error .unassignedFunction
  else .error .reservedField

def decodeSysReg (v : Nat) (k : SysReg → Decoded) : Decoded :=
  match v with
  | 0 => k .status
  | 1 => k .cause
  | 2 => k .trappc
  | 3 => k .badaddr
  | 4 => k .asid
  | 5 => k .prio
  | 6 => k .tags
  | 7 => k .wid
  | 8 => k .widw
  | _ => .error .unassignedFunction

/-- SYS, op 0x3F (R141). -/
def decodeSys (w : Nat) : Decoded :=
  match field w 12 4 with
  | 0 =>
    guardField (decide (field w 16 10 = 0)) .reservedField (.trap (fin 4096 (by decide) (field w 0 12)))
  | 1 => guardField (decide (field w 16 10 = 0 ∧ field w 0 12 = 0)) .reservedField .eret
  | 2 =>
    if field w 16 5 = 0 then decodeSysReg (field w 0 12) fun r => .ok (.mfsr (fieldD w) r) else .error .reservedField
  | 3 =>
    if field w 21 5 = 0 then
      decodeSysReg (field w 0 12) fun r => guardField r.writable .unwritableRegister (.mtsr r (fieldA w))
    else .error .reservedField
  | 4 =>
    if field w 16 10 = 0 ∧ field w 0 9 = 0 then decodeScope (field w 9 3) fun sc => .ok (.fence sc)
    else .error .reservedField
  | 5 =>
    if field w 0 9 = 0 then decodeScope (field w 9 3) fun sc => .ok (.wait (fieldD w) (fieldA w) sc)
    else .error .reservedField
  | 6 => guardField (decide (field w 16 10 = 0 ∧ field w 0 12 = 0)) .reservedField .halt
  | _ => .error .unassignedFunction

/-- The major opcode map (R132). -/
def decodeNat (w : Nat) : Decoded :=
  match field w 26 6 with
  | 0x00 => decodeAlu w
  | 0x01 => decodeMulDiv w
  | 0x02 => decodeCmpSel w
  | 0x03 => decodePort w
  | 0x04 => decodeMemOrd w
  | 0x05 => decodeAtom w
  | 0x06 => decodeJr w
  | 0x07 => decodeStrc w
  | 0x08 => withImm w .addi
  | 0x09 => withImm w .andi
  | 0x0A => withImm w .ori
  | 0x0B => withImm w .xori
  | 0x0C => withImm w .slti
  | 0x0D => withImm w .sltiu
  | 0x0E => withShift w .shli
  | 0x0F => withShift w .shri
  | 0x10 => withShift w .sari
  | 0x11 => guardField (decide (field w 16 5 = 0)) .reservedField (.lui (fieldD w) (imm16 w))
  | 0x12 =>
    guardField (decide (field w 18 3 = 0)) .reservedField (.lih (fieldD w) (fin 4 (by decide) (field w 16 2)) (imm16 w))
  | 0x18 => withImm w .ldb
  | 0x19 => withImm w .ldbu
  | 0x1A => withImm w .ldh
  | 0x1B => withImm w .ldhu
  | 0x1C => withImm w .ldw
  | 0x1D => withImm w .ldwu
  | 0x1E => withImm w .ldd
  | 0x20 => withImm w .stb
  | 0x21 => withImm w .sth
  | 0x22 => withImm w .stw
  | 0x23 => withImm w .std
  | 0x28 => withImm w .beq
  | 0x29 => withImm w .bne
  | 0x2A => withImm w .blt
  | 0x2B => withImm w .bge
  | 0x2C => withImm w .bltu
  | 0x2D => withImm w .bgeu
  | 0x2E =>
    if field w 16 5 = 0 then small (fieldD w) fun p => .ok (.bpt p (imm16 w)) else .error .reservedField
  | 0x2F =>
    if field w 16 5 = 0 then small (fieldD w) fun p => .ok (.bpf p (imm16 w)) else .error .reservedField
  | 0x30 => .ok (.j (BitVec.ofNat 26 (field w 0 26)))
  | 0x31 => .ok (.jal (BitVec.ofNat 26 (field w 0 26)))
  | 0x32 => withStrm w .strmLd
  | 0x33 => withStrm w .strmSt
  | 0x34 => withStrm w .strmGth
  | 0x35 => withStrm w .strmSct
  | 0x36 =>
    if field w 0 5 = 0 then small (fieldD w) fun q => .ok (.cpy q (fieldA w) (fieldB w) (fieldTag w))
    else .error .reservedField
  | 0x37 =>
    if field w 0 5 = 0 then small (fieldD w) fun q => .ok (.cpy2d q (fieldA w) (fieldB w) (fieldTag w))
    else .error .reservedField
  | 0x38 => decodeColl w
  | 0x39 =>
    if field w 24 2 = 0 ∧ field w 11 5 = 0 ∧ field w 0 5 = 0 then
      decodeScope (field w 21 3) fun sc => .ok (.flm sc (fieldA w) (fieldTag w))
    else .error .reservedField
  | 0x3A => guardField (decide (field w 0 5 = 0)) .reservedField (.enq (fieldD w) (fieldA w) (fieldB w) (fieldTag w))
  | 0x3B =>
    guardField (decide (field w 21 5 = 0 ∧ field w 1 4 = 0)) .reservedField
      (.cfgLd (fieldA w) (fieldB w) (fieldTag w) (bit w 0))
  | 0x3C => decodeErt w
  | 0x3F => decodeSys w
  | _ => .error .unassignedOpcode

/-- A word of the core: its instruction, or the reason why it is illegal (R144). -/
def decode? (w : Word32) : Decoded := decodeNat w.toNat

/-- What the core runs for a fetched word: an illegal word is the step ILLEGAL_INSTRUCTION (R144). -/
def decode (w : Word32) : Instr :=
  match decode? w with
  | .ok i => i
  | .error _ => .illegalInstruction w

/-- A configuration command (R145, R147). -/
def decodeConfigNat (w : Nat) : Decoded :=
  match field w 30 2 with
  | 0 =>
    .ok (.configWrite (fin 32 (by decide) (field w 25 5)) (fin 32 (by decide) (field w 20 5))
      (fin 16 (by decide) (field w 16 4)) (fin 64 (by decide) (field w 10 6)) (BitVec.ofNat 10 (field w 0 10)))
  | 1 => .ok (.configExtend (BitVec.ofNat 30 (field w 0 30)))
  | 2 =>
    match field w 26 4 with
    | 0 =>
      if field w 0 19 = 0 ∧ 1 ≤ field w 22 3 ∧ field w 22 3 ≤ 4 ∧ 1 ≤ field w 19 3 ∧ field w 19 3 ≤ 5 then
        .ok (.beginCmd (bit w 25) (fin 8 (by decide) (field w 22 3)) (fin 8 (by decide) (field w 19 3)))
      else .error .malformedCommand
    | 1 => guardField (decide (field w 0 26 = 0)) .malformedCommand .commit
    | 2 => guardField (decide (field w 0 22 = 0)) .malformedCommand (.selectRegion (fin 16 (by decide) (field w 22 4)))
    | 3 =>
      if field w 0 15 = 0 ∧ (field w 15 1 = 1 → field w 16 10 = 0) then
        .ok (.bankQuiesce (fin 32 (by decide) (field w 21 5)) (fin 32 (by decide) (field w 16 5)) (bit w 15))
      else .error .malformedCommand
    | _ => .error .malformedCommand
  | _ => .error .malformedCommand

/-- The instruction of a table row's word: 32 bits, decoded as the core decodes it. -/
def decodeTableWord (nbits w : Nat) : Option Instr :=
  if nbits ≤ 32 then
    match decodeNat (w % 2 ^ 32) with
    | .ok i => some i
    | .error _ => none
  else none

def b2n (b : Bool) : Nat := if b then 1 else 0

def Scope.code : Scope → Nat
  | .region => 0
  | .die => 1
  | .device => 2
  | .domain => 3
  | .system => 4

def Size.code : Size → Nat
  | .b => 0
  | .h => 1
  | .w => 2
  | .d => 3

def SysReg.code : SysReg → Nat
  | .status => 0
  | .cause => 1
  | .trappc => 2
  | .badaddr => 3
  | .asid => 4
  | .prio => 5
  | .tags => 6
  | .wid => 7
  | .widw => 8

def ShapeKind.code : ShapeKind → Nat
  | .vec => 0
  | .fp8 => 1
  | .e2m1 => 2
  | .bf16 => 3
  | .rank => 4

def CollMode.code : CollMode → Nat
  | .fast => 0
  | .canonical => 1
  | .exact => 2

/-- RRR layout (R128). -/
def encRrr (op d a b fn : Nat) : Nat := op * 2 ^ 26 + d * 2 ^ 21 + a * 2 ^ 16 + b * 2 ^ 11 + fn
def encQ (op : Nat) (o : Rrr) (fn : Nat) : Nat :=
  encRrr op o.d o.a o.b (b2n o.qa * 2 ^ 10 + b2n o.qb * 2 ^ 9 + b2n o.qd * 2 ^ 8 + fn)
def encU (op : Nat) (o : Unary) (fn : Nat) : Nat := encRrr op o.d o.a 0 (b2n o.qa * 2 ^ 10 + b2n o.qd * 2 ^ 8 + fn)
def encP (o : PCmp) (f : Nat) : Nat := encRrr 2 0 o.a o.b (b2n o.qa * 2 ^ 10 + b2n o.qb * 2 ^ 9 + f * 8 + o.p)
/-- RRI layout (R128). -/
def encImm (op d a : Nat) (i : BitVec 16) : Nat := op * 2 ^ 26 + d * 2 ^ 21 + a * 2 ^ 16 + i.toNat
def encAmo (op : Nat) (o : Amo) : Nat :=
  encRrr 5 o.d o.a o.b (op * 2 ^ 8 + b2n o.dbl * 2 ^ 7 + b2n o.acq * 2 ^ 6 + b2n o.rel * 2 ^ 5 + o.scope.code * 2 ^ 2)
/-- STRM layout (R128). -/
def encStrm (op port base count tag flags : Nat) : Nat :=
  op * 2 ^ 26 + port * 2 ^ 21 + base * 2 ^ 16 + count * 2 ^ 11 + tag * 2 ^ 5 + flags
def encStream (op : Nat) (o : Strm) : Nat := encStrm op o.port o.base o.count o.tag (b2n o.nt * 2 + b2n o.append)
def encColl (kind : Nat) (q : QReg) (base count : Reg) (t : Tag) (m : CollMode) : Nat :=
  encStrm 0x38 q base count t (kind * 4 + m.code)
/-- SYS layout (R128). -/
def encSys (fn d a arg : Nat) : Nat := 0x3F * 2 ^ 26 + d * 2 ^ 21 + a * 2 ^ 16 + fn * 2 ^ 12 + arg

/-- The word of a core instruction as a number; 0 for the rows that have no instruction word. -/
def encodeNat : Instr → Nat
  | .add o => encQ 0 o 0x00
  | .sub o => encQ 0 o 0x01
  | .and o => encQ 0 o 0x02
  | .or o => encQ 0 o 0x03
  | .xor o => encQ 0 o 0x04
  | .andn o => encQ 0 o 0x05
  | .shl o => encQ 0 o 0x06
  | .shr o => encQ 0 o 0x07
  | .sar o => encQ 0 o 0x08
  | .rotl o => encQ 0 o 0x09
  | .min o => encQ 0 o 0x0A
  | .max o => encQ 0 o 0x0B
  | .minu o => encQ 0 o 0x0C
  | .maxu o => encQ 0 o 0x0D
  | .clz o => encU 0 o 0x0E
  | .ctz o => encU 0 o 0x0F
  | .popc o => encU 0 o 0x10
  | .addw o => encQ 0 o 0x11
  | .subw o => encQ 0 o 0x12
  | .mul o => encQ 1 o 0
  | .mulh o => encQ 1 o 1
  | .mulhu o => encQ 1 o 2
  | .div o => encQ 1 o 3
  | .divu o => encQ 1 o 4
  | .rem o => encQ 1 o 5
  | .remu o => encQ 1 o 6
  | .ceq o => encQ 2 o 0
  | .cne o => encQ 2 o 8
  | .clt o => encQ 2 o 16
  | .cltu o => encQ 2 o 24
  | .cle o => encQ 2 o 32
  | .cleu o => encQ 2 o 40
  | .peq o => encP o 8
  | .pne o => encP o 9
  | .plt o => encP o 10
  | .pltu o => encP o 11
  | .ple o => encP o 12
  | .pleu o => encP o 13
  | .sel o p => encQ 2 o (16 * 8 + p)
  | .pand p a b => encRrr 2 0 a b (17 * 8 + p)
  | .por p a b => encRrr 2 0 a b (18 * 8 + p)
  | .pxor p a b => encRrr 2 0 a b (19 * 8 + p)
  | .pandn p a b => encRrr 2 0 a b (20 * 8 + p)
  | .pnot p a => encRrr 2 0 a 0 (21 * 8 + p)
  | .ptst p a qa => encRrr 2 0 a 0 (b2n qa * 2 ^ 10 + 22 * 8 + p)
  | .pget d qd p => encRrr 2 d 0 0 (b2n qd * 2 ^ 8 + 23 * 8 + p)
  | .qpush q a => encRrr 3 q a 0 0
  | .qpop d q => encRrr 3 d q 0 1
  | .qlvl d q => encRrr 3 d q 0 2
  | .accrd d a b => encRrr 3 d a b 3
  | .accrst a => encRrr 3 0 a 0 4
  | .lda d a size u sc => encRrr 4 d a 0 (size.code * 2 ^ 6 + b2n u * 2 ^ 5 + sc.code * 2 ^ 2)
  | .stl a b size sc => encRrr 4 0 a b (2 ^ 8 + size.code * 2 ^ 6 + sc.code * 2 ^ 2)
  | .amoAdd o => encAmo 0 o
  | .amoMin o => encAmo 1 o
  | .amoMax o => encAmo 2 o
  | .amoSwap o => encAmo 3 o
  | .amoCas o => encAmo 4 o
  | .amoAnd o => encAmo 5 o
  | .amoOr o => encAmo 6 o
  | .jalr d a => encRrr 6 d a 0 0
  | .sbar a => encRrr 7 0 a 0 0x000
  | .twaitAny a => encRrr 7 0 a 0 0x010
  | .twaitAll a => encRrr 7 0 a 0 0x020
  | .tfind d a => encRrr 7 d a 0 0x030
  | .tclr a => encRrr 7 0 a 0 0x040
  | .qfence a => encRrr 7 0 a 0 0x050
  | .shape sh a b kind => encRrr 7 sh a b (0x060 + kind.code)
  | .shpub sh a => encRrr 7 sh a 0 0x070
  | .cfgCmt => encRrr 7 0 0 0 0x080
  | .resume a => encRrr 7 0 a 0 0x090
  | .addi d a i => encImm 0x08 d a i
  | .andi d a i => encImm 0x09 d a i
  | .ori d a i => encImm 0x0A d a i
  | .xori d a i => encImm 0x0B d a i
  | .slti d a i => encImm 0x0C d a i
  | .sltiu d a i => encImm 0x0D d a i
  | .shli d a n => encRrr 0x0E d a 0 n
  | .shri d a n => encRrr 0x0F d a 0 n
  | .sari d a n => encRrr 0x10 d a 0 n
  | .lui d i => encImm 0x11 d 0 i
  | .lih d h i => encImm 0x12 d h i
  | .ldb d a i => encImm 0x18 d a i
  | .ldbu d a i => encImm 0x19 d a i
  | .ldh d a i => encImm 0x1A d a i
  | .ldhu d a i => encImm 0x1B d a i
  | .ldw d a i => encImm 0x1C d a i
  | .ldwu d a i => encImm 0x1D d a i
  | .ldd d a i => encImm 0x1E d a i
  | .stb d a i => encImm 0x20 d a i
  | .sth d a i => encImm 0x21 d a i
  | .stw d a i => encImm 0x22 d a i
  | .std d a i => encImm 0x23 d a i
  | .beq a b i => encImm 0x28 a b i
  | .bne a b i => encImm 0x29 a b i
  | .blt a b i => encImm 0x2A a b i
  | .bge a b i => encImm 0x2B a b i
  | .bltu a b i => encImm 0x2C a b i
  | .bgeu a b i => encImm 0x2D a b i
  | .bpt p i => encImm 0x2E p 0 i
  | .bpf p i => encImm 0x2F p 0 i
  | .j o => 0x30 * 2 ^ 26 + o.toNat
  | .jal o => 0x31 * 2 ^ 26 + o.toNat
  | .strmLd o => encStream 0x32 o
  | .strmSt o => encStream 0x33 o
  | .strmGth o => encStream 0x34 o
  | .strmSct o => encStream 0x35 o
  | .cpy q b c t => encStrm 0x36 q b c t 0
  | .cpy2d q b c t => encStrm 0x37 q b c t 0
  | .collAr q b c t m => encColl 0 q b c t m
  | .collAg q b c t m => encColl 1 q b c t m
  | .collRs q b c t m => encColl 2 q b c t m
  | .collBc q b c t m => encColl 3 q b c t m
  | .collA2a q b c t m => encColl 4 q b c t m
  | .flm sc m t => encStrm 0x39 sc.code m 0 t 0
  | .enq s h m t => encStrm 0x3A s h m t 0
  | .cfgLd b c t p => encStrm 0x3B 0 b c t (b2n p)
  | .ertPin s k x t => encStrm 0x3C s k x t 0
  | .ertProbe s k t => encStrm 0x3C s k 0 t 1
  | .ertEvict s k t => encStrm 0x3C s k 0 t 2
  | .trap c => encSys 0 0 0 c
  | .eret => encSys 1 0 0 0
  | .mfsr d r => encSys 2 d 0 r.code
  | .mtsr r a => encSys 3 0 a r.code
  | .fence sc => encSys 4 0 0 (sc.code * 2 ^ 9)
  | .wait d a sc => encSys 5 d a (sc.code * 2 ^ 9)
  | .halt => encSys 6 0 0 0
  | .illegalInstruction w => w.toNat
  | .waitTimeout .. | .asyncTrap .. | .configWrite .. | .configExtend .. | .beginCmd .. | .commit | .selectRegion ..
  | .bankQuiesce .. | .tokenCrossing .. | .takebackStage .. | .takebackAtElement .. | .tslot .. | .tileFillComplete ..
  | .ladderServe .. | .commandBegin .. | .commandCompletion .. | .collectiveMatch .. | .readPerform ..
  | .writePerform .. | .pathHead .. | .landingPortLand .. | .rdcDrop .. | .releasePerform .. | .atomicPerform ..
  | .tfuPin .. | .tfuSnapshot .. | .faultCheckpoint .. | .spillRefill .. | .tquSelect .. | .regionLoad ..
  | .taskRetire .. | .taskcmdDrain .. | .taskcmdFreezeSave .. | .taskcmdEnd .. | .taskcmdRelease ..
  | .taskcmdFaultServiced .. | .drainComplete .. | .drainTimeout .. | .freezeSaveComplete .. | .contextSaveRetry ..
  | .portresPort .. | .portresQueue .. | .tqResume .. | .tqerrRead .. | .invalidateRange .. | .invalidateAsid ..
  | .invalidateAll .. | .invalidationComplete | .invstatRead .. | .loadRequest .. | .loadstatRead .. | .objectLoad
  | .ertEnable | .ertDisable | .ertDisableComplete | .ertstatRead | .ertUpdate .. | .spinner .. | .fetchQueueEnter ..
  | .fetchComplete .. | .fetchSourceError .. | .missBudgetExceeded .. | .eventEnable | .eventRecordWrite
  | .evtlostRead | .tierEnable .. | .linkEnable .. | .boot .. | .moduleReset | .coreReset .. | .coreStop ..
  | .coreRestart .. | .faultack .. | .clockChange .. | .heldClockChange .. | .clockChangeComplete .. | .tripClear ..
  | .blockPowerChange .. | .blockPowerComplete .. | .portEnable .. | .registerWrite .. | .hostCxlWrite ..
  | .hostCxlRead .. | .nguvenPortDown .. | .nguvenPortUp .. | .thermalWarning .. | .thermalTrip .. | .linkCrcReplay ..
  | .configParityRetry .. | .uncorrectableError .. | .sendPosted .. | .receivePosted .. | .packetArrival ..
  | .receiveDone .. | .sendDone .. | .noReceiveTimeout .. | .completionConsumerAdvance .. | .portLinkChange ..
  | .controlTokenAlign | .dly | .wAdd | .wSub | .wMul | .wFma | .wMin | .wMax | .wAbs | .wNeg | .wCmpeq | .wCmplt
  | .wCmple | .wCmpun | .sfExp2 | .sfLog2 | .sfRcp | .sfRsqrt | .sfTanh | .sfSigm | .iAdd | .iAddc | .iSub | .iSubb
  | .iMullo | .iMulhi | .bAnd | .bOr | .bXor | .bNot | .bShl | .bShr | .bSar | .bRotl | .cvtWS32 | .cvtWU32 | .cvtS32W
  | .cvtU32W | .wRint | .qFp32 | .qBf16 | .qFp16 | .qE5m2 | .qE4m3 | .lnUp | .lnDown | .lnShuf | .lnBcast | .redAdd
  | .redMin | .redMax | .vpack | .vunpack | .xacc | .xaccLimb | .xaccRead | .memLd | .memSt | .memLdx | .memStx
  | .memoryElementPerformed | .tdrain | .mma | .mrec | .fork | .join | .ejoinAnd | .ejoinOr | .ejoinSel | .steer
  | .steerErt | .steerErtAnswer | .merge | .mergeRr | .gate | .sink | .cfwd | .rankK | .rankKReply | .rankApply
  | .rkval | .cbdec | .streamRowEmit | .storeStreamTake | .resumeToken | .wakeWatchdog | .steerProbe | .ertRelease
  | .parkedRowReplay => 0

/-- The instruction word of a core instruction. -/
def encode (i : Instr) : Word32 := BitVec.ofNat 32 (encodeNat i)

/-- The word of a configuration command (R145, R147); 0 for every other row. -/
def encodeConfigNat : Instr → Nat
  | .configWrite x y e f v => x.val * 2 ^ 25 + y.val * 2 ^ 20 + e.val * 2 ^ 16 + f.val * 2 ^ 10 + v.toNat
  | .configExtend v => 2 ^ 30 + v.toNat
  | .beginCmd p w h => 2 ^ 31 + b2n p * 2 ^ 25 + w.val * 2 ^ 22 + h.val * 2 ^ 19
  | .commit => 2 ^ 31 + 2 ^ 26
  | .selectRegion r => 2 ^ 31 + 2 * 2 ^ 26 + r.val * 2 ^ 22
  | .bankQuiesce x y all => 2 ^ 31 + 3 * 2 ^ 26 + x.val * 2 ^ 21 + y.val * 2 ^ 16 + b2n all * 2 ^ 15
  | .add .. | .sub .. | .and .. | .or .. | .xor .. | .andn .. | .shl .. | .shr .. | .sar .. | .rotl .. | .min ..
  | .max .. | .minu .. | .maxu .. | .clz .. | .ctz .. | .popc .. | .addw .. | .subw .. | .mul .. | .mulh ..
  | .mulhu .. | .div .. | .divu .. | .rem .. | .remu .. | .ceq .. | .cne .. | .clt .. | .cltu .. | .cle .. | .cleu ..
  | .peq .. | .pne .. | .plt .. | .pltu .. | .ple .. | .pleu .. | .sel .. | .pand .. | .por .. | .pxor .. | .pandn ..
  | .pnot .. | .ptst .. | .pget .. | .qpush .. | .qpop .. | .qlvl .. | .accrd .. | .accrst .. | .lda .. | .stl ..
  | .amoAdd .. | .amoMin .. | .amoMax .. | .amoSwap .. | .amoCas .. | .amoAnd .. | .amoOr .. | .jalr .. | .sbar ..
  | .twaitAny .. | .twaitAll .. | .tfind .. | .tclr .. | .qfence .. | .shape .. | .shpub .. | .cfgCmt | .resume ..
  | .addi .. | .andi .. | .ori .. | .xori .. | .slti .. | .sltiu .. | .shli .. | .shri .. | .sari .. | .lui ..
  | .lih .. | .ldb .. | .ldbu .. | .ldh .. | .ldhu .. | .ldw .. | .ldwu .. | .ldd .. | .stb .. | .sth .. | .stw ..
  | .std .. | .beq .. | .bne .. | .blt .. | .bge .. | .bltu .. | .bgeu .. | .bpt .. | .bpf .. | .j .. | .jal ..
  | .strmLd .. | .strmSt .. | .strmGth .. | .strmSct .. | .cpy .. | .cpy2d .. | .collAr .. | .collAg .. | .collRs ..
  | .collBc .. | .collA2a .. | .flm .. | .enq .. | .cfgLd .. | .ertPin .. | .ertProbe .. | .ertEvict .. | .trap ..
  | .eret | .mfsr .. | .mtsr .. | .fence .. | .wait .. | .halt | .waitTimeout .. | .asyncTrap .. | .tokenCrossing ..
  | .takebackStage .. | .takebackAtElement .. | .tslot .. | .tileFillComplete .. | .ladderServe .. | .commandBegin ..
  | .commandCompletion .. | .collectiveMatch .. | .readPerform .. | .writePerform .. | .pathHead ..
  | .landingPortLand .. | .rdcDrop .. | .releasePerform .. | .atomicPerform .. | .tfuPin .. | .tfuSnapshot ..
  | .faultCheckpoint .. | .spillRefill .. | .tquSelect .. | .regionLoad .. | .taskRetire .. | .taskcmdDrain ..
  | .taskcmdFreezeSave .. | .taskcmdEnd .. | .taskcmdRelease .. | .taskcmdFaultServiced .. | .drainComplete ..
  | .drainTimeout .. | .freezeSaveComplete .. | .contextSaveRetry .. | .portresPort .. | .portresQueue ..
  | .tqResume .. | .tqerrRead .. | .invalidateRange .. | .invalidateAsid .. | .invalidateAll ..
  | .invalidationComplete | .invstatRead .. | .loadRequest .. | .loadstatRead .. | .objectLoad | .ertEnable
  | .ertDisable | .ertDisableComplete | .ertstatRead | .ertUpdate .. | .spinner .. | .fetchQueueEnter ..
  | .fetchComplete .. | .fetchSourceError .. | .missBudgetExceeded .. | .eventEnable | .eventRecordWrite
  | .evtlostRead | .tierEnable .. | .linkEnable .. | .boot .. | .moduleReset | .coreReset .. | .coreStop ..
  | .coreRestart .. | .faultack .. | .clockChange .. | .heldClockChange .. | .clockChangeComplete .. | .tripClear ..
  | .blockPowerChange .. | .blockPowerComplete .. | .portEnable .. | .registerWrite .. | .hostCxlWrite ..
  | .hostCxlRead .. | .nguvenPortDown .. | .nguvenPortUp .. | .thermalWarning .. | .thermalTrip .. | .linkCrcReplay ..
  | .configParityRetry .. | .uncorrectableError .. | .sendPosted .. | .receivePosted .. | .packetArrival ..
  | .receiveDone .. | .sendDone .. | .noReceiveTimeout .. | .illegalInstruction .. | .completionConsumerAdvance ..
  | .portLinkChange .. | .controlTokenAlign | .dly | .wAdd | .wSub | .wMul | .wFma | .wMin | .wMax | .wAbs | .wNeg
  | .wCmpeq | .wCmplt | .wCmple | .wCmpun | .sfExp2 | .sfLog2 | .sfRcp | .sfRsqrt | .sfTanh | .sfSigm | .iAdd | .iAddc
  | .iSub | .iSubb | .iMullo | .iMulhi | .bAnd | .bOr | .bXor | .bNot | .bShl | .bShr | .bSar | .bRotl | .cvtWS32
  | .cvtWU32 | .cvtS32W | .cvtU32W | .wRint | .qFp32 | .qBf16 | .qFp16 | .qE5m2 | .qE4m3 | .lnUp | .lnDown | .lnShuf
  | .lnBcast | .redAdd | .redMin | .redMax | .vpack | .vunpack | .xacc | .xaccLimb | .xaccRead | .memLd | .memSt
  | .memLdx | .memStx | .memoryElementPerformed | .tdrain | .mma | .mrec | .fork | .join | .ejoinAnd | .ejoinOr
  | .ejoinSel | .steer | .steerErt | .steerErtAnswer | .merge | .mergeRr | .gate | .sink | .cfwd | .rankK
  | .rankKReply | .rankApply | .rkval | .cbdec | .streamRowEmit | .storeStreamTake | .resumeToken | .wakeWatchdog
  | .steerProbe | .ertRelease | .parkedRowReplay => 0

/-- The rows that are instruction words of the core: what a core may fetch. -/
def Instr.ofCore : Instr → Bool
  | .add .. | .sub .. | .and .. | .or .. | .xor .. | .andn .. | .shl .. | .shr .. | .sar .. | .rotl .. | .min ..
  | .max .. | .minu .. | .maxu .. | .clz .. | .ctz .. | .popc .. | .addw .. | .subw .. | .mul .. | .mulh .. | .mulhu ..
  | .div .. | .divu .. | .rem .. | .remu .. | .ceq .. | .cne .. | .clt .. | .cltu .. | .cle .. | .cleu .. | .peq ..
  | .pne .. | .plt .. | .pltu .. | .ple .. | .pleu .. | .sel .. | .pand .. | .por .. | .pxor .. | .pandn .. | .pnot ..
  | .ptst .. | .pget .. | .qpush .. | .qpop .. | .qlvl .. | .accrd .. | .accrst .. | .lda .. | .stl .. | .amoAdd ..
  | .amoMin .. | .amoMax .. | .amoSwap .. | .amoCas .. | .amoAnd .. | .amoOr .. | .jalr .. | .sbar .. | .twaitAny ..
  | .twaitAll .. | .tfind .. | .tclr .. | .qfence .. | .shape .. | .shpub .. | .cfgCmt | .resume .. | .addi .. | .andi ..
  | .ori .. | .xori .. | .slti .. | .sltiu .. | .shli .. | .shri .. | .sari .. | .lui .. | .lih .. | .ldb .. | .ldbu ..
  | .ldh .. | .ldhu .. | .ldw .. | .ldwu .. | .ldd .. | .stb .. | .sth .. | .stw .. | .std .. | .beq .. | .bne ..
  | .blt .. | .bge .. | .bltu .. | .bgeu .. | .bpt .. | .bpf .. | .j .. | .jal .. | .strmLd .. | .strmSt .. | .strmGth ..
  | .strmSct .. | .cpy .. | .cpy2d .. | .collAr .. | .collAg .. | .collRs .. | .collBc .. | .collA2a .. | .flm ..
  | .enq .. | .cfgLd .. | .ertPin .. | .ertProbe .. | .ertEvict .. | .trap .. | .eret | .mfsr .. | .mtsr .. | .fence ..
  | .wait .. | .halt | .illegalInstruction .. => true
  | .waitTimeout .. | .asyncTrap .. | .configWrite .. | .configExtend .. | .beginCmd .. | .commit | .selectRegion ..
  | .bankQuiesce .. | .tokenCrossing .. | .takebackStage .. | .takebackAtElement .. | .tslot .. | .tileFillComplete ..
  | .ladderServe .. | .commandBegin .. | .commandCompletion .. | .collectiveMatch .. | .readPerform ..
  | .writePerform .. | .pathHead .. | .landingPortLand .. | .rdcDrop .. | .releasePerform .. | .atomicPerform ..
  | .tfuPin .. | .tfuSnapshot .. | .faultCheckpoint .. | .spillRefill .. | .tquSelect .. | .regionLoad ..
  | .taskRetire .. | .taskcmdDrain .. | .taskcmdFreezeSave .. | .taskcmdEnd .. | .taskcmdRelease ..
  | .taskcmdFaultServiced .. | .drainComplete .. | .drainTimeout .. | .freezeSaveComplete .. | .contextSaveRetry ..
  | .portresPort .. | .portresQueue .. | .tqResume .. | .tqerrRead .. | .invalidateRange .. | .invalidateAsid ..
  | .invalidateAll .. | .invalidationComplete | .invstatRead .. | .loadRequest .. | .loadstatRead .. | .objectLoad
  | .ertEnable | .ertDisable | .ertDisableComplete | .ertstatRead | .ertUpdate .. | .spinner .. | .fetchQueueEnter ..
  | .fetchComplete .. | .fetchSourceError .. | .missBudgetExceeded .. | .eventEnable | .eventRecordWrite
  | .evtlostRead | .tierEnable .. | .linkEnable .. | .boot .. | .moduleReset | .coreReset .. | .coreStop ..
  | .coreRestart .. | .faultack .. | .clockChange .. | .heldClockChange .. | .clockChangeComplete .. | .tripClear ..
  | .blockPowerChange .. | .blockPowerComplete .. | .portEnable .. | .registerWrite .. | .hostCxlWrite ..
  | .hostCxlRead .. | .nguvenPortDown .. | .nguvenPortUp .. | .thermalWarning .. | .thermalTrip .. | .linkCrcReplay ..
  | .configParityRetry .. | .uncorrectableError .. | .sendPosted .. | .receivePosted .. | .packetArrival ..
  | .receiveDone .. | .sendDone .. | .noReceiveTimeout .. | .completionConsumerAdvance .. | .portLinkChange ..
  | .controlTokenAlign | .dly | .wAdd | .wSub | .wMul | .wFma | .wMin | .wMax | .wAbs | .wNeg | .wCmpeq | .wCmplt
  | .wCmple | .wCmpun | .sfExp2 | .sfLog2 | .sfRcp | .sfRsqrt | .sfTanh | .sfSigm | .iAdd | .iAddc | .iSub | .iSubb
  | .iMullo | .iMulhi | .bAnd | .bOr | .bXor | .bNot | .bShl | .bShr | .bSar | .bRotl | .cvtWS32 | .cvtWU32 | .cvtS32W
  | .cvtU32W | .wRint | .qFp32 | .qBf16 | .qFp16 | .qE5m2 | .qE4m3 | .lnUp | .lnDown | .lnShuf | .lnBcast | .redAdd
  | .redMin | .redMax | .vpack | .vunpack | .xacc | .xaccLimb | .xaccRead | .memLd | .memSt | .memLdx | .memStx
  | .memoryElementPerformed | .tdrain | .mma | .mrec | .fork | .join | .ejoinAnd | .ejoinOr | .ejoinSel | .steer
  | .steerErt | .steerErtAnswer | .merge | .mergeRr | .gate | .sink | .cfwd | .rankK | .rankKReply | .rankApply
  | .rkval | .cbdec | .streamRowEmit | .storeStreamTake | .resumeToken | .wakeWatchdog | .steerProbe | .ertRelease
  | .parkedRowReplay => false

end Sys2Proof
end

