-- ==== Sys2Proof/Config.lean ====
section
/-!
DEFINITION. The values the manual leaves open, as constants without a body (free values): nothing in the model can evaluate
them, so a claim about one holds whatever it is.
-/
namespace Sys2Proof.Config

/-- Nanoseconds that pass between move `n` and the next one; the manual bounds times and fixes none (log 4). -/
opaque elapsedNs : Nat → Nat

/-- Result image of a special function (opcode, level, rounding mode, operand image) where R229 states no exact result: some
fixed function of these within the bound of R228 (log 8). -/
opaque specialImage : Nat → Nat → Nat → Word → Word

/-- The L2 slice, 0 to 31, that serves a line address; the manual gives no map (log 15). -/
opaque sliceOf : Nat → Nat

/-- Contents of byte `a` of an MT whose role or interleave a commit has changed, for the `n`-th such change (R343, log 18). -/
opaque mtByte : Nat → Nat → Byte

/-- The stepping of the module (R375). -/
opaque stepping : Byte

/-- Values of registers with no defined value that the device samples from outside (gauges of R393), by use (log 20). -/
opaque gauge : Nat → Word

/-- The order in which the links deliver the ranks of a collective in fast mode: a permutation key per use and rank (R94, log 21). -/
opaque linkOrder : Nat → Nat → Nat

/-- The number of the path that the board takes for a write of granule `g` in move `n`, where R105 leaves it the choice and no operand of
the move names it (log 13). -/
opaque boardPath : Nat → Nat → Nat

/-- The line that a full cache gives up in move `n` (R95, R97; log 113). -/
opaque victim : Nat → Nat

/-- Which of its replicas serves an access to a page, in move `n` for virtual address `a`, when they differ (R348, log 156). -/
opaque replica : Nat → Nat → Nat

/-- The digest of the 1,024 bytes of a collective group's entry, as one number (R384); the manual gives no function (log 157). -/
opaque groupDigest : Nat → BitVec 32

/-- Base-2 logarithm of the entries of a queue whose register holds a value beyond the range that the manual gives it (R375, R386;
log 122). -/
opaque oddSize : Nat → BitVec 4

/-- A free dword for the `n`-th use of a value the manual states no result for (log 22). -/
opaque freeWord : Nat → Word

end Sys2Proof.Config
end

