-- ==== Sys2Proof/Machine/Map.lean ====
section
/-!
DEFINITION. Finite maps as lists: sorted by a number (registers files that are mostly untouched, elements, memory) and keyed by
any type that can be compared (paths, landing ports). An absent key reads as a default the caller names.
-/
namespace Sys2Proof.Machine

/-- A map from numbers, sorted by key. -/
abbrev Map (α : Type) := List (Nat × α)

/-- The value at `k`, or `d` where the map lists none. -/
def Map.get {α : Type} (d : α) (k : Nat) : Map α → α
  | [] => d
  | (k', v) :: t => if k' = k then v else Map.get d k t

/-- Sets the value at `k`, keeping the order of the keys. -/
def Map.set {α : Type} (k : Nat) (v : α) : Map α → Map α
  | [] => [(k, v)]
  | (k', v') :: t =>
    if k' = k then (k, v) :: t else if k < k' then (k, v) :: (k', v') :: t else (k', v') :: Map.set k v t

/-- The map without key `k`. -/
def Map.del {α : Type} (k : Nat) : Map α → Map α
  | [] => []
  | (k', v) :: t => if k' = k then Map.del k t else (k', v) :: Map.del k t

/-- A map that never lists the default: writing `d` removes the key, so equal contents are equal lists. -/
def Map.put {α : Type} [DecidableEq α] (d : α) (k : Nat) (v : α) : Map α → Map α
  | [] => if v = d then [] else [(k, v)]
  | (k', v') :: t =>
    if k' = k then (if v = d then Map.del k t else (k, v) :: t)
    else if k < k' then (if v = d then (k', v') :: Map.del k t else (k, v) :: (k', v') :: t)
    else (k', v') :: Map.put d k v t

/-- Keys strictly rising and no entry equal to the default. -/
def Map.canon {α : Type} [DecidableEq α] (d : α) : Map α → Bool
  | [] => true
  | (k, v) :: t => decide (v ≠ d) && t.all (fun e => decide (k < e.1)) && Map.canon d t

/-- The value at `k` of an association list, or `d`. -/
def lookupD {κ α : Type} [DecidableEq κ] (d : α) (k : κ) : List (κ × α) → α
  | [] => d
  | (k', v) :: t => if k' = k then v else lookupD d k t

/-- Replaces or appends the value at `k`. -/
def assign {κ α : Type} [DecidableEq κ] (k : κ) (v : α) : List (κ × α) → List (κ × α)
  | [] => [(k, v)]
  | (k', v') :: t => if k' = k then (k, v) :: t else (k', v') :: assign k v t

/-- Bits `hi` to `lo` of a number. -/
def bits (v lo n : Nat) : Nat := v / 2 ^ lo % 2 ^ n

/-- Replaces the first element that satisfies `p`. -/
def updateFirst {α : Type} (p : α → Bool) (f : α → α) : List α → List α
  | [] => []
  | x :: t => if p x then f x :: t else x :: updateFirst p f t

/-- The numbers below `n`, in order. -/
def upto (n : Nat) : List Nat := List.range n

end Sys2Proof.Machine
end

