-- ==== Sys2Proof/Machine/State.lean ====
section
/-!
DEFINITION. The state of one FK-90 module as plain data: cores, fabric, board, task queue units, expert table, host side. Every
piece of state the manual names stands here; the model's own fields are marked so.
-/
namespace Sys2Proof.Machine

/-- Reasons for a step to stop. No instruction of the manual stops the machine, so no step answers one. -/
inductive Fault where
  /-- Raised by nobody: kept so that the type is inhabited (safe). -/
  | unreachable
  deriving DecidableEq, Repr

/-- Reasons for the model to give no meaning. -/
inductive Refusal where
  /-- Raised by an arm of `exec` whose instruction has no meaning yet (safe). -/
  | notModelled (mnemonic : String)
  deriving DecidableEq, Repr

/-! ### Tokens (R46, R47) -/

/-- A token header (R46). -/
structure Header where
  reserved : BitVec 3 := 0
  lanes : BitVec 16 := 0
  seq : BitVec 16 := 0
  itag : BitVec 8 := 0
  pbit : Bool := false
  pvalid : Bool := false
  kind : BitVec 3 := 0
  /-- Model's own, no bit of the 48: 0 for a token whose row no probe has met, 1 for a row that its probe found resident, n + 2 for one of
  miss n (R290, log 67). -/
  miss : Nat := 0
  /-- Model's own: the token has been refused where it stands, and counted (R393). -/
  refused : Bool := false
  deriving DecidableEq, Repr

/-- A token: header and payload. -/
structure Token where
  hdr : Header
  pay : Payload := 0
  deriving DecidableEq, Repr

/-! ### Core state (R162 to R166, R209) -/

/-- A shape register (R209). -/
structure ShapeReg where
  reqM : BitVec 32 := 0
  reqN : BitVec 32 := 0
  reqK : BitVec 32 := 0
  grantM : BitVec 16 := 0
  grantN : BitVec 16 := 0
  grantK : BitVec 16 := 0
  maxM : BitVec 16 := 0
  maxN : BitVec 16 := 0
  maxK : BitVec 16 := 0
  pcw : BitVec 16 := 0
  ra : BitVec 5 := 0
  rb : BitVec 5 := 0
  kind : BitVec 3 := 0
  pub : Bool := false
  valid : Bool := false
  /-- Place of its shape instruction among those that have run: R213 asks for the last one. -/
  ran : Nat := 0
  deriving DecidableEq, Repr

/-- Run condition of a core: held between reset and boot (R378), stopped (R168, R186, R380), halted (R185) or running. -/
inductive RunState where
  | held | stopped | halted | running
  deriving DecidableEq, Repr

/-- Kinds of tagged command (R189). -/
inductive CmdOp where
  | strmLd | strmSt | strmGth | strmSct | cpy | cpy2d | collAr | collAg | collRs | collBc | collA2a | flm | cfgLd
  deriving DecidableEq, Repr

/-- A command that has been issued: its word, operand values and what was in force at issue (R166, R189). -/
structure Command where
  op : CmdOp
  word : Word32
  core : Fin 64
  asid : BitVec 13
  user : Bool
  base : Word
  count : Word
  tag : Tag
  queue : QReg := 0
  port : Nat := 0
  engine : Option ElemAt := none
  append : Bool := false
  mode : CollMode := .fast
  scope : Scope := .region
  part : Bool := false
  /-- WID at issue (R196), and place among the commands that the core has issued (R205). -/
  wid : Word := 0
  seq : Nat := 0
  /-- Engines of the streams that a release mask names (R207, R208). -/
  engines : List ElemAt := []
  deriving DecidableEq, Repr

/-- A translation that an access has taken: the ASID, the virtual address, and whether the page had to be open to task mode (R350). -/
structure Taken where
  asid : BitVec 13
  va : Nat
  user : Bool
  deriving DecidableEq, Repr

/-- A granule write: physical granule number, bytes written and value (R98, R105). A store that waits in an order buffer keeps the
translation of its issue (R355, log 115). -/
structure GWrite where
  granule : Nat
  mask : BitVec 8
  value : Word
  xl : Option Taken := none
  deriving DecidableEq, Repr

/-- An entry of a core's order buffer (R101). -/
inductive OrderItem where
  | store (w : GWrite)
  | cmd (c : Command)
  /-- Barrier entries of one sbar (R199), fence entries of one qfence (R206), a shape token for an engine (R212). -/
  | sbar (engines : List ElemAt) (id : Nat)
  | qfence (queues : List QReg) (id : Nat) (word : Word32)
  | shape (engine : ElemAt) (t : Token)
  deriving DecidableEq, Repr

/-- Status dword contents of a finished or running command (R190). -/
structure CmdStatus where
  code : Nat := 0
  info : Nat := 0
  ovf : Bool := false
  poison : Bool := false
  flags : BitVec 5 := 0
  /-- The manual states no info for this end: the value written is free (log 22). -/
  openInfo : Bool := false
  /-- The status dword has been written and has yet to land. -/
  written : Bool := false
  /-- An access of the command has been withheld and has not performed since (R335). -/
  faulted : Bool := false
  deriving DecidableEq, Repr

/-- A copy in progress (R201, R202). -/
structure CopyRun where
  src : Nat
  dst : Nat
  rowBytes : Nat
  srcPitch : Int
  dstPitch : Int
  rows : Nat
  /-- Source granules read: row, virtual granule, value. -/
  got : List (Nat × Nat × Word) := []
  /-- Virtual destination granules written, and bytes moved. -/
  done : List Nat := []
  moved : Nat := 0
  deriving DecidableEq, Repr

/-- A collective in progress (R203 to R205). -/
structure CollRun where
  src : Nat
  dst : Nat
  control : Word
  count : Nat
  group : Nat
  rank : Nat
  ranks : Nat
  /-- Once matched: its number among those the rank issued on the group, and the use of the links' order (R94, R205). -/
  matched : Bool := false
  index : Nat := 0
  use : Nat := 0
  remote : List RemoteRank := []
  got : List (Nat × Word) := []
  done : List Nat := []
  moved : Nat := 0
  deriving DecidableEq, Repr

/-- Progress of the head of an engine queue. -/
inductive QueueRun where
  | waiting
  | copy (r : CopyRun)
  | coll (r : CollRun)
  /-- Ended with a status and no access left but the status write. -/
  | ended
  deriving DecidableEq, Repr

/-- An entry of an engine queue (R101, R206). -/
inductive QItem where
  | cmd (c : Command) (run : QueueRun) (st : CmdStatus) (withheld : Bool)
  | fence (id : Nat) (word : Word32)
  deriving DecidableEq, Repr

/-- A cfg.ld that has begun or waits to begin (R214). -/
structure CfgRun where
  cmd : Command
  begun : Bool := false
  withheld : Bool := false
  faulted : Bool := false
  /-- Set when the load has ended: its status. -/
  ended : Option CmdStatus := none
  deriving DecidableEq, Repr

/-- An atomic that waits for its move (R111). -/
structure PendingAmo where
  op : Instr
  ready : Bool := false
  deriving DecidableEq, Repr

/-- One Soeth core (R162). -/
structure CoreState where
  g : Vector Word 32 := Vector.replicate 32 0
  p : Vector Bool 8 := Vector.replicate 8 false
  sh : Vector ShapeReg 8 := Vector.replicate 8 {}
  pc : Word := 0
  status : Word := 8
  cause : Word := 0
  trappc : Word := 0
  badaddr : Word := 0
  asid : Word := 0
  prio : Word := 0
  tags : Word := 0xFFFF_FFFF_FFFF_FFFF
  wid : Word := 0
  widw : Word := 0
  tagCount : Vector Nat 64 := Vector.replicate 64 0
  /-- Code memory by word number; a word nothing has written reads 0xFFFF_FFFF (R360, log 6). -/
  code : Map Word32 := []
  /-- The text that code memory holds: its address, words and ASID (R359). -/
  text : Option (Word × Nat × BitVec 13) := none
  /-- Private data memory, 64 KiB (R163). -/
  priv : Map Byte := []
  order : List OrderItem := []
  queues : Vector (List QItem) 8 := Vector.replicate 8 []
  /-- Loads of cfg.ld, oldest first. -/
  cfg : List CfgRun := []
  /-- A staged image waits for its cfg.cmt (R214, R215). -/
  staged : Bool := false
  run : RunState := .held
  /-- Model's own: the condition it was in when a pre-emption stopped it. -/
  before : RunState := .running
  /-- Sources of asynchronous traps that are pending (R168, R330). -/
  irq : List (BitVec 32) := []
  /-- A wait-on-address is in progress at the pc (R184). -/
  waiting : Bool := false
  /-- An atomic at the pc that its move has not yet performed (R111). -/
  amo : Option PendingAmo := none
  /-- The release in progress for the instruction at the pc (R109). -/
  rel : Option Nat := none
  /-- The header read of the enq at the pc is withheld, or has been and has not performed since (R335). -/
  hdrHeld : Bool := false
  hdrFaulted : Bool := false
  /-- Commands issued, and collectives matched per group (R205). -/
  issued : Nat := 0
  collCount : Map Nat := []
  /-- The task that the core runs, and its prefetch buffer of two (R322). -/
  task : Option (BitVec 32) := none
  prefetch : List (BitVec 32) := []
  deriving DecidableEq, Repr

/-! ### Fabric -/

/-- One entry of a stream engine's FIFO behind its current command (R101, R189, R199, R212). -/
inductive StreamItem where
  | cmd (c : Command)
  | shape (t : Token)
  | barrier (id : Nat)
  deriving DecidableEq, Repr

/-- The stream command that an engine runs (R194 to R197). -/
structure StreamRun where
  cmd : Command
  /-- The sixteen dwords of its record (R191). -/
  record : List Word
  /-- Rows to move; 0 for a store stream that runs to end-of-run. -/
  count : Nat
  /-- The count asked for, when a shape bound clamped it (R195). -/
  requested : Nat
  truncated : Bool := false
  /-- First and last work identifier (R196). -/
  w : Nat := 0
  last : Nat := 0
  /-- Rows taken or read so far. -/
  row : Nat := 0
  /-- Granules of the current row not yet read, and those read (load), by virtual granule. -/
  todo : List Nat := []
  got : List (Nat × Word) := []
  /-- Granule writes not yet performed: row number, virtual granule, mask of bits, value (store). -/
  writes : List (Nat × Nat × Word × Word) := []
  /-- Values of the MXFP4 block being gathered and whether one of its rows was data (R197). -/
  block : List (Option Word) := []
  blockData : Bool := false
  /-- Offset of the run and first element of that block. -/
  blockAt : Int × Nat := (0, 0)
  /-- Set when no further row is taken: the status to write. -/
  finished : Option CmdStatus := none
  poison : Bool := false
  ovf : Bool := false
  /-- The command's record read, or a granule of its row, is withheld (R335). -/
  withheld : Bool := false
  faulted : Bool := false
  started : Bool := false
  deriving DecidableEq, Repr

/-- How a source of a stopping region behaves (R334, R337, R338). -/
inductive SourceHold where
  | free
  /-- Emits up to and including its next barrier of this level or higher. -/
  | draining (level : Nat)
  /-- Emits up to and including the barrier ahead of work identifier `v`: the common boundary of a group (R304). -/
  | upTo (v : Nat)
  | stopped
  deriving DecidableEq, Repr

/-- A stream engine (R101, R189, R196). -/
structure StreamState where
  cur : Option StreamRun := none
  items : List StreamItem := []
  lastWid : Word := 0
  /-- The sticky overflow bit that the last command left (R88). -/
  ovf : Bool := false
  /-- Decoded tokens of rows that have been read and wait for a credit. -/
  outq : List Token := []
  /-- Rows the engine has issued so far: the number of its next row (R105). -/
  issued : Nat := 0
  hold : SourceHold := .free
  deriving DecidableEq, Repr

/-- A fabric access of the pending set (R103, R241 to R244). -/
structure FabAccess where
  store : Bool
  /-- The access is to a memory tile, not to virtual memory: the number of that tile. -/
  mt : Bool
  bank : Nat := 0
  /-- Heads consumed, address head first (R117, R341). -/
  heads : List Token
  hdr : Header
  /-- Bit address of each position accessed, by position. -/
  places : List (Nat × Nat) := []
  /-- Granules not yet read, and those read, by virtual (or MT) granule. -/
  todo : List Nat := []
  got : List (Nat × Word) := []
  /-- Granule writes not yet performed: granule, mask of bits, value. -/
  writes : List (Nat × Word × Word) := []
  /-- Bit addresses of the MXFP4 scales, by position. -/
  scales : List (Nat × Nat) := []
  /-- ASID of the owning task at the firing (R246). -/
  asid : BitVec 13 := 0
  /-- A takeback has dropped it (R61, R245). -/
  dropped : Bool := false
  withheld : Bool := false
  /-- A granule of it has been withheld and has not performed since (R335). -/
  faulted : Bool := false
  deriving DecidableEq, Repr

/-- A probe in flight of a steer.ert, with the row that waits for its answer (R267). -/
structure Probe where
  row : Token
  /-- 0 on its way to the table, 1 resident found, 2 not resident, 3 no entry holds the key (R365). -/
  answer : Nat := 0
  /-- Fetches of the entry that had completed at the probe (R308). -/
  gen : Nat := 0
  deriving DecidableEq, Repr

/-- One element (R16, R150) with its input queues, edges, takebacks and operation state. -/
structure Elem where
  /-- Fields by number (R151). -/
  fields : Map Nat := []
  /-- Input queues; queue 0 of a FIFO channel is the channel (R50). -/
  inq : Vector (List Token) 4 := Vector.replicate 4 []
  /-- Tokens under way toward each input on a local edge; those between tiles stand in crossing stages and packets (R51, log 10). -/
  wire : Vector (List Token) 4 := Vector.replicate 4 []
  /-- Takebacks that stand at each input queue, and at the crossing stages of its edge (R60). -/
  tbQueue : Vector (List (BitVec 8)) 4 := Vector.replicate 4 []
  tbWire : Vector (List (BitVec 8)) 4 := Vector.replicate 4 []
  /-- Cancel list: itag and output, at most 8 (R62). -/
  cancels : List (BitVec 8 × Fin 2) := []
  /-- Takebacks held at the element (R61). -/
  heldTb : List (BitVec 8 × Fin 2) := []
  /-- Low 64 payload bits of the shape token latched (R54, R212). -/
  shape : Option Word := none
  /-- Contents of a delay node, oldest first (R259). -/
  dly : List Token := []
  /-- Reorder window of a merge: input and token in arrival order; its next seq and tokens of it emitted (R265). -/
  mergeNext : BitVec 16 := 0
  mergeSent : Nat := 0
  mergeWin : List (Nat × Token) := []
  /-- Loop counter and restore table of a loop-entry merge: seq and incoming itag (R65). -/
  loopNext : BitVec 8 := 0
  restore : List (BitVec 16 × BitVec 8) := []
  /-- Input last served by merge.rr (R266). -/
  rr : Nat := 3
  /-- Firing position of a pass of mma or mrec (R256). -/
  pass : Nat := 0
  /-- A lane of an exact-reduce chain: its 64 bits of A and its flags (R92); at a head, seq and itag of the latest firing since the last
  read (R239). -/
  acc : Word := 0
  accFlags : BitVec 5 := 0
  accHdr : Option (BitVec 16 × BitVec 8) := none
  /-- Probes of a steer.ert in order (R267). -/
  probes : List Probe := []
  /-- Parking queue: the fetches that had completed at the probe of each row under way to it or in it, oldest first (R308). -/
  gens : List Nat := []
  /-- Tokens gathered for a ranking request or run (R269 to R271). -/
  run : List Token := []
  /-- A ranking request is at the ladder; its reply, when back: indices and count of NaNs. -/
  asked : Bool := false
  reply : Option (List Nat × Nat) := none
  /-- Tokens of a request that wait for credits, with their output (R57, R268 to R272). -/
  outq : List (Fin 2 × Token) := []
  /-- Accesses of the region's pending set that this element fired (R101). -/
  pend : List FabAccess := []
  /-- Resume tokens that have been sent here and not yet taken (R117, R216). -/
  resumes : Nat := 0
  se : StreamState := {}
  /-- A source that stopped because a trapped element can be reached from it (R334). -/
  frozen : Bool := false
  /-- A takeback-order trap has been reported here (R64). -/
  tbTrapped : Bool := false
  /-- The stream being loaded has named this element (R26). -/
  fresh : Bool := false
  /-- Channel that carries an inter-stage queue: tokens that its consumer may still take, and that its producer may still place, in the
  stage firings under way (R30). -/
  stageTake : Nat := 0
  stagePut : Nat := 0
  /-- An end-of-run has reached this sink (R36, R261), or has left this source; and the level after which a drain found it (R337). -/
  eor : Bool := false
  reached : Option Nat := none
  deriving DecidableEq, Repr

/-- State of a slot's tag (R247). -/
inductive SlotTag where
  | empty | filling | full | opened
  deriving DecidableEq, Repr

/-- One slot of a CT (R248). -/
structure Slot where
  tag : SlotTag := .empty
  /-- 0 fp8, 1 e2m1, 2 bf16, 3 w64. -/
  kind : Nat := 0
  /-- W64 value of each element in row-major order; absent ones are +0. -/
  data : Map Word := []
  /-- Address token of a fill in progress, and what it has read (R250). -/
  addr : Option Token := none
  /-- Lines pinned, virtual and physical, and lines read with their eight granules (R114). -/
  pins : List (Nat × Nat) := []
  snaps : List (Nat × List Word) := []
  /-- Lines of the fill that are withheld, and those that have not been read since they were (R335). -/
  withheld : List Nat := []
  faulted : List Nat := []
  /-- Tokens of a rows fill taken, or drain tokens emitted (R251, R253). -/
  taken : Nat := 0
  /-- Row tokens that a rows fill in progress has taken (R339). -/
  rows : List Token := []
  /-- An accrst came during a drain: the tag ends empty (R274). -/
  reset : Bool := false
  /-- Made open by a keep drain (R256); filled and not yet read by a matrix firing (R297). -/
  kept : Bool := false
  unread : Bool := false
  /-- An uncorrectable error has marked its contents (R394). -/
  bad : Bool := false
  /-- seq and itag of the step token that made an accumulator full (R253). -/
  step : BitVec 16 × BitVec 8 := (0, 0)
  deriving DecidableEq, Repr

/-- An extent of an AG tile: a run of virtual pages of 4 KiB that lie contiguous in physical memory with equal w, u and na, of one element
of the tile; or a page that faulted when it was patched (R354). -/
structure Extent where
  elem : Nat
  asid : BitVec 13
  page : Nat
  pages : Nat
  pa : Nat
  w : Bool
  u : Bool
  na : Bool
  bad : Bool := false
  /-- What its element does there: it writes, and the page has to be open to task mode. -/
  write : Bool := false
  user : Bool := true
  deriving DecidableEq, Repr

/-- The state of a tile beside its elements: slots, extents and the trap record (R17, R333, R354). -/
structure Tile where
  slots : Vector Slot 8 := Vector.replicate 8 {}
  trap : Vector Word 4 := Vector.replicate 4 0
  /-- A token was refused by this tile while off, and reported (R344). -/
  refused : Bool := false
  /-- The wake watchdog has reported the present wait at this tile (R344). -/
  woke : Bool := false
  /-- Extent table of an AG tile, at most 256, in the order in which they were patched (R354). -/
  extents : List Extent := []
  deriving DecidableEq, Repr

/-- The frame of a placement (R276): position, geometry and transform. -/
structure Frame where
  bx : Nat
  by' : Nat
  w : Nat
  h : Nat
  portable : Bool
  reflect : Bool
  deriving DecidableEq, Repr

/-- What a region is doing. -/
inductive RegionPhase where
  | idle
  | running
  /-- Draining to a level (R337). -/
  | draining (level : Nat)
  /-- A fault checkpoint: sources stop at their next boundary of level 0 (R336). -/
  | checkpoint
  /-- Freeze-save in progress; the form of its context block (R338, R345). -/
  | freezing (form : Nat)
  /-- Stopped, but the context area had no room (R341). -/
  | saveHeld (form level : Nat)
  deriving DecidableEq, Repr

/-- One region (R22). -/
structure Region where
  present : Bool := false
  bx : Nat := 0
  by' : Nat := 0
  w : Nat := 1
  h : Nat := 1
  owner : Option (Fin 16) := none
  committed : Bool := false
  /-- Image kept (address, command count, ASID), for R39. -/
  image : Option (Word × Nat × BitVec 13) := none
  /-- The image was placed as a portable one, and with the row reflection (R276). -/
  portable : Bool := false
  reflect : Bool := false
  task : Option (BitVec 32) := none
  phase : RegionPhase := .idle
  /-- The load in progress: partial, and fields 16 of the MT controls before its begin (R26, R343). -/
  loadPart : Bool := false
  oldMc : List (Nat × Nat) := []
  /-- The load in progress: when its stream was first sent, and how often it has been sent again after a parity failure (R1, R394). -/
  sent : Option Nat := none
  resent : Nat := 0
  /-- Region-private cache: value, dirty bit and bank (the number of its MT) of each physical granule held (R97). -/
  cache : Map (Option (Word × Bool × Nat)) := []
  deriving DecidableEq, Repr

/-- Where the configuration network stands in a stream of commands (R145 to R148). -/
structure Cursor where
  region : Option (Fin 16) := none
  began : Bool := false
  /-- Field written last and how many of its bits have been given. -/
  last : Option (ElemAt × Nat × Nat) := none
  /-- MTs whose control may be written, and the one that the last command has quiesced (R124, R148). -/
  quiesced : List (Nat × Nat) := []
  just : Option (Nat × Nat) := none
  index : Nat := 0
  /-- Index of the first bad command of a malformed stream. -/
  bad : Option Nat := none
  deriving DecidableEq, Repr

/-- A request that waits at a ladder (R269). -/
structure LadderReq where
  who : ElemAt
  region : Fin 16
  tokens : List Token
  len : Nat
  cut : Nat
  deriving DecidableEq, Repr

/-- A direction of travel on the grid (R153). -/
inductive Dir where
  | n | e | s | w
  deriving DecidableEq, Repr

/-! ### Board (R101) -/

/-- Parties that write on the board. -/
inductive Party where
  | core (c : Fin 64)
  | stream (a : ElemAt)
  | queue (c : Fin 64) (q : QReg)
  | fabric (die : Fin 4) (r : Fin 16)
  /-- A core's configuration path (R214), a task's completion record and late status dwords (R186, R315), the loader of a die (R357). -/
  | config (c : Fin 64)
  | task (id : BitVec 32)
  | device (die : Fin 4)
  | host
  deriving DecidableEq, Repr

/-- An entry of a path FIFO. -/
inductive PathItem where
  | write (by' : Party) (w : GWrite)
  | row (stream : ElemAt) (n : Nat) (w : GWrite)
  | marker (id : Nat)
  deriving DecidableEq, Repr

/-- Who waits for a release (R109, R110, R115, R116). -/
inductive RelFor where
  | core (c : Fin 64)
  | flm (c : Fin 64) (tag : Tag)
  | retire (die : Fin 4) (r : Fin 16)
  deriving DecidableEq, Repr

/-- A release in progress. -/
structure Release where
  id : Nat
  who : RelFor
  parties : List Party
  /-- Rows that named streams had issued when the release was asked (R110, R115). -/
  rows : List (ElemAt × Nat)
  sent : Bool := false
  /-- Paths on which its marker has not been gathered. -/
  waiting : List PathId := []
  deriving DecidableEq, Repr

/-! ### Tasks (R29, R36) -/

inductive TaskState where
  | queued | ready | placing | running | drained | frozen | retired | refused | failed
  deriving DecidableEq, Repr

/-- A row of a task that missed (R290, R372): its number and seq, the table's entry, the steer.ert that probed, the parked rows that have
yet to end their miss, and whether one has been replayed. -/
structure Miss where
  id : Nat
  rows : Nat := 1
  seq : BitVec 16
  entry : Nat
  steer : ElemAt
  replayed : Bool := false
  deriving DecidableEq, Repr

/-- A task as the TQU holds it. -/
structure Task where
  id : BitVec 32
  die : Fin 4
  st : TaskState := .queued
  spilled : Bool := false
  /-- Bytes 0 to 127 of the launch header (R312). -/
  hdr : List Word
  hdrAddr : Word
  /-- Launching core, its tag and its ASID. -/
  by' : Fin 64
  tag : Tag
  /-- ASID under which the header was read. -/
  hdrAsid : BitVec 13
  user : Bool
  /-- The task that issued the enq, none for a dispatcher (R311). -/
  parent : Option (BitVec 32) := none
  /-- ASID of the task (R312). -/
  asid : BitVec 13
  /-- Order of acceptance in the module. -/
  order : Nat
  /-- Entry of the spill area that it takes while spilled (R317). -/
  spillSlot : Nat := 0
  /-- A predecessor has failed (R319). -/
  predFailed : Bool := false
  region : Option (Fin 16) := none
  core : Option (Fin 16) := none
  /-- Placement chosen (R321). -/
  frame : Option Frame := none
  /-- Admitted time T and slack, ns (R323, R326), and the Cf, Cw and ladder requests that T was computed with (R325). -/
  admitted : Nat := 0
  comp : Nat × Nat × Nat := (0, 0, 0)
  slack : Int := 0
  start : Nat := 0
  /-- Excluded fault time, that of it before the start, miss time charged, running time, ns. -/
  faultTime : Nat := 0
  faultPrior : Nat := 0
  missTime : Nat := 0
  runTime : Nat := 0
  /-- Rows that missed and have not reached a merge by seq or the end of their arm. -/
  misses : List Miss := []
  /-- Context block: address, size, form and level (R341). -/
  ctx : Option (Word × Nat × Nat × Nat) := none
  /-- Saved state of the region as plain data: core, elements, tiles and MT bytes, by the image's own coordinates. -/
  savedCore : Option CoreState := none
  savedElems : List (Nat × Elem) := []
  savedTiles : List (Nat × Tile) := []
  /-- Tokens in crossing stages (tile, direction and channel) and in the dynamic network. -/
  savedStages : List (Nat × Dir × Nat × List Token) := []
  savedPackets : List (Nat × Nat × Fin 4 × Token) := []
  savedMt : List (Nat × Byte) := []
  /-- The latest work identifier whose boundary a source of the saved region had passed (R304). -/
  savedPassed : Nat := 0
  /-- Placement it was saved under. -/
  savedFrame : Option Frame := none
  /-- Frozen by a fault checkpoint and not yet reported serviced (R336). -/
  needService : Bool := false
  /-- The driver has ended it while a freeze-save was in progress (R345). -/
  endAsked : Bool := false
  /-- Releases of its saves and of its end in progress; its completion record has been written; its withheld write has been reported (R38, R116). -/
  rels : List Nat := []
  recorded : Bool := false
  told : Bool := false
  /-- The record's write has been withheld (R335). -/
  recordFaulted : Bool := false
  /-- Cause, refusal code and refused stage once ended (R315). -/
  cause : Nat := 0
  code : Nat := 0
  stage : Nat := 0
  /-- The event of a passed miss budget has been reported, and the entry of the miss that passed it (R372). -/
  missReported : Bool := false
  missEntry : Nat := 0
  deriving DecidableEq, Repr

/-- A status dword of an ended command whose write is withheld, or waits to be tried again (R186, R335): the task that it ended with,
and the region and detail of its report. -/
structure LateStatus where
  cmd : Command
  st : CmdStatus
  task : BitVec 32
  region : Nat
  detail : Word
  withheld : Bool := true
  deriving DecidableEq, Repr

/-- What an invalidation covers (R351, R368): pages of one ASID or of every one, all of an ASID, or everything. -/
inductive InvScope where
  | range (asid : Option (BitVec 13)) (base pages : Nat)
  | space (asid : BitVec 13)
  | all
  deriving DecidableEq, Repr

/-- A translation that a cache holds: a page, or a 256 MiB piece of one (R353). -/
structure TlbEntry where
  asid : BitVec 13
  base : Nat
  bits : Nat
  pa : Nat
  w : Bool
  u : Bool
  na : Bool := false
  deriving DecidableEq, Repr

/-- Who asks for a translation (R353): a core, a tile with the TLB of its TFU or AG, or any other party of a die, by the last-level TLB
alone. -/
inductive Asker where
  | die (d : Fin 4)
  | core (c : Fin 64)
  | tile (die : Fin 4) (x y : Nat)
  deriving DecidableEq, Repr

/-- A walk in progress (R349, R363): who asked, the address, the table that it reads next and the levels it has still to read, the move in
which it began, and the one in which it has found a fault. -/
structure Walk where
  who : Asker
  asid : BitVec 13
  va : Nat
  table : Nat
  left : Nat
  began : Nat
  failed : Option Nat := none
  deriving DecidableEq, Repr

/-- Registers and counters of one die's TQU block (R317, R328, R351). -/
structure Tqu where
  spillBase : Word := 0
  spillCap : Word := 0
  tqErr : Word := 0
  drainLim : Word := 20000
  ctxBase : Word := 0
  ctxCap : Word := 0
  faultLim : Word := 50000
  wakeLim : Word := 10000
  trapSel : Word := 0
  asidBase : Word := 0
  invAddr : Word := 0
  /-- The invalidation in progress, and the move in which INVCMD was written (R355). -/
  inv : Option InvScope := none
  invAt : Nat := 0
  invLost : Bool := false
  loadLost : Bool := false
  accepted : BitVec 30 := 0
  /-- Banks whose refill an error holds (R318). -/
  refillHeld : List Nat := []
  /-- Outcomes of the last 4,096 ended tasks: identifier and whether it retired (R314). -/
  history : List (BitVec 32 × Bool) := []
  deriving DecidableEq, Repr

/-- A packet of the dynamic network: the router where it stands, the input where its edge ends, the element that sent it, and the token
(R15). -/
structure NetPacket where
  x : Nat
  y : Nat
  dest : ElemAt
  input : Fin 4
  sender : ElemAt
  tok : Token
  deriving DecidableEq, Repr

/-- One die. -/
structure Die where
  regions : Vector Region 16 := Vector.replicate 16 {}
  cursor : Cursor := {}
  ladders : Vector (List LadderReq) 4 := Vector.replicate 4 []
  /-- Packets of the dynamic network, oldest first (R15). -/
  packets : List NetPacket := []
  /-- RDC copies by physical granule (R101). -/
  rdc : Map (Option Word) := []
  tqu : Tqu := {}
  /-- The last-level TLB, at most 3,072 entries, newest first (R353). -/
  tlb : List TlbEntry := []
  /-- DIECLK: state in force, state asked, held, busy, trip (R389). -/
  clk : Fin 4 := 0
  clkAsked : Fin 4 := 0
  clkHeld : Bool := false
  clkBusy : Bool := false
  /-- Model's own: the last state in force that was not a stop. -/
  clkLast : Fin 4 := 0
  trip : Bool := false
  blkpwr : Word := 0
  blkstat : Word := 0
  fires : Word := 0
  uecnt : Word := 0
  refusedCnt : Word := 0
  refusals : Word := 0
  deriving DecidableEq, Repr

/-! ### Expert residency table (R364 to R369) -/

/-- One entry of the table. -/
structure ErtEntry where
  v : Bool := false
  pages : Nat := 0
  layer : Nat := 0
  expert : Nat := 0
  src : Nat := 0
  cls : Fin 16 := 0
  window : Nat := 0
  leaf : Nat := 0
  parked : Nat := 0
  refcnt : Nat := 0
  slot : Nat := 0
  use : Bool := false
  /-- 0 absent, 1 fetching, 2 resident, 3 pinned. -/
  state : Fin 4 := 0
  /-- An eviction waits for the reference count (R218). -/
  evicting : Bool := false
  /-- Slot steps of the sweep in progress; the last sweep found no slot and nothing has changed since; event 14 has been reported for the
  miss (R368). -/
  steps : Nat := 0
  swept : Bool := false
  told : Bool := false
  /-- Fetches that have completed (R308). -/
  gen : Nat := 0
  /-- Slot assigned to the fetch. -/
  hasSlot : Bool := false
  /-- The source has failed during the present fetch (R371). -/
  srcFailed : Bool := false
  /-- The move at which the present fetch was asked for: the older one of a class sweeps first (R373). -/
  asked : Nat := 0
  deriving DecidableEq, Repr

/-- A slot class (R366). -/
structure ErtClass where
  v : Bool := false
  base : Nat := 0
  size : Nat := 0
  count : Nat := 0
  limit : Nat := 0
  hand : Nat := 0
  asid : BitVec 13 := 0
  all : Bool := false
  deriving DecidableEq, Repr

/-- A pin, fetch or evict command that waits on an entry (R218). -/
structure ErtWait where
  entry : Nat
  core : Fin 64
  tag : Tag
  /-- The task that issued it, none for a dispatcher. -/
  task : Option (BitVec 32) := none
  /-- 0 waits to be pinned, 1 waits to be resident, 2 waits to be absent. -/
  kind : Nat
  deriving DecidableEq, Repr

structure Ert where
  base : Word := 0
  en : Bool := false
  disabling : Bool := false
  err : Nat := 0
  errIndex : Nat := 0
  entries : Map ErtEntry := []
  classes : Vector ErtClass 16 := Vector.replicate 16 {}
  waits : List ErtWait := []
  /-- Fetches that wait at the ERT for a queue entry, in order (R369). -/
  wanting : List Nat := []
  /-- Fetch queues of the two tier ports, oldest first. -/
  queue : Vector (List Nat) 2 := Vector.replicate 2 []
  /-- Slots whose invalidation after an eviction has not completed: class and slot (R368). -/
  freeing : List (Fin 16 × Nat) := []
  /-- What those invalidations cover, and the move in which each began (R368). -/
  dropping : List (InvScope × Nat) := []
  deriving DecidableEq, Repr

/-! ### Host side (R374 to R394) -/

/-- An event record (R329): its four dwords. -/
structure EventRec where
  d0 : Word
  d1 : Word
  d2 : Word
  d3 : Word
  deriving DecidableEq, Repr

/-- A posted receive, or a send taken from its queue: the entry's dwords, and the number by which the model names it (R387). -/
structure EthPost where
  dwords : List Word
  id : Nat
  /-- A send has its connection; until then it waits for one (R385). -/
  begun : Bool := true
  deriving DecidableEq, Repr

/-- A message being received. -/
structure EthMsg where
  id : Nat
  post : List Word
  pkt : Packet
  /-- Offsets that have landed, and bytes of the message that have arrived. -/
  got : List Nat
  moved : Nat
  deriving DecidableEq, Repr

/-- One Ethernet port (R386, R387). -/
structure EthPort where
  en : Bool := false
  mac : BitVec 48 := 0
  fepLo : Word := 0
  fepHi : Word := 0
  lanes : Fin 3 := 0
  qbase : Word := 0
  qcap : Word := 0
  txpkts : Word := 0
  rxpkts : Word := 0
  drops : Word := 0
  retx : Word := 0
  recvs : List EthPost := []
  sends : List EthPost := []
  msgs : List EthMsg := []
  /-- Messages of reliable ordered delivery that have not completed, in send order: source, its process, number, and when one was last
  refused; and messages that have completed (R385, R387). -/
  ordered : List (BitVec 128 × BitVec 16 × Nat × Option Nat) := []
  past : List Nat := []
  /-- Completions held while the completion queue is full. -/
  held : List (List Word) := []
  /-- MSI-X vectors of function 1 raised by the port. -/
  msix : Nat := 0
  deriving DecidableEq, Repr

/-- A load context's bound symbol: name, section kind and address (R282). -/
structure Symbol where
  ctx : BitVec 13
  name : List Byte
  value : Nat
  body : List Byte
  weak : Bool
  deriving DecidableEq, Repr

/-- The management space and what stands behind it. -/
structure HostSide where
  evten : Bool := false
  tieren : Bool := false
  linken : Bool := false
  booted : Bool := false
  bootFailed : Bool := false
  bootError : Nat := 0
  bootAddr : Word := 0
  evtBase : Word := 0
  evtCap : Word := 0
  evtProd : BitVec 32 := 0
  evtCons : BitVec 32 := 0
  evtLost : Word := 0
  domid : Word := 0
  grpBase : Word := 0
  dispSel : Word := 0
  ngrt : Vector Word 64 := Vector.replicate 64 0
  ngUp : Vector Bool 36 := Vector.replicate 36 false
  ngPeer : Vector (Fin 64 × Fin 36) 36 := Vector.replicate 36 (0, 0)
  ngReplays : Vector (BitVec 32) 36 := Vector.replicate 36 0
  tierRange : Vector (Word × Word) 32 := Vector.replicate 32 (0, 0)
  lreplay : Word := 0
  /-- Event records not yet written, oldest first, at most 256 (R377). -/
  held : List EventRec := []
  /-- Times MSI-X vector 0 of function 0 has been raised. -/
  msix : Nat := 0
  /-- Load requests queued: the die whose register took each, and the physical address of its descriptor (R357). -/
  loads : List (Fin 4 × Word) := []
  /-- The load served last: its die, the address of its status and the dword, which is written once its outputs have landed (R357). -/
  loadEnd : Option (Fin 4 × Nat × Word) := none
  symbols : List Symbol := []
  deriving DecidableEq, Repr

/-! ### The moves that come next (the model's own, log 1) -/

/-- One move of the machine: a core runs its next instruction, an event happens, at an element where it is one's, a TLB keeps the
translation of an address, or drops one (R353), a walk begins or reads its next entry (R349, R363), or an element patches the extent of a
page (R354). -/
inductive Move where
  | core (c : Fin 64)
  | event (i : Instr) (at' : ElemAt)
  | tlbFill (who : Asker) (asid : BitVec 13) (va : Nat)
  | tlbDrop (who : Asker) (n : Nat)
  | walkStart (who : Asker) (asid : BitVec 13) (va : Nat)
  | walkStep (n : Nat)
  | patch (at' : ElemAt) (page : Nat)
  deriving DecidableEq, Repr

/-- A task that has read marked data: the structure, the physical address or 0, and the tile where there is one (R394). -/
structure Doom where
  task : BitVec 32
  struct : Nat
  addr : Word := 0
  tile : Option Word := none
  deriving DecidableEq, Repr

/-- The whole machine. -/
structure State where
  cores : Vector CoreState 64 := Vector.replicate 64 {}
  dies : Vector Die 4 := Vector.replicate 4 {}
  /-- Elements and tiles by number (`ekey`, `tkey`). -/
  elems : Map Elem := []
  tiles : Map Tile := []
  /-- Crossing stages of the static channels by number (`stageKey`), and the channel that goes first at the next grant of each link (R51, log 111). -/
  stages : Map (List Token) := []
  granted : Map Nat := []
  /-- MT contents by tile number times 2 MiB plus offset (R18). -/
  mt : List Host.Cell := []
  /-- Changes of role or interleave: count, and the number of the last one of each MT; its bytes are free since (R343, log 18). -/
  mtChanges : Nat := 0
  mtGen : Map Nat := []
  /-- Home copies by physical address; an unlisted byte reads 0 (log 3). -/
  mem : List Host.Cell := []
  /-- Physical granules marked uncorrectable (R394). -/
  marked : List Nat := []
  /-- Granules of the MTs marked uncorrectable (R394). -/
  mtMarked : List Nat := []
  /-- Tasks whose data read met marked data: they fail after this move (R394). -/
  doomed : List Doom := []
  paths : List (PathId × List PathItem) := []
  /-- Rows that wait in landing ports: row number, the path they came on and the write (R106). -/
  landing : List (LandingId × List (Nat × PathId × GWrite)) := []
  pathSets : List (Party × List PathId) := []
  releases : List Release := []
  /-- Ranks of collectives that have completed while others of the match still use what they read (R205). -/
  exchanged : List (Fin 64 × Command × CollRun) := []
  /-- Rows of landing ports that their destination has refused: the port and the row number (R118). -/
  rowFaults : List (LandingId × Nat) := []
  /-- Data dwords whose coordinates a placement has moved: physical address, value in the object, value written (R359). -/
  tileIds : List (Nat × Word × Word) := []
  /-- Next number for a release, barrier or fence. -/
  nextId : Nat := 0
  tasks : List Task := []
  /-- Status dwords of ended commands that are withheld (R335). -/
  late : List LateStatus := []
  /-- TLBs of cores and tiles, newest entry first (R353), and the walks in progress (R349). -/
  tlbs : List (Asker × List TlbEntry) := []
  walks : List Walk := []
  ert : Ert := {}
  host : HostSide := {}
  eth : Vector EthPort 16 := Vector.replicate 16 {}
  /-- Nanosecond counter TIME (R375). -/
  time : Nat := 0
  /-- Model's own: the moves that come next (log 1). -/
  agenda : List Move := []
  /-- Model's own: the core that runs when the agenda is empty, and the element whose step is taken. -/
  cur : Fin 64 := 0
  focus : ElemAt := { die := 0, x := 0, y := 0, e := 0 }
  /-- Model's own: moves taken, and uses of free values (log 4, log 22). -/
  moves : Nat := 0
  free : Nat := 0
  /-- Model's own: moves taken at the last module reset, from which the counters of R393 count (log 20). -/
  since : Nat := 0
  /-- Model's own: the value last returned to the host (log 17). -/
  hostOut : List Word := []
  deriving DecidableEq, Repr

/-- The machine right after module reset: every field at its reset value (R162, R165, R317, R328, R375, R378). -/
def State.reset : State := {}

end Sys2Proof.Machine
end

