-- ==== Sys2Proof/Machine/Ops.lean ====
section
/-!
DEFINITION. The named operations on registers, system registers, traps, events and home copies of memory.
-/
namespace Sys2Proof.Machine

abbrev Out := Host.Outcome State Fault Refusal

/-- Reads one place of a fixed file. -/
def getF {α : Type} {n : Nat} (v : Vector α n) (i : Fin n) : α := v[i.val]
/-- Replaces one place of a fixed file. -/
def setF {α : Type} {n : Nat} (v : Vector α n) (i : Fin n) (x : α) : Vector α n := v.set i.val x i.isLt

/-! ### Cores and dies -/

def State.core (s : State) (c : Fin 64) : CoreState := getF s.cores c
def State.setCore (s : State) (c : Fin 64) (k : CoreState) : State := { s with cores := setF s.cores c k }
def State.die (s : State) (d : Fin 4) : Die := getF s.dies d
def State.setDie (s : State) (d : Fin 4) (k : Die) : State := { s with dies := setF s.dies d k }
/-- The core that runs. -/
def State.me (s : State) : CoreState := s.core s.cur
def State.setMe (s : State) (k : CoreState) : State := s.setCore s.cur k

/-- Die of a core, its number on the die, and back (R380: c = 16d + k). -/
def dieOf (c : Fin 64) : Fin 4 := ⟨c.val / 16, by omega⟩
def slotOf (c : Fin 64) : Fin 16 := ⟨c.val % 16, by omega⟩
def coreOf (d : Fin 4) (k : Fin 16) : Fin 64 := ⟨16 * d.val + k.val, by omega⟩

/-- read_g and write_g (R120, R161): g0 reads 0 and discards writes. -/
def CoreState.readG (k : CoreState) (r : Reg) : Word := if r = 0 then 0 else getF k.g r
def CoreState.writeG (k : CoreState) (r : Reg) (v : Word) : CoreState := if r = 0 then k else { k with g := setF k.g r v }
def State.rd (s : State) (r : Reg) : Word := s.me.readG r
def State.wr (s : State) (r : Reg) (v : Word) : State := s.setMe (s.me.writeG r v)
def State.rdP (s : State) (p : PReg) : Bool := getF s.me.p p
def State.wrP (s : State) (p : PReg) (b : Bool) : State := s.setMe { s.me with p := setF s.me.p p b }

/-- A byte offset into code memory has bits 63:18 zero (R127; past the last word it wraps, log 23). -/
def pcWrap (a : Word) : Word := a &&& 0x3FFFF
def State.nextPc (s : State) : Word := pcWrap (s.me.pc + 4)
def State.setPc (s : State) (v : Word) : State := s.setMe { s.me with pc := v }
/-- Goes on to the next instruction. -/
def State.advance (s : State) : State := s.setPc s.nextPc

/-- Replaces one bit. -/
def putBit (w : Word) (i : Nat) (b : Bool) : Word := if b then w ||| (1#64 <<< i) else w &&& ~~~(1#64 <<< i)

/-- Supervisor mode of the running core (R164). -/
def State.sv (s : State) : Bool := s.me.status.getLsbD 3
def CoreState.th (k : CoreState) : Bool := k.status.getLsbD 4
def CoreState.ie (k : CoreState) : Bool := k.status.getLsbD 0

/-- mfsr: the value of a system register (R165). -/
def CoreState.sysReg (k : CoreState) : SysReg → Word
  | .status => k.status
  | .cause => k.cause
  | .trappc => k.trappc
  | .badaddr => k.badaddr
  | .asid => k.asid
  | .prio => k.prio
  | .tags => k.tags
  | .wid => k.wid
  | .widw => k.widw

/-- Writable bits of STATUS in supervisor mode: SHAPECHG, SV, PSV, PIE, IE (R166). -/
def statusMask : Word := 0x10F

/-- mtsr under R166 for the registers that software may write; reserved bits read as zero (R6). -/
def CoreState.writeSys (k : CoreState) (sv : Bool) : SysReg → Word → CoreState
  | .status, v =>
    let m : Word := if sv then statusMask else 0x100
    { k with status := (k.status &&& ~~~m) ||| (v &&& m) }
  | .trappc, v => { k with trappc := v &&& 0x3FFFC }
  | .asid, v => { k with asid := v &&& 0x1FFF }
  | .wid, v => { k with wid := v }
  | .cause, _ | .badaddr, _ | .prio, _ | .tags, _ | .widw, _ => k

/-! ### Events (R329, R377) -/

/-- Records not yet consumed. -/
def HostSide.evtUsed (h : HostSide) : Nat := (h.evtProd - h.evtCons).toNat
/-- Capacity of the event queue in records: 2^4 to 2^16 by EVTCAP, and open beyond that (R375, log 122). -/
def HostSide.evtSize (h : HostSide) : Nat :=
  let n := bits h.evtCap.toNat 0 5
  2 ^ (if 4 ≤ n ∧ n ≤ 16 then n else (Config.oddSize n).toNat)

/-- A record that can be written waits for its write; while the queue is full or EVTEN is 0 there are 256 internal places, and a further
record is dropped and counted (R377). -/
def HostSide.hold (h : HostSide) (e : EventRec) : HostSide :=
  if decide (h.held.length < 256) || (h.evten && decide (h.evtUsed ≠ h.evtSize)) then { h with held := h.held ++ [e] }
  else { h with evtLost := h.evtLost + 1 }

/-- An event record with its code, die, region, bits 63:32, task, address and detail (R329). -/
def eventRec (code : Nat) (die : Fin 4) (region hi : Nat) (task : BitVec 32) (addr detail : Word) : EventRec :=
  { d0 := BitVec.ofNat 64 (code + die.val * 2 ^ 8 + region * 2 ^ 10 + hi % 2 ^ 32 * 2 ^ 32)
    d1 := task.zeroExtend 64, d2 := addr, d3 := detail }

def State.report (s : State) (e : EventRec) : State := { s with host := s.host.hold e }

/-- The region a core owns: the present region whose owner it is (R23). -/
def ownedIndex (d : Die) (k : Fin 16) : Option (Fin 16) :=
  (List.finRange 16).find? fun r => (getF d.regions r).present && decide ((getF d.regions r).owner = some k)

def State.ownRegion (s : State) (c : Fin 64) : Option (Fin 16) := ownedIndex (s.die (dieOf c)) (slotOf c)
def regionNo (r : Option (Fin 16)) : Nat := match r with | some r => r.val | none => 0
def taskNo (t : Option (BitVec 32)) : BitVec 32 := t.getD 0

/-! ### Taking an exception (R167 to R169) and returning from it (R183) -/

/-- Core trap causes with their codes (R330). -/
inductive Cause where
  | illegal | privilege | port | fetchRange | addressRange | alignment | translation | protection | atomicTarget
  | shapeRequest | software | async
  deriving DecidableEq, Repr

def Cause.code : Cause → Nat
  | .illegal => 0x01
  | .privilege => 0x02
  | .port => 0x03
  | .fetchRange => 0x04
  | .addressRange => 0x05
  | .alignment => 0x06
  | .translation => 0x07
  | .protection => 0x08
  | .atomicTarget => 0x09
  | .shapeRequest => 0x0A
  | .software => 0x0B
  | .async => 0x10

/-- A trap with what it stores (R169). -/
structure TrapReq where
  cause : Cause
  bad : Word := 0
  info : Nat := 0
  deriving DecidableEq, Repr

/-- Trap entry of a cause: word address 0x3_F000 + 16 × code (R330, read as the byte offset 0x3_F000 + 16 × code, log 24). -/
def trapEntry (c : Cause) : Word := BitVec.ofNat 64 (0x3F000 + 16 * c.code)

/-- The registers of a core after trap entry (R168, R169). -/
def CoreState.enterTrap (k : CoreState) (t : TrapReq) (ret : Word) : CoreState :=
  { k with
    status := putBit (putBit (putBit (putBit (putBit k.status 2 (k.status.getLsbD 3)) 1 (k.status.getLsbD 0)) 3 true) 0 false)
      4 true
    cause := BitVec.ofNat 64 (t.info % 2 ^ 32 * 2 ^ 32 + t.cause.code)
    trappc := ret
    badaddr := t.bad
    pc := trapEntry t.cause }

/-- A synchronous trap of core `c` at its pc. A second one inside a handler stops the core and reports event 3 (R168). -/
def State.trapAt (s : State) (c : Fin 64) (t : TrapReq) : State :=
  let k := s.core c
  let k' : CoreState := { k with waiting := false, amo := none, rel := none, hdrHeld := false, hdrFaulted := false }
  if k.th then
    (s.setCore c { k' with run := .stopped, before := .stopped }).report
      (eventRec 3 (dieOf c) (regionNo (s.ownRegion c)) t.cause.code (taskNo k.task) k.pc (BitVec.ofNat 64 (slotOf c).val))
  else
    let ret := if t.cause = .software then pcWrap (k.pc + 4) else k.pc
    s.setCore c (k'.enterTrap t ret)

/-- A synchronous trap of the running core. -/
def State.trap (s : State) (t : TrapReq) : State := s.trapAt s.cur t

/-- eret's effect on the registers (R183). -/
def CoreState.returnTrap (k : CoreState) : CoreState :=
  { k with
    status := putBit (putBit (putBit k.status 3 (k.status.getLsbD 2)) 0 (k.status.getLsbD 1)) 4 false
    pc := k.trappc }

/-- The core stops at its instruction boundary; a wait or release in progress is abandoned (R186). -/
def State.stopCore (s : State) (c : Fin 64) : State :=
  let k := s.core c
  match k.run with
  | .running | .halted => s.setCore c { k with run := .stopped, before := k.run, waiting := false, amo := none, rel := none, hdrHeld := false, hdrFaulted := false }
  | .stopped => s.setCore c { k with waiting := false, amo := none, rel := none, hdrHeld := false, hdrFaulted := false }
  | .held => s

/-- The word at the running core's pc (R127). -/
def CoreState.word (k : CoreState) : Word32 := Map.get (0xFFFF_FFFF : Word32) (k.pc.toNat / 4) k.code
def State.fetchWord (s : State) : Word32 := s.me.word

/-! ### Home copies of memory, byte order in one place (R5, R98) -/

/-- A byte of a home copy by physical address; one nothing has written reads 0 (log 3). -/
def State.byte (s : State) (a : Nat) : Byte := Map.get (0 : Byte) a s.mem
def memWrite (m : List Host.Cell) (a : Nat) (b : Byte) : List Host.Cell := Map.put (0 : Byte) a b m
/-- The canonical form of a memory: addresses strictly rising, no entry that equals what an unlisted address reads as. -/
def memWf (m : List Host.Cell) : Bool := Map.canon (0 : Byte) m

/-- Byte `i` of a dword, little-endian. -/
def byteOf (v : Word) (i : Nat) : Byte := (v >>> (8 * i)).truncate 8
/-- Eight bytes as a dword, little-endian. -/
def dword (f : Nat → Byte) : Word :=
  (f 7 ++ f 6 ++ f 5 ++ f 4 ++ f 3 ++ f 2 ++ f 1 ++ f 0 : BitVec 64)

/-- Writes the bytes that `mask` names of granule `g`. -/
def writeBytes (m : List Host.Cell) (g : Nat) (mask : BitVec 8) (v : Word) : Nat → List Host.Cell
  | 0 => m
  | i + 1 =>
    let m' := writeBytes m g mask v i
    if mask.getLsbD i then memWrite m' (8 * g + i) (byteOf v i) else m'

/-- The value of a granule in a memory. -/
def granuleOf (m : List Host.Cell) (g : Nat) : Word := dword fun i => Map.get (0 : Byte) (8 * g + i) m

/-- Home copy of a granule. -/
def State.home (s : State) (g : Nat) : Word := granuleOf s.mem g
/-- Sets a home copy; a whole write clears the mark of an uncorrectable error (R394). -/
def State.setHome (s : State) (w : GWrite) : State :=
  { s with
    mem := writeBytes s.mem w.granule w.mask w.value 8
    marked := if w.mask = 0xFF then s.marked.filter (· ≠ w.granule) else s.marked }

/-- What a byte of the MTs reads as while nothing has written it: 0, or a free value after a change of role (R343, log 18). -/
def State.mtDefault (s : State) (a : Nat) : Byte :=
  match Map.get 0 (a / 2 ^ 21) s.mtGen with
  | 0 => 0
  | n + 1 => Config.mtByte (n + 1) a

/-- A byte of the MTs, by tile number times 2 MiB plus offset. -/
def State.mtByte (s : State) (a : Nat) : Byte := Map.get (s.mtDefault a) a s.mt
def State.setMtByte (s : State) (a : Nat) (b : Byte) : State := { s with mt := Map.put (s.mtDefault a) a b s.mt }
def State.mtGranule (s : State) (g : Nat) : Word := dword fun i => s.mtByte (8 * g + i)
/-- A whole write of a granule of the MTs clears the mark of an uncorrectable error (R394). -/
def State.unmarkMt (s : State) (g : Nat) (mask : BitVec 8) : State :=
  if mask = 0xFF then { s with mtMarked := s.mtMarked.filter (· ≠ g) } else s
/-- Writes the bytes that a mask names of a granule of the MTs. -/
def State.setMtGranule (s : State) (g : Nat) (mask : BitVec 8) (v : Word) : Nat → State
  | 0 => s
  | i + 1 =>
    let s' := s.setMtGranule g mask v i
    if mask.getLsbD i then s'.setMtByte (8 * g + i) (byteOf v i) else s'
/-- The contents of an MT become free. -/
def State.loseMt (s : State) (mt : Nat) : State :=
  { s with mt := s.mt.filter fun c => c.1 / 2 ^ 21 != mt, mtMarked := s.mtMarked.filter fun g => g / 2 ^ 18 != mt, mtChanges := s.mtChanges + 1
           mtGen := Map.set mt (s.mtChanges + 1) s.mtGen }

/-- Merges the bytes that a mask names into a dword. -/
def mergeBytes (old : Word) (mask : BitVec 8) (v : Word) : Word :=
  dword fun i => if mask.getLsbD i then byteOf v i else byteOf old i

/-- A private data memory access (R163): an aligned granule of the 64 KiB. -/
def CoreState.privGranule (k : CoreState) (g : Nat) : Word := granuleOf k.priv g
def CoreState.privWrite (k : CoreState) (w : GWrite) : CoreState :=
  { k with priv := writeBytes k.priv w.granule w.mask w.value 8 }

/-! ### Elements and tiles -/

/-- Number of an element, and of a tile (log 25: the model's numbering). -/
def ekey (a : ElemAt) : Nat := ((a.die.val * 32 + a.x) * 32 + a.y) * 16 + a.e
def tkey (d : Fin 4) (x y : Nat) : Nat := (d.val * 32 + x) * 32 + y
/-- The element with a given number. -/
def elemOfKey (k : Nat) : ElemAt :=
  { die := ⟨k / 16384 % 4, by omega⟩, x := k / 512 % 32, y := k / 16 % 32, e := k % 16 }

def State.elem (s : State) (a : ElemAt) : Elem := Map.get {} (ekey a) s.elems
def State.setElem (s : State) (a : ElemAt) (e : Elem) : State := { s with elems := Map.set (ekey a) e s.elems }
def State.tile (s : State) (d : Fin 4) (x y : Nat) : Tile := Map.get {} (tkey d x y) s.tiles
def State.setTile (s : State) (d : Fin 4) (x y : Nat) (t : Tile) : State := { s with tiles := Map.set (tkey d x y) t s.tiles }
/-- The element in focus. -/
def State.fe (s : State) : Elem := s.elem s.focus

/-- Field `f` of an element (R151). -/
def Elem.field (e : Elem) (f : Nat) : Nat := Map.get 0 f e.fields
def Elem.setField (e : Elem) (f v : Nat) : Elem := { e with fields := Map.put 0 f v e.fields }
/-- Constant c(i) (R151). -/
def Elem.const (e : Elem) (i : Nat) : Nat := e.field (16 + i)

end Sys2Proof.Machine
end

