-- ==== Sys2Proof/Machine/Header.lean ====
section
/-!
DEFINITION. Fields of a launch header (R312) and the level of a boundary between work identifiers (R34).
-/
namespace Sys2Proof.Machine

def Task.dw (t : Task) (i : Nat) : Word := t.hdr.getD i 0
/-- First and last work identifier (R312, R33). -/
def Task.first (t : Task) : Nat := (t.dw 2).toNat
def Task.last (t : Task) : Nat := (t.dw 3).toNat
/-- Field widths w0 to w5 (R312). -/
def Task.widths (t : Task) : List Nat := (List.range 6).map fun k => bits (t.dw 1).toNat (7 * k) 7

/-- Level of the boundary v − 1 to v: the highest field that changes (R34). -/
def barrierLevel (ws : List Nat) (v : Nat) : Option Nat :=
  let lo (k : Nat) : Nat := (ws.take k).foldl (· + ·) 0
  let differs (k : Nat) : Bool := bits (v - 1) (lo k) (ws.getD k 0) != bits v (lo k) (ws.getD k 0)
  match (List.range ws.length).reverse.find? differs with
  | some l => if l < (ws.filter (· ≠ 0)).length then some l else none
  | none => none

def Task.ctl (t : Task) : Nat := (t.dw 0).toNat
def Task.prio (t : Task) : Nat := bits t.ctl 24 8
/-- The task is bounded. -/
def Task.bounded (t : Task) : Bool := t.ctl.testBit 23
def Task.npred (t : Task) : Nat := bits t.ctl 20 3
/-- Identifiers of the predecessors named. -/
def Task.preds (t : Task) : List (BitVec 32) :=
  (List.range t.npred).map fun k => BitVec.ofNat 32 (bits (t.dw (8 + k / 2)).toNat (32 * (k % 2)) 32)
def Task.textAt (t : Task) : Nat := (t.dw 4).toNat
def Task.textWords (t : Task) : Nat := bits (t.dw 5).toNat 0 16 + 1
def Task.entry (t : Task) : Nat := bits (t.dw 5).toNat 16 16
def Task.imageAt (t : Task) : Nat := (t.dw 6).toNat
def Task.commands (t : Task) : Nat := bits (t.dw 7).toNat 0 24
def Task.w (t : Task) : Nat := bits (t.dw 7).toNat 24 3
def Task.h (t : Task) : Nat := bits (t.dw 7).toNat 27 3
def Task.blocks (t : Task) : Nat := t.w * t.h
def Task.bound (t : Task) : Nat := bits (t.dw 10).toNat 0 32
def Task.budget (t : Task) : Nat := bits (t.dw 10).toNat 32 32
def Task.cw (t : Task) : Nat := bits (t.dw 11).toNat 0 32
def Task.cf (t : Task) : Nat := bits (t.dw 11).toNat 32 32
def Task.bw (t : Task) : Nat := bits (t.dw 12).toNat 0 32
def Task.share (t : Task) : Nat := bits (t.dw 12).toNat 32 8
def Task.ladders (t : Task) : Nat := bits (t.dw 12).toNat 40 4
def Task.group (t : Task) : Nat := bits (t.dw 13).toNat 0 16
def Task.stageNo (t : Task) : Nat := bits (t.dw 13).toNat 16 4
def Task.stages (t : Task) : Nat := bits (t.dw 13).toNat 20 4
/-- Queue declarations in use. -/
def Task.queues (t : Task) : List Nat := ([t.dw 14, t.dw 15].map BitVec.toNat).filter fun q => q.testBit 63
/-- Work identifiers of the range. -/
def Task.range (t : Task) : Nat := t.last - t.first + 1

/-- `n` free values have been used (log 22). -/
def State.useFree (s : State) (n : Nat) : State := { s with free := s.free + n }

end Sys2Proof.Machine
end

