-- ==== Sys2Proof/Machine/Fabric.lean ====
section
/-!
DEFINITION. The fabric's geometry, routes, edges, queues and credits, the record of an element trap, and the firing rule.
-/
namespace Sys2Proof.Machine

/-! ### Geometry (R10 to R12, R22, R149) -/

inductive TileKind where
  | ct | mt | ag | xt | ladder | none
  deriving DecidableEq, Repr

/-- Ring positions 6 and 13 of every side hold converter tiles (R12). -/
def ringKind (p : Nat) : TileKind := if p = 6 ∨ p = 13 then .xt else .ag

/-- Kind of the tile at die coordinates: 1 to 20 is the grid, 0 and 21 the ring. -/
def tileKind (x y : Nat) : TileKind :=
  if x > 21 ∨ y > 21 then .none
  else if (x = 0 ∨ x = 21) ∧ (y = 0 ∨ y = 21) then .ladder
  else if x = 0 ∨ x = 21 then ringKind (y - 1)
  else if y = 0 ∨ y = 21 then ringKind (x - 1)
  else if x % 5 = 0 then .mt else .ct

/-- Element addresses of a kind of tile (R150). -/
def elemAssigned (k : TileKind) (e : Nat) : Bool :=
  match k with
  | .ct => e < 16
  | .mt => e < 8 || e = 15
  | .ag => e < 8
  | .xt => e = 0 || (8 ≤ e && e < 16)
  | .ladder | .none => false

/-- A region owns a site: its blocks, and the ring tiles that face them on every side it touches (R22). -/
def Region.owns (r : Region) (x y : Nat) : Bool :=
  let inX := decide (5 * r.bx + 1 ≤ x ∧ x ≤ 5 * (r.bx + r.w))
  let inY := decide (4 * r.by' + 1 ≤ y ∧ y ≤ 4 * (r.by' + r.h))
  (inX && inY) || (decide (x = 0 ∧ r.bx = 0) && inY) || (decide (x = 21 ∧ r.bx + r.w = 4) && inY)
    || (decide (y = 0 ∧ r.by' = 0) && inX) || (decide (y = 21 ∧ r.by' + r.h = 5) && inX)

/-- Region-relative coordinates to die coordinates (R149). -/
def Region.absX (r : Region) (x : Nat) : Nat := x + 5 * r.bx
def Region.absY (r : Region) (y : Nat) : Nat := y + 4 * r.by'
def Region.relX (r : Region) (x : Nat) : Nat := x - 5 * r.bx
def Region.relY (r : Region) (y : Nat) : Nat := y - 4 * r.by'

def State.region (s : State) (d : Fin 4) (r : Fin 16) : Region := getF (s.die d).regions r
def State.setRegion (s : State) (d : Fin 4) (r : Fin 16) (v : Region) : State :=
  s.setDie d { s.die d with regions := setF (s.die d).regions r v }

/-- The region that owns a site. -/
def State.regionAt (s : State) (d : Fin 4) (x y : Nat) : Option (Fin 16) :=
  (List.finRange 16).find? fun r => (s.region d r).present && (s.region d r).owns x y

/-- Gates of the site's region are open: it has committed its configuration (R25). -/
def State.gateOpen (s : State) (d : Fin 4) (x y : Nat) : Bool :=
  match s.regionAt d x y with
  | some r => (s.region d r).committed
  | none => false

/-- Elements listed for a region of a die. -/
def State.regionElems (s : State) (d : Fin 4) (r : Fin 16) : List ElemAt :=
  (s.elems.map fun e => elemOfKey e.1).filter fun a => decide (a.die = d) && (s.region d r).owns a.x a.y

/-! ### Tasks of regions -/

def State.task? (s : State) (id : BitVec 32) : Option Task := s.tasks.find? fun t => t.id == id
def State.setTask (s : State) (t : Task) : State :=
  { s with tasks := updateFirst (fun x => x.id == t.id) (fun _ => t) s.tasks }

/-- The task of the region that owns a site. -/
def State.taskAt (s : State) (a : ElemAt) : Option Task :=
  match s.regionAt a.die a.x a.y with
  | some r => (s.region a.die r).task.bind s.task?
  | none => none

/-- Power state of the block of a site: 0 on, 1 clock-gated, 2 retention, 3 off; ring sites have none (R390). -/
def State.power (s : State) (d : Fin 4) (x y : Nat) : Nat :=
  if 1 ≤ x ∧ x ≤ 20 ∧ 1 ≤ y ∧ y ≤ 20 then
    let b := 4 * ((y - 1) / 4) + (x - 1) / 5
    if (s.die d).blkstat.getLsbD b then 1 else bits (s.die d).blkpwr.toNat (2 * b) 2
  else 0

/-! ### Routes (R153, R155) -/

def dirOf (v : Nat) : Dir :=
  match v % 4 with
  | 0 => .n
  | 1 => .e
  | 2 => .s
  | _ => .w

def Dir.num : Dir → Nat
  | .n => 0
  | .e => 1
  | .s => 2
  | .w => 3

def Dir.opp : Dir → Dir
  | .n => .s
  | .e => .w
  | .s => .n
  | .w => .e

/-- A turn to the left of a direction of travel (R155). -/
def Dir.left : Dir → Dir
  | .n => .w
  | .e => .n
  | .s => .e
  | .w => .s

def Dir.right (d : Dir) : Dir := d.left.opp

/-- The neighbour in a direction. -/
def Dir.go (d : Dir) (x y : Nat) : Option (Nat × Nat) :=
  match d with
  | .n => if y = 0 then none else some (x, y - 1)
  | .e => if x ≥ 21 then none else some (x + 1, y)
  | .s => if y ≥ 21 then none else some (x, y + 1)
  | .w => if x = 0 then none else some (x - 1, y)

/-- An input end of an edge. -/
abbrev InPort := ElemAt × Fin 4

/-- The input of a tile that terminates channel `c` arriving from side `d` (R153). -/
def State.staticEnd (s : State) (die : Fin 4) (x y : Nat) (d : Dir) (c : Nat) : Option InPort :=
  (List.range 16).findSome? fun e =>
    let a : ElemAt := { die, x, y, e }
    let el := s.elem a
    (List.finRange 4).findSome? fun i =>
      let f := el.field (3 + i.val)
      if bits f 8 2 = 2 ∧ bits f 6 2 = d.num ∧ bits f 4 2 = c then some (a, i) else none

/-- An element of a tile sends on channel `c` of its link in direction `d`. -/
def State.sendsOn (s : State) (die : Fin 4) (x y : Nat) (d : Dir) (c : Nat) : Bool :=
  (List.range 16).any fun e => (List.range 2).any fun o =>
    let f := (s.elem { die, x, y, e }).field (7 + o)
    bits f 8 2 == 2 && bits f 6 2 == d.num && bits f 4 2 == c

/-- Direction in which a tile carries on a channel that travels in direction `d`: its pass map at a CT; straight on at an MT, but for a
channel on which the MT itself sends (R155). -/
def State.passOut (s : State) (die : Fin 4) (x y : Nat) (d : Dir) (c : Nat) : Option Dir :=
  match tileKind x y with
  | .mt => if s.sendsOn die x y d c then none else some d
  | .ct =>
    match bits ((s.elem { die, x, y, e := 15 }).field (16 + d.opp.num)) (2 * c) 2 with
    | 1 => some d
    | 2 => some d.left
    | 3 => some d.right
    | _ => none
  | .ag | .xt | .ladder | .none => none

/-- The region of (x, y) declares the edge of channel `c` that comes into it in direction `v`: by the input that ends it, or by the pass map
of the first CT on its way through the region's MTs (R25). -/
def State.declares (s : State) (g : Region) (die : Fin 4) (c : Nat) : Nat → Nat → Nat → Dir → Bool
  | 0, _, _, _ => false
  | fuel + 1, x, y, v =>
    g.owns x y &&
      ((s.staticEnd die x y v.opp c).isSome ||
        (match s.passOut die x y v c with
         | none => false
         | some v' =>
           if tileKind x y = .ct then true
           else match v'.go x y with
             | some (nx, ny) => s.declares g die c fuel nx ny v'
             | none => false))

/-- The gates of a link let channel `c` into (nx, ny), in direction `v` from (x, y): its region has committed, and where the link crosses
the region's edge it declares the channel's edge (R25). -/
def State.linkOpen (s : State) (die : Fin 4) (x y nx ny : Nat) (v : Dir) (c : Nat) : Bool :=
  match s.regionAt die nx ny with
  | none => false
  | some r =>
    let g := s.region die r
    g.committed && (g.owns x y || s.declares g die c 24 nx ny v)

/-- Follows a static channel that leaves (x, y) in direction `d` to the input where it ends. A closed gate on the way gives
none (R25). -/
def State.trace (s : State) (die : Fin 4) (c : Nat) : Nat → Nat → Nat → Dir → Option InPort
  | 0, _, _, _ => none
  | fuel + 1, x, y, d =>
    match d.go x y with
    | none => none
    | some (nx, ny) =>
      if s.linkOpen die x y nx ny d c then
        match s.staticEnd die nx ny d.opp c with
        | some p => some p
        | none =>
          match s.passOut die nx ny d c with
          | some d' => s.trace die c fuel nx ny d'
          | none => none
      else none

/-! ### Crossing stages and packets (R15, R25, R51, log 110, log 111) -/

/-- Number of the crossing stage of channel `c` at the sending end of the link that leaves (x, y) in direction `d` (R51). -/
def stageKey (die : Fin 4) (x y : Nat) (d : Dir) (c : Nat) : Nat := (tkey die x y * 4 + d.num) * 4 + c
/-- Tokens of a stage, the one that goes next first. -/
def State.stageAt (s : State) (k : Nat) : List Token := Map.get [] k s.stages
def State.setStage (s : State) (k : Nat) (l : List Token) : State := { s with stages := Map.put [] k l s.stages }
def State.packetsOf (s : State) (d : Fin 4) : List NetPacket := (s.die d).packets
def State.setPackets (s : State) (d : Fin 4) (l : List NetPacket) : State := s.setDie d { s.die d with packets := l }

/-- Crossing stages of the edge that reaches (x, y) from side `d` on channel `c`, from the last one back to the sender. -/
def State.behind (s : State) (die : Fin 4) (c : Nat) : Nat → Nat → Nat → Dir → List Nat
  | 0, _, _, _ => []
  | fuel + 1, x, y, d =>
    match d.go x y with
    | none => []
    | some (nx, ny) =>
      stageKey die nx ny d.opp c ::
        (if s.sendsOn die nx ny d.opp c then []
         else match [Dir.n, .e, .s, .w].find? fun i => s.passOut die nx ny i c == some d.opp with
          | some i => s.behind die c fuel nx ny i.opp
          | none => [])

/-- Crossing stages on the edge of an input, the one nearest to it first. -/
def State.edgeStages (s : State) (p : InPort) : List Nat :=
  let f := (s.elem p.1).field (3 + p.2.val)
  if bits f 8 2 = 2 then s.behind p.1.die (bits f 4 2) 64 p.1.x p.1.y (dirOf (bits f 6 2)) else []

def NetPacket.to (k : NetPacket) (p : InPort) : Bool := decide (k.dest = p.1) && decide (k.input = p.2)

/-- Tokens under way toward an input, the one nearest to it first. -/
def State.transit (s : State) (p : InPort) : List Token :=
  getF (s.elem p.1).wire p.2 ++ (s.edgeStages p).flatMap s.stageAt ++ ((s.packetsOf p.1.die).filter fun k => k.to p).map (·.tok)

/-- Takes away the token under way that is nearest to an input. -/
def State.dropTransit (s : State) (p : InPort) : State :=
  let e := s.elem p.1
  if getF e.wire p.2 ≠ [] then s.setElem p.1 { e with wire := setF e.wire p.2 (getF e.wire p.2).tail }
  else match (s.edgeStages p).find? fun k => s.stageAt k ≠ [] with
    | some k => s.setStage k (s.stageAt k).tail
    | none =>
      match (s.packetsOf p.1.die).find? fun k => k.to p with
      | some k => s.setPackets p.1.die ((s.packetsOf p.1.die).erase k)
      | none => s

/-- Where output `o` of an element leads: none when it is disabled or a gate on its way is closed. -/
def State.dest (s : State) (a : ElemAt) (o : Nat) : Option InPort :=
  let f := (s.elem a).field (7 + o)
  let i : Fin 4 := ⟨bits f 2 2, by unfold bits; omega⟩
  match bits f 8 2 with
  | 1 => some ({ a with e := bits f 4 4 }, i)
  | 2 => s.trace a.die (bits f 4 2) 64 a.x a.y (dirOf (bits f 6 2))
  | 3 =>
    match s.regionAt a.die a.x a.y with
    | some r =>
      some ({ a with x := (s.region a.die r).absX (bits f 15 5), y := (s.region a.die r).absY (bits f 10 5),
                     e := bits f 4 4 }, i)
    | none => none
  | _ => none

/-- The output is enabled: it has a route. -/
def Elem.outOn (e : Elem) (o : Nat) : Bool := bits (e.field (7 + o)) 8 2 != 0
/-- The input is routed. -/
def Elem.inOn (e : Elem) (i : Nat) : Bool := bits (e.field (3 + i)) 8 2 != 0
/-- The input is a completion input. -/
def Elem.cmpl (e : Elem) (i : Nat) : Bool := (e.field (3 + i)).testBit 10
/-- Field 1: the input is required. -/
def Elem.req (e : Elem) (i : Nat) : Bool := (e.field 1).testBit (4 + i)
def Elem.code (e : Elem) : Nat := bits (e.field 1) 0 2
def Elem.predIn (e : Elem) : Nat := bits (e.field 1) 2 2
/-- Field 9: rates (R57, R151). -/
def Elem.inRate (e : Elem) (i : Nat) : Nat := bits (e.field 9) (2 * i) 2 + 1
def Elem.outRate (e : Elem) (o : Nat) : Nat := bits (e.field 9) (8 + 2 * o) 2 + 1
def Elem.opcode (e : Elem) : Nat := e.field 0
def Elem.must (e : Elem) : Bool := (e.field 10).testBit 1
def Elem.cancellable (e : Elem) : Bool := (e.field 10).testBit 2
def Elem.policy (e : Elem) : Nat := bits (e.field 11) 0 2
def Elem.partner (e : Elem) : Nat := bits (e.field 11) 2 4

/-! ### Queues and credits (R50) -/

/-- Role of an MT: 0 none, 1 addressed buffer, 2 token FIFO, 3 region-private cache bank (R18, R155). -/
def State.mtRole (s : State) (a : ElemAt) : Nat := bits ((s.elem { a with e := 15 }).const 0) 0 2

/-- Depth of an input queue: 4, or the declared depth of a channel of an MT in the FIFO role; an MT in another role, and an element
without an opcode, accept no token (R18, R157). -/
def State.depth (s : State) (p : InPort) : Nat :=
  if tileKind p.1.x p.1.y = .mt ∧ p.1.e < 8 then (if s.mtRole p.1 = 2 then bits ((s.elem p.1).const 0) 0 17 else 0)
  else if (s.elem p.1).opcode = 0 then 0
  else 4

/-- Tokens queued at an input and under way to it. -/
def State.load (s : State) (p : InPort) : Nat := (getF (s.elem p.1).inq p.2).length + (s.transit p).length

/-- Free places of the queue at the end of an output's edge: its credits (R50, log 9). An output whose way is closed has none. -/
def State.places (s : State) (a : ElemAt) (o : Nat) : Nat :=
  match s.dest a o with
  | some p => s.depth p - s.load p
  | none => 0

/-- The FIFO channel that a queue declaration of the task in a region names; a reflected image is turned with it (R312, R149, R276). -/
def Region.channel (g : Region) (d : Fin 4) (q : Nat) : ElemAt :=
  let y := bits q 6 5
  { die := d, x := g.absX (bits q 11 5), y := g.absY (if g.reflect then 4 * g.h + 1 - y else y), e := bits q 3 3 }

/-- The inter-stage queue that a FIFO channel carries, as the task of its region declares it (R30, R312, R325). -/
def State.stageQueue (s : State) (a : ElemAt) : Option Nat :=
  match s.regionAt a.die a.x a.y, s.taskAt a with
  | some r, some t => t.queues.find? fun q => decide ((s.region a.die r).channel a.die q = a)
  | _, _ => none

/-- Tokens that a stage takes, and that its producer places, in one stage firing. -/
def stageTakes (q : Nat) : Nat := bits q 48 2 + 1
def stagePlaces (q : Nat) : Nat := bits q 50 2 + 1

/-- Queues of the group that name the stage of an element as their producer. -/
def State.stageOutputs (s : State) (a : ElemAt) : List (ElemAt × Nat) :=
  match s.taskAt a with
  | none => []
  | some t =>
    (s.tasks.filter fun u => u.group != 0 && u.group == t.group && decide (u.die = t.die)).flatMap fun u =>
      match u.region with
      | some r => (u.queues.filter fun q => bits q 52 4 == t.stageNo).map fun q => ((s.region u.die r).channel u.die q, q)
      | none => []

/-- Every downstream FIFO of a stage has room for what the stage firings under way, and `n` more, place in it (R30). -/
def State.outputsTake (s : State) (a : ElemAt) (n : Nat) : Bool :=
  (s.stageOutputs a).all fun x => decide (s.load (x.1, 0) + (s.elem x.1).stagePut + n * stagePlaces x.2 ≤ s.depth (x.1, 0))

/-- A stage firing begins: its downstream FIFOs get what it places. -/
def State.grantOutputs (s : State) (a : ElemAt) : State :=
  (s.stageOutputs a).foldl (fun s x => s.setElem x.1 { s.elem x.1 with stagePut := (s.elem x.1).stagePut + stagePlaces x.2 }) s

/-- Credits of an output. Into a downstream FIFO a stage places only what its firings under way, and those that it may begin, place there
(R30). -/
def State.credits (s : State) (a : ElemAt) (o : Nat) : Nat :=
  match s.dest a o with
  | some p =>
    match s.stageQueue p.1 with
    | some q =>
      if s.regionAt a.die a.x a.y ≠ s.regionAt p.1.die p.1.x p.1.y then
        let n := (((List.range 4).map (· + 1)).filter (s.outputsTake a)).foldl max 0
        min (s.places a o) ((s.elem p.1).stagePut + n * stagePlaces q)
      else s.places a o
    | none => s.places a o
  | none => 0

/-- Level of a barrier (R34). -/
def Header.level (h : Header) : Nat := h.seq.toNat % 8

/-- What an end-of-run or a barrier leaves at a sink of the region (R35, R36, R261). -/
def Elem.noteEnd (e : Elem) (h : Header) : Elem :=
  if h.kind == 3 then { e with eor := true }
  else if h.kind == 2 then { e with reached := some (max (e.reached.getD 0) h.level) }
  else e

/-- The token counts against declared rates (R47). -/
def Header.counts (h : Header) : Bool := h.kind == 0 || h.kind == 1 || h.kind == 4 || h.kind == 5

/-- Places a token on the edge that leads from output `o` to input `p`: behind the last one on a local edge, in the crossing stage of
its first link on a static one, in the network on a dynamic one (R51). -/
def State.putOn (s : State) (a : ElemAt) (o : Nat) (p : InPort) (t : Token) : State :=
  let f := (s.elem a).field (7 + o)
  match bits f 8 2 with
  | 2 =>
    let k := stageKey a.die a.x a.y (dirOf (bits f 6 2)) (bits f 4 2)
    s.setStage k (s.stageAt k ++ [t])
  | 3 => s.setPackets a.die (s.packetsOf a.die ++ [{ x := a.x, y := a.y, dest := p.1, input := p.2, sender := a, tok := t }])
  | _ =>
    let e := s.elem p.1
    s.setElem p.1 { e with wire := setF e.wire p.2 (getF e.wire p.2 ++ [t]) }

/-- Counts a token that stage element `a` has placed in the stage firing under way, or in one that it begins (R30). -/
def State.countPut (s : State) (a : ElemAt) (p : InPort) (t : Token) : State :=
  match s.stageQueue p.1 with
  | some _ =>
    if t.hdr.counts then
      let s1 := if (s.elem p.1).stagePut = 0 then s.grantOutputs a else s
      s1.setElem p.1 { s1.elem p.1 with stagePut := (s1.elem p.1).stagePut - 1 }
    else s
  | none => s

/-- Puts a token on the edge of output `o`. A token that goes to another region counts in its producer's stage firing (R30), and a barrier
or an end-of-run among them has reached the end of its own region (R36, R39, log 54). -/
def State.send (s : State) (a : ElemAt) (o : Nat) (t : Token) : State :=
  match s.dest a o with
  | some p =>
    let s1 := s.putOn a o p t
    if s.regionAt a.die a.x a.y = s.regionAt p.1.die p.1.x p.1.y then s1
    else
      let s2 := s1.countPut a p t
      if t.hdr.kind == 2 || t.hdr.kind == 3 then s2.setElem a ((s2.elem a).noteEnd t.hdr) else s2
  | none => s

def State.sendAll (s : State) (a : ElemAt) (o : Nat) (ts : List Token) : State := ts.foldl (fun s t => s.send a o t) s

/-- Removes `n` tokens from the head of an input queue. -/
def Elem.drop (e : Elem) (i : Fin 4) (n : Nat) : Elem := { e with inq := setF e.inq i ((getF e.inq i).drop n) }
def Elem.head? (e : Elem) (i : Fin 4) : Option Token := (getF e.inq i).head?
/-- Consumes heads of every required input at its rate. -/
def Elem.consume (e : Elem) : Elem :=
  (List.finRange 4).foldl (fun e' i => if e.req i.val then e'.drop i (e.inRate i.val) else e') e

/-! ### Token kinds (R47) -/

def Header.isData (h : Header) : Bool := h.kind == 0
def Header.isNull (h : Header) : Bool := h.kind == 1
def Header.isPoison (h : Header) : Bool := h.kind == 4
def Header.isCompletion (h : Header) : Bool := h.kind == 5
/-- Barrier, end-of-run or shape: the control tokens of R54. -/
def Header.isControl (h : Header) : Bool := h.kind == 2 || h.kind == 3 || h.kind == 6
/-- Data, null or poison: what a takeback may annihilate (R60). -/
def Header.isTarget (h : Header) : Bool := h.isData || h.isNull || h.isPoison

/-- The 48 bits of a header (R46). -/
def Header.toNat (h : Header) : Nat :=
  h.kind.toNat + (b2n h.pvalid) * 2 ^ 3 + (b2n h.pbit) * 2 ^ 4 + h.itag.toNat * 2 ^ 5 + h.seq.toNat * 2 ^ 13
    + h.lanes.toNat * 2 ^ 29 + h.reserved.toNat * 2 ^ 45

/-- A header from its 48 bits. -/
def Header.ofNat (v : Nat) : Header :=
  { kind := BitVec.ofNat 3 v, pvalid := v.testBit 3, pbit := v.testBit 4, itag := BitVec.ofNat 8 (v / 2 ^ 5)
    seq := BitVec.ofNat 16 (v / 2 ^ 13), lanes := BitVec.ofNat 16 (v / 2 ^ 29), reserved := BitVec.ofNat 3 (v / 2 ^ 45) }

/-- A token whose kind is 7 or whose reserved bits are not zero is malformed (R48). -/
def Header.malformed (h : Header) : Bool := h.kind == 7 || h.reserved != 0

def nullTok (h : Header) : Token := { hdr := { h with kind := 1, lanes := 0 }, pay := 0 }
def dataTok (h : Header) (pay : Payload) : Token := { hdr := { h with kind := 0 }, pay }
/-- A completion token: R241 gives its seq and itag; lanemask, pvalid and pbit are zero (DESIGN CHOICE, log 149). -/
def completionTok (h : Header) : Token :=
  { hdr := { kind := 5, seq := h.seq, itag := h.itag }, pay := 0 }
/-- A barrier of level `l`, an end-of-run (marked truncated), per R47. -/
def barrierTok (l : Nat) : Token := { hdr := { kind := 2, seq := BitVec.ofNat 16 (l % 8) }, pay := 0 }
def eorTok (trunc : Bool) : Token := { hdr := { kind := 3, seq := if trunc then 1 else 0 }, pay := 0 }

/-! ### Element traps (R47, R224, R332 to R334) -/

inductive ElemCause where
  | illegal | bound | nan | guard | takebackOrder | malformed
  deriving DecidableEq, Repr

def ElemCause.code : ElemCause → Nat
  | .illegal => 1
  | .bound => 2
  | .nan => 3
  | .guard => 4
  | .takebackOrder => 5
  | .malformed => 6

/-- Origin record of a poison token (R47). Its coordinates are those of the die's interior, 0 to 19 (R10); the ring on the low side of
the die reads 31, that on the high side 20 (log 26). -/
def origin (a : ElemAt) (c : ElemCause) : Payload :=
  BitVec.ofNat 512 (c.code + a.e % 16 * 2 ^ 8 + (a.y + 31) % 32 * 2 ^ 12 + (a.x + 31) % 32 * 2 ^ 17 + a.die.val * 2 ^ 22)

def poisonTok (h : Header) (pay : Payload) : Token := { hdr := { h with kind := 4 }, pay }

/-! Positions of a payload (R49, R396) -/

/-- Width in bits and count of positions of a layout: 0 W64, 1 32-bit integer, 2 byte (R49). -/
def posWidth (lay : Nat) : Nat :=
  match lay with
  | 0 => 64
  | 1 => 32
  | _ => 8
def posCount (lay : Nat) : Nat :=
  match lay with
  | 0 => 8
  | 1 => 16
  | _ => 64

/-- Position `j` is live: both bits of a W64 value, its lane's bit, or its group's bit (R46, R49, R396). -/
def posLive (lay : Nat) (lanes : BitVec 16) (j : Nat) : Bool :=
  match lay with
  | 0 => lanes.getLsbD (2 * j) && lanes.getLsbD (2 * j + 1)
  | 1 => lanes.getLsbD j
  | _ => lanes.getLsbD (j / 4)

/-- Image of position `j`. -/
def posImage (lay : Nat) (p : Payload) (j : Nat) : Word :=
  BitVec.ofNat 64 (p.toNat / 2 ^ (posWidth lay * j) % 2 ^ posWidth lay)

/-- Position `j` of a token, when it is live. -/
def posAt (lay : Nat) (t : Token) (j : Nat) : Option Word :=
  if posLive lay t.hdr.lanes j then some (posImage lay t.pay j) else none

/-- Option word c15 (R223). -/
def Elem.opt (e : Elem) (lo n : Nat) : Nat := bits (e.const 15) lo n
def Elem.lay (e : Elem) : Nat := e.opt 6 2

/-- What a trap records beside its cause: lane and dwords 1 to 3 (R333). -/
structure TrapInfo where
  cause : ElemCause
  lane : Nat := 0
  d1 : Word := 0
  d2 : Word := 0
  d3 : Word := 0
  deriving DecidableEq, Repr

def trapDword0 (a : ElemAt) (h : Header) (t : TrapInfo) : Word :=
  BitVec.ofNat 64 (t.cause.code + a.e % 16 * 2 ^ 8 + t.lane % 64 * 2 ^ 12 + h.itag.toNat * 2 ^ 18 + h.seq.toNat * 2 ^ 26
    + 2 ^ 63)

/-- Layout at which an opcode takes its operands: 32-bit integers, that of c15, or W64 (R226 to R241). -/
def Elem.opLay (e : Elem) : Nat :=
  let op := e.opcode
  if (0x0C0 ≤ op ∧ op ≤ 0x0C5) ∨ op = 0x140 ∨ op = 0x141 then 1
  else if (0x100 ≤ op ∧ op ≤ 0x107) ∨ (0x180 ≤ op ∧ op ≤ 0x183) ∨ op = 0x187 ∨ op = 0x188 then e.lay
  else if 0x200 ≤ op ∧ op ≤ 0x203 then e.opt 9 2
  else 0

/-- Lowest live position of a lanemask, 0 when there is none. -/
def lowestLive (lay : Nat) (m : BitVec 16) : Nat := ((List.range (posCount lay)).find? (posLive lay m)).getD 0

/-- Operands 0 to 2 of a position, zero where there is none: heads of required inputs, else the constant broadcast (R220, R333). -/
def Elem.operandInfo (e : Elem) (c : ElemCause) (arity j : Nat) : TrapInfo :=
  let lay := e.opLay
  let v (i : Nat) : Word :=
    if arity ≤ i then 0
    else if e.req i then (match e.inq.toList.getD i [] with
      | t :: _ => if t.hdr.isNull then 0 else posImage lay t.pay j
      | [] => 0)
    else BitVec.ofNat 64 (e.const i % 2 ^ posWidth lay)
  { cause := c, lane := j, d1 := v 0, d2 := v 1, d3 := v 2 }

/-- Record of an illegal operation of a whole firing: its lowest live position (R224, R333, log 116). -/
def Elem.illegalInfo (e : Elem) (h : Header) (arity : Nat) : TrapInfo :=
  e.operandInfo .illegal arity (lowestLive e.opLay h.lanes)

/-- The same of an element that takes its tokens one by one: operand `i` is the position of token `i`, at a layout (R333, log 116). -/
def illegalAt (lay : Nat) (h : Header) (toks : List (Option Token)) : TrapInfo :=
  let j := lowestLive lay h.lanes
  let v (i : Nat) : Word := match toks.getD i none with
    | some t => if t.hdr.isNull then 0 else posImage lay t.pay j
    | none => 0
  { cause := .illegal, lane := j, d1 := v 0, d2 := v 1, d3 := v 2 }

/-- Sets the record, or only `more` when one is valid (R333, R334). -/
def Tile.record (tl : Tile) (a : ElemAt) (h : Header) (t : TrapInfo) : Tile :=
  if (getF tl.trap 0).getLsbD 63 then { tl with trap := setF tl.trap 0 (putBit (getF tl.trap 0) 62 true) }
  else { tl with trap := setF (setF (setF (setF tl.trap 0 (trapDword0 a h t)) 1 t.d1) 2 t.d2) 3 t.d3 }

/-- Element field 16 of a stream engine: port valid, direction, number, qp binding (R155). -/
def Elem.portValid (e : Elem) : Bool := (e.const 0).testBit 7
def Elem.portVo (e : Elem) : Bool := (e.const 0).testBit 6
def Elem.portNo (e : Elem) : Nat := bits (e.const 0) 0 5
def Elem.qpValid (e : Elem) : Bool := (e.const 0).testBit 11
def Elem.qpNo (e : Elem) : Nat := bits (e.const 0) 8 3

def isStreamEngine (a : ElemAt) : Bool := decide (tileKind a.x a.y = .ag) && decide (a.e < 4)

/-- Elements from which a chain of edges leads to one of `goal`, found in `n` rounds (R334). -/
def State.upstream (s : State) (all : List ElemAt) : Nat → List ElemAt → List ElemAt
  | 0, goal => goal
  | n + 1, goal =>
    let more := all.filter fun a =>
      !goal.contains a && ((List.range 2).any fun o =>
        match s.dest a o with
        | some (b, _) => goal.contains b
        | none => false)
    match more with
    | [] => goal
    | _ => s.upstream all n (goal ++ more)

/-- A row of steer.ert `b` that comes out of, or ends at, element `a` by its input `i` ends its miss there: at the first merge by seq on its
path, or at the end of an arm that leads to none (R290, R372). -/
def State.missEnds (s : State) (b a : ElemAt) (i : Fin 4) : Bool :=
  match s.regionAt a.die a.x a.y with
  | none => false
  | some r =>
    let all := s.regionElems a.die r
    let isMerge (c : ElemAt) : Bool := (s.elem c).opcode == 0x287
    let leads (goal : List ElemAt) : Bool := (s.upstream (all.filter fun c => !isMerge c) all.length goal).contains b
    leads (all.filter fun c => !isMerge c && (List.range 2).any fun o => decide (s.dest c o = some (a, i)))
      && (isMerge a || !(all.any fun m => isMerge m && leads [m]))

/-- A token is of a miss: by its own number, or, where its way has made a new token of it, by its seq, at the last token of that seq. -/
def Header.ofMiss (h : Header) (m : Miss) (last : Bool) : Bool :=
  m.replayed && (if h.miss = 0 then last && m.seq == h.seq else decide (h.miss = m.id + 2))

/-- A row that missed and has been replayed reaches the first merge by seq on its path, or the end of its arm; `last` says that no
further token of its seq leaves there (R290, log 67). -/
def State.endMiss (s : State) (a : ElemAt) (i : Fin 4) (h : Header) (last : Bool) : State :=
  match s.taskAt a with
  | some t =>
    match t.misses.find? fun m => h.isTarget && h.ofMiss m last && s.missEnds m.steer a i with
    | some m =>
      s.setTask { t with misses :=
        if m.rows ≤ 1 then t.misses.erase m else updateFirst (· == m) (fun m => { m with rows := m.rows - 1 }) t.misses }
    | none => s
  | none => s

/-- Freezes every source of the region upstream of a trapped element (R334). -/
def State.freezeSources (s : State) (a : ElemAt) : State :=
  match s.regionAt a.die a.x a.y with
  | none => s
  | some r =>
    let all := s.regionElems a.die r
    let up := s.upstream all all.length [a]
    (up.filter fun b => isStreamEngine b && !(s.elem b).portVo).foldl
      (fun s b => s.setElem b { s.elem b with frozen := true }) s

/-- An asynchronous trap becomes pending at the core that owns a region. -/
def State.notify (s : State) (d : Fin 4) (r : Fin 16) (source : Nat) : State :=
  match (s.region d r).owner with
  | some k =>
    let c := coreOf d k
    s.setCore c { s.core c with irq := (s.core c).irq ++ [BitVec.ofNat 32 source] }
  | none => s

/-- Identifier of an element in the layout of R216: region number, region-relative tile, element. -/
def State.portId (s : State) (a : ElemAt) : Word :=
  match s.regionAt a.die a.x a.y with
  | some r =>
    let g := s.region a.die r
    BitVec.ofNat 64 (a.e * 2 ^ 4 + g.relY a.y * 2 ^ 8 + g.relX a.x * 2 ^ 13 + r.val * 2 ^ 18)
  | none => BitVec.ofNat 64 (a.e * 2 ^ 4 + a.y * 2 ^ 8 + a.x * 2 ^ 13)

/-- Sources of a region: its configured stream engines in the vi direction (R334, R337). -/
def State.viSources (s : State) (d : Fin 4) (r : Fin 16) : List ElemAt :=
  (s.regionElems d r).filter fun a => isStreamEngine a && (s.elem a).opcode == 0x204 && !(s.elem a).portVo

/-- Sets how the sources of a region stop; one that has stopped stays so (`State.regroup` releases those that a group's boundary needs). -/
def State.holdSources (s : State) (d : Fin 4) (r : Fin 16) (h : SourceHold) : State :=
  (s.viSources d r).foldl (fun s a =>
    let e := s.elem a
    if e.se.hold = .stopped then s else s.setElem a { e with se := { e.se with hold := h } }) s

/-- A freeze-save begins: every source and the core stop at once (R338). -/
def State.stopRegion (s : State) (d : Fin 4) (r : Fin 16) (form : Nat) : State :=
  let s1 := s.holdSources d r .stopped
  let s2 := match (s1.region d r).owner with
    | some k => s1.stopCore (coreOf d k)
    | none => s1
  s2.setRegion d r { s2.region d r with phase := .freezing form }

/-- An element trap beyond the firing itself: record, event 1, frozen sources, notice to the core; a drain becomes a
freeze-save (R333, R334, R45). -/
def State.elemTrap (s : State) (a : ElemAt) (h : Header) (t : TrapInfo) : State :=
  let s1 := s.setTile a.die a.x a.y ((s.tile a.die a.x a.y).record a h t)
  match s1.regionAt a.die a.x a.y with
  | none => s1.report (eventRec 1 a.die 0 t.cause.code 0 0 (s1.portId { a with e := 0 }))
  | some r =>
    let g := s1.region a.die r
    let s2 := s1.report (eventRec 1 a.die r.val t.cause.code (taskNo g.task) 0 (s1.portId { a with e := 0 }))
    let s3 := (s2.freezeSources a).notify a.die r 1
    match g.phase with
    | .draining _ => s3.stopRegion a.die r 2
    | .idle | .running | .checkpoint | .freezing _ | .saveHeld _ _ => s3

/-! ### Cancels (R61, R62) -/

/-- A cancel stands for an itag at output `o`. -/
def isCancel (itag : BitVec 8) (o : Nat) (c : BitVec 8 × Fin 2) : Bool := c.1 == itag && c.2.val == o

/-- Output `o` is cancelled for an itag. -/
def Elem.cancelled (e : Elem) (itag : BitVec 8) (o : Nat) : Bool := e.cancels.any (isCancel itag o)

/-- Cancels that stand for an itag at output `o`: each one is for one token (R58). -/
def Elem.cancelCount (e : Elem) (itag : BitVec 8) (o : Nat) : Nat := (e.cancels.filter (isCancel itag o)).length

/-- Every token that a firing would send on its enabled data outputs is cancelled. -/
def Elem.allCancelled (e : Elem) (itag : BitVec 8) (outs : List Nat) : Bool :=
  !(outs.filter e.outOn).isEmpty && (outs.filter e.outOn).all fun o => decide (e.outRate o ≤ e.cancelCount itag o)

/-- Takes `n` cancels of an itag at output `o` off a list, as far as it holds them. -/
def dropCancels (itag : BitVec 8) (o : Nat) : Nat → List (BitVec 8 × Fin 2) → List (BitVec 8 × Fin 2)
  | 0, l => l
  | n + 1, l => dropCancels itag o n (l.eraseP (isCancel itag o))

/-- A firing for an itag frees as many cancels of each output as the tokens that its rate sends there (R58, R62). -/
def Elem.freeCancels (e : Elem) (itag : BitVec 8) : Elem :=
  { e with cancels := dropCancels itag 1 (e.outRate 1) (dropCancels itag 0 (e.outRate 0) e.cancels) }

/-- The turn for an itag has come: every required queue is empty or holds a head of it (R61). -/
def Elem.turnOf (e : Elem) (itag : BitVec 8) : Bool :=
  (List.finRange 4).all fun i => !e.req i.val ||
    (match e.head? i with
     | none => true
     | some t => t.hdr.itag == itag && !t.hdr.isControl)

/-- Sends takebacks up each required input, as many as the tokens that its rate takes (R57, R58, R61). -/
def Elem.takeBack (e : Elem) (itag : BitVec 8) (p : Fin 4 → Bool) : Elem :=
  (List.finRange 4).foldl
    (fun e' i => if p i then
        { e' with tbQueue := setF e'.tbQueue i (getF e'.tbQueue i ++ List.replicate (e.inRate i.val) itag) }
      else e') e

/-- A firing whose every output is cancelled is skipped once its turn comes: nothing is consumed, and a takeback goes up each
required input that carries data (R61). Completion inputs take none. -/
def Elem.cancelTurn (e : Elem) (itag : BitVec 8) : Elem :=
  (e.freeCancels itag).takeBack itag fun i => e.req i.val && !e.cmpl i.val

/-- Opcodes that a takeback finds side-effect-free, forks among them (R61). -/
def sideEffectFree (op : Nat) : Bool :=
  (0x040 ≤ op && op ≤ 0x188) || (0x280 ≤ op && op ≤ 0x284) || op == 0x289 || op == 0x2C0

/-- The first itag of the cancel list whose every output is cancelled and whose turn has come. -/
def Elem.cancelDue (e : Elem) : Option (BitVec 8) :=
  (e.cancels.map (·.1)).find? fun t => e.allCancelled t [0, 1] && e.turnOf t

/-- Counts a firing, performed or skipped (R393). -/
def State.countFire (s : State) (d : Fin 4) : State := s.setDie d { s.die d with fires := (s.die d).fires + 1 }

/-- Skips every firing whose turn under a cancel has come. -/
def State.settleAt (s : State) (a : ElemAt) : Nat → State
  | 0 => s
  | n + 1 =>
    match (s.elem a).cancelDue with
    | some t => ((s.setElem a ((s.elem a).cancelTurn t)).countFire a.die).settleAt a n
    | none => s

/-- The same at an element that is side-effect-free. -/
def State.settleCancels (s : State) (a : ElemAt) : State :=
  let e := s.elem a
  if sideEffectFree e.opcode && !e.cancels.isEmpty then s.settleAt a e.cancels.length else s

/-! ### The firing rule (R52 to R57) -/

/-- What a performed firing does: tokens on outputs 0 and 1 and the element's new state, or a trap. -/
inductive Fired where
  | emit (o0 o1 : List Token) (e : Elem)
  | trap (t : TrapInfo)

/-- Required data inputs: not a completion input, and not an input beyond the operands that only supplies the predicate. An element
with none takes its header from its required inputs. -/
def Elem.dataIns (e : Elem) (arity : Nat) : List (Fin 4) :=
  let l := (List.finRange 4).filter fun i =>
    e.req i.val && !e.cmpl i.val && !(decide (arity ≤ i.val) && decide (e.predIn = i.val) && (e.code == 1 || e.code == 2))
  if l.isEmpty then (List.finRange 4).filter fun i => e.req i.val else l

/-- The tokens a firing takes from input `i`. -/
def Elem.taken (e : Elem) (i : Fin 4) : List Token := (getF e.inq i).take (e.inRate i.val)

/-- The firing's header under R53, before its kind. -/
def Elem.header (e : Elem) (ins : List (Fin 4)) : Header :=
  match ins with
  | [] => {}
  | i :: _ =>
    let h := match e.head? i with
      | some t => t.hdr
      | none => {}
    let lanes := ins.foldl (fun m j => (e.taken j).foldl (fun m t => m &&& (if t.hdr.isNull then 0 else t.hdr.lanes)) m)
      (0xFFFF : BitVec 16)
    { h with reserved := 0, kind := 0, lanes }

/-- No takeback stands at the queue of input `i`: one that stands there meets the head first (R60). -/
def Elem.calm (e : Elem) (i : Fin 4) : Bool := (getF e.tbQueue i).isEmpty

/-- Every required input holds its rate of tokens and none of them is a control token. -/
def Elem.headsReady (e : Elem) : Bool :=
  (List.finRange 4).all fun i => !e.req i.val ||
    (e.calm i && decide (e.inRate i.val ≤ (getF e.inq i).length) && (e.taken i).all fun t => !t.hdr.isControl)

/-- Every enabled output has the credits of its rate. -/
def State.outsReady (s : State) (a : ElemAt) : Bool :=
  (List.range 2).all fun o => !(s.elem a).outOn o || decide ((s.elem a).outRate o ≤ s.credits a o)

/-- The clock of a die runs (R389, R392). -/
def State.clockOn (s : State) (d : Fin 4) : Bool := (s.die d).clk != 3

/-- A move of a party happens while the clock of its die runs (R389, R392). -/
def State.onDie (s : State) (d : Fin 4) (f : State) : State := if s.clockOn d then f else s

/-- The tile of an element may act at all: its die's clock runs, its region has committed, its block is on (R25, R344, R389). -/
def State.tileOn (s : State) (a : ElemAt) : Bool :=
  s.clockOn a.die && s.gateOpen a.die a.x a.y && decide (s.power a.die a.x a.y = 0)

/-- The element may act, and has opcode `op`. -/
def State.live (s : State) (a : ElemAt) (op : Nat) : Bool := s.tileOn a && decide ((s.elem a).opcode = op)

/-- The conditions of R52 for an element with opcode `op`. -/
def State.canFire (s : State) (a : ElemAt) (op : Nat) : Bool :=
  s.live a op && (List.finRange 4).any (fun i => (s.elem a).req i.val) && (s.elem a).headsReady && s.outsReady a

/-- Poison among the heads: its origin record (R54). -/
def Elem.poisonHead (e : Elem) : Option Payload :=
  (List.finRange 4).findSome? fun i =>
    if e.req i.val then (e.taken i).findSome? fun t => if t.hdr.isPoison then some t.pay else none else none

/-- Outcome of the predicate (R55): performed, skipped, or illegal because the predicate head has pvalid clear. -/
inductive Outcome where
  | perform | skip | illegal
  deriving DecidableEq, Repr

def Elem.predFin (e : Elem) : Fin 4 := ⟨bits (e.field 1) 2 2, by unfold bits; omega⟩

def Elem.outcome (e : Elem) (ins : List (Fin 4)) : Outcome :=
  let anyNull := ins.any fun i => (e.taken i).any fun t => t.hdr.isNull
  match e.code with
  | 0 => .perform
  | 3 => if anyNull then .skip else .perform
  | c =>
    match e.head? e.predFin with
    | none => .illegal
    | some t =>
      if !t.hdr.pvalid then .illegal
      else if t.hdr.pbit == (c == 1) && !anyNull then .perform else .skip

/-- Emits a firing's tokens, but for one of an output for each cancel that stands there for the itag (R58, R61); counts the firing
(R393). -/
def State.emitFired (s : State) (a : ElemAt) (itag : BitVec 8) (e : Elem) (o0 o1 : List Token) : State :=
  let s1 := (s.setElem a (e.freeCancels itag)).countFire a.die
  let rest (o : Nat) (l : List Token) : List Token := l.drop ((s.elem a).cancelCount itag o)
  let s2 := if (s.elem a).outOn 0 then s1.sendAll a 0 (rest 0 o0) else s1
  let s3 := if (s.elem a).outOn 1 then s2.sendAll a 1 (rest 1 o1) else s2
  s3.settleCancels a

/-- A head as an operand: a null reads as an all-zero payload with lanemask zero (R55). -/
def Token.operand (t : Token) : Token := if t.hdr.isNull then { t with hdr := { t.hdr with lanes := 0 }, pay := 0 } else t

/-- `n` copies of a token. -/
def copies (n : Nat) (t : Token) : List Token := List.replicate n t

/-- Fires element `a` (opcode `op`, operands below `arity`) when R52 allows it. `f` gives a performed firing's effect from the
element after consumption and the header; `sk` the tokens of a skipped firing on each output. -/
def State.fireWith (s : State) (a : ElemAt) (op arity : Nat) (f : Elem → Header → (Fin 4 → List Token) → Fired)
    (sk : Elem → Header → Nat → Token) : State :=
  if s.canFire a op then
    let e := s.elem a
    let ins := e.dataIns arity
    let h := e.header ins
    let e' := e.consume
    let all (t : Nat → Token) : State :=
      s.emitFired a h.itag e' (copies (e.outRate 0) (t 0)) (copies (e.outRate 1) (t 1))
    if e.allCancelled h.itag [0, 1] then
      (if e.turnOf h.itag then (s.setElem a (e.cancelTurn h.itag)).countFire a.die else s)
    else
      match e.poisonHead with
      | some p => all fun _ => poisonTok h p
      | none =>
        match e.outcome ins with
        | .illegal => (all fun _ => poisonTok h (origin a .illegal)).elemTrap a h (e.illegalInfo h arity)
        | .skip => all (sk e h)
        | .perform =>
          match f e' h (fun i => (e.taken i).map Token.operand) with
          | .emit o0 o1 e2 => s.emitFired a h.itag e2 o0 o1
          | .trap t => (all fun _ => poisonTok h (origin a t.cause)).elemTrap a h t
  else s

/-- A firing whose skip emits nulls (R55). -/
def State.fire (s : State) (a : ElemAt) (op arity : Nat) (f : Elem → Header → (Fin 4 → List Token) → Fired) : State :=
  s.fireWith a op arity f fun _ h _ => nullTok h

end Sys2Proof.Machine
end

