-- ==== Sys2Proof/Machine/Translate.lean ====
section
/-!
DEFINITION. The physical map (R346, R347), the page-table walk (R348 to R350, R352), and the translation cache (R353).
-/
namespace Sys2Proof.Machine

/-- Where a physical address is homed (R346). -/
inductive Home where
  | die (d : Fin 4)
  | host
  | tier (p : Fin 2)
  | module (m : Fin 64)
  deriving DecidableEq, Repr

/-- Tier range `i` holds the address (R381). -/
def inTierRange (r : Word × Word) (pa : Nat) : Bool :=
  let base := bits r.1.toNat 12 40 * 4096
  r.1.getLsbD 0 && decide (base ≤ pa) && decide (pa < base + bits r.2.toNat 0 40 * 4096)

def State.tierOf (s : State) (pa : Nat) : Option (Fin 32) :=
  (List.finRange 32).find? fun i => inTierRange (getF s.host.tierRange i) pa

/-- Home of a physical address, or none where R347 gives it none. -/
def State.homeOf (s : State) (pa : Nat) : Option Home :=
  let die : Home := .die ⟨bits pa 37 2, by unfold bits; omega⟩
  let cls := bits pa 48 4
  if 2 ^ 52 ≤ pa then none
  else if cls = 0 then (if bits pa 39 9 = 0 then some die else none)
  else if cls = 1 then some .host
  else if cls = 2 ∨ cls = 3 then
    if bits pa 42 6 ≠ 0 ∧ (cls = 2 ∨ bits pa 46 2 ≠ 0) then none
    else match s.tierOf pa with
      | some i => some (.tier ⟨i.val / 16, by omega⟩)
      | none => none
  else if 8 ≤ cls then
    let m : Fin 64 := ⟨bits pa 45 6, by unfold bits; omega⟩
    if bits pa 39 6 ≠ 0 then none
    else if m.val = bits s.host.domid.toNat 0 6 then some die
    else if bits (getF s.host.ngrt m).toNat 0 36 = 0 then none
    else some (.module m)
  else none

/-- A domain-window address of the module itself is homed as the class 0x0 address (R346): one number for one granule. -/
def State.canonPa (s : State) (pa : Nat) : Nat :=
  if 8 ≤ bits pa 48 4 ∧ bits pa 45 6 = bits s.host.domid.toNat 0 6 then pa % 2 ^ 39 else pa

/-- Page sizes by code, as powers of two (R348). -/
def pageBits (code : Nat) : Nat :=
  match code with
  | 0 => 12
  | 1 => 16
  | 2 => 21
  | 3 => 25
  | 4 => 28
  | 5 => 30
  | 6 => 32
  | _ => 34

/-- Page size codes that an entry of a level may map (R348). -/
def levelMaps (level code : Nat) : Bool :=
  match level with
  | 2 => 5 ≤ code
  | 3 => 2 ≤ code && code ≤ 4
  | 4 => code ≤ 1
  | _ => false

/-- Index of a virtual address at a level (R348). -/
def levelIndex (va level : Nat) : Nat :=
  match level with
  | 0 => bits va 48 8
  | 1 => bits va 39 9
  | 2 => bits va 30 9
  | 3 => bits va 21 9
  | _ => bits va 12 9

/-- Bits of a virtual address below the index of a level (R348). -/
def belowLevel (level : Nat) : Nat := 12 + 9 * (4 - level)

/-- A translation found: physical address, page size as a power of two, and the w, u and na bits of the page. Whether its lines are
allocated changes no result and no order (R348): na is carried and nothing reads it. -/
structure Page where
  pa : Nat
  bits : Nat
  w : Bool
  u : Bool
  na : Bool
  deriving DecidableEq, Repr

/-- What one entry of a level says: a fault, the next table, or a page (R349). -/
inductive EntryRead where
  | fault
  | table (pa : Nat)
  | page (p : Page)
  deriving DecidableEq, Repr

/-- An entry that a walk reads at a level (R348, R349). -/
def readEntry (va level : Nat) (e : Word) : EntryRead :=
  let v := e.toNat
  let code := bits v 57 3
  if !e.getLsbD 0 then .fault
  else if bits v 60 4 ≠ 0 ∨ bits v 52 5 ≠ 0 ∨ bits v 5 7 ≠ 0 then .fault
  else if e.getLsbD 1 then (if level = 4 then .fault else .table (bits v 12 40 * 4096))
  else if levelMaps level code then
    .page { pa := bits v 12 40 * 4096 + va % 2 ^ pageBits code, bits := pageBits code, w := e.getLsbD 2, u := e.getLsbD 3, na := e.getLsbD 4 }
  else .fault

/-- Entry `i` of a table, from its home copy (R349). -/
def State.tableEntryAt (s : State) (table i : Nat) : Word := s.home (s.canonPa (table + 8 * i) / 8)

/-- The entry that a walk takes at a level of a table: that of the address's own index, or, where it is one of the replicas of a page and
they differ, any one of them (R348). -/
def State.levelEntry (s : State) (va level table : Nat) : Word :=
  let i := levelIndex va level
  let own := s.tableEntryAt table i
  match readEntry va level own with
  | .page p =>
    let n := 2 ^ (p.bits - belowLevel level)
    let all := (List.range n).map fun k => s.tableEntryAt table (i / n * n + k)
    if all.all fun e => e == own then own else all.getD (Config.replica s.moves va % n) own
  | .fault | .table _ => own

/-- The walk of R349 from level `5 - n` on. None is a translation fault. -/
def State.walk (s : State) (va : Nat) : Nat → Nat → Option Page
  | 0, _ => none
  | n + 1, table =>
    match readEntry va (4 - n) (s.levelEntry va (4 - n) table) with
    | .fault => none
    | .table t => s.walk va n t
    | .page p => some p

/-- The two kinds of fault of a translation (R349, R350). -/
inductive XlatFault where
  | translation | protection
  deriving DecidableEq, Repr

/-- The root table of an ASID (R352). An address beyond 56 bits has no translation (log 30). -/
def State.rootTable (s : State) (d : Fin 4) (asid : BitVec 13) (va : Nat) : Option Nat :=
  let a := s.tableEntryAt (bits (s.die d).tqu.asidBase.toNat 16 36 * 65536) asid.toNat
  if !a.getLsbD 0 || decide (2 ^ 56 ≤ va) then none else some (bits a.toNat 12 40 * 4096)

/-- The tables' translation of a virtual address under an ASID (R349, R352). -/
def State.tables (s : State) (d : Fin 4) (asid : BitVec 13) (va : Nat) : Option Page :=
  (s.rootTable d asid va).bind (s.walk va 5)

/-! ### The translation caches (R353, R355) -/

/-- A cached entry translates an address under an ASID. -/
def TlbEntry.holds (e : TlbEntry) (asid : BitVec 13) (va : Nat) : Bool :=
  decide (e.asid = asid) && decide (e.base ≤ va) && decide (va < e.base + 2 ^ e.bits)

/-- Die of one who asks. -/
def Asker.at' : Asker → Fin 4
  | .die d => d
  | .core c => dieOf c
  | .tile d _ _ => d

/-- Entries of the cache of one who asks: the last-level TLB of the die, or a core's or tile's own (R353). -/
def State.tlbOf (s : State) : Asker → List TlbEntry
  | .die d => (s.die d).tlb
  | .core c => lookupD [] (.core c) s.tlbs
  | .tile d x y => lookupD [] (.tile d x y) s.tlbs

def State.setTlb (s : State) (who : Asker) (l : List TlbEntry) : State :=
  match who with
  | .die d => s.setDie d { s.die d with tlb := l }
  | .core c => { s with tlbs := assign (.core c) l s.tlbs }
  | .tile d x y => { s with tlbs := assign (.tile d x y) l s.tlbs }

/-- Entries that a cache holds at most: 3,072 in a last-level TLB, 64 in an AG tile's; the model gives a core and a TFU as many
(R353, log 36). -/
def Asker.cap : Asker → Nat
  | .die _ => 3072
  | .core _ | .tile .. => 64

def TlbEntry.page (e : TlbEntry) (va : Nat) : Page := { pa := e.pa + (va - e.base), bits := e.bits, w := e.w, u := e.u, na := e.na }

/-- The translation that a list of entries holds. -/
def pageIn (l : List TlbEntry) (asid : BitVec 13) (va : Nat) : Option Page := (l.find? fun e => e.holds asid va).map fun e => e.page va

/-- The entry that keeps a translation: a page, or the 256 MiB piece of a larger one that holds the address (R353). -/
def Page.entry (p : Page) (asid : BitVec 13) (va : Nat) : TlbEntry :=
  let n := min p.bits 28
  { asid, base := va - va % 2 ^ n, bits := n, pa := p.pa - va % 2 ^ n, w := p.w, u := p.u, na := p.na }

/-- A cache keeps a translation. -/
def State.keepTlb (s : State) (who : Asker) (asid : BitVec 13) (va : Nat) (p : Page) : State :=
  s.setTlb who ((p.entry asid va :: (s.tlbOf who).filter fun x => !x.holds asid va).take who.cap)

/-- A walk of one who asks, for an address's page, has found a fault in the move before this one. -/
def State.walkFailed (s : State) (who : Asker) (asid : BitVec 13) (va : Nat) : Bool :=
  s.walks.any fun w => decide (w.who = who) && decide (w.asid = asid) && decide (w.va / 4096 = va / 4096)
    && decide (w.failed.map (· + 1) = some s.moves)

/-- The translation that an access gets: from the asker's cache, from the die's last level, which its misses go to, or by a walk (R353,
R356). -/
def State.pageFor (s : State) (who : Asker) (asid : BitVec 13) (va : Nat) : Option Page :=
  match pageIn (s.tlbOf who) asid va with
  | some p => some p
  | none =>
    if s.walkFailed who asid va then none
    else (pageIn (s.tlbOf (.die who.at')) asid va).orElse fun _ => s.tables who.at' asid va

/-- A cache keeps what its miss finds; a miss that faults leaves nothing (R353). -/
def State.fillTlb (s : State) (who : Asker) (asid : BitVec 13) (va : Nat) : State :=
  s.onDie who.at' <| match s.pageFor who asid va with
  | none => s
  | some p => s.keepTlb who asid va p

/-- A cache drops its entry `n`. -/
def State.dropTlb (s : State) (who : Asker) (n : Nat) : State := s.setTlb who ((s.tlbOf who).eraseIdx n)

/-! ### Walks in progress (R349, R363) -/

/-- Walks of which no move needs the outcome any more are forgotten. -/
def State.liveWalks (s : State) : List Walk := s.walks.filter fun w => match w.failed with
  | none => true
  | some n => decide (s.moves ≤ n + 1)

/-- A walk begins: it reads the entry of its ASID (R352). -/
def State.startWalk (s : State) (who : Asker) (asid : BitVec 13) (va : Nat) : State :=
  s.onDie who.at' <|
    let w : Walk := { who, asid, va, table := 0, left := 5, began := s.moves }
    { s with walks := s.liveWalks ++ [match s.rootTable who.at' asid va with
        | none => { w with failed := some s.moves }
        | some t => { w with table := t }] }

/-- A walk reads its next entry as that stands now (R363): it goes on to the next table, keeps the page at the last level and with the asker,
or ends with a fault, which caches nothing (R353). -/
def State.stepWalk (s : State) (n : Nat) : State :=
  match s.walks[n]? with
  | none => s
  | some w =>
    if w.failed.isSome || w.left == 0 then s
    else s.onDie w.who.at' <|
      let level := 5 - w.left
      match readEntry w.va level (s.levelEntry w.va level w.table) with
      | .fault => { s with walks := s.walks.set n { w with failed := some s.moves } }
      | .table t => { s with walks := s.walks.set n { w with table := t, left := w.left - 1 } }
      | .page p =>
        let s1 : State := { s with walks := s.walks.eraseIdx n }
        (s1.keepTlb (.die w.who.at') w.asid w.va p).keepTlb w.who w.asid w.va p

/-- An invalidation covers some of `n` bytes of an address space (R351, R355). -/
def InvScope.meets (i : InvScope) (asid : BitVec 13) (va n : Nat) : Bool :=
  match i with
  | .range of base pages =>
    (match of with
      | some a => decide (asid = a)
      | none => true) && decide (va < base + 4096 * pages) && decide (base < va + n)
  | .space a => decide (asid = a)
  | .all => true

/-- An invalidation covers a cached entry. -/
def InvScope.covers (i : InvScope) (e : TlbEntry) : Bool := i.meets e.asid e.base (2 ^ e.bits)

/-- Every cache of the module drops the covered entries (R355). -/
def State.dropCovered (s : State) (i : InvScope) : State :=
  let s1 := (List.finRange 4).foldl (fun s d => s.setDie d { s.die d with tlb := (s.die d).tlb.filter fun e => !i.covers e }) s
  { s1 with tlbs := s1.tlbs.map fun t => (t.1, t.2.filter fun e => !i.covers e) }

/-- A walk that an invalidation covers and that began before it has not ended (R355). -/
def State.oldWalk (s : State) (i : InvScope) (began : Nat) : Bool :=
  s.walks.any fun w => w.failed.isNone && decide (w.began < began) && i.meets w.asid w.va 1

/-- Checks what a translation has found: a write needs w, a task-mode or fabric access needs u, and the result must have a home (R347,
R350). -/
def State.permit (s : State) (p : Option Page) (write user : Bool) : Except XlatFault Nat :=
  match p with
  | none => .error .translation
  | some p =>
    if (write && !p.w) || (user && !p.u) then .error .protection
    else
      match s.homeOf p.pa with
      | some _ => .ok (s.canonPa p.pa)
      | none => .error .protection

/-- Translates a virtual address under an ASID for one who asks (R353, R356). -/
def State.translateBy (s : State) (who : Asker) (asid : BitVec 13) (va : Nat) (write user : Bool) : Except XlatFault Nat :=
  s.permit (s.pageFor who asid va) write user

/-- The same for a party of a die with no cache of its own. -/
def State.translate (s : State) (d : Fin 4) (asid : BitVec 13) (va : Nat) (write user : Bool) : Except XlatFault Nat :=
  s.translateBy (.die d) asid va write user

/-- The physical granule of an access is not the one that the tables give now: it was translated through an old entry (R355). -/
def State.oldEntry (s : State) (d : Fin 4) (asid : BitVec 13) (va : Nat) (write user : Bool) (g : Nat) : Bool :=
  match s.permit (s.tables d asid va) write user with
  | .ok pa => pa / 8 != g
  | .error _ => true

def XlatFault.cause : XlatFault → Cause
  | .translation => .translation
  | .protection => .protection

end Sys2Proof.Machine
end

