-- ==== Sys2Proof/Machine/Extent.lean ====
section
/-!
DEFINITION. Extent tables of the AG tiles (R354, R355).
-/
namespace Sys2Proof.Machine

/-- An extent of element `e` holds an address. -/
def Extent.holds (x : Extent) (e : Nat) (asid : BitVec 13) (va : Nat) : Bool :=
  decide (x.elem = e) && decide (x.asid = asid) && decide (4096 * x.page ≤ va) && decide (va < 4096 * (x.page + x.pages))

/-- What an extent says of an address that it holds; none where it is faulting. -/
def Extent.at? (x : Extent) (va : Nat) : Option Page :=
  if x.bad then none else some { pa := x.pa + (va - 4096 * x.page), bits := 12, w := x.w, u := x.u, na := x.na }

/-- An extent goes on where another ends, in virtual and in physical memory. -/
def Extent.follows (y x : Extent) : Bool :=
  !x.bad && !y.bad && decide (y.elem = x.elem ∧ y.asid = x.asid ∧ y.page = x.page + x.pages ∧ y.pa = x.pa + 4096 * x.pages)
    && y.w == x.w && y.u == x.u && y.na == x.na && y.write == x.write && y.user == x.user

/-- Adds an extent behind others: one that goes on where the last one ends is one with it. -/
def joinExtent (l : List Extent) (y : Extent) : List Extent :=
  match l.getLast? with
  | some x => if y.follows x then l.dropLast ++ [{ x with pages := x.pages + y.pages }] else l ++ [y]
  | none => [y]

def State.extents (s : State) (a : ElemAt) : List Extent := (s.tile a.die a.x a.y).extents
def State.setExtents (s : State) (a : ElemAt) (l : List Extent) : State :=
  s.setTile a.die a.x a.y { s.tile a.die a.x a.y with extents := l }

/-- The extent of an element that holds an address. -/
def State.extentOf (s : State) (a : ElemAt) (asid : BitVec 13) (va : Nat) : Option Extent := (s.extents a).find? fun x => x.holds a.e asid va

/-- The element's extent of an address is a faulting one: the accesses to it are withheld (R354). -/
def State.badExtent (s : State) (a : ElemAt) (asid : BitVec 13) (va : Nat) : Bool :=
  match s.extentOf a asid va with
  | some x => x.bad
  | none => false

/-- The element walks page `page` for what `x` names: the extent from there to the end of the page that the tables map, or to page `last`; a
page that faults makes a faulting one. -/
def State.walkExtent (s : State) (a : ElemAt) (x : Extent) (last page : Nat) : Extent :=
  let p := s.pageFor (.die a.die) x.asid (4096 * page)
  match p, s.permit p x.write x.user with
  | some p, .ok _ =>
    let size := 2 ^ (p.bits - 12)
    { x with page, pages := min (size - page % size) (last + 1 - page), pa := p.pa, w := p.w, u := p.u, na := p.na, bad := false }
  | _, _ => { x with page, pages := 1, pa := 0, w := false, u := false, na := false, bad := true }

/-- Patches the pages from `page` to `last`, in order, behind the extents of a list, as long as there is room for `room` of them. -/
def State.walkRun (s : State) (a : ElemAt) (x : Extent) (last room : Nat) : Nat → Nat → List Extent → List Extent
  | 0, _, l => l
  | n + 1, page, l =>
    if last < page ∨ room ≤ l.length then l
    else
      let y := s.walkExtent a x last page
      s.walkRun a x last room n (page + y.pages) (joinExtent l y)

/-- An element patches the pages of an address range for its accesses under an ASID: extents of its tile, while there are free ones. -/
def State.patchRange (s : State) (a : ElemAt) (asid : BitVec 13) (write user : Bool) (lo hi : Nat) : State :=
  let x : Extent := { elem := a.e, asid, page := 0, pages := 0, pa := 0, w := false, u := false, na := false, write, user }
  let l := s.extents a
  s.setExtents a (l ++ s.walkRun a x (hi / 4096) (256 - l.length) (hi / 4096 + 1 - lo / 4096) (lo / 4096) [])

/-- The extents of an element are free. -/
def State.freeExtents (s : State) (a : ElemAt) : State := s.setExtents a ((s.extents a).filter fun x => x.elem != a.e)

/-- A full table gives up the oldest extent of the element, or, when it has none, the oldest of the tile: those are the ones behind its row
(R354, log 145). -/
def extentRoom (e : Nat) (l : List Extent) : List Extent :=
  if l.length < 256 then l
  else match l.find? fun x => x.elem == e with
    | some x => l.erase x
    | none => l.tail

/-- An element accesses an address: no access goes through an unpatched page, so that one is patched first (R354). -/
def State.reachPage (s : State) (a : ElemAt) (asid : BitVec 13) (va : Nat) (write user : Bool) : State :=
  match s.extentOf a asid va with
  | some _ => s
  | none => (s.setExtents a (extentRoom a.e (s.extents a))).patchRange a asid write user va va

/-- Where an access through an extent goes (R350, R354). -/
def State.throughExtent (s : State) (a : ElemAt) (asid : BitVec 13) (va : Nat) (write user : Bool) : Except XlatFault Nat :=
  s.permit ((s.extentOf a asid va).bind fun x => x.at? va) write user

/-- Faulting extents of an element on the named pages are walked again at their next access: a resume token does so (R354). -/
def State.forgetBad (s : State) (a : ElemAt) (pages : List Nat) : State :=
  let l := s.extents a
  if l.isEmpty then s else s.setExtents a (l.filter fun x => !(x.bad && decide (x.elem = a.e) && pages.contains x.page))

/-! ### Invalidation of extents (R355) -/

def InvScope.affects (i : InvScope) (x : Extent) : Bool := i.meets x.asid (4096 * x.page) (4096 * x.pages)

/-- An extent is walked again and patched in place. -/
def State.rewalk (s : State) (a : ElemAt) (x : Extent) : List Extent := s.walkRun a x (x.page + x.pages - 1) 256 x.pages x.page []

/-- The extents of a tile that meet a test are patched in place. -/
def State.repatchTile (s : State) (a : ElemAt) (p : Extent → Bool) : State :=
  s.setExtents a (((s.extents a).flatMap fun x => if p x then s.rewalk a x else [x]).take 256)

/-- Every extent that an invalidation affects is patched again or marked faulting (R355). -/
def State.repatch (s : State) (i : InvScope) : State :=
  (s.tiles.filter fun t => t.2.extents.any i.affects).foldl (fun s t => s.repatchTile (elemOfKey (16 * t.1)) i.affects) s

/-- An invalidation in progress affects an extent. -/
def State.affected (s : State) (x : Extent) : Bool :=
  (s.dies.toList.any fun d => match d.tqu.inv with
    | some i => i.affects x
    | none => false) || s.ert.dropping.any fun i => i.1.affects x

end Sys2Proof.Machine
end

