-- ==== Sys2Proof/Machine/Board.lean ====
section
/-!
DEFINITION. The moves of the board (R101 to R116): reads, writes, path FIFOs, landing ports, RDC copies, releases and acquires.
-/
namespace Sys2Proof.Machine

def State.rdcOf (s : State) (d : Fin 4) (g : Nat) : Option Word := Map.get none g (s.die d).rdc
def State.setRdc (s : State) (d : Fin 4) (g : Nat) (v : Option Word) : State :=
  s.setDie d { s.die d with rdc := Map.put none g v (s.die d).rdc }

/-- Path FIFO toward a home that is not on the writer's die and not host-homed; none where a write performs at the home (R105,
R113). -/
def State.pathDest (s : State) (d : Fin 4) (g : Nat) : Option Dest :=
  match s.homeOf (8 * g) with
  | some (.die e) => if e = d then none else some (.die e)
  | some (.tier p) => some (.tier p)
  | some (.module m) => some (.module m)
  | some .host | none => none

/-- The granule is read and written at its home by parties of die `d` (R104, R105, R113). -/
def State.isLocal (s : State) (d : Fin 4) (g : Nat) : Bool := (s.pathDest d g).isNone

def State.pathItems (s : State) (p : PathId) : List PathItem := lookupD [] p s.paths
def State.setPath (s : State) (p : PathId) (l : List PathItem) : State := { s with paths := assign p l s.paths }

def PathItem.granule? : PathItem → Option Nat
  | .write _ w => some w.granule
  | .row _ _ w => some w.granule
  | .marker _ => none

def PathItem.from? : PathItem → Option Party
  | .write p _ => some p
  | .row a _ _ => some (.stream a)
  | .marker _ => none

/-! ### Capacity of the RDC (R95, log 113) -/

/-- Lines of 64 bytes in 32 MiB. -/
def rdcCap : Nat := 2 ^ 19
/-- Lines of which the RDC of a die holds a granule. -/
def State.rdcLines (s : State) (d : Fin 4) : List Nat := ((s.die d).rdc.map fun e => e.1 / 8).eraseDups
def State.dropLine (s : State) (d : Fin 4) (line : Nat) : State :=
  s.setDie d { s.die d with rdc := (s.die d).rdc.filter fun e => e.1 / 8 != line }

/-- A granule has an unlanded write from die `d` (R107). -/
def State.unlanded (s : State) (d : Fin 4) (g : Nat) : Bool :=
  (s.paths.any fun q => decide (q.1.src.val = d.val) && q.2.any fun it => decide (it.granule? = some g)) ||
  (s.landing.any fun l => l.2.any fun r => decide (r.2.1.src.val = d.val) && decide (r.2.2.granule = g))

/-- A full RDC gives up a line, of those that R107 lets it drop, before a copy of another line enters. -/
def State.rdcRoom (s : State) (d : Fin 4) (g : Nat) : State :=
  if (s.die d).rdc.length < rdcCap then s
  else
    let ls := s.rdcLines d
    if ls.length < rdcCap ∨ ls.contains (g / 8) = true then s
    else
      let out := ls.filter fun l => (List.range 8).all fun i => !s.unlanded d (8 * l + i)
      match out[Config.victim s.moves % out.length]? with
      | some l => s.dropLine d l
      | none => s

/-- A copy enters the RDC. -/
def State.putRdc (s : State) (d : Fin 4) (g : Nat) (v : Word) : State := (s.rdcRoom d g).setRdc d g (some v)

/-- Fills every granule of the line whose RDC copy is absent from its home copy (R104, R107). -/
def State.fillLine (s : State) (d : Fin 4) (g : Nat) : State :=
  (List.range 8).foldl (fun s i =>
    let h := g / 8 * 8 + i
    match s.rdcOf d h with
    | some _ => s
    | none => s.putRdc d h (s.home h)) s

/-- A read of a granule by a party of die `d` performs (R104). -/
def State.readGranule (s : State) (d : Fin 4) (g : Nat) : Word × State :=
  if s.isLocal d g then (s.home g, s)
  else
    match s.rdcOf d g with
    | some v => (v, s)
    | none => (s.home g, s.fillLine d g)

/-- A read on behalf of a task: a read of a granule marked uncorrectable fails the task (R394); the value it would have is
free (log 22). -/
def State.readFor (s : State) (task : Option (BitVec 32)) (d : Fin 4) (g : Nat) : Word × State :=
  if s.marked.contains g then
    (Config.freeWord s.free, { s with free := s.free + 1, doomed := s.doomed ++ task.toList.map fun t => { task := t, struct := 1, addr := BitVec.ofNat 64 (8 * g) } })
  else s.readGranule d g

/-- The same of a home copy (R111, R394). -/
def State.homeFor (s : State) (task : Option (BitVec 32)) (g : Nat) : Word × State :=
  if s.marked.contains g then
    (Config.freeWord s.free, { s with free := s.free + 1, doomed := s.doomed ++ task.toList.map fun t => { task := t, struct := 1, addr := BitVec.ofNat 64 (8 * g) } })
  else (s.home g, s)

/-- Bytes of a value read as little-endian from its granule. -/
def State.readBytes (s : State) (task : Option (BitVec 32)) (d : Fin 4) (pa n : Nat) : Word × State :=
  let r := s.readFor task d (pa / 8)
  (BitVec.ofNat 64 (r.1.toNat / 2 ^ (8 * (pa % 8)) % 2 ^ (8 * n)), r.2)

/-- The write of `n` bytes of `v` at a physical address, within its granule. -/
def storeAt (pa n : Nat) (v : Word) : GWrite :=
  { granule := pa / 8, mask := BitVec.ofNat 8 ((2 ^ n - 1) * 2 ^ (pa % 8)), value := v <<< (8 * (pa % 8)) }

/-- Path of an earlier unlanded write of the party to the line, which a later one must take (R105). -/
def State.forcedPath (s : State) (p : Party) (src : Fin 5) (line : Nat) : Option PathId :=
  match s.paths.find? fun q => decide (q.1.src = src) && q.2.any fun it =>
      decide (it.from? = some p) && (match it.granule? with
        | some g => decide (g / 8 = line)
        | none => false) with
  | some q => some q.1
  | none =>
    match s.landing.findSome? fun l => l.2.find? fun r =>
        decide (p = .stream l.1.stream) && decide (r.2.2.granule / 8 = line) && decide (r.2.1.src = src) with
    | some r => some r.2.1
    | none => none

/-- Ports of the mask toward a module, the path numbers that may be taken (R382); while none is up, a write waits behind those that wait
already (R383). Other destinations may have any number of paths (log 13). -/
def State.pathNumber (s : State) (src : Fin 5) (dst : Dest) (k : Nat) : Nat :=
  match dst with
  | .module m =>
    let mask := (getF s.host.ngrt m).toNat
    let up := (List.finRange 36).filter fun i => mask.testBit i.val && getF s.host.ngUp i
    let any := (List.finRange 36).filter fun i => mask.testBit i.val
    if up.any fun i => i.val == k then k
    else match up, any with
      | i :: _, _ => i.val
      | [], any => match s.paths.find? fun q => decide (q.1.src = src) && decide (q.1.dst = dst) && !q.2.isEmpty with
        | some q => q.1.k
        | none => (any.head?.map fun (i : Fin 36) => i.val).getD k
  | .die _ | .tier _ | .host => k

def State.partyPaths (s : State) (p : Party) : List PathId := lookupD [] p s.pathSets
def State.addPath (s : State) (p : Party) (q : PathId) : State :=
  if (s.partyPaths p).contains q then s else { s with pathSets := assign p (s.partyPaths p ++ [q]) s.pathSets }

/-- A write of a granule by a party of die `d` performs (R105); `row` is the stream row number of a store-stream write, and `k`
the number of the path taken when R105 leaves a choice. A part of a granule whose RDC copy is absent is merged over the home
copy (log 28). -/
def State.writeGranule (s : State) (p : Party) (d : Fin 4) (w : GWrite) (k : Nat) (row : Option Nat) : State :=
  match s.pathDest d w.granule with
  | none => s.setHome w
  | some dst =>
    let old := (s.rdcOf d w.granule).getD (s.home w.granule)
    let s1 := s.putRdc d w.granule (mergeBytes old w.mask w.value)
    let src : Fin 5 := ⟨d.val, by omega⟩
    let q : PathId := (s1.forcedPath p src (w.granule / 8)).getD { src, dst, k := s1.pathNumber src dst k }
    let it : PathItem :=
      match p, row with
      | .stream a, some n => .row a n w
      | _, _ => .write p w
    (s1.setPath q (s1.pathItems q ++ [it])).addPath p q

/-- A party has an unlanded write to a line (R111). -/
def State.unlandedLine (s : State) (p : Party) (line : Nat) : Bool :=
  (s.paths.any fun q => q.2.any fun it =>
    decide (it.from? = some p) && (match it.granule? with
      | some g => decide (g / 8 = line)
      | none => false)) ||
  (s.landing.any fun l => decide (p = .stream l.1.stream) && l.2.any fun r => decide (r.2.2.granule / 8 = line))

/-- Drops every RDC copy of a die that R107 allows: the acquire of device, domain and system scope (R109). -/
def State.dropRdc (s : State) (d : Fin 4) : State :=
  s.setDie d { s.die d with rdc := (s.die d).rdc.filter fun e => s.unlanded d e.1 }

/-- Scopes whose acquire drops RDC copies (R109). -/
def scopeWide : Scope → Bool
  | .region | .die => false
  | .device | .domain | .system => true

/-- An acquire that carries no read (R109, R110). -/
def State.acquire (s : State) (d : Fin 4) (sc : Scope) : State := if scopeWide sc then s.dropRdc d else s

/-! ### Releases (R109) -/

def CmdOp.isLoad : CmdOp → Bool
  | .strmLd | .strmGth => true
  | .strmSt | .strmSct | .cpy | .cpy2d | .collAr | .collAg | .collRs | .collBc | .collA2a | .flm | .cfgLd => false

/-- Sends a marker of release `id` down each path of the parties' path sets; the paths that wait for it. -/
def State.sendMarkers (s : State) (ps : List Party) (id : Nat) : List PathId × State :=
  let qs := (ps.flatMap s.partyPaths).eraseDups
  (qs, qs.foldl (fun s q => s.setPath q (s.pathItems q ++ [.marker id])) s)

/-- A write that a party sent on a path has not landed. -/
def State.unlandedOn (s : State) (p : Party) (q : PathId) : Bool :=
  ((s.pathItems q).any fun it => decide (it.from? = some p)) ||
  (s.landing.any fun l => decide (p = .stream l.1.stream) && l.2.any fun r => decide (r.2.1 = q))

/-- The release has performed: the parties' path sets keep only the paths of writes sent behind its markers, which have not landed
(R101, R109; log 114). -/
def State.emptyPathSets (s : State) (ps : List Party) : State :=
  let kept := s.pathSets.map fun e => if ps.contains e.1 then (e.1, e.2.filter (s.unlandedOn e.1)) else e
  { s with pathSets := kept.filter fun e => !e.2.isEmpty }

def State.release? (s : State) (id : Nat) : Option Release := s.releases.find? fun r => r.id == id
def State.dropRelease (s : State) (id : Nat) : State := { s with releases := s.releases.filter fun r => r.id != id }
def State.setRelease (s : State) (r : Release) : State :=
  { s with releases := updateFirst (fun x => x.id == r.id) (fun _ => r) s.releases }

/-- Opens a release; its markers go out when the accesses it covers have performed. -/
def State.openRelease (s : State) (who : RelFor) (ps : List Party) (rows : List (ElemAt × Nat)) : Nat × State :=
  (s.nextId, { s with nextId := s.nextId + 1
                      releases := s.releases ++ [{ id := s.nextId, who, parties := ps, rows }] })

/-- A marker has been gathered (R106). -/
def State.gather (s : State) (id : Nat) (q : PathId) : State :=
  { s with releases := updateFirst (fun r => r.id == id) (fun r => { r with waiting := r.waiting.erase q }) s.releases }

/-- Rows of which an engine has issued an access: those that it has read or taken, and the one that a load is reading (R103, R110). -/
def StreamState.rowsIssued (se : StreamState) : Nat :=
  match se.cur with
  | some r => if !r.todo.isEmpty && !r.got.isEmpty && r.cmd.op.isLoad then se.issued + 1 else se.issued
  | none => se.issued

/-- Every access that the named streams had issued when the release was asked has performed: a stream numbers its rows, and
`n` rows had been issued (R110, R115). -/
def State.rowsPerformed (s : State) (r : Release) : Bool :=
  r.rows.all fun x =>
    let se := (s.elem x.1).se
    match se.cur with
    | some run => run.writes.all (fun w => decide (x.2 ≤ w.1)) && decide (x.2 ≤ se.issued)
    | none => true

/-! ### The order buffer of a core (R103, R108) -/

def OrderItem.isStore : OrderItem → Bool
  | .store _ => true
  | .cmd _ | .sbar .. | .qfence .. | .shape .. => false

/-- Places the entries that wait for nothing but the commands ahead of them: barriers, fences and shape tokens (R199, R206,
R212). -/
def State.place (s : State) (c : Fin 64) : OrderItem → State
  | .store _ | .cmd _ => s
  | .sbar es id =>
    es.foldl (fun s a =>
      let e := s.elem a
      s.setElem a { e with se := { e.se with items := e.se.items ++ [.barrier id] } }) s
  | .qfence qs id w =>
    qs.foldl (fun s q =>
      let k := s.core c
      s.setCore c { k with queues := setF k.queues q (getF k.queues q ++ [.fence id w]) }) s
  | .shape a t =>
    let e := s.elem a
    s.setElem a { e with se := { e.se with items := e.se.items ++ [.shape t] } }

/-- Places every such entry at the head of an order buffer. -/
def State.settleOrder (s : State) (c : Fin 64) : List OrderItem → State
  | [] => s.setCore c { s.core c with order := [] }
  | .store w :: t => s.setCore c { s.core c with order := .store w :: t }
  | .cmd k :: t => s.setCore c { s.core c with order := .cmd k :: t }
  | .sbar es id :: t => (s.place c (.sbar es id)).settleOrder c t
  | .qfence qs id w :: t => (s.place c (.qfence qs id w)).settleOrder c t
  | .shape a k :: t => (s.place c (.shape a k)).settleOrder c t

/-- Adds an entry to a core's order buffer. -/
def State.issue (s : State) (c : Fin 64) (it : OrderItem) : State := s.settleOrder c ((s.core c).order ++ [it])

/-- Performs one store of a core. -/
def State.performStore (s : State) (c : Fin 64) (w : GWrite) (k : Nat) : State :=
  s.writeGranule (.core c) (dieOf c) w k none

/-- The same where no operand of the move names the path: the board chooses (R102, R105). -/
def State.performStoreAny (s : State) (c : Fin 64) (w : GWrite) : State :=
  s.performStore c w (Config.boardPath s.moves w.granule)

/-- Performs every store of a core's order buffer in order, before a later access of the core (R108, log 5). -/
def State.drainStores (s : State) (c : Fin 64) : State :=
  let stores := (s.core c).order.filterMap fun it =>
    match it with
    | .store w => some w
    | .cmd _ | .sbar .. | .qfence .. | .shape .. => none
  let s1 := s.setCore c { s.core c with order := (s.core c).order.filter fun it => !it.isStore }
  let s2 := stores.foldl (fun s w => s.performStoreAny c w) s1
  if stores.isEmpty then s else s2.settleOrder c (s2.core c).order

/-- Nothing of a core's order buffer is left (R185, R208). -/
def State.orderEmpty (s : State) (c : Fin 64) : Bool := (s.core c).order.isEmpty

end Sys2Proof.Machine
end

