-- ==== Sys2Proof/Machine/Operands.lean ====
section
/-!
DEFINITION. Operand forms of the core: general and queue-mapped registers (R129, R130, R179, R180), ports (R28), data addresses
(R163, R174).
-/
namespace Sys2Proof.Machine

/-- A stream engine of core `c`'s committed region that satisfies `p` (R155). -/
def State.findEngine (s : State) (c : Fin 64) (p : Elem → Bool) : Option ElemAt :=
  match s.ownRegion c with
  | none => none
  | some r =>
    if (s.region (dieOf c) r).committed then
      (s.regionElems (dieOf c) r).find? fun a => isStreamEngine a && (s.elem a).portValid && p (s.elem a)
    else none

/-- The port element bound to a queue-mapped register. -/
def State.qBind (s : State) (c : Fin 64) (q : Nat) : Option ElemAt :=
  s.findEngine c fun e => e.qpValid && e.qpNo == q

/-- The element of a port number in a direction. -/
def State.portElem (s : State) (c : Fin 64) (vo : Bool) (n : Nat) : Option ElemAt :=
  s.findEngine c fun e => e.portVo == vo && e.portNo == n

/-- Port trap with its reason and number (R169). -/
def portTrap (reason num : Nat) : TrapReq := { cause := .port, info := reason * 2 ^ 8 + num % 2 ^ 8 }

/-- Barrier, shape and completion tokens leave a sink port without effect when they reach its head (R180). -/
def dropSilent : List Token → List Token
  | [] => []
  | t :: ts => if t.hdr.kind == 2 || t.hdr.kind == 6 || t.hdr.kind == 5 then dropSilent ts else t :: ts

/-- The highest level of a barrier among tokens removed, kept for drains (R337). -/
def levelOf : List Token → Option Nat → Option Nat
  | [], l => l
  | t :: ts, l =>
    if t.hdr.kind == 2 then levelOf ts (some (max (l.getD 0) t.hdr.level))
    else if t.hdr.kind == 6 || t.hdr.kind == 5 then levelOf ts l else l

def Elem.settleHead (e : Elem) : Elem :=
  { e with inq := setF e.inq 0 (dropSilent (getF e.inq 0)), reached := levelOf (getF e.inq 0) e.reached }

/-- What a pop finds (R180). -/
inductive QHead where
  | absent | poison | ended
  | value (v : Word)
  deriving DecidableEq, Repr

/-- Payload bits 63:0 with masked 32-bit lanes as zero (R180). -/
def popValue (t : Token) : Word :=
  if t.hdr.isNull then 0
  else
    let lo : BitVec 32 := if t.hdr.lanes.getLsbD 0 then t.pay.truncate 32 else 0
    let hi : BitVec 32 := if t.hdr.lanes.getLsbD 1 then (t.pay >>> 32).truncate 32 else 0
    (hi ++ lo : BitVec 64)

def Elem.qHead (e : Elem) : QHead :=
  match dropSilent (getF e.inq 0) with
  | [] => .absent
  | t :: _ => if t.hdr.isPoison then .poison else if t.hdr.kind == 3 then .ended else .value (popValue t)

/-- Pops the head token of a sink port; what then stands at its head leaves if it is silent (R180). -/
def State.popPort (s : State) (a : ElemAt) : State :=
  let e := (s.elem a).settleHead
  let s1 := s.setElem a (e.drop 0 1).settleHead
  match e.head? 0 with
  | some t => s1.endMiss a 0 t.hdr true
  | none => s1

def State.settlePort (s : State) (a : ElemAt) : State := s.setElem a (s.elem a).settleHead

/-- The token a push sends (R179, R188). -/
def pushToken (wid v : Word) : Token :=
  { hdr := { lanes := 3, seq := wid.truncate 16, itag := wid.truncate 8 }, pay := v.zeroExtend 512 }

/-- A source emits a token, or drops it with a cancel of its itag (R58, R61). -/
def State.sourceEmit (s : State) (a : ElemAt) (t : Token) : State :=
  let e := s.elem a
  if t.hdr.isTarget && e.cancelled t.hdr.itag 0 then s.setElem a { e with cancels := dropCancels t.hdr.itag 0 1 e.cancels }
  else s.send a 0 t

/-- A source port can take a token: it has a credit and is not frozen (R130, R334). -/
def State.sourceReady (s : State) (a : ElemAt) : Bool := decide (0 < s.credits a 0) && !(s.elem a).frozen

/-- Operands read, or the reason why not. -/
inductive Got where
  | trap (t : TrapReq)
  | wait (s : State)
  | vals (x y : Word) (s : State)

/-- Direction check of one named register (R130 step 1). -/
def State.checkBind (s : State) (q : Option Nat) (vo : Bool) : Option TrapReq :=
  match q with
  | none => none
  | some q =>
    match s.qBind s.cur q with
    | none => some (portTrap 0 q)
    | some a => if (s.elem a).portVo = vo then none else some (portTrap 1 q)

/-- The head check of one source (R180): a trap, or whether a value stands there. -/
def State.checkHead (s : State) (q : Option Nat) : Except TrapReq Bool :=
  match q with
  | none => .ok true
  | some q =>
    match s.qBind s.cur q with
    | none => .error (portTrap 0 q)
    | some a =>
      match (s.elem a).qHead with
      | .absent => .ok false
      | .poison => .error (portTrap 2 q)
      | .ended => .error (portTrap 3 q)
      | .value _ => .ok true

def State.srcValue (s : State) (q : Option Nat) (r : Reg) : Word :=
  match q with
  | none => s.rd r
  | some q =>
    match s.qBind s.cur q with
    | none => 0
    | some a =>
      match (s.elem a).qHead with
      | .value v => v
      | .absent | .poison | .ended => 0

def State.popQ (s : State) (q : Option Nat) : State :=
  match q with
  | none => s
  | some q =>
    match s.qBind s.cur q with
    | none => s
    | some a => s.popPort a

def State.settleQ (s : State) (q : Option Nat) : State :=
  match q with
  | none => s
  | some q =>
    match s.qBind s.cur q with
    | none => s
    | some a => s.settlePort a

/-- The destination port can take the result. -/
def State.destReady (s : State) (q : Option Nat) : Bool :=
  match q with
  | none => true
  | some q =>
    match s.qBind s.cur q with
    | none => false
    | some a => s.sourceReady a

/-- src_a, src_b and the wait for put_d under R130: the direction checks, then the wait, then one pop of each distinct
register. -/
def State.sources (s : State) (qa : Option Nat) (a : Reg) (qb : Option Nat) (b : Reg) (qd : Option Nat) : Got :=
  match s.checkBind qa true, s.checkBind qb true, s.checkBind qd false with
  | some t, _, _ => .trap t
  | none, some t, _ => .trap t
  | none, none, some t => .trap t
  | none, none, none =>
    match s.checkHead qa, s.checkHead qb with
    | .error t, _ => .trap t
    | .ok _, .error t => .trap t
    | .ok ra, .ok rb =>
      if ra && rb && s.destReady qd then
        let x := s.srcValue qa a
        let y := s.srcValue qb b
        let s1 := s.popQ qa
        .vals x y (if qa = qb then s1 else s1.popQ qb)
      else .wait ((s.settleQ qa).settleQ qb)

/-- The queue-mapped register that a field names when its q bit is set (R129). -/
def qReg (q : Bool) (r : Reg) : Option Nat := if q then some r.val else none

/-- Pushes a value through a queue-mapped register (R179). -/
def State.pushQ (s : State) (q : Nat) (v : Word) : State :=
  match s.qBind s.cur q with
  | none => s
  | some a => s.sourceEmit a (pushToken s.me.wid v)

/-- put_d (R130 step 4). -/
def State.putD (s : State) (q : Option Nat) (d : Reg) (v : Word) : State :=
  match q with
  | none => s.wr d v
  | some q => s.pushQ q v

/-- A three-register instruction whose result is `f x y` (R170). -/
def State.rrr (s : State) (o : Rrr) (f : Word → Word → Word) : State :=
  match s.sources (qReg o.qa o.a) o.a (qReg o.qb o.b) o.b (qReg o.qd o.d) with
  | .trap t => s.trap t
  | .wait s' => s'
  | .vals x y s' => (s'.putD (qReg o.qd o.d) o.d (f x y)).advance

/-- A unary instruction (R170). -/
def State.unary (s : State) (o : Unary) (f : Word → Word) : State :=
  s.rrr { d := o.d, a := o.a, b := 0, qa := o.qa, qb := false, qd := o.qd } fun x _ => f x

/-- A compare into a predicate (R173). -/
def State.pcmp (s : State) (o : PCmp) (f : Word → Word → Bool) : State :=
  match s.sources (qReg o.qa o.a) o.a (qReg o.qb o.b) o.b none with
  | .trap t => s.trap t
  | .wait s' => s'
  | .vals x y s' => (s'.wrP o.p (f x y)).advance

/-! ### Data addresses (R163, R174) -/

/-- The private window: its byte offset, when the address lies in it. -/
def privOffset (a : Word) : Option Nat :=
  if 0x00FF_FFFF_FFFF_0000 ≤ a.toNat ∧ a.toNat ≤ 0x00FF_FFFF_FFFF_FFFF then some (a.toNat % 65536) else none

/-- Where a checked data access goes. -/
inductive Place where
  | priv (off : Nat)
  | phys (pa : Nat)
  deriving DecidableEq, Repr

/-- check_data (R174) for an access of `n` bytes by the running core; the trap it raises, or the place. -/
def State.checkData (s : State) (addr : Word) (n : Nat) (write : Bool) : Except TrapReq Place :=
  if addr.toNat / 2 ^ 56 ≠ 0 then .error { cause := .addressRange, bad := addr }
  else if addr.toNat % n ≠ 0 then .error { cause := .alignment, bad := addr }
  else
    match privOffset addr with
    | some o => .ok (.priv o)
    | none =>
      match s.translateBy (.core s.cur) (s.me.asid.truncate 13) addr.toNat write (!s.sv) with
      | .ok pa => .ok (.phys pa)
      | .error f => .error { cause := f.cause, bad := addr }

def sext16 (i : BitVec 16) : Word := i.signExtend 64
def zext16 (i : BitVec 16) : Word := i.zeroExtend 64

end Sys2Proof.Machine
end

