-- ==== Sys2Proof/Machine/Flags.lean ====
section
/-!
DEFINITION. The conditions of compares, branches and predicates (R173, R177) and the counts and shifts of R170. The core has no
arithmetic flags: predicates p0 to p7 are its condition bits.
-/
namespace Sys2Proof.Machine

def cEq (x y : Word) : Bool := x == y
def cNe (x y : Word) : Bool := x != y
/-- Signed and unsigned order. -/
def cLt (x y : Word) : Bool := BitVec.slt x y
def cLtu (x y : Word) : Bool := BitVec.ult x y
def cLe (x y : Word) : Bool := BitVec.sle x y
def cLeu (x y : Word) : Bool := BitVec.ule x y

/-- A condition as 0 or 1 (R173). -/
def boolWord (b : Bool) : Word := if b then 1 else 0

/-- Shift count: bits 5:0 of the second operand (R170). -/
def shiftCount (y : Word) : Nat := y.toNat % 64

/-- Count of leading zero bits among the `n` low bits (R170). -/
def leadingZeros (x : Word) : Nat → Nat
  | 0 => 0
  | n + 1 => if x.getLsbD n then 0 else leadingZeros x n + 1
/-- Count of trailing zero bits, looking at `n` more bits from `i`. -/
def trailingZeros (x : Word) (i : Nat) : Nat → Nat
  | 0 => 0
  | n + 1 => if x.getLsbD i then 0 else trailingZeros x (i + 1) n + 1
/-- Count of one bits among the `n` low bits. -/
def oneBits (x : Word) : Nat → Nat
  | 0 => 0
  | n + 1 => (if x.getLsbD n then 1 else 0) + oneBits x n

/-- The low 32 bits, sign-extended (R170). -/
def sext32 (x : Word) : Word := (x.truncate 32 : BitVec 32).signExtend 64

/-- Signed quotient rounded toward zero, with the fixed borderline results of R171. -/
def divSigned (x y : Word) : Word := if y = 0 then 0xFFFF_FFFF_FFFF_FFFF else BitVec.ofInt 64 (x.toInt.tdiv y.toInt)
def divUnsigned (x y : Word) : Word := if y = 0 then 0xFFFF_FFFF_FFFF_FFFF else BitVec.ofNat 64 (x.toNat / y.toNat)
def remSigned (x y : Word) : Word := if y = 0 then x else BitVec.ofInt 64 (x.toInt.tmod y.toInt)
def remUnsigned (x y : Word) : Word := if y = 0 then x else BitVec.ofNat 64 (x.toNat % y.toNat)

/-- Bits 127:64 of the products (R171). -/
def mulHigh (x y : Word) : Word := BitVec.ofInt 64 (x.toInt * y.toInt / 2 ^ 64)
def mulHighU (x y : Word) : Word := BitVec.ofNat 64 (x.toNat * y.toNat / 2 ^ 64)

end Sys2Proof.Machine
end

