-- ==== Sys2Proof/Machine/Alu.lean ====
section
/-!
DEFINITION. Integer arithmetic, logic, shifts, multiply and divide, and the immediate forms (R170 to R172).
-/
namespace Sys2Proof.Machine

/-! ### ALU (R170) -/

def execAdd (o : Rrr) (s : State) : Out := .next (s.rrr o (fun x y => x + y))
def execSub (o : Rrr) (s : State) : Out := .next (s.rrr o (fun x y => x - y))
def execAnd (o : Rrr) (s : State) : Out := .next (s.rrr o (fun x y => x &&& y))
def execOr (o : Rrr) (s : State) : Out := .next (s.rrr o (fun x y => x ||| y))
def execXor (o : Rrr) (s : State) : Out := .next (s.rrr o (fun x y => x ^^^ y))
def execAndn (o : Rrr) (s : State) : Out := .next (s.rrr o (fun x y => x &&& ~~~y))
def execShl (o : Rrr) (s : State) : Out := .next (s.rrr o (fun x y => x <<< shiftCount y))
def execShr (o : Rrr) (s : State) : Out := .next (s.rrr o (fun x y => x >>> shiftCount y))
def execSar (o : Rrr) (s : State) : Out := .next (s.rrr o (fun x y => x.sshiftRight (shiftCount y)))
def execRotl (o : Rrr) (s : State) : Out := .next (s.rrr o (fun x y => x.rotateLeft (shiftCount y)))
def execMin (o : Rrr) (s : State) : Out := .next (s.rrr o (fun x y => if cLt y x then y else x))
def execMax (o : Rrr) (s : State) : Out := .next (s.rrr o (fun x y => if cLt x y then y else x))
def execMinu (o : Rrr) (s : State) : Out := .next (s.rrr o (fun x y => if cLtu y x then y else x))
def execMaxu (o : Rrr) (s : State) : Out := .next (s.rrr o (fun x y => if cLtu x y then y else x))
def execClz (o : Unary) (s : State) : Out := .next (s.unary o (fun x => BitVec.ofNat 64 (leadingZeros x 64)))
def execCtz (o : Unary) (s : State) : Out := .next (s.unary o (fun x => BitVec.ofNat 64 (trailingZeros x 0 64)))
def execPopc (o : Unary) (s : State) : Out := .next (s.unary o (fun x => BitVec.ofNat 64 (oneBits x 64)))
def execAddw (o : Rrr) (s : State) : Out := .next (s.rrr o (fun x y => sext32 (x + y)))
def execSubw (o : Rrr) (s : State) : Out := .next (s.rrr o (fun x y => sext32 (x - y)))

/-! ### Multiply and divide (R171) -/

def execMul (o : Rrr) (s : State) : Out := .next (s.rrr o (fun x y => x * y))
def execMulh (o : Rrr) (s : State) : Out := .next (s.rrr o (mulHigh))
def execMulhu (o : Rrr) (s : State) : Out := .next (s.rrr o (mulHighU))
def execDiv (o : Rrr) (s : State) : Out := .next (s.rrr o (divSigned))
def execDivu (o : Rrr) (s : State) : Out := .next (s.rrr o (divUnsigned))
def execRem (o : Rrr) (s : State) : Out := .next (s.rrr o (remSigned))
def execRemu (o : Rrr) (s : State) : Out := .next (s.rrr o (remUnsigned))

/-! ### Immediate forms (R172) -/

/-- gd takes a value computed from a general register. -/
def State.imm (s : State) (d : Reg) (v : Word) : State := (s.wr d v).advance

def execAddi (d a : Reg) (imm : BitVec 16) (s : State) : Out := .next (s.imm d (s.rd a + sext16 imm))
def execAndi (d a : Reg) (imm : BitVec 16) (s : State) : Out := .next (s.imm d (s.rd a &&& zext16 imm))
def execOri (d a : Reg) (imm : BitVec 16) (s : State) : Out := .next (s.imm d (s.rd a ||| zext16 imm))
def execXori (d a : Reg) (imm : BitVec 16) (s : State) : Out := .next (s.imm d (s.rd a ^^^ zext16 imm))
def execSlti (d a : Reg) (imm : BitVec 16) (s : State) : Out := .next (s.imm d (boolWord (cLt (s.rd a) (sext16 imm))))
def execSltiu (d a : Reg) (imm : BitVec 16) (s : State) : Out := .next (s.imm d (boolWord (cLtu (s.rd a) (sext16 imm))))
def execShli (d a : Reg) (n : Fin 64) (s : State) : Out := .next (s.imm d (s.rd a <<< n.val))
def execShri (d a : Reg) (n : Fin 64) (s : State) : Out := .next (s.imm d (s.rd a >>> n.val))
def execSari (d a : Reg) (n : Fin 64) (s : State) : Out := .next (s.imm d ((s.rd a).sshiftRight n.val))
/-- sext(imm16 × 2^16, 32). -/
def execLui (d : Reg) (imm : BitVec 16) (s : State) : Out := .next (s.imm d ((imm ++ (0 : BitVec 16) : BitVec 32).signExtend 64))
/-- gd with chunk `h` replaced. -/
def lihValue (x : Word) (h : Fin 4) (imm : BitVec 16) : Word :=
  (x &&& ~~~((0xFFFF : Word) <<< (16 * h.val))) ||| (imm.zeroExtend 64 <<< (16 * h.val))
def execLih (d : Reg) (h : Fin 4) (imm : BitVec 16) (s : State) : Out := .next (s.imm d (lihValue (s.rd d) h imm))

end Sys2Proof.Machine
end

