-- ==== Sys2Proof/Machine/Branch.lean ====
section
/-!
DEFINITION. Branches and jumps (R131, R177, R178).
-/
namespace Sys2Proof.Machine

/-- The last word address of code memory (R131). -/
def lastCode : Nat := 0x3FFFC

/-- Target of a branch at `pc` with a word offset. -/
def branchTarget (pc : Word) (off : Word) : Word := pc + 4 * off

/-- Goes to a target, or raises the fetch-range trap before `link` is written (R131). -/
def State.jump (s : State) (t : Word) (link : State → State) : State :=
  if t.toNat % 4 ≠ 0 ∨ lastCode < t.toNat then s.trap { cause := .fetchRange, bad := t } else (link s).setPc t

def State.branch (s : State) (c : Bool) (off : BitVec 16) : State :=
  if c then s.jump (branchTarget s.me.pc (sext16 off)) id else s.advance

def execBeq (a b : Reg) (off : BitVec 16) (s : State) : Out := .next (s.branch (cEq (s.rd a) (s.rd b)) off)
def execBne (a b : Reg) (off : BitVec 16) (s : State) : Out := .next (s.branch (cNe (s.rd a) (s.rd b)) off)
def execBlt (a b : Reg) (off : BitVec 16) (s : State) : Out := .next (s.branch (cLt (s.rd a) (s.rd b)) off)
def execBge (a b : Reg) (off : BitVec 16) (s : State) : Out := .next (s.branch (!cLt (s.rd a) (s.rd b)) off)
def execBltu (a b : Reg) (off : BitVec 16) (s : State) : Out := .next (s.branch (cLtu (s.rd a) (s.rd b)) off)
def execBgeu (a b : Reg) (off : BitVec 16) (s : State) : Out := .next (s.branch (!cLtu (s.rd a) (s.rd b)) off)
def execBpt (p : PReg) (off : BitVec 16) (s : State) : Out := .next (s.branch (s.rdP p) off)
def execBpf (p : PReg) (off : BitVec 16) (s : State) : Out := .next (s.branch (!s.rdP p) off)

def execJ (off : BitVec 26) (s : State) : Out := .next (s.jump (branchTarget s.me.pc (off.signExtend 64)) id)
/-- The link is pc + 4 (R131). -/
def execJal (off : BitVec 26) (s : State) : Out :=
  .next (s.jump (branchTarget s.me.pc (off.signExtend 64)) fun s => s.wr 31 (s.me.pc + 4))
/-- The target is read before the link is written (R178). -/
def execJalr (d a : Reg) (s : State) : Out := .next (s.jump (s.rd a) fun s => s.wr d (s.me.pc + 4))

end Sys2Proof.Machine
end

