-- ==== Sys2Proof/Machine/W64.lean ====
section
/-!
DEFINITION. The working float W64 (R71 to R77), the storage formats and conversions (R78 to R87), and the exact accumulator (R92).
Every operation computes exactly on signed dyadic numbers and rounds once.
-/
namespace Sys2Proof.Machine

/-- What an image stands for; a finite nonzero value is (−1)^neg × m × 2^ex with m > 0. -/
inductive Val where
  | nan
  | inf (neg : Bool)
  | zero (neg : Bool)
  | fin (neg : Bool) (m : Nat) (ex : Int)
  deriving DecidableEq, Repr

/-- Rounding modes (R75). -/
inductive RM where
  | rne | rtz | rup | rdn
  deriving DecidableEq, Repr

def rmOf (v : Nat) : RM :=
  match v % 4 with
  | 0 => .rne
  | 1 => .rtz
  | 2 => .rup
  | _ => .rdn

def canonicalNaN : Word := 0x7FFF_0000_0000_0000
def wInf (neg : Bool) : Word := if neg then 0xFFFC_0000_0000_0000 else 0x7FFC_0000_0000_0000
def wZero (neg : Bool) : Word := if neg then 0x8000_0000_0000_0000 else 0
def wMaxFinite (neg : Bool) : Word := if neg then 0xFFFB_FFFF_FFFF_FFFF else 0x7FFB_FFFF_FFFF_FFFF
def wOne (neg : Bool) : Word := if neg then 0xBFFE_0000_0000_0000 else 0x3FFE_0000_0000_0000

/-- Reads an image; a non-canonical one counts as a signalling NaN (R72, R73). -/
def valOf (w : Word) : Val :=
  let neg := w.getLsbD 63
  let e := w.toNat / 2 ^ 50 % 2 ^ 13
  let sig := w.toNat % 2 ^ 50
  if e = 0 then (if sig = 0 then .zero neg else .nan)
  else if e = 0x1FFF then (if sig = 0 then .inf neg else .nan)
  else if sig < 2 ^ 49 then .nan
  else .fin neg sig (Int.ofNat e - 4144)

def isNaN (w : Word) : Bool :=
  match valOf w with
  | .nan => true
  | .inf _ | .zero _ | .fin .. => false

/-- round_integer of m / 2^k (R76). -/
def roundShift (m k : Nat) (rm : RM) (neg : Bool) : Nat :=
  let q := m / 2 ^ k
  let r := m % 2 ^ k
  if r = 0 then q
  else
    match rm with
    | .rne => if 2 * r > 2 ^ k then q + 1 else if 2 * r < 2 ^ k then q else q + q % 2
    | .rtz => q
    | .rup => if neg then q else q + 1
    | .rdn => if neg then q + 1 else q

/-- round_integer of m × 2^ex for any sign of the exponent. -/
def roundScaled (m : Nat) (ex : Int) (rm : RM) (neg : Bool) : Nat :=
  match ex with
  | .ofNat n => m * 2 ^ n
  | .negSucc n => roundShift m (n + 1) rm neg

/-- overflow_w64 (R76). -/
def overflowW64 (neg : Bool) (rm : RM) : Word :=
  match rm with
  | .rne => wInf neg
  | .rtz => wMaxFinite neg
  | .rup => if neg then wMaxFinite true else wInf false
  | .rdn => if neg then wInf true else wMaxFinite false

/-- image(s, exp, n) of R76. -/
def wImage (neg : Bool) (e n : Nat) : Word := BitVec.ofNat 64 ((if neg then 2 ^ 63 else 0) + e * 2 ^ 50 + n)

/-- round_w64 of a finite nonzero value (R76). -/
def roundFin (neg : Bool) (m : Nat) (ex : Int) (rm : RM) : Word :=
  let l := Nat.log2 m
  let n := if l ≤ 49 then m * 2 ^ (49 - l) else roundShift m (l - 49) rm neg
  let e : Int := ex + Int.ofNat l + (if n = 2 ^ 50 then 1 else 0)
  let n' := if n = 2 ^ 50 then 2 ^ 49 else n
  if e > 4095 then overflowW64 neg rm
  else if e < -4094 then wZero neg
  else wImage neg (e + 4095).toNat n'

/-- round_w64: the image of a value, rounded once. -/
def roundW64 (v : Val) (rm : RM) : Word :=
  match v with
  | .nan => canonicalNaN
  | .inf n => wInf n
  | .zero n => wZero n
  | .fin n m e => roundFin n m e rm

/-- The value (−1)^… of an integer times 2^ex; zero takes the sign given. -/
def valOfInt (i : Int) (ex : Int) (zneg : Bool) : Val :=
  match i with
  | .ofNat 0 => .zero zneg
  | .ofNat (n + 1) => .fin false (n + 1) ex
  | .negSucc n => .fin true (n + 1) ex

def signed (neg : Bool) (m : Nat) : Int := if neg then -(Int.ofNat m) else Int.ofNat m

/-- Exact sum (R77). -/
def addVal (a b : Val) (rm : RM) : Val :=
  match a, b with
  | .nan, _ | _, .nan => .nan
  | .inf x, .inf y => if x == y then .inf x else .nan
  | .inf x, _ => .inf x
  | _, .inf y => .inf y
  | .zero x, .zero y => .zero (if x == y then x else decide (rm = .rdn))
  | .zero _, b => b
  | a, .zero _ => a
  | .fin x m e, .fin y n f =>
    let lo := min e f
    valOfInt (signed x (m * 2 ^ (e - lo).toNat) + signed y (n * 2 ^ (f - lo).toNat)) lo (decide (rm = .rdn))

def negVal : Val → Val
  | .nan => .nan
  | .inf n => .inf (!n)
  | .zero n => .zero (!n)
  | .fin n m e => .fin (!n) m e

/-- Exact product (R77). -/
def mulVal (a b : Val) : Val :=
  match a, b with
  | .nan, _ | _, .nan => .nan
  | .inf _, .zero _ | .zero _, .inf _ => .nan
  | .inf x, .inf y => .inf (x != y)
  | .inf x, .fin y _ _ => .inf (x != y)
  | .fin x _ _, .inf y => .inf (x != y)
  | .zero x, .zero y => .zero (x != y)
  | .zero x, .fin y _ _ => .zero (x != y)
  | .fin x _ _, .zero y => .zero (x != y)
  | .fin x m e, .fin y n f => .fin (x != y) (m * n) (e + f)

def wAddOp (rm : RM) (a b : Word) : Word := roundW64 (addVal (valOf a) (valOf b) rm) rm
def wSubOp (rm : RM) (a b : Word) : Word := roundW64 (addVal (valOf a) (negVal (valOf b)) rm) rm
def wMulOp (rm : RM) (a b : Word) : Word := roundW64 (mulVal (valOf a) (valOf b)) rm
def wFmaOp (rm : RM) (a b c : Word) : Word := roundW64 (addVal (mulVal (valOf a) (valOf b)) (valOf c) rm) rm

/-- Numeric comparison of two values that are no NaN: a < b. −0 equals +0. -/
def ltVal (a b : Val) : Bool :=
  match a, b with
  | .nan, _ | _, .nan => false
  | .inf x, .inf y => x && !y
  | .inf x, _ => x
  | _, .inf y => !y
  | .zero _, .zero _ => false
  | .zero _, .fin y _ _ => !y
  | .fin x _ _, .zero _ => x
  | .fin x m e, .fin y n f =>
    let lo := min e f
    decide (signed x (m * 2 ^ (e - lo).toNat) < signed y (n * 2 ^ (f - lo).toNat))

def eqVal (a b : Val) : Bool :=
  match a, b with
  | .nan, _ | _, .nan => false
  | a, b => !ltVal a b && !ltVal b a

/-- a before b in the order of w.min and w.max, with −0 below +0 (R226). -/
def beforeVal (a b : Val) : Bool :=
  match a, b with
  | .zero x, .zero y => x && !y
  | a, b => ltVal a b

def wMinOp (a b : Word) : Word :=
  match valOf a, valOf b with
  | .nan, _ | _, .nan => canonicalNaN
  | x, y => if beforeVal y x then b else a
def wMaxOp (a b : Word) : Word :=
  match valOf a, valOf b with
  | .nan, _ | _, .nan => canonicalNaN
  | x, y => if beforeVal x y then b else a
def wAbsOp (a : Word) : Word := if isNaN a then canonicalNaN else a &&& 0x7FFF_FFFF_FFFF_FFFF
def wNegOp (a : Word) : Word := if isNaN a then canonicalNaN else a ^^^ 0x8000_0000_0000_0000

/-- The integer nearest under a mode, as a magnitude (R233). -/
def magInt (m : Nat) (ex : Int) (rm : RM) (neg : Bool) : Nat := roundScaled m ex rm neg

def wRintOp (rm : RM) (a : Word) : Word :=
  match valOf a with
  | .nan => canonicalNaN
  | .inf n => wInf n
  | .zero n => wZero n
  | .fin n m e =>
    match magInt m e rm n with
    | 0 => wZero n
    | k + 1 => roundFin n (k + 1) 0 rm

/-- A W64 image of an integer; exact below 2^50 (R84, R233). -/
def wOfInt (i : Int) : Word := roundW64 (valOfInt i 0 false) .rne

/-! ### Storage formats (R78) -/

structure Fmt where
  width : Nat
  expBits : Nat
  frac : Nat
  bias : Nat
  hasInf : Bool
  /-- Code of the canonical NaN, and of the largest finite magnitude. -/
  nan : Nat
  largest : Nat
  deriving DecidableEq, Repr

def fp32 : Fmt := { width := 32, expBits := 8, frac := 23, bias := 127, hasInf := true, nan := 0x7FC00000, largest := 0x7F7FFFFF }
def bf16 : Fmt := { width := 16, expBits := 8, frac := 7, bias := 127, hasInf := true, nan := 0x7FC0, largest := 0x7F7F }
def fp16 : Fmt := { width := 16, expBits := 5, frac := 10, bias := 15, hasInf := true, nan := 0x7E00, largest := 0x7BFF }
def e5m2 : Fmt := { width := 8, expBits := 5, frac := 2, bias := 15, hasInf := true, nan := 0x7E, largest := 0x7B }
def e4m3 : Fmt := { width := 8, expBits := 4, frac := 3, bias := 7, hasInf := false, nan := 0x7F, largest := 0x7E }
def e2m1 : Fmt := { width := 4, expBits := 2, frac := 1, bias := 1, hasInf := false, nan := 0, largest := 0x7 }

/-- Value of a code of a format (R78, R84). -/
def Fmt.decode (f : Fmt) (c : Nat) : Val :=
  let neg := c.testBit (f.width - 1)
  let e := c / 2 ^ f.frac % 2 ^ f.expBits
  let fr := c % 2 ^ f.frac
  let mag := c % 2 ^ (f.width - 1)
  if mag > f.largest then
    (if f.hasInf && decide (fr = 0) then .inf neg else .nan)
  else if e = 0 then
    (if fr = 0 then .zero neg else .fin neg fr (1 - Int.ofNat f.bias - Int.ofNat f.frac))
  else .fin neg (2 ^ f.frac + fr) (Int.ofNat e - Int.ofNat f.bias - Int.ofNat f.frac)

def signBit (f : Fmt) (neg : Bool) : Nat := if neg then 2 ^ (f.width - 1) else 0
/-- Code of an infinity, or of the NaN with a sign where the format has none. -/
def Fmt.infCode (f : Fmt) (neg : Bool) : Nat :=
  if f.hasInf then signBit f neg + f.largest + 1 else signBit f neg + f.nan
/-- Overflow result of IEEE 754 for the mode at the format's largest finite (R85). -/
def Fmt.overflow (f : Fmt) (neg : Bool) (rm : RM) : Nat :=
  match rm with
  | .rne => f.infCode neg
  | .rtz => signBit f neg + f.largest
  | .rup => if neg then signBit f true + f.largest else f.infCode false
  | .rdn => if neg then f.infCode true else f.largest

/-- encode_float: the code and whether the sticky overflow bit is set (R85). -/
def Fmt.encode (f : Fmt) (v : Val) (rm : RM) (sat : Bool) : Nat × Bool :=
  match v with
  | .nan => (f.nan, false)
  | .inf neg =>
    if f.hasInf && !sat then (f.infCode neg, false)
    else if sat then (signBit f neg + f.largest, true) else (f.infCode neg, true)
  | .zero neg => (signBit f neg, false)
  | .fin neg m ex =>
    let e := max (ex + Int.ofNat (Nat.log2 m)) (1 - Int.ofNat f.bias)
    let n := roundScaled m (ex - (e - Int.ofNat f.frac)) rm neg
    let code := (e + Int.ofNat f.bias - 1) * Int.ofNat (2 ^ f.frac) + Int.ofNat n
    if code > Int.ofNat f.largest then
      ((if sat then signBit f neg + f.largest else f.overflow neg rm), true)
    else (signBit f neg + code.toNat, false)

/-- Encoding into a w-bit integer: two's complement code and sticky bit (R86). -/
def encodeInt (sgn : Bool) (w : Nat) (v : Val) (rm : RM) : Nat × Bool :=
  let lo : Int := if sgn then -(Int.ofNat (2 ^ (w - 1))) else 0
  let hi : Int := Int.ofNat (if sgn then 2 ^ (w - 1) - 1 else 2 ^ w - 1)
  let code (i : Int) : Nat := (i % Int.ofNat (2 ^ w)).toNat
  match v with
  | .nan => (0, true)
  | .inf neg => (code (if neg then lo else hi), true)
  | .zero _ => (0, false)
  | .fin neg m ex =>
    let i := signed neg (magInt m ex rm neg)
    if i < lo then (code lo, true) else if i > hi then (code hi, true) else (code i, false)

/-- A w-bit integer code as a number. -/
def intOf (sgn : Bool) (w c : Nat) : Int :=
  if sgn && c.testBit (w - 1) then Int.ofNat c - Int.ofNat (2 ^ w) else Int.ofNat c

/-- Scales a value by 2^k, exactly. -/
def scaleVal (v : Val) (k : Int) : Val :=
  match v with
  | .fin n m e => .fin n m (e + k)
  | .nan => .nan
  | .inf n => .inf n
  | .zero n => .zero n

/-- An MXFP4 element with its block scale (R80, R84). -/
def mxDecode (nibble scale : Nat) : Val :=
  if scale = 0xFF then .nan else scaleVal (e2m1.decode nibble) (Int.ofNat scale - 127)

/-- One element of an MXFP4 block (R87 step 4): E2M1 with magnitudes above 6 as 6. -/
def mxElem (v : Val) (e : Nat) (rm : RM) : Nat := (e2m1.encode (scaleVal v (127 - Int.ofNat e)) rm true).1

/-- Encodes a block of 32 lanes (none: masked): scale byte, nibbles, sticky bit (R87). Without a live lane amax is 0 (log 118). -/
def mxEncode (lanes : List (Option Word)) (rm : RM) (sat : Bool) : Nat × List Nat × Bool :=
  let live := lanes.filterMap fun l => l.map valOf
  let hasNaN := live.any fun v => decide (v = .nan)
  let hasInf := live.any fun v => decide (v = .inf true) || decide (v = .inf false)
  if hasNaN || (hasInf && !sat) then (0xFF, lanes.map fun _ => 0, hasInf)
  else
    let fix (v : Val) : Val :=
      match v with
      | .inf n => .fin n 6 127
      | v => v
    let top : Option Int := live.foldl (fun t v =>
      match fix v with
      | .fin _ m ex =>
        let l := ex + Int.ofNat (Nat.log2 m)
        some (match t with
          | some x => max x l
          | none => l)
      | _ => t) none
    match top with
    | none => (127, lanes.map fun l => match l with
        | some w => mxElem (valOf w) 127 rm
        | none => 0, hasInf)
    | some t =>
      let raw := t - 2 + 127
      let e := (max 0 (min 254 raw)).toNat
      (e, lanes.map fun l => match l with
        | some w => mxElem (fix (valOf w)) e rm
        | none => 0, hasInf || decide (raw > 254))

/-! ### CB2 (R81, R82) -/

def parity7 (x : Nat) : Bool := (List.range 7).foldl (fun p j => p != x.testBit (j + 1)) false

/-- cb2_decode (R82): weight `j` of index `x` with scale half `s` and table entry `entry`. -/
def cb2Weight (x s entry j : Nat) : Word :=
  let e := s / 4 % 256
  if e = 255 then canonicalNaN
  else
    let neg := if j = 7 then parity7 x else x.testBit (j + 1)
    let v := entry / 2 ^ (4 * j) % 16 * 2 + x % 2
    let m := v * (4 + s % 4)
    if m = 0 then wZero neg else roundFin neg m (Int.ofNat e - 127 - 4) .rne

/-! ### Exact accumulator (R92) -/

/-- Sticky flags: bit 0 nan, 1 pinf, 2 ninf, 3 range, 4 inexact (R239). -/
structure Acc where
  a : BitVec 320 := 0
  f : BitVec 5 := 0
  deriving DecidableEq, Repr

/-- What an input of xacc_add puts into A, as sign, mantissa and shift of an integer, and the flags that it sets (R92). -/
def xaccTerm (w : Word) : Bool × Nat × Nat × BitVec 5 :=
  match valOf w with
  | .nan => (false, 0, 0, 0b01001)
  | .inf false => (false, 0, 0, 0b01010)
  | .inf true => (false, 0, 0, 0b01100)
  | .zero _ => (false, 0, 0, 0)
  | .fin neg m e =>
    if !ltVal (.fin false m e) (.fin false 1 128) then (false, 0, 0, 0b01001)
    else
      match e + 149 with
      | .ofNat n => (neg, m, n, 0)
      | .negSucc j => (neg, roundScaled m (.negSucc j) .rne neg, 0, if m % 2 ^ (j + 1) = 0 then 0 else 0b10000)

/-- xacc_add (R92). -/
def Acc.add (k : Acc) (w : Word) : Acc :=
  let x := xaccTerm w
  let i := signed x.1 (x.2.1 * 2 ^ x.2.2.1)
  let sum := k.a.toInt + i
  let wraps := decide (sum < -(2 ^ 319 : Int)) || decide (sum ≥ (2 ^ 319 : Int))
  { a := k.a + BitVec.ofInt 320 i, f := k.f ||| x.2.2.2 ||| (if wraps then 0b01001 else 0) }

/-- The exact value that a read rounds once. -/
def Acc.val (k : Acc) : Val :=
  if k.f.getLsbD 0 || (k.f.getLsbD 1 && k.f.getLsbD 2) then .nan
  else if k.f.getLsbD 1 then .inf false
  else if k.f.getLsbD 2 then .inf true
  else valOfInt k.a.toInt (-149) false

/-- xacc_read (R92). -/
def Acc.read (k : Acc) (rm : RM) : Word := roundW64 k.val rm

/-- Exact sum of terms for one rounding (R89 steps 2 and 3): infinities and NaNs as stated there; a zero keeps the sign that all
zero terms share, else the sign of R77. -/
def exactSum (ts : List Val) (rm : RM) : Val :=
  match ts with
  | [] => .zero false
  | t :: ts => ts.foldl (fun s v => addVal s v rm) t

/-- Pairwise tree of R90 over eight positions, none for a masked one. One live position alone passes unchanged, a NaN of any image too
(log 119). -/
def tree8 (f : Word → Word → Word) (v : Nat → Option Word) : Option Word :=
  let node (a b : Option Word) : Option Word :=
    match a, b with
    | some x, some y => some (f x y)
    | some x, none => some x
    | none, y => y
  node (node (node (v 0) (v 1)) (node (v 2) (v 3))) (node (node (v 4) (v 5)) (node (v 6) (v 7)))

end Sys2Proof.Machine
end

