-- ==== Sys2Proof/Machine/Payload.lean ====
section
/-!
DEFINITION. Payload layouts (R49, R396), numeric mode and range guard (R75, R225), and the shared shape of a lane opcode (R220,
R221).
-/
namespace Sys2Proof.Machine

/-- Payload with the given images; masked positions hold zero bits (R221). -/
def packPay (lay : Nat) (f : Nat → Option Word) : Payload :=
  BitVec.ofNat 512 ((List.range (posCount lay)).foldl
    (fun n j => n + (match f j with
      | some v => v.toNat % 2 ^ posWidth lay * 2 ^ (posWidth lay * j)
      | none => 0)) 0)

/-- Lanemask of positions; a byte group is live when any of its four is (R396). -/
def packLanes (lay : Nat) (f : Nat → Option Word) : BitVec 16 :=
  BitVec.ofNat 16 ((List.range 16).foldl
    (fun n i =>
      let on : Bool :=
        match lay with
        | 0 => (f (i / 2)).isSome
        | 1 => (f i).isSome
        | _ => (List.range 4).any fun k => (f (4 * i + k)).isSome
      n + if on then 2 ^ i else 0) 0)

/-- A data token that carries positions by the position rule of R221. -/
def posToken (h : Header) (lay : Nat) (f : Nat → Option Word) : Token :=
  { hdr := { h with kind := 0, lanes := packLanes lay f }, pay := packPay lay f }

/-- A data token under the lanemask rule of R53. -/
def laneToken (h : Header) (lay : Nat) (f : Nat → Option Word) : Token :=
  { hdr := { h with kind := 0 }, pay := packPay lay f }

/-! ### Numeric mode, options and guard -/

/-- Field 13 (R75). -/
def Elem.rm (e : Elem) : RM := rmOf (bits (e.field 13) 0 2)
def Elem.level (e : Elem) : Nat := bits (e.field 13) 2 2
def Elem.sat (e : Elem) : Bool := (e.field 13).testBit 4
def Elem.nantrap (e : Elem) : Bool := (e.field 13).testBit 5

/-- |v| > 2^(g − 128), infinities included (R225). -/
def aboveBound (v : Val) (g : Nat) : Bool :=
  match v with
  | .nan | .zero _ => false
  | .inf _ => true
  | .fin _ m ex => ltVal (.fin false 1 (Int.ofNat g - 128)) (.fin false m ex)

def nonFinite (v : Val) : Bool :=
  match v with
  | .nan | .inf _ => true
  | .zero _ | .fin .. => false

/-- The range guard of field 14 traps on a value (R225). -/
def Elem.guards (e : Elem) (w : Word) : Bool :=
  let g := bits (e.field 14) 2 8
  match bits (e.field 14) 0 2 with
  | 0 => false
  | 1 => aboveBound (valOf w) g
  | 2 => nonFinite (valOf w)
  | _ => aboveBound (valOf w) g || nonFinite (valOf w)

/-- Lowest position below `n` that meets a test. -/
def firstLane (n : Nat) (p : Nat → Bool) : Option Nat := (List.range n).find? p

/-- The NaN trap comes before the range guard (R224); each at its lowest live position. -/
def numTrap (n : Nat) (nan guard : Nat → Bool) : Option (ElemCause × Nat) :=
  match firstLane n nan with
  | some j => some (.nan, j)
  | none =>
    match firstLane n guard with
    | some j => some (.guard, j)
    | none => none

/-! ### Operands of lane opcodes (R220) -/

/-- Operand `i` at position `j`: the head of a required input, else the constant broadcast. -/
def Elem.opnd (e : Elem) (hs : Fin 4 → List Token) (lay : Nat) (i : Fin 4) (j : Nat) : Option Word :=
  if e.req i.val then
    match hs i with
    | t :: _ => posAt lay t j
    | [] => none
  else some (BitVec.ofNat 64 (e.const i.val % 2 ^ posWidth lay))

/-- Every operand at position `j`, when all are live. -/
def Elem.opnds (e : Elem) (hs : Fin 4 → List Token) (lay j : Nat) (is : List (Fin 4)) : Option (List Word) :=
  is.mapM fun i => e.opnd hs lay i j

def operandsBelow (arity : Nat) : List (Fin 4) := (List.finRange 4).filter fun i => i.val < arity

def nth (l : List Word) (i : Nat) : Word := l.getD i 0

/-- The trap record's operands at a position (R333). -/
def laneTrap (c : ElemCause) (lane : Nat) (l : List Word) : TrapInfo :=
  { cause := c, lane, d1 := nth l 0, d2 := nth l 1, d3 := nth l 2 }

/-- An opcode that maps operands to a result position by position; output 1, when enabled, carries the same token (R57, log 29) (R226, R230 to R233): `numeric` brings the NaN trap and the
guard on its results. -/
def laneMap (arity lay : Nat) (numeric : Bool) (f : Elem → List Word → Word) (hdr : Elem → Header → (Nat → Option Word) → Header)
    (e : Elem) (h : Header) (hs : Fin 4 → List Token) : Fired :=
  let ops (j : Nat) := e.opnds hs lay j (operandsBelow arity)
  let res (j : Nat) := (ops j).map (f e)
  let isNew (j : Nat) : Bool :=
    match ops j, res j with
    | some l, some r => isNaN r && !(l.any isNaN)
    | _, _ => false
  let bad (j : Nat) : Bool :=
    match res j with
    | some r => e.guards r
    | none => false
  match (if numeric then numTrap (posCount lay) (fun j => e.nantrap && isNew j) bad else none) with
  | some (c, j) => .trap (laneTrap c j ((ops j).getD []))
  | none =>
    let t := laneToken (hdr e h res) lay res
    .emit [t] [t] e

def keepHdr (_ : Elem) (h : Header) (_ : Nat → Option Word) : Header := h

/-- A lane opcode at the element in focus. -/
def State.laneOp (s : State) (op arity lay : Nat) (numeric : Bool) (f : Elem → List Word → Word) : State :=
  s.fire s.focus op arity (laneMap arity lay numeric f keepHdr)

end Sys2Proof.Machine
end

