-- ==== Sys2Proof/Machine/Formats.lean ====
section
/-!
DEFINITION. The memory edge: formats by code (R191, R192), conversion between memory codes and payload positions (R84 to R86), and
rows of bits gathered from and spread over granules (R79, R98).
-/
namespace Sys2Proof.Machine

/-- Width in bits of an element of a format code (R78, R79, R82, R191). -/
def fmtWidth (f : Nat) : Nat :=
  match f with
  | 0 => 32
  | 1 | 2 | 11 => 16
  | 3 | 4 | 6 | 10 => 8
  | 5 | 7 => 4
  | 8 => 32
  | _ => 64

/-- The floating format of a code. -/
def floatFmt (f : Nat) : Option Fmt :=
  match f with
  | 0 => some fp32
  | 1 => some bf16
  | 2 => some fp16
  | 3 => some e4m3
  | 4 => some e5m2
  | _ => none

/-- Position image of a memory code at a layout; `scale` is the MXFP4 block scale (R84). -/
def decodeImage (f lay : Nat) (sgn : Bool) (scale code : Nat) : Word :=
  match floatFmt f with
  | some x => roundW64 (x.decode code) .rne
  | none =>
    if f = 5 then roundW64 (mxDecode code scale) .rne
    else if f = 9 ∨ f = 10 ∨ f = 11 then BitVec.ofNat 64 code
    else if lay = 0 then wOfInt (intOf sgn (fmtWidth f) code)
    else BitVec.ofInt 64 (intOf sgn (fmtWidth f) code % 2 ^ 32)

/-- Memory code of a position image, and whether it sets the sticky overflow bit (R85, R86, R197). A 32-bit lane stored as INT8 or
INT4 saturates; INT32 copies its bits. -/
def encodeImage (f lay : Nat) (sgn : Bool) (rm : RM) (sat : Bool) (w : Word) : Nat × Bool :=
  match floatFmt f with
  | some x => x.encode (valOf w) rm sat
  | none =>
    if f = 9 ∨ f = 10 then (w.toNat % 2 ^ fmtWidth f, false)
    else if lay = 0 then encodeInt sgn (fmtWidth f) (valOf w) rm
    else if f = 8 then (w.toNat % 2 ^ 32, false)
    else encodeInt sgn (fmtWidth f) (valOfInt (intOf sgn 32 (w.toNat % 2 ^ 32)) 0 false) .rne

/-! ### Bits spread over granules -/

/-- An address from an exact sum: modulo 2^64; one beyond 56 bits then has no translation (log 30). -/
def addrOf (a : Int) : Nat := (a % 2 ^ 64).toNat

/-- An element of `w` bits at a bit address as pieces that lie in one granule each: bytes, or one nibble. -/
def bitPieces (bit w code : Nat) : List (Nat × Nat × Nat) :=
  if w < 8 then [(bit, w, code % 2 ^ w)]
  else (List.range (w / 8)).map fun k => (bit + 8 * k, 8, code / 2 ^ (8 * k) % 256)

/-- Adds a piece to granule writes (granule, mask of bits, value); a later piece replaces an earlier one. -/
def addPiece (m : List (Nat × Word × Word)) (p : Nat × Nat × Nat) : List (Nat × Word × Word) :=
  let g := p.1 / 64
  let old := lookupD (0, 0) g m
  let mask := BitVec.ofNat 64 ((2 ^ p.2.1 - 1) * 2 ^ (p.1 % 64))
  let v := BitVec.ofNat 64 (p.2.2 * 2 ^ (p.1 % 64))
  assign g (old.1 ||| mask, (old.2 &&& ~~~mask) ||| v) m

/-- Granule writes of elements (bit address, width, code), in order. -/
def spreadAll (l : List (Nat × Nat × Nat)) : List (Nat × Word × Word) :=
  l.foldl (fun m x => (bitPieces x.1 x.2.1 x.2.2).foldl addPiece m) []
/-- The same for elements of one width. -/
def spread (w : Nat) (l : List (Nat × Nat)) : List (Nat × Word × Word) := spreadAll (l.map fun x => (x.1, w, x.2))

/-- Granules that elements at bit addresses touch. -/
def granulesOf (w : Nat) (l : List Nat) : List Nat :=
  (l.flatMap fun b => (bitPieces b w 0).map fun p => p.1 / 64).eraseDups

/-- An element of `w` bits at a bit address, from granules read. -/
def gatherBits (w : Nat) (got : List (Nat × Word)) (bit : Nat) : Nat :=
  (bitPieces bit w 0).foldl
    (fun n p => n + (lookupD 0 (p.1 / 64) got).toNat / 2 ^ (p.1 % 64) % 2 ^ p.2.1 * 2 ^ (p.1 - bit)) 0

/-- Bytes that a mask of bits touches. -/
def maskBytes (m : Word) : BitVec 8 :=
  BitVec.ofNat 8 ((List.range 8).foldl (fun n i => n + if byteOf m i = 0 then 0 else 2 ^ i) 0)

/-- Bits of `v` where the mask has ones, the old value elsewhere. -/
def mergeBits (old m v : Word) : Word := (old &&& ~~~m) ||| (v &&& m)

/-- The write of a physical granule given a mask of bits: bits of a written byte that the mask leaves out keep the value that the
die reads there. -/
def State.bitWrite (s : State) (d : Fin 4) (g : Nat) (m v : Word) : GWrite :=
  let old := if s.isLocal d g then s.home g else (s.rdcOf d g).getD (s.home g)
  { granule := g, mask := maskBytes m, value := mergeBits old m v }

end Sys2Proof.Machine
end

