-- ==== Sys2Proof/Machine/LoadStore.lean ====
section
/-!
DEFINITION. Loads, stores, acquire loads, release stores and atomics (R174 to R176, R108 to R111).
-/
namespace Sys2Proof.Machine

def Size.bytes : Size → Nat
  | .b => 1
  | .h => 2
  | .w => 4
  | .d => 8

/-- Extends the low `n` bytes (R174). -/
def extendBytes (n : Nat) (zero : Bool) (v : Word) : Word :=
  match n, zero with
  | 1, false => (v.truncate 8 : BitVec 8).signExtend 64
  | 1, true => (v.truncate 8 : BitVec 8).zeroExtend 64
  | 2, false => (v.truncate 16 : BitVec 16).signExtend 64
  | 2, true => (v.truncate 16 : BitVec 16).zeroExtend 64
  | 4, false => (v.truncate 32 : BitVec 32).signExtend 64
  | 4, true => (v.truncate 32 : BitVec 32).zeroExtend 64
  | _, _ => v

/-- Bytes of private data memory at an offset. -/
def CoreState.privBytes (k : CoreState) (off n : Nat) : Word :=
  BitVec.ofNat 64 ((k.privGranule (off / 8)).toNat / 2 ^ (8 * (off % 8)) % 2 ^ (8 * n))

/-- load_mem: the value at a place after the core's earlier stores have performed (R108, log 5). -/
def State.loadPlace (s : State) (p : Place) (n : Nat) : Word × State :=
  match p with
  | .priv off => (s.me.privBytes off n, s)
  | .phys pa => (s.drainStores s.cur).readBytes s.me.task (dieOf s.cur) pa n

/-- The translation that an access of the running core takes. -/
def State.taken (s : State) (addr : Word) : Taken := { asid := s.me.asid.truncate 13, va := addr.toNat, user := !s.sv }

/-- store_mem at an address: private memory at once, the board through the order buffer (R103). -/
def State.storePlace (s : State) (addr : Word) (p : Place) (n : Nat) (v : Word) : State :=
  match p with
  | .priv off => s.setMe (s.me.privWrite (storeAt off n v))
  | .phys pa => s.issue s.cur (.store { storeAt pa n v with xl := some (s.taken addr) })

/-- A load of `n` bytes from ga + imm (R174). -/
def State.loadInstr (s : State) (d a : Reg) (imm : BitVec 16) (n : Nat) (zero : Bool) : State :=
  match s.checkData (s.rd a + sext16 imm) n false with
  | .error t => s.trap t
  | .ok p =>
    let r := s.loadPlace p n
    (r.2.wr d (extendBytes n zero r.1)).advance

/-- A store of the low `n` bytes of gd at ga + imm (R174). It is translated when it is issued: one that still stands in the order buffer at a
later mtsr of ASID keeps the ASID of its issue (DESIGN CHOICE, R166, log 115). -/
def State.storeInstr (s : State) (d a : Reg) (imm : BitVec 16) (n : Nat) : State :=
  match s.checkData (s.rd a + sext16 imm) n true with
  | .error t => s.trap t
  | .ok p => (s.storePlace (s.rd a + sext16 imm) p n (s.rd d)).advance

def execLdb (d a : Reg) (imm : BitVec 16) (s : State) : Out := .next (s.loadInstr d a imm 1 false)
def execLdbu (d a : Reg) (imm : BitVec 16) (s : State) : Out := .next (s.loadInstr d a imm 1 true)
def execLdh (d a : Reg) (imm : BitVec 16) (s : State) : Out := .next (s.loadInstr d a imm 2 false)
def execLdhu (d a : Reg) (imm : BitVec 16) (s : State) : Out := .next (s.loadInstr d a imm 2 true)
def execLdw (d a : Reg) (imm : BitVec 16) (s : State) : Out := .next (s.loadInstr d a imm 4 false)
def execLdwu (d a : Reg) (imm : BitVec 16) (s : State) : Out := .next (s.loadInstr d a imm 4 true)
def execLdd (d a : Reg) (imm : BitVec 16) (s : State) : Out := .next (s.loadInstr d a imm 8 false)
def execStb (d a : Reg) (imm : BitVec 16) (s : State) : Out := .next (s.storeInstr d a imm 1)
def execSth (d a : Reg) (imm : BitVec 16) (s : State) : Out := .next (s.storeInstr d a imm 2)
def execStw (d a : Reg) (imm : BitVec 16) (s : State) : Out := .next (s.storeInstr d a imm 4)
def execStd (d a : Reg) (imm : BitVec 16) (s : State) : Out := .next (s.storeInstr d a imm 8)

/-! ### Releases of the core (R109) -/

/-- Where the core's release stands. -/
inductive RelStep where
  /-- Its markers are gathered (or there were none): the release performs in this move. -/
  | perform (s : State)
  | wait (s : State)

/-- A release of the running core covering `ps` and the rows named: the core's stores perform first, then its markers go out, and
the instruction waits at its pc until they are gathered (R109, R115). -/
def State.coreRelease (s : State) (ps : List Party) (rows : List (ElemAt × Nat)) : RelStep :=
  match s.me.rel with
  | some id =>
    match s.release? id with
    | some r =>
      if r.sent then
        (if r.waiting.isEmpty then
          .perform (((s.dropRelease id).emptyPathSets r.parties).setMe { s.me with rel := none })
         else .wait s)
      else if s.rowsPerformed r then
        let m := s.sendMarkers r.parties id
        if m.1.isEmpty then .perform (((s.dropRelease id).emptyPathSets r.parties).setMe { s.me with rel := none })
        else .wait (m.2.setRelease { r with sent := true, waiting := m.1 })
      else .wait s
    | none => .perform (s.setMe { s.me with rel := none })
  | none =>
    let s1 := s.drainStores s.cur
    let o := s1.openRelease (.core s.cur) ps rows
    let r : Release := { id := o.1, who := .core s.cur, parties := ps, rows }
    if s1.rowsPerformed r then
      let m := s1.sendMarkers ps o.1
      if m.1.isEmpty then .perform (s1.emptyPathSets ps)
      else
        let s2 := (o.2.sendMarkers ps o.1).2
        .wait ((s2.setRelease { r with sent := true, waiting := m.1 }).setMe { s2.me with rel := some o.1 })
    else .wait (o.2.setMe { o.2.me with rel := some o.1 })

/-- The plain release of the core's own accesses. -/
def State.ownRelease (s : State) : RelStep := s.coreRelease [.core s.cur] []

/-! ### MEMORD (R175) -/

/-- An acquire load: the read and the acquire in one move. -/
def execLda (d a : Reg) (size : Size) (u : Bool) (scope : Scope) (s : State) : Out :=
  .next (
    match s.checkData (s.rd a) (Size.bytes size) false with
    | .error t => s.trap t
    | .ok p =>
      let r := s.loadPlace p (Size.bytes size)
      ((r.2.acquire (dieOf s.cur) scope).wr d (extendBytes (Size.bytes size) u r.1)).advance)

/-- The store of a release performs in the release's move: it does not wait in the order buffer (R109). The board chooses its path (R105). -/
def State.storeNow (s : State) (p : Place) (n : Nat) (v : Word) : State :=
  match p with
  | .priv off => s.setMe (s.me.privWrite (storeAt off n v))
  | .phys pa => s.performStoreAny s.cur (storeAt pa n v)

def execStl (a b : Reg) (size : Size) (_scope : Scope) (s : State) : Out :=
  .next (
    match s.checkData (s.rd a) (Size.bytes size) true with
    | .error t => s.trap t
    | .ok p =>
      match s.ownRelease with
      | .wait s' => s'
      | .perform s' => (s'.storeNow p (Size.bytes size) (s'.rd b)).advance)

/-! ### Atomics (R111, R176) -/

/-- New value of an atomic from the old one and gb, or none for a failed compare (R176). -/
def amoNew (op : Instr) (n : Nat) (old y cmp : Word) : Option Word :=
  let sx (v : Word) : Word := extendBytes n false v
  match op with
  | .amoAdd _ => some (old + y)
  | .amoMin _ => some (if cLt (sx y) (sx old) then y else old)
  | .amoMax _ => some (if cLt (sx old) (sx y) then y else old)
  | .amoSwap _ => some y
  | .amoCas _ => if extendBytes n true old = extendBytes n true cmp then some y else none
  | .amoAnd _ => some (old &&& y)
  | .amoOr _ => some (old ||| y)
  | _ => none

def Amo.size (o : Amo) : Nat := if o.dbl then 8 else 4

/-- A region-private range of the committed configuration holds the address: field 17 base and field 18 pages of an mc element
in the cache role (R97, R155). -/
def Elem.declares (e : Elem) (va : Nat) : Bool :=
  let base := bits (e.const 1) 12 44 * 4096
  decide (bits (e.const 0) 0 2 = 3) && decide (base ≤ va) && decide (va < base + bits (e.const 2) 0 44 * 4096)

/-- Banks that share the declared range of an address, by the numbers of their MTs, in ascending x and then y (R97). -/
def State.rangeBanks (s : State) (d : Fin 4) (r : Fin 16) (va : Nat) : List Nat :=
  ((s.regionElems d r).filter fun a => decide (tileKind a.x a.y = .mt) && decide (a.e = 15) && (s.elem a).declares va).map fun a =>
    tkey a.die a.x a.y

/-- The bank that caches an address: the lines of a range are spread over its banks by line address (R97). -/
def State.bankOf (s : State) (d : Fin 4) (r : Fin 16) (va : Nat) : Nat :=
  let l := s.rangeBanks d r va
  l.getD (va / 64 % l.length) 0

def State.privateRange (s : State) (d : Fin 4) (r : Fin 16) (va : Nat) : Bool :=
  (s.region d r).committed && (s.regionElems d r).any fun a =>
    decide (tileKind a.x a.y = .mt) && decide (a.e = 15) && (s.elem a).declares va

def State.atomicTarget (s : State) (va : Nat) : Bool :=
  match s.ownRegion s.cur with
  | some r => s.privateRange (dieOf s.cur) r va
  | none => false

/-- The move of an atomic on the home copy (R111): for a remote granule it also sets the die's RDC copy. -/
def State.amoMove (s : State) (op : Instr) (o : Amo) (pa : Nat) : State :=
  let d := dieOf s.cur
  let n := Amo.size o
  let q := s.homeFor s.me.task (pa / 8)
  let old := BitVec.ofNat 64 (q.1.toNat / 2 ^ (8 * (pa % 8)) % 2 ^ (8 * n))
  let s1 :=
    match amoNew op n old (s.rd o.b) (s.rd o.d) with
    | none => q.2
    | some v =>
      let s0 := q.2.setHome (storeAt pa n v)
      if s0.isLocal d (pa / 8) then s0 else s0.putRdc d (pa / 8) (s0.home (pa / 8))
  let s2 := if o.acq then s1.acquire d o.scope else s1
  ((s2.setMe { s2.me with amo := none }).wr o.d (extendBytes n false old)).advance

/-- The same on private data memory, in one step (R176). -/
def State.amoPrivate (s : State) (op : Instr) (o : Amo) (off : Nat) : State :=
  let n := Amo.size o
  let old := s.me.privBytes off n
  let s1 :=
    match amoNew op n old (s.rd o.b) (s.rd o.d) with
    | none => s
    | some v => s.setMe (s.me.privWrite (storeAt off n v))
  let s2 := if o.acq then s1.acquire (dieOf s.cur) o.scope else s1
  ((s2.setMe { s2.me with amo := none }).wr o.d (extendBytes n false old)).advance

/-- An atomic once its release, if it carries one, has performed: it performs when no write of the core to the line is unlanded,
else it stays pending at the pc until ATOMIC_PERFORM (R111). -/
def State.amoTry (s : State) (op : Instr) (o : Amo) (p : Place) : State :=
  match p with
  | .priv off => s.amoPrivate op o off
  | .phys pa =>
    let s1 := s.drainStores s.cur
    if s1.unlandedLine (.core s.cur) (pa / 64) then s1.setMe { s1.me with amo := some { op, ready := true } }
    else s1.amoMove op o pa

/-- An atomic (R176): the checks, then the release when the release bit is set, then the move. -/
def State.amoInstr (s : State) (op : Instr) (o : Amo) : State :=
  match s.checkData (s.rd o.a) (Amo.size o) true with
  | .error t => s.trap t
  | .ok p =>
    if s.atomicTarget (s.rd o.a).toNat && (privOffset (s.rd o.a)).isNone then
      s.trap { cause := .atomicTarget, bad := s.rd o.a }
    else if o.rel && s.me.amo.isNone then
      match s.ownRelease with
      | .wait s' => s'
      | .perform s' => s'.amoTry op o p
    else s.amoTry op o p

def execAmoAdd (o : Amo) (s : State) : Out := .next (s.amoInstr (.amoAdd o) o)
def execAmoMin (o : Amo) (s : State) : Out := .next (s.amoInstr (.amoMin o) o)
def execAmoMax (o : Amo) (s : State) : Out := .next (s.amoInstr (.amoMax o) o)
def execAmoSwap (o : Amo) (s : State) : Out := .next (s.amoInstr (.amoSwap o) o)
def execAmoCas (o : Amo) (s : State) : Out := .next (s.amoInstr (.amoCas o) o)
def execAmoAnd (o : Amo) (s : State) : Out := .next (s.amoInstr (.amoAnd o) o)
def execAmoOr (o : Amo) (s : State) : Out := .next (s.amoInstr (.amoOr o) o)

/-- The operands of an atomic. -/
def amoOperands : Instr → Option Amo
  | .amoAdd o | .amoMin o | .amoMax o | .amoSwap o | .amoCas o | .amoAnd o | .amoOr o => some o
  | _ => none

/-- ATOMIC_PERFORM: the pending atomic of a running core performs when R111 allows it. -/
def execAtomicPerform (c : Fin 64) (s : State) : Out :=
  .next (s.onDie (dieOf c) <|
    let k := s.core c
    match k.amo, k.run with
    | some a, .running =>
      match amoOperands a.op with
      | some o => { { s with cur := c }.amoInstr a.op o with cur := s.cur }
      | none => s
    | _, _ => s)

end Sys2Proof.Machine
end

