-- ==== Sys2Proof/Machine/MemElem.lean ====
section
/-!
DEFINITION. The fabric memory elements (R241 to R246): firing, the granule accesses of the pending set, performance, cancels, and
the region-private cache (R97).
-/
namespace Sys2Proof.Machine

/-! ### Fields of a memory element (R241) -/

def Elem.mFmt (e : Elem) : Nat := bits (e.const 15) 12 4
def Elem.mSgn (e : Elem) : Bool := (e.const 15).testBit 11
def Elem.mLay (e : Elem) : Nat := bits (e.const 15) 9 2
/-- The element is an sq: its target is an MT (R150, R242). -/
def isSq (a : ElemAt) : Bool := decide (tileKind a.x a.y = .ct) && decide (a.e = 9)
/-- Bit address of element `i`: in virtual memory, or within its MT. -/
def Elem.mBit (e : Elem) (sq : Bool) (i : Nat) : Nat :=
  8 * (if sq then bits (e.const 0) 0 21 else e.const 0) + i * fmtWidth e.mFmt

/-- Number of the MT that an sq's base names, and of the first granule of its contents. -/
def State.mtOf (s : State) (a : ElemAt) : Nat :=
  let v := (s.elem a).const 0
  match s.regionAt a.die a.x a.y with
  | some r => tkey a.die ((s.region a.die r).absX (bits v 26 5)) ((s.region a.die r).absY (bits v 21 5))
  | none => tkey a.die (bits v 26 5) (bits v 21 5)

/-- First granule of an MT's contents. -/
def mtFirst (mt : Nat) : Nat := mt * 2 ^ 18

/-- What the heads ask for: elements by position, or a trap (R243). -/
inductive Asked where
  | places (l : List (Nat × Nat))
  | trap (t : TrapInfo)

/-- Value of live position `j` as a signed index. -/
def indexAt (lay : Nat) (a : Token) (j : Nat) : Option Int :=
  (posAt lay a j).map fun w => intOf true (posWidth lay) w.toNat

/-- The record of a trap at a memory element: the element index e, or idx(j) of an x form, and the data at the position (R333). -/
def memInfo (c : ElemCause) (lay : Nat) (indexed : Bool) (a : Token) (d : Option Token) (j : Nat) : TrapInfo :=
  { cause := c, lane := j, d1 := if indexed then posImage lay a.pay j else posImage 0 a.pay 0
    d2 := match d with
      | some t => posImage lay t.pay j
      | none => 0 }

/-- The access of an x form (R243). -/
def askIndexed (e : Elem) (a : Token) (d : Option Token) : Asked :=
  let lay := e.mLay
  let bound : Int := Int.ofNat (e.const 1)
  let out (j : Nat) : Bool := match indexAt lay a j with
    | some i => decide (i < 0) || decide (bound ≤ i)
    | none => false
  match firstLane (posCount lay) out with
  | some j => .trap (memInfo .bound lay true a d j)
  | none => .places ((List.range (posCount lay)).filterMap fun j =>
      match indexAt lay a j with
      | some i => if (match d with
          | some t => posLive lay t.hdr.lanes j
          | none => true) then some (j, i.toNat) else none
      | none => none)

/-- The access of an affine form (R243, R396). -/
def askAffine (e : Elem) (a : Token) (d : Option Token) : Asked :=
  match posAt 0 a 0 with
  | none => .places []
  | some w =>
    let lay := e.mLay
    let x := w.toNat
    let n := e.const 1
    let on (j : Nat) : Bool := match d with
      | some t => posLive lay t.hdr.lanes j
      | none => true
    let bad (j : Nat) : Bool :=
      d.isSome && on j && decide (n ≤ x + j) && !(decide (lay = 2) && decide (x + j / 4 * 4 < n))
    if e.mFmt = 5 ∧ x % 8 ≠ 0 then .trap { cause := .illegal, d1 := w }
    else
      match firstLane (posCount lay) bad with
      | some j => .trap (memInfo .bound lay false a d j)
      | none => .places ((List.range (posCount lay)).filterMap fun j =>
          if on j && decide (x + j < n) then some (j, x + j) else none)

/-- The range guard on the live W64 data of a store, before encoding (R244). -/
def storeGuard (e : Elem) (indexed : Bool) (a d : Token) (l : List (Nat × Nat)) : Option TrapInfo :=
  if e.mLay = 0 then
    (l.find? fun p => e.guards (posImage 0 d.pay p.1)).map fun p => memInfo .guard 0 indexed a (some d) p.1
  else none

/-- A new access of the pending set (R103); `bank` is the MT that an sq names. -/
def newAccess (e : Elem) (sq : Bool) (bank : Nat) (h : Header) (hs : List Token) (asid : BitVec 13) (d : Option Token)
    (l : List (Nat × Nat)) : FabAccess :=
  let w := fmtWidth e.mFmt
  let places := l.map fun p => (p.1, e.mBit sq p.2)
  match d with
  | some t =>
    let codes := l.map fun p =>
      (e.mBit sq p.2, (encodeImage e.mFmt e.mLay e.mSgn e.rm e.sat (posImage e.mLay t.pay p.1)).1)
    { store := true, mt := sq, bank, heads := hs, hdr := h, places, writes := spread w codes, asid }
  | none =>
    let sc := if e.mFmt = 5 then l.map fun p => (p.1, 8 * (e.const 2 + p.2 / 32)) else []
    { store := false, mt := sq, bank, heads := hs, hdr := h, places, scales := sc, asid
      todo := (granulesOf w (places.map (·.2)) ++ granulesOf 8 (sc.map (·.2))).eraseDups }

/-- ASID of the task of an element's region. -/
def State.taskAsid (s : State) (a : ElemAt) : BitVec 13 :=
  match s.regionAt a.die a.x a.y with
  | some r =>
    match (s.region a.die r).task with
    | some t =>
      match s.tasks.find? fun k => k.id == t with
      | some k => k.asid
      | none => 0
    | none => 0
  | none => 0

/-- Every enabled output has the credits of its rate for each access in flight and one more (R57). -/
def State.memReady (s : State) (a : ElemAt) : Bool :=
  (List.range 2).all fun o =>
    !(s.elem a).outOn o || decide (((s.elem a).pend.length + 1) * (s.elem a).outRate o ≤ s.credits a o)

/-- A withheld access holds its address head, so nothing behind it fires (R117, R244, R335). -/
def Elem.headHeld (e : Elem) : Bool := e.pend.any fun p => p.withheld && !p.dropped

/-- Every enabled output has a credit. -/
def State.oneCredit (s : State) (a : ElemAt) : Bool :=
  (List.range 2).all fun o => !(s.elem a).outOn o || decide (0 < s.credits a o)

/-- Emits at a memory element, each token as often as its output's rate says (R57): on output 0 but for one token for each takeback that has
cancelled it or is held for it, on output 1 always (R58, R61, R63). -/
def State.memEmit (s : State) (a : ElemAt) (itag : BitVec 8) (e : Elem) (o0 : List Token) (o1 : Token) : State :=
  let toks := o0.flatMap (copies (e.outRate 0))
  let c := (s.elem a).cancelCount itag 0
  let gone := c + ((s.elem a).heldTb.filter (isCancel itag 0)).length
  let e1 : Elem := { e with cancels := dropCancels itag 0 toks.length e.cancels, heldTb := dropCancels itag 0 (toks.length - c) e.heldTb }
  let s1 := (s.setElem a e1).countFire a.die
  let s2 := if (s.elem a).outOn 0 then s1.sendAll a 0 (toks.drop gone) else s1
  if (s.elem a).outOn 1 then s2.sendAll a 1 (copies (e.outRate 1) o1) else s2

/-- Consumes the completion inputs of a cancelled firing; no takeback travels on their edges (R61). -/
def Elem.consumeCmpl (e : Elem) : Elem :=
  (List.finRange 4).foldl (fun e' i => if e.req i.val && e.cmpl i.val then e'.drop i (e.inRate i.val) else e') e

/-- Completion heads stand at every completion input. -/
def Elem.cmplReady (e : Elem) : Bool :=
  (List.finRange 4).all fun i => !(e.req i.val && e.cmpl i.val) ||
    (decide (e.inRate i.val ≤ (getF e.inq i).length) && (e.taken i).all fun t => !t.hdr.isControl)

/-- Required data and predicate queues are empty or hold a head of the itag. -/
def Elem.memTurn (e : Elem) (itag : BitVec 8) : Bool :=
  (List.finRange 4).all fun i => !e.req i.val || e.cmpl i.val ||
    (match e.head? i with
     | none => true
     | some t => t.hdr.itag == itag && !t.hdr.isControl)

/-- The cancelled firing of a cancellable element whose turn has come: nothing is written, the completion token goes out, and
takebacks go up (R61, R245). With no head present the manual states no seq for it: the value is free (log 22). -/
def State.memCancel (s : State) (a : ElemAt) : State :=
  let e := s.elem a
  match (e.cancels.map (·.1)).find? fun t => e.memTurn t with
  | none => s
  | some t =>
    if e.cancellable && e.pend.isEmpty && e.cmplReady && s.memReady a then
      let head := (List.finRange 4).findSome? fun i => if e.req i.val && !e.cmpl i.val then e.head? i else none
      let seq : BitVec 16 := match head with
        | some k => k.hdr.seq
        | none => (Config.freeWord s.free).truncate 16
      let e1 := (e.consumeCmpl.freeCancels t).takeBack t fun i => e.req i.val && !e.cmpl i.val
      let s1 := { s.setElem a e1 with free := if head.isNone then s.free + 1 else s.free }
      if e.outOn 1 then s1.sendAll a 1 (copies (e.outRate 1) (completionTok { seq, itag := t })) else s1
    else s

/-- A firing of a memory element (R241 to R245). A firing that makes no access emits at once, behind the accesses in flight. -/
def State.memFire (s : State) (op : Nat) (store indexed : Bool) : State :=
  let a := s.focus
  let e := s.elem a
  if s.live a op && e.req 0 && e.headsReady && !e.headHeld && s.memReady a then
    let ins := e.dataIns (if store then 2 else 1)
    let h := e.header ins
    if e.cancellable && e.cancelled h.itag 0 then s.memCancel a
    else
      let e' := e.consume
      let now (f : State) : State := if e.pend.isEmpty then f else s
      let addr := ((e.head? 0).map Token.operand).getD { hdr := h }
      let dat := if store then some (((e.head? 1).map Token.operand).getD { hdr := h }) else none
      let poison (p : Payload) : State := s.memEmit a h.itag e' [poisonTok h p] (poisonTok h p)
      match e.poisonHead with
      | some p => now (poison p)
      | none =>
        match e.outcome ins with
        | .illegal =>
          now ((poison (origin a .illegal)).elemTrap a h (memInfo .illegal e.mLay indexed addr dat (lowestLive e.mLay h.lanes)))
        | .skip => now (s.memEmit a h.itag e' [nullTok h] (completionTok h))
        | .perform =>
          let hs := ins.flatMap e.taken
          if hs.any fun t => t.hdr.isNull then
            now (s.memEmit a h.itag e' [dataTok { h with lanes := 0 } 0] (completionTok h))
          else
            match (if indexed then askIndexed e addr dat else askAffine e addr dat) with
            | .trap t => now ((poison (origin a t.cause)).elemTrap a h t)
            | .places l =>
              match dat.bind fun d => storeGuard e indexed addr d l with
              | some t => now ((poison (origin a t.cause)).elemTrap a h t)
              | none =>
                s.setElem a { e' with pend := e.pend ++ [newAccess e (isSq a) (s.mtOf a) h hs (s.taskAsid a) dat l] }
  else s.memCancel a

def execMemLd (s : State) : Out := .next (s.memFire 0x200 false false)
def execMemSt (s : State) : Out := .next (s.memFire 0x201 true false)
def execMemLdx (s : State) : Out := .next (s.memFire 0x202 false true)
def execMemStx (s : State) : Out := .next (s.memFire 0x203 true true)

/-! ### Performance (R244) -/

/-- Positions of a load from the granules it has read. -/
def loadPos (e : Elem) (p : FabAccess) (j : Nat) : Option Word :=
  match p.places.find? fun x => x.1 == j with
  | none => none
  | some x =>
    let scale := match p.scales.find? fun y => y.1 == j with
      | some y => gatherBits 8 p.got y.2
      | none => 127
    some (decodeImage e.mFmt e.mLay e.mSgn scale (gatherBits (fmtWidth e.mFmt) p.got x.2))

/-- The range guard on an integer result: its value at the element's signedness (R225, R244). -/
def Elem.guardsInt (e : Elem) (w : Nat) (v : Word) : Bool :=
  let m := (intOf e.mSgn w v.toNat).natAbs
  let g := bits (e.field 14) 2 8
  (bits (e.field 14) 0 2 == 1 || bits (e.field 14) 0 2 == 3) && decide (2 ^ g < m * 2 ^ 128)

/-- NaN and guard of a load's live results (R244). -/
def loadTrap (e : Elem) (p : FabAccess) : Option TrapInfo :=
  let v (j : Nat) := loadPos e p j
  let w64 := decide (e.mLay = 0)
  let test (f : Word → Bool) (j : Nat) : Bool := match v j with
    | some w => f w
    | none => false
  match numTrap (posCount e.mLay) (test fun w => w64 && e.nantrap && isNaN w)
      (test fun w => if w64 then e.guards w else e.guardsInt (posWidth e.mLay) w) with
  | none => none
  | some (c, j) =>
    some { memInfo c e.mLay (e.opcode == 0x202) (p.heads.headD { hdr := p.hdr }) none j with d2 := (v j).getD 0 }

/-- MEMORY_ELEMENT_PERFORMED: the oldest access of the element has performed; its row and completion token go out. -/
def execMemoryElementPerformed (s : State) : Out :=
  .next (
    let a := s.focus
    let e := s.elem a
    match e.pend with
    | [] => s
    | p :: rest =>
      let e' := { e with pend := rest }
      if !(s.tileOn a && (List.range 2).all fun o => !e.outOn o || decide (e.outRate o ≤ s.credits a o)) then s
      else if p.dropped then s.memEmit a p.hdr.itag e' [] (completionTok p.hdr)
      else if p.todo.isEmpty && p.writes.isEmpty then
        match p.store, p.heads[e.inRate 0]? with
        | true, some d =>
          s.memEmit a p.hdr.itag e' [dataTok { p.hdr with lanes := d.hdr.lanes } d.pay] (completionTok p.hdr)
        | _, _ =>
          match loadTrap e p with
          | some t =>
            (s.memEmit a p.hdr.itag e' [poisonTok p.hdr (origin a t.cause)] (poisonTok p.hdr (origin a t.cause))).elemTrap a p.hdr t
          | none => s.memEmit a p.hdr.itag e' [posToken p.hdr e.mLay (loadPos e p)] (completionTok p.hdr)
      else s)

/-! ### The moves of its granules (R104, R105, R97, R117) -/

/-- A withheld access: event 4, and the asynchronous trap of source 2 at the owning core (R330, R335). -/
def State.withheldAt (s : State) (d : Fin 4) (r : Option (Fin 16)) (asid : BitVec 13) (va detail : Word) : State :=
  let task := match r with
    | some r => taskNo (s.region d r).task
    | none => 0
  let s1 := s.report (eventRec 4 d (regionNo r) asid.toNat task va detail)
  match r with
  | some r => s1.notify d r 2
  | none => s1

/-- Party of a region's memory elements. -/
def fabricParty (a : ElemAt) (r : Option (Fin 16)) : Party := .fabric a.die (r.getD 0)

/-- Copy of a granule in the region-private cache: value, dirty bit, bank. -/
def State.cached (s : State) (d : Fin 4) (r : Fin 16) (g : Nat) : Option (Word × Bool × Nat) := Map.get none g (s.region d r).cache

/-- Writes back the dirty granules among those of a private cache that meet a test, and drops all that meet it (R97). -/
def State.flushCache (s : State) (d : Fin 4) (r : Fin 16) (p : Nat → Nat → Bool) : State :=
  let c := (s.region d r).cache
  let out (e : Nat × Option (Word × Bool × Nat)) : Bool := match e.2 with
    | some v => p e.1 v.2.2
    | none => false
  let s1 := c.foldl (fun s e => match e.2 with
    | some (v, true, _) =>
      if out e then s.writeGranule (.fabric d r) d { granule := e.1, mask := 0xFF, value := v } (Config.boardPath s.moves e.1) none else s
    | some (_, false, _) | none => s) s
  s1.setRegion d r { s1.region d r with cache := c.filter fun e => !out e }

/-- Lines that a bank holds, of the 32,768 in its 2 MiB (R95). -/
def State.bankLines (s : State) (d : Fin 4) (r : Fin 16) (bank : Nat) : List Nat :=
  ((s.region d r).cache.filterMap fun e => match e.2 with
    | some v => if v.2.2 = bank then some (e.1 / 8) else none
    | none => none).eraseDups

/-- A full bank gives up a line before another enters (R95, log 113). -/
def State.bankRoom (s : State) (d : Fin 4) (r : Fin 16) (bank g : Nat) : State :=
  if (s.region d r).cache.length < 2 ^ 15 then s
  else
    let ls := s.bankLines d r bank
    if ls.length < 2 ^ 15 ∨ ls.contains (g / 8) = true then s
    else match ls[Config.victim s.moves % ls.length]? with
      | some l => s.flushCache d r fun k b => k / 8 == l && b == bank
      | none => s

/-- A granule read of a memory element through a bank of the private cache (R97). -/
def State.cacheRead (s : State) (d : Fin 4) (r : Fin 16) (bank g : Nat) : Word × State :=
  match s.cached d r g with
  | some v => (v.1, s)
  | none =>
    let s1 := s.bankRoom d r bank g
    let q := s1.readFor (s1.region d r).task d g
    let k := q.2.region d r
    (q.1, q.2.setRegion d r { k with cache := Map.put none g (some (q.1, false, bank)) k.cache })

/-- A granule write into a bank of the private cache. -/
def State.cacheWrite (s : State) (d : Fin 4) (r : Fin 16) (bank g : Nat) (m v : Word) : State :=
  let q := s.cacheRead d r bank g
  let k := q.2.region d r
  q.2.setRegion d r { k with cache := Map.put none g (some (mergeBits q.1 m v, true, bank)) k.cache }

/-- Writes back and drops every line of a region's private cache (R97). -/
def State.writeBack (s : State) (d : Fin 4) (r : Fin 16) : State := s.flushCache d r fun _ _ => true

/-- Replaces access `n` of the pending set of an element. -/
def State.setAccess (s : State) (a : ElemAt) (n : Nat) (p : FabAccess) : State :=
  s.setElem a { s.elem a with pend := (s.elem a).pend.set n p }

/-- An access is withheld on a granule: reported, and counted until it performs (R117, R335). -/
def State.withholdAccess (s : State) (a : ElemAt) (n : Nat) (p : FabAccess) (g : Nat) : State :=
  (s.setAccess a n { p with withheld := true, faulted := true }).withheldAt a.die (s.regionAt a.die a.x a.y) p.asid
    (BitVec.ofNat 64 (8 * g)) (s.portId a)

/-- The region's private cache serves a virtual granule of an element (R97). -/
def State.cachedRange (s : State) (a : ElemAt) (g : Nat) : Option (Fin 16) :=
  match s.regionAt a.die a.x a.y with
  | some r => if s.privateRange a.die r (8 * g) then some r else none
  | none => none

/-- An access is indirect: that of mem.ldx or mem.stx, or of a strm.gth or strm.sct; it goes by the TLB of its tile (R353). -/
def Elem.indirect (e : Elem) : Bool :=
  match e.se.cur with
  | some r => r.cmd.op == .strmGth || r.cmd.op == .strmSct
  | none => e.opcode == 0x202 || e.opcode == 0x203

/-- An element is about to access an address: the page of a direct access is patched (R354). -/
def State.reach (s : State) (a : ElemAt) (asid : BitVec 13) (va : Nat) (write user : Bool) : State :=
  if (s.elem a).indirect then s else s.reachPage a asid va write user

/-- Where an element's access to a virtual address goes: by its extent, or by the TLB of its tile (R349, R353, R354). -/
def State.placeOf (s : State) (a : ElemAt) (asid : BitVec 13) (va : Nat) (write user : Bool) : Except XlatFault Nat :=
  if (s.elem a).indirect then s.translateBy (.tile a.die a.x a.y) asid va write user else s.throughExtent a asid va write user

/-- The task of an element has read marked data of a structure on its tile (R394). -/
def State.doom (s : State) (a : ElemAt) (struct : Nat) : State :=
  { s with doomed := s.doomed ++ (((s.regionAt a.die a.x a.y).bind fun r => (s.region a.die r).task).toList.map fun t =>
      { task := t, struct, tile := some (s.portId { a with e := 0 }) }) }

/-- A granule of an MT is read; a marked one fails the task (R394). -/
def State.readMt (s : State) (a : ElemAt) (g : Nat) : Word × State :=
  (s.mtGranule g, if s.mtMarked.contains g then s.doom a 4 else s)

/-- A granule read of access `n` of an element performs, or is withheld (R104, R108, R117). -/
def State.fabricRead (s0 : State) (a : ElemAt) (n g : Nat) : State :=
  match (s0.elem a).pend[n]? with
  | none => s0
  | some p =>
    if p.withheld || p.dropped || !p.todo.contains g then s0
    else
      let s := if p.mt then s0 else s0.reach a p.asid (8 * g) false true
      let take (q : Word × State) : State :=
        q.2.setAccess a n { p with todo := p.todo.filter (· ≠ g), got := p.got ++ [(g, q.1)], faulted := false }
      if p.mt then take (s.readMt a (mtFirst p.bank + g))
      else
        match s.placeOf a p.asid (8 * g) false true with
        | .error _ => s.withholdAccess a n p g
        | .ok pa =>
          match s.cachedRange a g with
          | some r => take (s.cacheRead a.die r (s.bankOf a.die r (8 * g)) (pa / 8))
          | none => take (s.readFor ((s.regionAt a.die a.x a.y).bind fun r => (s.region a.die r).task) a.die (pa / 8))

/-- A granule write of access `n` of an element performs, or is withheld (R105, R108, R117). -/
def State.fabricWrite (s0 : State) (a : ElemAt) (n g path : Nat) : State :=
  match (s0.elem a).pend[n]? with
  | none => s0
  | some p =>
    if p.withheld || p.dropped || !p.writes.any (fun w => w.1 == g) then s0
    else
      let s := if p.mt then s0 else s0.reach a p.asid (8 * g) true true
      let w := lookupD (0, 0) g p.writes
      let took (u : State) : State :=
        u.setAccess a n { p with writes := p.writes.filter fun w => w.1 != g, faulted := false }
      if p.mt then
        let k := mtFirst p.bank + g
        took ((s.unmarkMt k (maskBytes w.1)).setMtGranule k (maskBytes w.1) (mergeBits (s.mtGranule k) w.1 w.2) 8)
      else
        match s.placeOf a p.asid (8 * g) true true with
        | .error _ => s.withholdAccess a n p g
        | .ok pa =>
          match s.cachedRange a g with
          | some r => took (s.cacheWrite a.die r (s.bankOf a.die r (8 * g)) (pa / 8) w.1 w.2)
          | none =>
            took (s.writeGranule (fabricParty a (s.regionAt a.die a.x a.y)) a.die (s.bitWrite a.die (pa / 8) w.1 w.2) path none)

/-- Performs the stores of an element's pending set that meet a test and are not withheld. -/
def State.performStores (s : State) (a : ElemAt) (p : FabAccess → Bool) : State :=
  (s.elem a).pend.zipIdx.foldl (fun s x =>
    if x.1.store && p x.1 then
      x.1.writes.foldl (fun s w => s.fabricWrite a x.2 w.1 (Config.boardPath s.moves w.1)) s
    else s) s

/-- Performs every store queued for an MT (R147, R343). -/
def State.quiesceMt (s : State) (mt : Nat) (as : List ElemAt) : State :=
  as.foldl (fun s a => s.performStores a fun p => p.mt && p.bank == mt) s

end Sys2Proof.Machine
end

