-- ==== Sys2Proof/Machine/System.lean ====
section
/-!
DEFINITION. System instructions, traps from outside, and the illegal words (R144, R165 to R169, R183 to R185).
-/
namespace Sys2Proof.Machine

/-- The privilege trap of the instruction at the pc: BADADDR holds the word (R169). -/
def State.privTrap (s : State) : State := s.trap { cause := .privilege, bad := s.fetchWord.zeroExtend 64 }

/-- A software trap with its code (R183). -/
def execTrap (code : Fin 4096) (s : State) : Out := .next (s.trap { cause := .software, info := code.val })

def execEret (s : State) : Out := .next (if s.sv then s.setMe s.me.returnTrap else s.privTrap)

def execMfsr (d : Reg) (r : SysReg) (s : State) : Out := .next (s.wr d (s.me.sysReg r)).advance

/-- Registers that a task may not write (R166). -/
def SysReg.privileged : SysReg → Bool
  | .trappc | .asid => true
  | .status | .wid | .cause | .badaddr | .prio | .tags | .widw => false

def execMtsr (r : SysReg) (a : Reg) (s : State) : Out :=
  .next (
    if SysReg.privileged r && !s.sv then s.privTrap
    else (s.setMe (s.me.writeSys s.sv r (s.rd a))).advance)

/-- A release without a store, then an acquire without a read (R110). -/
def execFence (scope : Scope) (s : State) : Out :=
  .next (
    match s.ownRelease with
    | .wait s' => s'
    | .perform s' => (s'.acquire (dieOf s.cur) scope).advance)

/-- Home value that a wait-on-address reads (R112, R184). -/
def State.waitValue (s : State) (p : Place) : Word :=
  match p with
  | .priv off => s.me.privBytes off 8
  | .phys pa => s.home (pa / 8)

/-- The wait performs: acquire, result, next instruction. -/
def State.waitDone (s : State) (d : Reg) (scope : Scope) (p : Place) : State :=
  let v := s.waitValue p
  let s1 := s.acquire (dieOf s.cur) scope
  ((s1.setMe { s1.me with waiting := false }).wr d v).advance

/-- One try of a wait-on-address: it performs when the home value differs from gd; the private window returns only at the limit
(R184). -/
def execWait (d a : Reg) (scope : Scope) (s : State) : Out :=
  .next (
    match s.checkData (s.rd a) 8 false with
    | .error t => s.trap t
    | .ok p =>
      let s1 := s.drainStores s.cur
      match p with
      | .priv _ => s1.setMe { s1.me with waiting := true }
      | .phys _ =>
        if s1.waitValue p = s1.rd d then s1.setMe { s1.me with waiting := true } else s1.waitDone d scope p)

/-- A wait in progress performs with the value that it now reads. -/
def State.endWait (s : State) (c : Fin 64) : State :=
  let k := s.core c
  let s1 := { s with cur := c }
  if k.waiting && k.run == .running then
    match decode k.word with
    | .wait d a scope =>
      match s1.checkData (s1.rd a) 8 false with
      | .error t => { s1.trap t with cur := s.cur }
      | .ok p => { s1.waitDone d scope p with cur := s.cur }
    | _ => s
  else s

/-- WAIT_TIMEOUT: the limit of a wait in progress expires (R184). -/
def execWaitTimeout (c : Fin 64) (s : State) : Out := .next (s.onDie (dieOf c) (s.endWait c))

/-- halt: earlier accesses and commands leave the order buffer first; a later start is at the following word (R185). -/
def execHalt (s : State) : Out :=
  .next (
    let s1 := s.drainStores s.cur
    if s1.orderEmpty s.cur then (s1.advance).setMe { s1.advance.me with run := .halted } else s1)

/-- The core may take an asynchronous trap now: it stands between two instructions or in an interruptible wait (R168). A release or
an atomic in progress is no such wait, but that of enq is (R208). -/
def CoreState.interruptible (k : CoreState) : Bool :=
  k.amo.isNone && (k.rel.isNone || (match decode k.word with
    | .enq .. => true
    | _ => false))

/-- ASYNC_TRAP: the oldest pending asynchronous trap is taken when IE = 1 (R168, R185, R330). -/
def execAsyncTrap (c : Fin 64) (s : State) : Out :=
  .next (s.onDie (dieOf c) <|
    let k := s.core c
    match k.irq with
    | [] => s
    | src :: rest =>
      if k.ie && (k.run == .running || k.run == .halted) && k.interruptible then
        let k' : CoreState := { k with irq := rest, run := .running, waiting := false, rel := none, hdrHeld := false, hdrFaulted := false }
        s.setCore c (k'.enterTrap { cause := .async, info := src.toNat } k.pc)
      else s)

/-- A word that R144 gives no instruction: BADADDR holds it. -/
def execIllegalInstruction (w : Word32) (s : State) : Out := .next (s.trap { cause := .illegal, bad := w.zeroExtend 64 })

end Sys2Proof.Machine
end

