-- ==== Sys2Proof/Machine/StreamCmd.lean ====
section
/-!
DEFINITION. The core's side of stream, engine, tag, shape and resume instructions: checks, waits and issue (R189 to R213, R216).
-/
namespace Sys2Proof.Machine

/-! ### Issue (R189) -/

/-- Issue on a tag: its bit is cleared and its count rises by 1; the core counts what it issues (R99, R205). -/
def CoreState.takeTag (k : CoreState) (t : Tag) : CoreState :=
  { k with issued := k.issued + 1, tags := putBit k.tags t.val false, tagCount := setF k.tagCount t (getF k.tagCount t + 1) }

/-- A tagged command has completed: the bit is set when the count reaches 0 (R99). -/
def CoreState.freeTag (k : CoreState) (t : Tag) : CoreState :=
  let n := getF k.tagCount t - 1
  { k with tags := if n = 0 then putBit k.tags t.val true else k.tags, tagCount := setF k.tagCount t n }

def State.freeTag (s : State) (c : Fin 64) (t : Tag) : State := s.setCore c ((s.core c).freeTag t)

/-- The address of a record, descriptor, image or header: range, then alignment, then translation (R167, R189, R208, R214). -/
def State.checkRecord (s : State) (addr : Word) (align : Nat) (write : Bool) : Except TrapReq Nat :=
  if addr.toNat / 2 ^ 56 ≠ 0 ∨ (privOffset addr).isSome then .error { cause := .addressRange, bad := addr }
  else if addr.toNat % align ≠ 0 then .error { cause := .alignment, bad := addr }
  else
    match s.translateBy (.core s.cur) (s.me.asid.truncate 13) addr.toNat write (!s.sv) with
    | .ok pa => .ok pa
    | .error f => .error { cause := f.cause, bad := addr }

/-- Port of an engine command: mapped by a stream engine of the direction and not bound to a queue-mapped register (R194). -/
def State.checkPort (s : State) (vo : Bool) (n : Nat) : Except TrapReq ElemAt :=
  match s.portElem s.cur vo n with
  | none => .error (portTrap 0 n)
  | some a => if (s.elem a).qpValid then .error (portTrap 1 n) else .ok a

/-- Commands that an engine holds or that are on their way to it (R189 step 2). -/
def State.engineLoad (s : State) (c : Fin 64) (a : ElemAt) : Nat :=
  let se := (s.elem a).se
  (if se.cur.isSome then 1 else 0)
    + (se.items.filter fun i => match i with
        | .cmd _ => true
        | .shape _ | .barrier _ => false).length
    + ((s.core c).order.filter fun i => match i with
        | .cmd k => decide (k.engine = some a)
        | .store _ | .sbar .. | .qfence .. | .shape .. => false).length

def CmdOp.onQueue : CmdOp → Bool
  | .cpy | .cpy2d | .collAr | .collAg | .collRs | .collBc | .collA2a => true
  | .strmLd | .strmSt | .strmGth | .strmSct | .flm | .cfgLd => false

/-- Entries of an engine queue, those on their way included (R189 step 2). -/
def CoreState.queueLoad (k : CoreState) (q : QReg) : Nat :=
  (getF k.queues q).length
    + (k.order.filter fun i => match i with
        | .cmd c => c.op.onQueue && decide (c.queue = q)
        | .qfence qs _ _ => qs.contains q
        | .store _ | .sbar .. | .shape .. => false).length

/-- Issues a command whose checks have passed, when there is room (R189 steps 2 and 3). -/
def State.issueCmd (s : State) (room : Bool) (k : Command) : State :=
  if 255 ≤ getF s.me.tagCount k.tag || !room then s
  else ((s.setMe (s.me.takeTag k.tag)).issue s.cur (.cmd k)).advance

/-- A command of the running core with what is in force at issue. Every access for a task needs a page open to task mode, those of a
dispatcher in the task mode too (R350). -/
def State.mkCmd (s : State) (op : CmdOp) (i : Instr) (base count : Word) (tag : Tag) : Command :=
  { op, word := encode i, core := s.cur, asid := s.me.asid.truncate 13, user := s.me.task.isSome || !s.sv, base, count, tag, wid := s.me.wid, seq := s.me.issued }

/-- A stream command (R194): port check, record address, room. -/
def State.streamCmd (s : State) (op : CmdOp) (vo : Bool) (i : Instr) (o : Strm) : State :=
  match s.checkPort vo o.port.val with
  | .error t => s.trap t
  | .ok a =>
    match s.checkRecord (s.rd o.base) 64 false with
    | .error t => s.trap t
    | .ok _ =>
      s.issueCmd (decide (s.engineLoad s.cur a < 2))
        { s.mkCmd op i (s.rd o.base) (s.rd o.count) o.tag with port := o.port.val, engine := some a, append := o.append }

def execStrmLd (o : Strm) (s : State) : Out := .next (s.streamCmd .strmLd false (.strmLd o) o)
def execStrmSt (o : Strm) (s : State) : Out := .next (s.streamCmd .strmSt true (.strmSt o) o)
def execStrmGth (o : Strm) (s : State) : Out := .next (s.streamCmd .strmGth false (.strmGth o) o)
def execStrmSct (o : Strm) (s : State) : Out := .next (s.streamCmd .strmSct true (.strmSct o) o)

/-- A copy or collective (R202, R204). -/
def State.queueCmd (s : State) (op : CmdOp) (i : Instr) (q : QReg) (base count : Reg) (tag : Tag) (mode : CollMode) : State :=
  match s.checkRecord (s.rd base) 64 false with
  | .error t => s.trap t
  | .ok _ =>
    s.issueCmd (decide (s.me.queueLoad q < 16)) { s.mkCmd op i (s.rd base) (s.rd count) tag with queue := q, mode }

def execCpy (q : QReg) (base count : Reg) (tag : Tag) (s : State) : Out :=
  .next (s.queueCmd .cpy (.cpy q base count tag) q base count tag .fast)
def execCpy2d (q : QReg) (base count : Reg) (tag : Tag) (s : State) : Out :=
  .next (s.queueCmd .cpy2d (.cpy2d q base count tag) q base count tag .fast)
def execCollAr (q : QReg) (base count : Reg) (tag : Tag) (mode : CollMode) (s : State) : Out :=
  .next (s.queueCmd .collAr (.collAr q base count tag mode) q base count tag mode)
def execCollAg (q : QReg) (base count : Reg) (tag : Tag) (mode : CollMode) (s : State) : Out :=
  .next (s.queueCmd .collAg (.collAg q base count tag mode) q base count tag mode)
def execCollRs (q : QReg) (base count : Reg) (tag : Tag) (mode : CollMode) (s : State) : Out :=
  .next (s.queueCmd .collRs (.collRs q base count tag mode) q base count tag mode)
def execCollBc (q : QReg) (base count : Reg) (tag : Tag) (mode : CollMode) (s : State) : Out :=
  .next (s.queueCmd .collBc (.collBc q base count tag mode) q base count tag mode)
def execCollA2a (q : QReg) (base count : Reg) (tag : Tag) (mode : CollMode) (s : State) : Out :=
  .next (s.queueCmd .collA2a (.collA2a q base count tag mode) q base count tag mode)

/-- The engines of the ports that a mask names: bits 31:0 vi, 63:32 vo; bits of unmapped ports are ignored (R142, R199). -/
def State.maskEngines (s : State) (m : Word) : List ElemAt :=
  (List.range 64).filterMap fun i => if m.getLsbD i then s.portElem s.cur (decide (32 ≤ i)) (i % 32) else none

/-- flm reads no memory and makes no address check (R189, R207). -/
def execFlm (scope : Scope) (m : Reg) (tag : Tag) (s : State) : Out :=
  .next (s.issueCmd true
    { s.mkCmd .flm (.flm scope m tag) (s.rd m) 0 tag with scope, engines := s.maskEngines (s.rd m) })

/-- cfg.ld checks its image address (R189, R214). -/
def execCfgLd (base count : Reg) (tag : Tag) (part : Bool) (s : State) : Out :=
  .next (
    match s.checkRecord (s.rd base) 8 false with
    | .error t => s.trap t
    | .ok _ => s.issueCmd true { s.mkCmd .cfgLd (.cfgLd base count tag part) (s.rd base) (s.rd count) tag with part })

/-! ### Barriers and fences (R199, R206) -/

def execSbar (a : Reg) (s : State) : Out :=
  .next (
    match s.maskEngines (s.rd a) with
    | [] => s.advance
    | es => ({ s with nextId := s.nextId + 1 }.issue s.cur (.sbar es s.nextId)).advance)

/-- Queues that bits 7:0 of a mask name. -/
def maskQueues (m : Word) : List QReg := (List.finRange 8).filter fun q => m.getLsbD q.val

def execQfence (a : Reg) (s : State) : Out :=
  .next (
    match maskQueues (s.rd a) with
    | [] => s.advance
    | qs =>
      if qs.all fun q => decide (s.me.queueLoad q < 16) then
        ({ s with nextId := s.nextId + 1 }.issue s.cur (.qfence qs s.nextId (encode (.qfence a)))).advance
      else s)

/-! ### Tags (R200) -/

def execTwaitAny (a : Reg) (s : State) : Out :=
  .next (
    if s.rd a = 0 then s.advance
    else if s.me.tags &&& s.rd a = 0 then s
    else (s.acquire (dieOf s.cur) .device).advance)

def execTwaitAll (a : Reg) (s : State) : Out :=
  .next (
    if s.rd a = 0 then s.advance
    else if s.me.tags &&& s.rd a = s.rd a then (s.acquire (dieOf s.cur) .device).advance
    else s)

def execTfind (d a : Reg) (s : State) : Out :=
  .next (
    let m := s.me.tags &&& s.rd a
    let s1 := if m = 0 then s else s.acquire (dieOf s.cur) .device
    (s1.wr d (BitVec.ofNat 64 (trailingZeros m 0 64))).advance)

def execTclr (a : Reg) (s : State) : Out :=
  .next (s.setMe { s.me with tags := s.me.tags &&& ~~~s.rd a }).advance

/-! ### Shapes (R209 to R212) -/

/-- Kind codes of R209 and R211. -/
def ShapeKind.num : ShapeKind → Nat
  | .vec => 0
  | .fp8 => 1
  | .e2m1 => 2
  | .bf16 => 3
  | .rank => 4

/-- Maxima of a region w × h at a kind: m or length, n, k (R210). -/
def shapeMax (kind w h : Nat) : Nat × Nat × Nat :=
  match kind with
  | 0 => (2048 * w * h, 0, 0)
  | 1 => (64 * h, 64 * w, 1024)
  | 2 => (64 * h, 64 * w, 2048)
  | 3 => (64 * h, 64 * w, 512)
  | _ => (4096, 0, 0)

/-- Granule of k, or of the length (R210). -/
def shapeGranule (kind : Nat) : Nat :=
  match kind with
  | 0 => 8
  | 1 => 32
  | 2 => 64
  | 3 => 16
  | _ => 8

/-- grant_of (R211); none where it traps. -/
def grantOf (req max gran : Nat) : Option Nat := if req < gran then none else some (gran * (min req max / gran))

def isMatrixKind (kind : Nat) : Bool := decide (1 ≤ kind) && decide (kind ≤ 3)

/-- Grants m (or length), n and k for requests at a kind on a region, or the info value of the trap (R211). -/
def shapeGrant (kind w h m n k : Nat) : Except Nat (Nat × Nat × Nat) :=
  let mx := shapeMax kind w h
  if isMatrixKind kind then
    match grantOf m mx.1 16, grantOf n mx.2.1 16, grantOf k mx.2.2 (shapeGranule kind) with
    | none, _, _ => .error 0
    | some _, none, _ => .error 1
    | some _, some _, none => .error 2
    | some a, some b, some c => .ok (a, b, c)
  else
    match grantOf m mx.1 (shapeGranule kind) with
    | none => .error 3
    | some a => .ok (a, 0, 0)

def ShapeReg.granted (m n k : Nat) (g : Nat × Nat × Nat) (mx : Nat × Nat × Nat) (kind : Nat) (pcw : Nat) (a b : Reg) : ShapeReg :=
  { reqM := BitVec.ofNat 32 m, reqN := BitVec.ofNat 32 n, reqK := BitVec.ofNat 32 k
    grantM := BitVec.ofNat 16 g.1, grantN := BitVec.ofNat 16 g.2.1, grantK := BitVec.ofNat 16 g.2.2
    maxM := BitVec.ofNat 16 mx.1, maxN := BitVec.ofNat 16 mx.2.1, maxK := BitVec.ofNat 16 mx.2.2
    pcw := BitVec.ofNat 16 pcw, ra := BitVec.ofNat 5 a.val, rb := BitVec.ofNat 5 b.val, kind := BitVec.ofNat 3 kind
    pub := false, valid := true }

/-- What a grant writes back into register a (R211). -/
def grantWord (kind : Nat) (g : Nat × Nat × Nat) : Word :=
  BitVec.ofNat 64 (if isMatrixKind kind then g.1 + g.2.1 * 2 ^ 32 else g.1)

def shapeTrap (info : Nat) : TrapReq := { cause := .shapeRequest, info }

def execShape (sh : ShReg) (a b : Reg) (kind : ShapeKind) (s : State) : Out :=
  .next (
    match s.ownRegion s.cur with
    | none => s.trap (shapeTrap 6)
    | some r =>
      let g := s.region (dieOf s.cur) r
      let kn := ShapeKind.num kind
      let x := (s.rd a).toNat
      let y := (s.rd b).toNat
      let m := bits x 0 32
      let n := if isMatrixKind kn then bits x 32 32 else 0
      let k := if isMatrixKind kn then bits y 0 32 else 0
      if (if isMatrixKind kn then bits y 32 32 else bits x 32 32) ≠ 0 then s.trap (shapeTrap 5)
      else
        match shapeGrant kn g.w g.h m n k with
        | .error i => s.trap (shapeTrap i)
        | .ok gr =>
          let last := (List.finRange 8).foldl (fun n i => max n (getF s.me.sh i).ran) 0
          let reg : ShapeReg :=
            { ShapeReg.granted m n k gr (shapeMax kn g.w g.h) kn (bits s.nextPc.toNat 2 16) a b with ran := last + 1 }
          let s1 := s.setMe { s.me with sh := setF s.me.sh sh reg }
          let s2 := s1.wr a (grantWord kn gr)
          (if isMatrixKind kn then s2.wr b (BitVec.ofNat 64 gr.2.2) else s2).advance)

/-- The shape token of a register (R212). -/
def shapeToken (sh : ShReg) (r : ShapeReg) : Token :=
  { hdr := { kind := 6 }
    pay := BitVec.ofNat 512 (r.grantM.toNat + r.grantN.toNat * 2 ^ 16 + r.grantK.toNat * 2 ^ 32 + sh.val * 2 ^ 48
      + r.kind.toNat * 2 ^ 51) }

/-- vi ports that a mask names, or the trap for the first unmapped one (R212). -/
def State.viPorts (s : State) (m : Word) : List Nat → Except TrapReq (List ElemAt)
  | [] => .ok []
  | i :: t =>
    if m.getLsbD i then
      match s.portElem s.cur false i with
      | none => .error (portTrap 0 i)
      | some a =>
        match s.viPorts m t with
        | .error e => .error e
        | .ok l => .ok (a :: l)
    else s.viPorts m t

def execShpub (sh : ShReg) (a : Reg) (s : State) : Out :=
  .next (
    let m := s.rd a
    if m.toNat / 2 ^ 32 ≠ 0 then s.trap (portTrap 1 0)
    else
      match s.viPorts m (List.range 32) with
      | .error t => s.trap t
      | .ok ports =>
        let r := getF s.me.sh sh
        if !r.valid then s.trap (shapeTrap 4)
        else if ports.all fun p => !(s.elem p).qpValid || s.sourceReady p then
          let t := shapeToken sh r
          let s1 := ports.foldl (fun s p => if (s.elem p).qpValid then s.send p 0 t else s.issue s.cur (.shape p t)) s
          (s1.setMe { s1.me with sh := setF s1.me.sh sh { r with pub := true } }).advance
        else s)

/-! ### resume (R216) -/

/-- A memory element or stream engine of a committed region (R216). -/
def State.isPort (s : State) (a : ElemAt) : Bool :=
  let op := (s.elem a).opcode
  s.gateOpen a.die a.x a.y &&
    ((decide (0x200 ≤ op) && decide (op ≤ 0x203)) || (decide (op = 0x204) && isStreamEngine a))

/-- The element that a port identifier names (R216). -/
def State.portAt (s : State) (d : Fin 4) (v : Nat) : ElemAt × Fin 16 :=
  let r : Fin 16 := ⟨bits v 18 4, by unfold bits; omega⟩
  let g := s.region d r
  ({ die := d, x := g.absX (bits v 13 5), y := g.absY (bits v 8 5), e := bits v 4 4 }, r)

/-- One resume token goes to an element (R216, R328). -/
def State.sendResume (s : State) (a : ElemAt) : State :=
  s.setElem a { s.elem a with resumes := (s.elem a).resumes + 1 }

def execResume (a : Reg) (s : State) : Out :=
  .next (
    let v := (s.rd a).toNat
    let p := s.portAt (dieOf s.cur) v
    if !s.sv && decide (s.ownRegion s.cur ≠ some p.2) then s.privTrap
    else if v / 2 ^ 22 ≠ 0 ∨ bits v 0 4 ≠ 0 ∨ !(s.region (dieOf s.cur) p.2).present || !(s.region (dieOf s.cur) p.2).owns p.1.x p.1.y
        || !s.isPort p.1 then
      s.trap (portTrap 0 0)
    else (s.sendResume p.1).advance)

end Sys2Proof.Machine
end

