-- ==== Sys2Proof/Machine/Command.lean ====
section
/-!
DEFINITION. What every tagged command shares: status dwords (R190), reads and writes under a command's ASID, barrier entries and fences (R199, R206), and flm (R207).
-/
namespace Sys2Proof.Machine

/-! ### Accesses under a command's ASID -/

/-- A command's read of a virtual granule; none where it is withheld. -/
def State.cmdRead (s : State) (c : Fin 64) (asid : BitVec 13) (user : Bool) (g : Nat) : Option (Word × State) :=
  match s.translate (dieOf c) asid (8 * g) false user with
  | .ok pa => some (s.readFor (s.core c).task (dieOf c) (pa / 8))
  | .error _ => none

/-- Reads consecutive dwords of a record; none where one of them faults, with the faulting granule. -/
def State.cmdDwords (s : State) (c : Fin 64) (asid : BitVec 13) (user : Bool) (g : Nat) : Nat → Except Nat (List Word × State)
  | 0 => .ok ([], s)
  | n + 1 =>
    match s.cmdRead c asid user g with
    | none => .error g
    | some (v, s1) =>
      match s1.cmdDwords c asid user (g + 1) n with
      | .error e => .error e
      | .ok (l, s2) => .ok (v :: l, s2)

/-- A status dword; an info that the manual does not state is free (R190). -/
def State.statusDword (s : State) (st : CmdStatus) : Word × State :=
  let info : Nat := if st.openInfo then (Config.freeWord s.free).toNat % 2 ^ 32 else min st.info (2 ^ 32 - 1)
  (BitVec.ofNat 64 (st.code + (b2n st.ovf) * 2 ^ 8 + (b2n st.poison) * 2 ^ 9 + st.flags.toNat * 2 ^ 10 + info * 2 ^ 32),
    { s with free := if st.openInfo then s.free + 1 else s.free })

/-- Writes the status dword of a command at a virtual address; none where the write is withheld. The board chooses its path (R105). -/
def State.writeStatus (s : State) (p : Party) (c : Fin 64) (asid : BitVec 13) (user : Bool) (va : Nat) (st : CmdStatus) :
    Option State :=
  match s.translate (dieOf c) asid va true user with
  | .error _ => none
  | .ok pa =>
    let w := s.statusDword st
    some (w.2.writeGranule p (dieOf c) (storeAt pa 8 w.1) (Config.boardPath s.moves (pa / 8)) none)

/-- A party has a write that has not landed (R99). -/
def State.unlandedParty (s : State) (p : Party) : Bool :=
  (s.paths.any fun q => q.2.any fun it => decide (it.from? = some p)) ||
  (s.landing.any fun l => decide (p = .stream l.1.stream) && !l.2.isEmpty)

/-- Detail of event 4 for an engine queue, or 8 for cfg.ld (R335). -/
def queueDetail (c : Fin 64) (q : Nat) : Word := BitVec.ofNat 64 ((slotOf c).val + q * 2 ^ 8 + 2 ^ 63)

/-! ### Barrier entries and fences -/

/-- The stream engines that the machine lists. -/
def State.engines (s : State) : List ElemAt := (s.elems.map fun e => elemOfKey e.1).filter isStreamEngine

def StreamItem.isBarrier (id : Nat) : StreamItem → Bool
  | .barrier i => i == id
  | .cmd _ | .shape _ => false

/-- Every access of a command has performed, its status write the last of them; they may still have to land (R108). -/
def StreamRun.performed (r : StreamRun) : Bool := match r.finished with
  | some st => st.written
  | none => false

/-- No access of the engine's current command has still to perform. -/
def StreamState.clear (se : StreamState) : Bool := match se.cur with
  | some r => r.performed
  | none => true

/-- Every entry of an sbar stands at the head of its engine and every access ahead of one has performed (R108, R199). -/
def State.barrierCloses (s : State) (id : Nat) : Bool :=
  s.engines.all fun a =>
    let se := (s.elem a).se
    !(se.items.any (StreamItem.isBarrier id)) || (se.clear && (se.items.take 1).any (StreamItem.isBarrier id))

/-- Every entry of a barrier goes. -/
def State.closeBarrier (s : State) (id : Nat) : State :=
  s.engines.foldl (fun s a =>
    let e := s.elem a
    s.setElem a { e with se := { e.se with items := e.se.items.filter fun i => !(i.isBarrier id) } }) s

/-- The barrier entry at the head of an engine closes when it may. -/
def State.closeFirst (s : State) (l : List StreamItem) : Option State :=
  match l with
  | .barrier id :: _ => if s.barrierCloses id then some (s.closeBarrier id) else none
  | .cmd _ :: _ | .shape _ :: _ | [] => none

def StreamItem.isAnyBarrier : StreamItem → Bool
  | .barrier _ => true
  | .cmd _ | .shape _ => false

/-- Every row of the engine's current command has joined the tokens to emit: a barrier entry, or a status write that is withheld, holds no
token back (R199, R212). -/
def StreamState.rowsOut (se : StreamState) : Bool := match se.cur with
  | some r => r.finished.isSome
  | none => true

/-- One settlement at an engine: a barrier that closes goes; a shape token behind no row joins the tokens to emit. -/
def State.settleHeadItem (s : State) (a : ElemAt) : Option State :=
  let e := s.elem a
  let bs := e.se.items.takeWhile StreamItem.isAnyBarrier
  match e.se.items.drop bs.length with
  | .shape t :: rest =>
    if e.se.rowsOut then some (s.setElem a { e with se := { e.se with items := bs ++ rest, outq := e.se.outq ++ [t] } })
    else s.closeFirst bs
  | _ => s.closeFirst bs

def State.settleItems (s : State) : Nat → State
  | 0 => s
  | n + 1 =>
    match s.engines.findSome? s.settleHeadItem with
    | some s' => s'.settleItems n
    | none => s

/-- Settles barriers and shape entries of every engine. -/
def State.settleEngines (s : State) : State :=
  s.settleItems (s.engines.foldl (fun n a => n + (s.elem a).se.items.length) 0)

def QItem.isFence (id : Nat) : QItem → Bool
  | .fence i _ => i == id
  | .cmd .. => false

def CoreState.fenceCloses (k : CoreState) (id : Nat) : Bool :=
  (List.finRange 8).all fun q =>
    !((getF k.queues q).any (QItem.isFence id)) || ((getF k.queues q).take 1).any (QItem.isFence id)

/-- The first fence of a core that closes (R108). -/
def CoreState.fenceDue (k : CoreState) : Option Nat :=
  (List.finRange 8).findSome? fun q =>
    match getF k.queues q with
    | .fence id _ :: _ => if k.fenceCloses id then some id else none
    | .cmd .. :: _ | [] => none

def CoreState.settleFences (k : CoreState) : Nat → CoreState
  | 0 => k
  | n + 1 =>
    match k.fenceDue with
    | some id =>
      CoreState.settleFences { k with queues := Vector.ofFn fun q => (getF k.queues q).filter fun i => !(i.isFence id) } n
    | none => k

def State.settleQueues (s : State) (c : Fin 64) : State := s.setCore c ((s.core c).settleFences 128)

/-! ### flm (R207) -/

/-- flm begins: its release covers the core and the streams named, with the rows that they have issued (R110). -/
def State.beginFlm (s : State) (k : Command) : State :=
  (s.openRelease (.flm k.core k.tag) (.core k.core :: k.engines.map Party.stream)
    (k.engines.map fun a => (a, (s.elem a).se.rowsIssued))).2

end Sys2Proof.Machine
end

