-- ==== Sys2Proof/Machine/Rewriter.lean ====
section
/-!
DEFINITION. The rewriter on the commands of an image: the transform of a placement (R276, R359), relocations of kind 6 (R279), hazard
fields (R280), and shape minima (R397).
-/
namespace Sys2Proof.Machine

/-! ### Commands with their extends (R146) -/

/-- A command with the extends that follow it. -/
structure CfgItem where
  word : Nat
  exts : List Nat := []
  deriving DecidableEq, Repr

def cfgItems (ws : List Nat) : List CfgItem :=
  let r := ws.foldr (fun w (p : List Nat × List CfgItem) =>
    if w / 2 ^ 30 = 1 then (w :: p.1, p.2) else ([], { word := w, exts := p.1 } :: p.2)) ([], [])
  match r.1 with
  | [] => r.2
  | w :: es => { word := w, exts := es } :: r.2

def CfgItem.isWrite (c : CfgItem) : Bool := c.word / 2 ^ 30 == 0
def CfgItem.x (c : CfgItem) : Nat := bits c.word 25 5
def CfgItem.y (c : CfgItem) : Nat := bits c.word 20 5
def CfgItem.e (c : CfgItem) : Nat := bits c.word 16 4
def CfgItem.f (c : CfgItem) : Nat := bits c.word 10 6
/-- The field value that a write and its extends give. -/
def CfgItem.value (c : CfgItem) : Nat :=
  (c.exts.foldl (fun (p : Nat × Nat) w => (p.1 + w % 2 ^ 30 * 2 ^ p.2, p.2 + 30)) (c.word % 2 ^ 10, 10)).1

/-- The write of a value at an element field with as many extends. -/
def CfgItem.rewrite (c : CfgItem) (x y f v : Nat) : CfgItem :=
  { word := v % 2 ^ 10 + f % 64 * 2 ^ 10 + c.e * 2 ^ 16 + y % 32 * 2 ^ 20 + x % 32 * 2 ^ 25
    exts := (c.exts.zipIdx).map fun w => 2 ^ 30 + v / 2 ^ (10 + 30 * w.2) % 2 ^ 30 }

def itemsWords (l : List CfgItem) : List Nat := l.flatMap fun c => c.word :: c.exts

/-- Value that an image writes at a field, 0 where it writes none. -/
def imgField (l : List CfgItem) (x y e f : Nat) : Nat :=
  match (l.reverse.find? fun c => c.isWrite && c.x == x && c.y == y && c.e == e && c.f == f) with
  | some c => c.value
  | none => 0

/-! ### The frame of a placement (R276) -/

/-- Ring columns of a kind on the stream side, in ascending order. -/
def Frame.side (f : Frame) (k : TileKind) : List Nat :=
  (List.range (5 * f.w)).filterMap fun i =>
    if tileKind (i + 1 + 5 * f.bx) (if f.reflect then 21 else 0) = k then some (i + 1) else none

def virtualAgs : List Nat := [1, 2, 3, 5, 6, 8, 9, 10]

/-- Where a virtual site goes. -/
def Frame.site (f : Frame) (x y : Nat) : Nat × Nat :=
  if f.portable then
    let y' := if f.reflect then 4 * f.h + 1 - y else y
    if y = 0 then
      (if x = 7 then ((f.side .xt).headD x, y') else
        match virtualAgs.findIdx? (· == x) with
        | some i => ((f.side .ag).getD i x, y')
        | none => (x, y'))
    else (x, y')
  else (x, y)

/-- A direction under the transform. -/
def Frame.dir (f : Frame) (d : Nat) : Nat := if f.reflect && d % 2 == 0 then 2 - d else d

/-- A pass map under the transform: left and right turns exchange. -/
def Frame.passMap (f : Frame) (v : Nat) : Nat :=
  if f.reflect then
    (List.range 4).foldl (fun n c => n + (match bits v (2 * c) 2 with
      | 2 => 3
      | 3 => 2
      | k => k) * 4 ^ c) 0
  else v

/-- Coordinates in two 5-bit fields of a value, x at bit `bx` and y five bits below. -/
def Frame.coords (f : Frame) (v lo : Nat) : Nat :=
  let p := f.site (bits v (lo + 5) 5) (bits v lo 5)
  v - bits v lo 10 * 2 ^ lo + (p.1 % 32 * 32 + p.2 % 32) * 2 ^ lo

/-- Renumbers one command (R359 step 1). `rank` says that an element of the image is a rank.k; its constant 0 names the virtual ladder when it
is 0. -/
def Frame.item (f : Frame) (rank : Nat → Nat → Nat → Bool) (c : CfgItem) : CfgItem :=
  if !f.portable then c
  else if c.isWrite then
    let p := f.site c.x c.y
    let v := c.value
    let k := bits v 8 2
    let turned := v - bits v 6 2 * 2 ^ 6 + f.dir (bits v 6 2) * 2 ^ 6
    let interior := decide (1 ≤ c.x) && decide (c.x ≤ 5 * f.w) && decide (1 ≤ c.y) && decide (c.y ≤ 4 * f.h)
    if 3 ≤ c.f ∧ c.f ≤ 6 then c.rewrite p.1 p.2 c.f (if k = 2 then turned else v)
    else if c.f = 7 ∨ c.f = 8 then c.rewrite p.1 p.2 c.f (if k = 2 then turned else if k = 3 then f.coords v 10 else v)
    else if interior && c.x % 5 != 0 && c.e == 15 && decide (16 ≤ c.f) && decide (c.f ≤ 19) then
      c.rewrite p.1 p.2 (16 + f.dir (c.f - 16)) (f.passMap v)
    else if c.f = 16 && v == 0 && rank c.x c.y c.e then c.rewrite p.1 p.2 c.f (if f.reflect then 3 else 0)
    else c.rewrite p.1 p.2 c.f v
  else if bits c.word 26 6 = 35 then
    let p := f.site (bits c.word 21 5) (bits c.word 16 5)
    if c.word.testBit 15 then c
    else { c with word := 35 * 2 ^ 26 + p.1 % 32 * 2 ^ 21 + p.2 % 32 * 2 ^ 16 }
  else c

/-- An image writes a field of an element. -/
def imgWrites (l : List CfgItem) (x y e f : Nat) : Bool :=
  l.any fun c => c.isWrite && c.x == x && c.y == y && c.e == e && c.f == f

/-- The element is a rank.k once the image is in: by its own opcode write, else by the opcode that the element holds. -/
def isRankK (held : Nat → Nat → Nat → Nat) (l : List CfgItem) (x y e : Nat) : Bool :=
  if imgWrites l x y e 0 then imgField l x y e 0 == 0x2C1 else held x y e == 0x2C1

/-- Constants 0 that name the physical ladder where an image leaves a rank.k's at the virtual one, its default (R276). -/
def Frame.ladderWrites (f : Frame) (l : List CfgItem) : List CfgItem :=
  if f.portable && f.reflect then
    (l.filter fun c => c.isWrite && c.f == 0 && c.value == 0x2C1 && !imgWrites l c.x c.y c.e 16).map fun c =>
      let p := f.site c.x c.y
      c.rewrite p.1 p.2 16 3
  else []

/-- The transform on a whole image (R359 step 1); `held` gives the opcode that an element of the region holds, by the image's coordinates.
The ladder writes go in ahead of the commit. -/
def Frame.items (f : Frame) (held : Nat → Nat → Nat → Nat) (l : List CfgItem) : List CfgItem :=
  let m := l.map (f.item (isRankK held l))
  m.dropLast ++ f.ladderWrites l ++ m.drop (m.length - 1)

/-! ### What a placement block holds (R358) -/

structure Placement where
  portable : Bool
  hazards : List Word
  relocs : List (Nat × Nat)
  shapes : List (Word × Word)
  deriving DecidableEq, Repr

/-- A shape minimum is met by the maxima of a geometry (R210, R211, R281, R397). -/
def minimumMet (w h : Nat) (e : Word × Word) : Bool :=
  let kind := bits e.1.toNat 8 3
  let mx := shapeMax kind w h
  let rnd (v g : Nat) : Nat := v / g * g
  decide (bits e.1.toNat 32 32 ≤ rnd mx.1 (if isMatrixKind kind then 16 else shapeGranule kind)) &&
    (!isMatrixKind kind || (decide (bits e.2.toNat 0 32 ≤ rnd mx.2.1 16) && decide (bits e.2.toNat 32 32 ≤ rnd mx.2.2 (shapeGranule kind))))

/-! ### Relocations of kind 6 (R279, R359) -/

/-- First bit of the coordinates by parameter: accumulator identifier, resume identifier, sq base. -/
def tileIdBit (param : Nat) : Nat :=
  match param with
  | 0 => 3
  | 1 => 8
  | _ => 21

/-- Applies the entries whose target is a command (log 35): the constant that the write at that index begins. -/
def Frame.relocate (f : Frame) (relocs : List (Nat × Nat)) (l : List CfgItem) : List CfgItem :=
  (l.foldl (fun (p : Nat × List CfgItem) c =>
    let n := p.1
    let c' := match relocs.find? fun r => r.1 == n with
      | some r => if c.isWrite then c.rewrite c.x c.y c.f (f.coords c.value (tileIdBit r.2)) else c
      | none => c
    (n + 1 + c.exts.length, p.2 ++ [c'])) (0, [])).2

/-! ### Hazard fields (R69, R154, R280) -/

/-- A channel of an MT FIFO. -/
def isFifo (k : TileKind) (e : Nat) : Bool := decide (k = .mt) && decide (e < 8)

/-- Where a static route comes from: the steps back, the MT sites passed over, and whether a FIFO channel sends on it. `frm` is the side
that the channel arrives from. A route longer than the fuel has more steps than a hop count holds. -/
def imgTrace (f : Frame) (l : List CfgItem) (c : Nat) : Nat → Nat → Nat → Dir → Nat → Nat → Option (Nat × Nat × Bool)
  | 0, _, _, _, steps, mts => some (steps, mts, false)
  | fuel + 1, x, y, frm, steps, mts =>
    match frm.go x y with
    | none => none
    | some (nx, ny) =>
      let sender := (List.range 16).find? fun e => (List.range 2).any fun o =>
        let v := imgField l nx ny e (7 + o)
        bits v 8 2 == 2 && bits v 6 2 == frm.opp.num && bits v 4 2 == c
      match sender with
      | some e => some (steps + 1, mts, isFifo (tileKind (nx + 5 * f.bx) (ny + 4 * f.by')) e)
      | none =>
        match tileKind (nx + 5 * f.bx) (ny + 4 * f.by') with
        | .mt => imgTrace f l c fuel nx ny frm (steps + 1) (mts + 1)
        | .ct =>
          let leaves (d : Dir) : Option Dir :=
            match bits (imgField l nx ny 15 (16 + d.num)) (2 * c) 2 with
            | 1 => some d.opp
            | 2 => some d.opp.left
            | 3 => some d.opp.right
            | _ => none
          match [Dir.n, .e, .s, .w].find? fun d => decide (leaves d = some frm.opp) with
          | some d => imgTrace f l c fuel nx ny d (steps + 1) mts
          | none => none
        | .ag | .xt | .ladder | .none => none

/-- Hop count and worst-case latency of the route that ends at an input. -/
def imgRoute (f : Frame) (l : List CfgItem) (x y e i : Nat) : Nat × Nat :=
  let v := imgField l x y e (3 + i)
  let fifo (k : TileKind) (el : Nat) : Nat := if isFifo k el then 2 else 0
  let here := fifo (tileKind (x + 5 * f.bx) (y + 4 * f.by')) e
  match bits v 8 2 with
  | 1 => (0, 1 + 2 * here)
  | 2 =>
    match imgTrace f l (bits v 4 2) 64 x y (dirOf (bits v 6 2)) 0 0 with
    | some (n, m, q) => (n, 3 * n + 4 + 2 * m + here + 2 * b2n q)
    | none => (0, 0)
  | 3 =>
    let src := l.find? fun c => c.isWrite && (c.f == 7 || c.f == 8) && bits c.value 8 2 == 3 && bits c.value 15 5 == x
      && bits c.value 10 5 == y && bits c.value 4 4 == e && bits c.value 2 2 == i
    match src with
    | some c =>
      let n := (if x ≤ c.x then c.x - x else x - c.x) + (if y ≤ c.y then c.y - y else y - c.y)
      (n, 6 + 34 * n + here + fifo (tileKind (c.x + 5 * f.bx) (c.y + 4 * f.by')) c.e)
    | none => (0, 0)
  | _ => (0, 0)

/-- An entry of the hazard table, with its site moved to its physical place. -/
structure Hazard where
  x : Nat
  y : Nat
  e : Nat
  i : Nat
  group : Nat
  deriving DecidableEq, Repr

def Frame.hazard (f : Frame) (w : Word) : Hazard :=
  let v := w.toNat
  let p := f.site (bits v 16 5) (bits v 21 5)
  { x := p.1, y := p.2, e := bits v 26 4, i := bits v 30 2, group := bits v 32 8 }

/-- Re-encodes field 12 of every listed input; none where a hop count or a delay passes 31. -/
def Frame.hazards (f : Frame) (table : List Word) (l : List CfgItem) : Option (List CfgItem) :=
  let hs := table.map f.hazard
  let code (h : Hazard) : Nat × Nat :=
    let r := imgRoute f l h.x h.y h.e h.i
    let top := hs.foldl (fun n k => if k.x = h.x ∧ k.y = h.y ∧ k.e = h.e ∧ k.group = h.group then
      max n (imgRoute f l k.x k.y k.e k.i).2 else n) 0
    (r.1, if h.group = 0 then 0 else top - r.2)
  if hs.any fun h => decide (31 < (code h).1) || decide (31 < (code h).2) then none
  else some (l.map fun c =>
    if c.isWrite && c.f == 12 then
      c.rewrite c.x c.y 12 ((hs.filter fun h => h.x == c.x && h.y == c.y && h.e == c.e).foldl
        (fun v h => v - bits v (10 * h.i) 10 * 2 ^ (10 * h.i) + ((code h).1 * 32 + (code h).2) * 2 ^ (10 * h.i)) c.value)
    else c)

/-- The whole rewriting of an image for a placement, or its refusal code (R359). -/
def Frame.rewriteImage (f : Frame) (p : Placement) (ws : List Nat) : Except Nat (List Nat) :=
  let l := f.relocate (p.relocs.filter fun r => decide (r.1 < ws.length)) (cfgItems ws)
  match f.hazards p.hazards (f.items (fun _ _ _ => 0) l) with
  | some l' => .ok (itemsWords l')
  | none => .error 15

/-- What cfg.ld streams: the transform and relocations of the region's placement, with every field 12 as written (R359). -/
def Frame.rewriteLoaded (f : Frame) (held : Nat → Nat → Nat → Nat) (relocs : List (Nat × Nat)) (ws : List Nat) : List Nat :=
  itemsWords (f.items held (f.relocate (relocs.filter fun r => decide (r.1 < ws.length)) (cfgItems ws)))

end Sys2Proof.Machine
end

