-- ==== Sys2Proof/Machine/ConfigNet.lean ====
section
/-!
DEFINITION. The configuration network: commands (R145 to R149), commit (R25, R26), and cfg.ld and cfg.cmt (R214, R215).
-/
namespace Sys2Proof.Machine

/-! ### Fields and opcodes (R83, R151, R157) -/

/-- Width of a field; 0 for the reserved ones (R151). -/
def fieldWidth (f : Nat) : Nat :=
  if f ≤ 2 then 10
  else if f ≤ 8 then 20
  else if f = 9 then 12
  else if f = 10 ∨ f = 11 then 10
  else if f = 12 then 40
  else if f = 13 ∨ f = 14 then 10
  else if 16 ≤ f ∧ f ≤ 31 then 64
  else 0

/-- Elements that may hold an opcode (R157). -/
def opcodeHeld (k : TileKind) (e op : Nat) : Bool :=
  op == 0 ||
  (match k with
   | .ct =>
     (op == 0x001 && e == 15) || (op == 0x002 && e == 14) || (op == 0x003 && (e == 10 || e == 11))
       || (decide (e < 8) && ((decide (0x040 ≤ op) && decide (op ≤ 0x04B)) || (decide (0x080 ≤ op) && decide (op ≤ 0x085))
          || (decide (0x0C0 ≤ op) && decide (op ≤ 0x0C5)) || (decide (0x100 ≤ op) && decide (op ≤ 0x107))
          || (decide (0x140 ≤ op) && decide (op ≤ 0x149)) || (decide (0x180 ≤ op) && decide (op ≤ 0x188))
          || op == 0x28A || op == 0x2C0 || op == 0x2C1 || op == 0x2C3))
       || (op == 0x1C0 && decide (e < 4)) || (op == 0x1C1 && decide (1 ≤ e) && decide (e < 8))
       || (decide (0x200 ≤ op) && decide (op ≤ 0x203) && e == 9)
       || ((op == 0x240 || op == 0x241 || op == 0x2C2) && e == 8) || (op == 0x242 && e == 14)
       || (((decide (0x280 ≤ op) && decide (op ≤ 0x28A)) || op == 0x2C0) && (e == 12 || e == 13))
   | .ag => (decide (0x200 ≤ op) && decide (op ≤ 0x203) && decide (4 ≤ e) && decide (e < 8)) || (op == 0x204 && decide (e < 4))
   | .xt => op == 0x300 && e == 0
   | .mt | .ladder | .none => false)

/-- Default codebook entry: magnitude j is the low nibble of the index rotated right by j (R83). -/
def defaultEntry (b : Nat) : Nat :=
  (List.range 8).foldl (fun n j => n + (b / 2 ^ j + b * 2 ^ (8 - j)) % 16 * 2 ^ (4 * j)) 0

/-- Default of field 16 + j of page k: entries 32k + 2j and 32k + 2j + 1. -/
def defaultPage (k f : Nat) : Nat :=
  if 16 ≤ f ∧ f ≤ 31 then
    defaultEntry (32 * k + 2 * (f - 16)) + defaultEntry (32 * k + 2 * (f - 16) + 1) * 2 ^ 32
  else 0

/-- A table page tb0 to tb7 of a converter tile. -/
def isPage (a : ElemAt) : Bool := decide (tileKind a.x a.y = .xt) && decide (8 ≤ a.e)

/-- The default value of a field of an element; a field is kept as its difference from it (R83, R151). -/
def defaultField (a : ElemAt) (f : Nat) : Nat := if isPage a then defaultPage (a.e - 8) f else 0

def State.cfgField (s : State) (a : ElemAt) (f : Nat) : Nat := (s.elem a).field f ^^^ defaultField a f
def State.setCfgField (s : State) (a : ElemAt) (f v : Nat) : State :=
  s.setElem a ((s.elem a).setField f (v ^^^ defaultField a f))

/-- Entry `b` of the table of the converter tile of `a` (R83). -/
def State.tableEntry (s : State) (a : ElemAt) (b : Nat) : Nat :=
  bits (s.cfgField { a with e := 8 + b / 32 } (16 + b % 32 / 2)) (32 * (b % 2)) 32

/-! ### State of elements at begin, commit and task start (R26, R39, R259) -/

/-- Initial tokens of a delay node (R259). -/
def Elem.initial (e : Elem) : List Token :=
  if e.opcode = 0x003 then
    List.replicate (bits (e.const 0) 0 4) { hdr := { lanes := 3 }, pay := BitVec.ofNat 512 (e.const 1) }
  else []

/-- Site of the tile whose output link a crossing stage belongs to. -/
def stageSite (k : Nat) : Nat × Nat := (k / 16 / 32 % 32, k / 16 % 32)

/-- The edge of an input comes from outside the region (R25, R343). -/
def State.foreign (s : State) (r : Fin 16) (a : ElemAt) (i : Fin 4) : Bool :=
  (s.edgeStages (a, i)).any fun k => !(s.region a.die r).owns (stageSite k).1 (stageSite k).2

/-- An element with its fields and every state at its reset value. Takebacks on their way to another region's tokens stay (R25); a stream
engine keeps its row numbers and its last work identifier, which a task's start sets (R196). -/
def State.blank (s : State) (r : Fin 16) (a : ElemAt) : Elem :=
  let e := s.elem a
  { fields := e.fields, se := { lastWid := e.se.lastWid, issued := e.se.issued }
    tbWire := Vector.ofFn fun i => if s.foreign r a i then getF e.tbWire i else [] }

def State.mapRegion (s : State) (d : Fin 4) (r : Fin 16) (f : ElemAt → Elem → Elem) : State :=
  (s.regionElems d r).foldl (fun s a => s.setElem a (f a (s.elem a))) s

/-- Every element of a region returns to its reset state, with the fields that `f` leaves of its own. -/
def State.blankRegion (s : State) (d : Fin 4) (r : Fin 16) (f : Elem → Elem) : State :=
  ((s.regionElems d r).map fun a => (a, f (s.blank r a))).foldl (fun s x => s.setElem x.1 x.2) s

/-- The crossing stages and packets of a region's tiles are empty: tokens that its neighbours have sent to it stand in theirs
(R25, log 128). -/
def State.clearEdges (s : State) (d : Fin 4) (r : Fin 16) : State :=
  let g := s.region d r
  let s1 : State := { s with
    stages := s.stages.filter fun e => !(decide (e.1 / 16 / 1024 = d.val) && g.owns (stageSite e.1).1 (stageSite e.1).2) }
  s1.setPackets d ((s1.packetsOf d).filter fun k => !g.owns k.sender.x k.sender.y)

/-- Sites of tiles listed for a region. -/
def State.regionTiles (s : State) (d : Fin 4) (r : Fin 16) : List (Nat × Nat) :=
  (s.tiles.map fun t => (t.1 / 32 % 32, t.1 % 32, t.1 / 1024)).filterMap fun t =>
    if t.2.2 = d.val ∧ (s.region d r).owns t.1 t.2.1 then some (t.1, t.2.1) else none

def State.mapTiles (s : State) (d : Fin 4) (r : Fin 16) (f : Tile → Tile) : State :=
  (s.regionTiles d r).foldl (fun s t => s.setTile d t.1 t.2 (f (s.tile d t.1 t.2))) s

/-- Trap records clear at commit (R333). -/
def Tile.untrapped (t : Tile) : Tile := { t with trap := Vector.replicate 4 0, refused := false }

/-- Control elements of the MTs of a region with their field 16. -/
def State.mtControls (s : State) (d : Fin 4) (r : Fin 16) : List (Nat × Nat) :=
  let g := s.region d r
  (List.range (5 * g.w + 2)).flatMap fun x => (List.range (4 * g.h + 2)).filterMap fun y =>
    let ax := g.absX x
    let ay := g.absY y
    if tileKind ax ay = .mt ∧ g.owns ax ay then
      some (tkey d ax ay, (s.elem { die := d, x := ax, y := ay, e := 15 }).const 0)
    else none

/-! ### Commands -/

def State.cursor (s : State) (d : Fin 4) : Cursor := (s.die d).cursor
def State.setCursor (s : State) (d : Fin 4) (c : Cursor) : State := s.setDie d { s.die d with cursor := c }

/-- The command is bad: its index is kept if it is the first (R148). -/
def State.cfgBad (s : State) (d : Fin 4) : State :=
  let c := s.cursor d
  s.setCursor d { c with bad := some (c.bad.getD c.index), last := none, index := c.index + 1 }

/-- The next command of the stream. -/
def State.cfgNext (s : State) (d : Fin 4) (last : Option (ElemAt × Nat × Nat)) : State :=
  let c := s.cursor d
  s.setCursor d { c with last, just := none, index := c.index + 1 }

/-- A write names an element and field that the region has (R146, R149 to R151, R157). -/
def State.cfgTarget (s : State) (d : Fin 4) (r : Fin 16) (x y e f v : Nat) : Option ElemAt :=
  let g := s.region d r
  let ax := g.absX x
  let ay := g.absY y
  let a : ElemAt := { die := d, x := ax, y := ay, e }
  let k := tileKind ax ay
  if decide (x ≤ 5 * g.w + 1) && decide (y ≤ 4 * g.h + 1) && g.owns ax ay && elemAssigned k e && decide (0 < fieldWidth f)
      && (f != 0 || opcodeHeld k e v)
      && (!(decide (k = .mt) && e == 15) || (s.cursor d).quiesced.contains (x, y) || decide ((s.cursor d).just = some (x, y))) then some a
  else none

/-- An MT's control element has been written directly behind its bank-quiesce, so that its further fields may be too (R124). -/
def State.cfgQuiesced (s : State) (d : Fin 4) (x y e : Nat) : State :=
  let c := s.cursor d
  if c.just = some (x, y) ∧ e = 15 then s.setCursor d { c with quiesced := c.quiesced ++ [(x, y)] } else s

/-- A write (R146). An element that a partial stream names starts from its reset state (R26). -/
def State.cfgWrite (s : State) (d : Fin 4) (x y e f v : Nat) : State :=
  let c := s.cursor d
  match c.region, c.began, c.bad with
  | some r, true, none =>
    match s.cfgTarget d r x y e f v with
    | none => s.cfgBad d
    | some a =>
      let el := s.elem a
      let el' : Elem := if el.fresh then el else { s.blank r a with fresh := true }
      ((((s.setElem a el').setCfgField a f v).cfgQuiesced d x y e)).cfgNext d (some (a, f, 10))
  | _, _, _ => s.cfgBad d

/-- An extend: the next 30 bits of the field of the write before it (R146). -/
def State.cfgExtend (s : State) (d : Fin 4) (v : Nat) : State :=
  let c := s.cursor d
  match c.last, c.bad with
  | some (a, f, n), none =>
    if n < fieldWidth f ∧ v < 2 ^ (fieldWidth f - n) then
      (s.setCfgField a f (s.cfgField a f + v * 2 ^ n)).cfgNext d (some (a, f, n + 30))
    else s.cfgBad d
  | _, _ => s.cfgBad d

/-- A region and the number of each of its MTs. -/
def State.mtsOf (s : State) (d : Fin 4) (r : Fin 16) : List Nat := (s.mtControls d r).map (·.1)

/-- The device's own bank-quiesce of every MT of a region (R343 step 3): the stores queued there perform. -/
def State.quiesceAll (s : State) (d : Fin 4) (r : Fin 16) : State :=
  (s.mtsOf d r).foldl (fun s m => s.quiesceMt m (s.regionElems d r)) s

/-- A begin closes the gates, and every store queued at an MT performs under the old roles (R147, R343); a full one returns every field to
its default and every element to its reset state. -/
def State.cfgBegin (s : State) (d : Fin 4) (part : Bool) (w h : Nat) : State :=
  let c := s.cursor d
  match c.region, c.began, c.bad with
  | some r, false, none =>
    let g := s.region d r
    if g.w = w ∧ g.h = h then
      let s0 := (s.quiesceAll d r).writeBack d r
      let s1 := s0.setRegion d r { s0.region d r with
        committed := false, loadPart := part, oldMc := s0.mtControls d r, image := none
        sent := some (if g.resent = 0 then s.time else g.sent.getD s.time) }
      let s2 := if part then s1.mapRegion d r fun _ e => { e with fresh := false }
        else ((s1.blankRegion d r fun e => { e with fields := [] }).clearEdges d r).mapTiles d r fun _ => {}
      (s2.setCursor d { s2.cursor d with began := true, quiesced := [] }).cfgNext d none
    else s.cfgBad d
  | _, _, _ => s.cfgBad d

/-- A bank-quiesce performs the stores queued at one MT, or at all of the region (R147). It lets the command behind it write that MT's
control element; the device's own one of every MT (R343) lets each one be written. -/
def State.cfgQuiesce (s : State) (d : Fin 4) (x y : Nat) (all own : Bool) : State :=
  let c := s.cursor d
  match c.region, c.began, c.bad with
  | some r, true, none =>
    let g := s.region d r
    let mts : List (Nat × Nat) := (List.range (5 * g.w + 2)).flatMap fun i => (List.range (4 * g.h + 2)).filterMap fun j =>
      if tileKind (g.absX i) (g.absY j) = .mt ∧ g.owns (g.absX i) (g.absY j) then some (i, j) else none
    let named := if all then mts else mts.filter fun m => m == (x, y)
    if (all && (x != 0 || y != 0)) || (!all && named.isEmpty) then s.cfgBad d
    else
      let s1 := named.foldl (fun s m => s.quiesceMt (tkey d (g.absX m.1) (g.absY m.2)) (s.regionElems d r)) s
      let s2 := s1.cfgNext d none
      if all then (if own then s2.setCursor d { s2.cursor d with quiesced := (s2.cursor d).quiesced ++ named } else s2)
      else s2.setCursor d { s2.cursor d with just := some (x, y) }
  | _, _, _ => s.cfgBad d

/-- The loader translates the range of an element that is configured for mem.ld or mem.st (R354). -/
def State.patchElement (s : State) (a : ElemAt) : State :=
  let e := s.elem a
  if (e.opcode = 0x200 ∨ e.opcode = 0x201) ∧ isSq a = false ∧ 0 < e.const 1 then
    (s.freeExtents a).patchRange a (s.taskAsid a) (e.opcode == 0x201) true (e.const 0)
      (e.const 0 + (e.const 1 * fmtWidth e.mFmt + 7) / 8 - 1)
  else s

/-- The commit's effect on a region: gates open, trap records clear, new elements take their initial tokens, merges start from the
task's first work identifier (R265), MTs whose role or interleave changed lose their contents, and the extents of the memory elements are
patched (R25, R26, R259, R333, R343, R354). -/
def State.commitRegion (s : State) (d : Fin 4) (r : Fin 16) : State :=
  let g := s.region d r
  let changed := (s.mtControls d r).filter fun m => lookupD 0 m.1 g.oldMc != m.2
  let s1 := changed.foldl (fun s m => s.loseMt m.1) s
  let n : BitVec 16 := match g.task.bind s.task? with
    | some t => BitVec.ofNat 16 t.first
    | none => 0
  let s2 := s1.mapRegion d r fun _ e => if e.fresh then { e with fresh := false, dly := e.initial, mergeNext := n } else e
  let s3 := (s2.regionElems d r).foldl State.patchElement (s2.mapTiles d r Tile.untrapped)
  s3.setRegion d r { s3.region d r with committed := true, oldMc := [], sent := none, resent := 0 }

/-- The table pages of a region's converter tiles. -/
def State.pages (s : State) (d : Fin 4) (r : Fin 16) : List ElemAt :=
  let g := s.region d r
  (List.range (5 * g.w + 2)).flatMap fun x => (List.range (4 * g.h + 2)).flatMap fun y =>
    if tileKind (g.absX x) (g.absY y) = .xt ∧ g.owns (g.absX x) (g.absY y) then
      (List.range 8).map fun e => { die := d, x := g.absX x, y := g.absY y, e := 8 + e }
    else []

/-- A malformed stream leaves every element of the region at field value 0, its codebook pages too, with the gates closed (R148; the next
full begin brings their default back, R83: log 112). What a stream without a begin finds queued at the MTs goes with it (log 128). -/
def State.cfgAbort (s : State) (d : Fin 4) (r : Fin 16) : State :=
  let s1 := s.blankRegion d r fun e => { e with fields := [] }
  let s2 := (s1.pages d r).foldl (fun s a => (List.range 16).foldl (fun s j => s.setCfgField a (16 + j) 0) s) s1
  s2.setRegion d r { s2.region d r with committed := false, image := none, sent := none, resent := 0 }

/-- A commit ends the stream (R147, R148). -/
def State.cfgCommit (s : State) (d : Fin 4) : State :=
  let c := s.cursor d
  match c.region with
  | none => s.setCursor d {}
  | some r =>
    let s1 := match c.bad, c.began with
      | none, true => s.commitRegion d r
      | _, _ => s.cfgAbort d r
    s1.setCursor d {}

/-- A select-region by the load path (R147). -/
def State.cfgSelect (s : State) (d : Fin 4) (r : Fin 16) : State :=
  s.setCursor d { region := if (s.region d r).present then some r else none }

def execConfigWrite (x y : Fin 32) (e : Fin 16) (f : Fin 64) (v : BitVec 10) (s : State) : Out :=
  .next (s.onDie s.focus.die <| s.cfgWrite s.focus.die x.val y.val e.val f.val v.toNat)
def execConfigExtend (v : BitVec 30) (s : State) : Out := .next (s.onDie s.focus.die <| s.cfgExtend s.focus.die v.toNat)
def execBeginCmd (part : Bool) (w h : Fin 8) (s : State) : Out := .next (s.onDie s.focus.die <| s.cfgBegin s.focus.die part w.val h.val)
def execCommit (s : State) : Out := .next (s.onDie s.focus.die <| s.cfgCommit s.focus.die)
def execSelectRegion (r : Fin 16) (s : State) : Out := .next (s.onDie s.focus.die <| s.cfgSelect s.focus.die r)
def execBankQuiesce (x y : Fin 32) (all : Bool) (s : State) : Out := .next (s.onDie s.focus.die <| s.cfgQuiesce s.focus.die x.val y.val all true)

/-! ### A stream of command words -/

/-- One command word of an image. A select-region or a word of no command is malformed there (R147). -/
def State.cfgWord (s : State) (d : Fin 4) (w : Nat) : State :=
  match decodeConfigNat w with
  | .ok (.configWrite x y e f v) => s.cfgWrite d x.val y.val e.val f.val v.toNat
  | .ok (.configExtend v) => s.cfgExtend d v.toNat
  | .ok (.beginCmd p w h) => s.cfgBegin d p w.val h.val
  | .ok (.bankQuiesce x y all) => s.cfgQuiesce d x.val y.val all false
  | .ok _ | .error _ => s.cfgBad d

def State.cfgWords (s : State) (d : Fin 4) (ws : List Nat) : State := ws.foldl (fun s w => s.cfgWord d w) s

def isCommitWord (w : Nat) : Bool := w == 0x84000000

/-- Streams the commands of an image to a region, up to but without its commit; the index of the first bad command, if any
(R214). -/
def State.streamImage (s : State) (d : Fin 4) (r : Fin 16) (part : Option Bool) (ws : List Nat) : Option Nat × State :=
  let s1 := (s.cfgSelect d r).cfgWords d ws.dropLast
  let c := s1.cursor d
  let partBad := match part with
    | some p => bits (ws.headD 0) 25 1 != b2n p
    | none => false
  let lastBad := !(isCommitWord (ws.getLastD 0))
  let first := match c.bad with
    | some i => some i
    | none => if partBad then some 0 else if lastBad || !c.began then some (ws.length - 1) else none
  match first with
  | none => (none, s1.setCursor d {})
  | some i => (some (if partBad then 0 else i), (s1.cfgAbort d r).setCursor d {})

/-- The words of an image: two to a dword. -/
def imageWords (l : List Word) (n : Nat) : List Nat := (l.flatMap fun d => [d.toNat % 2 ^ 32, d.toNat / 2 ^ 32]).take n

/-! ### Relocations of kind 6 (R279, R358, R359) -/

/-- A granule as the loader reads it on a die through an ASID; none where the access faults or the granule is marked (R361, R394). -/
def State.seen (s : State) (d : Fin 4) (asid : BitVec 13) (g : Nat) : Option Word :=
  match s.translate d asid (8 * g) false true with
  | .error _ => none
  | .ok pa => if s.marked.contains (pa / 8) then none else some ((s.rdcOf d (pa / 8)).getD (s.home (pa / 8)))

/-- Targets and parameters of kind 6 entries, three dwords each (R279). -/
def relocsOf : List Word → List (Nat × Nat)
  | a :: b :: _ :: t => (a.toNat, bits b.toNat 48 16) :: relocsOf t
  | _ => []

/-- Applies the entries whose target is a data address: one write of region scope into the data copy, of the coordinates as the object
has them (R359). The address where one faults. -/
def State.relocateData (s : State) (d : Fin 4) (r : Fin 16) (asid : BitVec 13) (f : Frame) : List (Nat × Nat) → Except Nat State
  | [] => .ok s
  | e :: t =>
    match s.seen d asid (e.1 / 8), s.translate d asid e.1 true true with
    | some v, .ok pa =>
      let own := match s.tileIds.find? fun x => x.1 == pa with
        | some x => if x.2.2 = v then x.2.1 else v
        | none => v
      let new : Word := BitVec.ofNat 64 (f.coords own.toNat (tileIdBit e.2))
      let s1 : State := { s with tileIds := (s.tileIds.filter fun x => x.1 != pa) ++ [(pa, own, new)] }
      (s1.writeGranule (.fabric d r) d (storeAt pa 8 new) (Config.boardPath s1.moves (pa / 8)) none).relocateData d r asid f t
    | _, _ => .error e.1

/-! ### cfg.ld and cfg.cmt -/

/-- The frame of a region's placement (R276). -/
def Region.frame (g : Region) : Frame :=
  { bx := g.bx, by' := g.by', w := g.w, h := g.h, portable := g.portable, reflect := g.reflect }

/-- Every stream engine of the region is idle and no queue of it holds a token (R214). -/
def State.regionQuiet (s : State) (d : Fin 4) (r : Fin 16) : Bool :=
  (s.regionElems d r).all fun a =>
    let e := s.elem a
    e.se.cur.isNone && e.se.items.isEmpty && e.se.outq.isEmpty && (List.finRange 4).all fun i => (getF e.inq i).isEmpty

def State.editCfg (s : State) (c : Fin 64) (f : CfgRun → CfgRun) : State :=
  let k := s.core c
  match k.cfg with
  | h :: t => s.setCore c { k with cfg := f h :: t }
  | [] => s

def endCfg (st : CmdStatus) (r : CfgRun) : CfgRun := { r with begun := true, faulted := false, ended := some st }

/-- An access of a core's oldest cfg.ld is withheld (R335). -/
def State.withholdConfig (s : State) (c : Fin 64) (asid : BitVec 13) (va : Nat) : State :=
  (s.editCfg c fun q => { q with withheld := true, faulted := true }).withheldAt (dieOf c) (s.ownRegion c) asid (BitVec.ofNat 64 va)
    (queueDetail c 8)

/-- The kind 6 entries of an image that stands ahead of a portable region's frame; the image of another placement has none to apply
(R358, R359). -/
def State.loadedRelocs (s : State) (k : Command) (f : Frame) : Except Nat (List (Nat × Nat) × State) :=
  if f.portable then
    match s.cmdDwords k.core k.asid k.user ((k.base - 40).toNat / 8) 2 with
    | .error g => .error g
    | .ok (h, s1) =>
      match s1.cmdDwords k.core k.asid k.user ((nth h 0).toNat / 8) (3 * (nth h 1).toNat) with
      | .error g => .error g
      | .ok (l, s2) => .ok (relocsOf l, s2)
  else .ok ([], s)

/-- Opcode that an element of a region holds, by the image's coordinates. -/
def State.heldOpcode (s : State) (d : Fin 4) (r : Fin 16) (x y e : Nat) : Nat :=
  let g := s.region d r
  let p := g.frame.site x y
  (s.elem { die := d, x := g.absX p.1, y := g.absY p.2, e }).opcode

/-- An image that has been read goes to the region and is staged, or ends malformed (R148, R214). -/
def State.stageImage (s : State) (c : Fin 64) (r : Fin 16) (k : Command) (relocs : List (Nat × Nat)) (ws : List Nat) : State :=
  let d := dieOf c
  let f := (s.region d r).frame
  match s.relocateData d r k.asid f (relocs.filter fun x => decide (ws.length ≤ x.1)) with
  | .error va => s.withholdConfig c k.asid va
  | .ok s1 =>
    let q := s1.streamImage d r (some k.part) (f.rewriteLoaded (s1.heldOpcode d r) relocs ws)
    match q.1 with
    | none => (q.2.setCore c { q.2.core c with staged := true }).editCfg c (endCfg { code := 0, info := ws.length })
    | some i =>
      (q.2.setCore c { q.2.core c with staged := false }).editCfg c (endCfg { code := 5, info := min i (ws.length - 1) })

/-- The oldest cfg.ld of a core loads its image and stages it (R214). -/
def State.beginConfig (s : State) (c : Fin 64) : State :=
  match (s.core c).cfg with
  | [] => s
  | run :: _ =>
    if run.begun || run.withheld then s
    else
      let k := run.cmd
      let n := k.count.toNat
      match s.ownRegion c with
      | none => s.editCfg c (endCfg { code := 8, openInfo := true })
      | some r =>
        if n < 2 ∨ 2 ^ 24 < n then s.editCfg c (endCfg { code := 4, openInfo := true })
        else if s.regionQuiet (dieOf c) r then
          match s.cmdDwords c k.asid k.user (k.base.toNat / 8) ((n + 1) / 2) with
          | .error g => s.withholdConfig c k.asid (8 * g)
          | .ok (l, s1) =>
            match s1.loadedRelocs k (s1.region (dieOf c) r).frame with
            | .error g => s1.withholdConfig c k.asid (8 * g)
            | .ok (rel, s2) => s2.stageImage c r k rel (imageWords l n)
        else s

/-- Address of a cfg.ld's status dword: 8 bytes ahead of its image, below 0 for an image at address 0 (R214). -/
def Command.cfgStatusAt (k : Command) : Nat := (k.base - 8).toNat

/-- A cfg.ld completes: its status dword stands 8 bytes before the image (R214). -/
def State.completeConfig (s : State) (c : Fin 64) : State :=
  match (s.core c).cfg with
  | [] => s
  | run :: rest =>
    match run.ended with
    | none => s
    | some st =>
      if run.withheld then s
      else
        let k := run.cmd
        let settle (s1 : State) : State :=
          if s1.unlandedParty (.config c) then s1
          else (s1.setCore c { s1.core c with cfg := rest }).freeTag c k.tag
        if st.written then settle s
        else
          match s.writeStatus (.config c) c k.asid k.user k.cfgStatusAt st with
          | none => s.withholdConfig c k.asid k.cfgStatusAt
          | some s1 => settle (s1.editCfg c fun q => { q with faulted := false, ended := some { st with written := true } })

/-- A cfg.ld of the core has not yet ended. -/
def CoreState.loading (k : CoreState) : Bool :=
  (k.cfg.any fun r => r.ended.isNone) || (k.order.any fun i => match i with
    | .cmd c => c.op == .cfgLd
    | .store _ | .sbar .. | .qfence .. | .shape .. => false)

/-- cfg.cmt commits the staged image; it waits for a load in progress (R215). -/
def execCfgCmt (s : State) : Out :=
  .next (
    if s.me.loading then s
    else if s.me.staged then
      match s.ownRegion s.cur with
      | none => (s.setMe { s.me with staged := false }).advance
      | some r =>
        let s1 := s.commitRegion (dieOf s.cur) r
        (s1.setMe { s1.me with staged := false }).advance
    else s.advance)

end Sys2Proof.Machine
end

