-- ==== Sys2Proof/Machine/Queues.lean ====
section
/-!
DEFINITION. Engine queues: copies (R201, R202) and collectives (R203 to R205, R384).
-/
namespace Sys2Proof.Machine

/-! ### Copies -/

def inWindow (a : Nat) : Bool := decide (0x00FF_FFFF_FFFF_0000 ≤ a) && decide (a ≤ 0x00FF_FFFF_FFFF_FFFF)
/-- Bits 63:56 are set, or the address lies in the private window (R202). -/
def badAddr (a : Nat) : Bool := decide (2 ^ 56 ≤ a) || inWindow a

/-- Source and destination byte address of row `i`. -/
def CopyRun.srcRow (r : CopyRun) (i : Nat) : Nat := addrOf (Int.ofNat r.src + Int.ofNat i * r.srcPitch)
def CopyRun.dstRow (r : CopyRun) (i : Nat) : Nat := addrOf (Int.ofNat r.dst + Int.ofNat i * r.dstPitch)

/-- Granules of `n` bytes at an address: first, and count. -/
def spanOf (a n : Nat) : Nat × Nat := (a / 8, if n = 0 then 0 else (a + n - 1) / 8 - a / 8 + 1)
def inSpan (s : Nat × Nat) (g : Nat) : Bool := decide (s.1 ≤ g) && decide (g < s.1 + s.2)

/-- Granules that a span covers. -/
def spanGranules (s : Nat × Nat) : List Nat := (List.range s.2).map (s.1 + ·)

/-- Destination granules of the whole copy, each once (R202). -/
def CopyRun.granules (r : CopyRun) : List Nat :=
  ((List.range r.rows).flatMap fun i => spanGranules (spanOf (r.dstRow i) r.rowBytes)).eraseDups

/-- Row and source address of the byte that the copy puts at a destination address; where rows overlap, the last one's stands
(log 126). -/
def CopyRun.byteFor (r : CopyRun) (a : Nat) : Option (Nat × Nat) :=
  ((List.range r.rows).reverse.find? fun i => decide (r.dstRow i ≤ a) && decide (a < r.dstRow i + r.rowBytes)).map fun i =>
    (i, r.srcRow i + (a - r.dstRow i))

/-- Bytes of destination granule `g` that the copy covers, each with its row and source byte address. -/
def CopyRun.bytesOf (r : CopyRun) (g : Nat) : List (Nat × Nat × Nat) :=
  (List.range 8).filterMap fun k => (r.byteFor (8 * g + k)).map fun x => (k, x)

/-- The run of a copy that begins, or its end status (R202); log 102 gives the order of the checks. -/
def copyStart (k : Command) (l : List Word) : Except CmdStatus CopyRun :=
  let n := k.count.toNat
  let two := k.op == .cpy2d
  let dw (i : Nat) : Nat := (nth l i).toNat
  let rowBytes := if two then dw 3 else n
  if (if two then 2 ^ 32 else 2 ^ 40) < n then .error { code := 4, openInfo := true }
  else if badAddr (dw 0) then .error { code := 3, info := 0 }
  else if badAddr (dw 1) then .error { code := 3, info := 8 }
  else if two && decide (2 ^ 32 < dw 3) then .error { code := 3, info := 24 }
  else if n = 0 ∨ rowBytes = 0 then .error { code := 0, info := 0 }
  else .ok { src := dw 0, dst := dw 1, rowBytes, rows := if two then n else 1
             srcPitch := if two then (nth l 4).toInt else 0, dstPitch := if two then (nth l 5).toInt else 0 }

/-! ### Collectives -/

/-- Byte `i` of memory at a physical address, from home copies. -/
def State.homeNat (s : State) (a n : Nat) : Nat := (List.range n).foldl (fun v i => v + (s.byte (a + i)).toNat * 2 ^ (8 * i)) 0

/-- Physical address of a group's entry (R384). -/
def State.groupAt (s : State) (g : Nat) : Nat := bits s.host.grpBase.toNat 20 32 * 2 ^ 20 + 1024 * g
/-- Ranks of a group: an entry whose count is not from 2 to 256 lists none (R384, log 146). -/
def State.groupSize (s : State) (g : Nat) : Nat :=
  let n := s.homeNat (s.groupAt g) 2
  if 2 ≤ n ∧ n ≤ 256 then n else 0
/-- Rank `r` of a group: its module and its core there. -/
def State.groupRank (s : State) (g r : Nat) : Nat × Fin 64 :=
  let v := s.homeNat (s.groupAt g + 8 + 2 * r) 2
  (bits v 6 6, ⟨bits v 0 4 + 16 * bits v 4 2, by unfold bits; omega⟩)

def State.moduleNo (s : State) : Nat := bits s.host.domid.toNat 0 6

/-- Rank of a core of this module in a group. -/
def State.rankOf (s : State) (g : Nat) (c : Fin 64) : Option Nat :=
  (List.range (s.groupSize g)).find? fun r => decide (s.groupRank g r = (s.moduleNo, c))

def collKind (op : CmdOp) : Nat :=
  match op with
  | .collAr => 0
  | .collAg => 1
  | .collRs => 2
  | .collBc => 3
  | _ => 4

def modeNo (m : CollMode) : Nat :=
  match m with
  | .fast => 0
  | .canonical => 1
  | .exact => 2

def ctlFmt (c : Word) : Nat := bits c.toNat 20 4
def ctlOp (c : Word) : Nat := bits c.toNat 32 4
def ctlRoot (c : Word) : Nat := bits c.toNat 24 8

/-- Elements of a rank's source and destination (R204). -/
def srcCount (op : CmdOp) (c n : Nat) (root : Bool) : Nat :=
  match op with
  | .collRs | .collA2a => n * c
  | .collBc => if root then c else 0
  | _ => c
def dstCount (op : CmdOp) (c n : Nat) : Nat :=
  match op with
  | .collAg | .collA2a => n * c
  | _ => c

/-- The control dword is bad (R203, R204). -/
def badControl (op : CmdOp) (ctl : Word) : Bool :=
  let f := ctlFmt ctl
  bits ctl.toNat 36 28 != 0 || bits ctl.toNat 16 4 != 0 || decide (2 < ctlOp ctl) || (op != .collBc && ctlRoot ctl != 0)
    || !(f == 0 || f == 1 || f == 2 || f == 8 || f == 9)

def overlap (a n b m : Nat) : Bool := decide (a < b + m) && decide (b < a + n)

/-- The run of a collective that begins, or its end status (R203, R204); the order of the checks is the model's (DESIGN CHOICE, log 153). -/
def State.collStart (s : State) (k : Command) (l : List Word) : Except CmdStatus CollRun :=
  let ctl := nth l 3
  let g := bits ctl.toNat 0 16
  let n := s.groupSize g
  let c := k.count.toNat
  let w := fmtWidth (ctlFmt ctl) / 8
  let src := (nth l 0).toNat
  let dst := (nth l 1).toNat
  if badControl k.op ctl then .error { code := 3, info := 24 }
  else if (k.op == .collAg || k.op == .collBc || k.op == .collA2a) && k.mode != .fast then
    .error { code := 3, openInfo := true }
  else if c = 0 ∨ 2 ^ 32 < c then .error { code := 4, openInfo := true }
  else
    match s.rankOf g k.core with
    | none => .error { code := 7, openInfo := true }
    | some r =>
      if !(k.op == .collAr || k.op == .collBc) && overlap src (srcCount k.op c n true * w) dst (dstCount k.op c n * w) then
        .error { code := 3, openInfo := true }
      else
        .ok { src, dst, control := ctl, count := c, group := g, rank := r, ranks := n }

/-- The digest that the ranks of this module exchange beside their parameters (R384). -/
def State.groupDigest (s : State) (g : Nat) : Nat := (Config.groupDigest (s.homeNat (s.groupAt g) 1024)).toNat

/-- What the ranks exchange before data moves, but for the digest, as one number of less than 54 bits (R205). -/
def collParams (k : Command) (r : CollRun) : Nat :=
  collKind k.op + 8 * modeNo k.mode + 32 * ctlOp r.control + 512 * ctlFmt r.control + 2 ^ 13 * ctlRoot r.control
    + 2 ^ 21 * r.count

/-- The collective at the head of a queue. -/
def headColl (l : List QItem) : Option (Command × CollRun) :=
  match l with
  | .cmd k (.coll r) _ _ :: _ => some (k, r)
  | _ => none

/-- The matched collective of a core on a group with an index, at the head of one of its queues. -/
def CoreState.collOf (k : CoreState) (group index : Nat) : Option (QReg × Command × CollRun) :=
  (List.finRange 8).findSome? fun q =>
    match headColl (getF k.queues q) with
    | some (c, r) => if r.matched && r.group == group && r.index == index then some (q, c, r) else none
    | none => none

/-- The same, or what it has left for the other ranks once it has completed (R205). -/
def State.collAt (s : State) (c : Fin 64) (group index : Nat) : Option (Command × CollRun) :=
  match (s.core c).collOf group index with
  | some (_, k, r) => some (k, r)
  | none =>
    match s.exchanged.find? fun x => decide (x.1 = c) && x.2.2.group == group && x.2.2.index == index with
    | some x => some x.2
    | none => none

def Command.isColl (k : Command) : Bool := match k.op with
  | .collAr | .collAg | .collRs | .collBc | .collA2a => true
  | .cpy | .cpy2d | .strmLd | .strmSt | .strmGth | .strmSct | .flm | .cfgLd => false

/-- A collective that the core issued before `seq` has yet to read its descriptor, so that its group is not known. -/
def CoreState.collPending (k : CoreState) (seq : Nat) : Bool :=
  (k.order.any fun i => match i with
    | .cmd c => c.isColl && decide (c.seq < seq)
    | .store _ | .sbar .. | .qfence .. | .shape .. => false)
  || k.queues.toList.any fun q => q.any fun i => match i with
    | .cmd c .waiting _ _ => c.isColl && decide (c.seq < seq)
    | .cmd _ (.copy _) _ _ | .cmd _ (.coll _) _ _ | .cmd _ .ended _ _ | .fence _ _ => false

/-- The next collective of a core on a group in the order of issue: unmatched, at the head of a queue (R205). -/
def CoreState.collNext (k : CoreState) (group : Nat) : Option (QReg × Command × CollRun) :=
  let heads := (List.finRange 8).filterMap fun q =>
    match headColl (getF k.queues q) with
    | some (c, r) => if r.group == group && !r.matched then some (q, c, r) else none
    | none => none
  match heads.find? fun x => heads.all fun y => decide (x.2.1.seq ≤ y.2.1.seq) with
  | some x => if k.collPending x.2.1.seq then none else some x
  | none => none

/-- Ranks of a group on this module. -/
def State.localRanks (s : State) (g : Nat) : List (Nat × Fin 64) :=
  (List.range (s.groupSize g)).filterMap fun r =>
    let x := s.groupRank g r
    if x.1 = s.moduleNo then some (r, x.2) else none

def State.editHead (s : State) (c : Fin 64) (q : QReg) (f : QItem → QItem) : State :=
  let k := s.core c
  match getF k.queues q with
  | h :: t => s.setCore c { k with queues := setF k.queues q (f h :: t) }
  | [] => s

def endItem (st : CmdStatus) : QItem → QItem
  | .cmd k _ _ w => .cmd k .ended st w
  | .fence id w => .fence id w

/-- The status of an entry has been written; its run stands until it leaves the queue. -/
def statusDone (st : CmdStatus) : QItem → QItem
  | .cmd k r _ w => .cmd k r { st with written := true, faulted := false } w
  | .fence id w => .fence id w

def matchItem (index use : Nat) (remote : List RemoteRank) : QItem → QItem
  | .cmd k (.coll r) st w => .cmd k (.coll { r with matched := true, index, use, remote }) st w
  | .cmd k r st w => .cmd k r st w
  | .fence id w => .fence id w

/-- One rank of a match: it is numbered on its group; its data may move, or it ends with code 6 (R205). One that has
ended with code 3, 4 or 7 has no number (DESIGN CHOICE, log 154). -/
def State.matchRank (s : State) (group : Nat) (same : Bool) (remote : List RemoteRank) (c : Fin 64) (q : QReg) : State :=
  let n := Map.get 0 group (s.core c).collCount
  let s1 := s.editHead c q (if same then matchItem n s.moves remote else endItem { code := 6, openInfo := true })
  s1.setCore c { s1.core c with collCount := Map.set group (n + 1) (s1.core c).collCount }

/-- COLLECTIVE_MATCH: every rank of a group has begun its next collective; equal parameters and digests of the group's entry let data move,
others end every rank with code 6 (R205, R384). What remote ranks bring is an operand, the digest from bit 54 on (log 19). -/
def execCollectiveMatch (group : Nat) (remote : List RemoteRank) (s : State) : Out :=
  .next (
    let ls := s.localRanks group
    let runs := ls.filterMap fun x => ((s.core x.2).collNext group).map fun y => (x.2, y)
    let others := (List.range (s.groupSize group)).filter fun r => !(ls.any fun x => x.1 == r)
    let given := others.all fun r => remote.any fun x => x.rank == r
    if !ls.isEmpty && decide (runs.length = ls.length) && given then
      let ps := runs.map fun x => collParams x.2.2.1 x.2.2.2
      let same := (ps.all fun p => p == ps.headD 0) &&
        (remote.filter fun x => others.contains x.rank).all fun x => x.params == ps.headD 0 + 2 ^ 54 * s.groupDigest group
      runs.foldl (fun s x => s.matchRank group same remote x.1 x.2.1) s
    else s)

/-! ### Values of a collective (R94, R204) -/

/-- Code of element `i` of the source of rank `t`: of a core of this module from the granules it has read, else from the operand. -/
def State.collElem (s : State) (r : CollRun) (t i : Nat) : Nat :=
  let w := fmtWidth (ctlFmt r.control)
  let x := s.groupRank r.group t
  if x.1 = s.moduleNo then
    match s.collAt x.2 r.group r.index with
    | some (_, o) => gatherBits w o.got (8 * o.src + i * w)
    | none => 0
  else
    match r.remote.find? fun y => y.rank == t with
    | some y => (List.range (w / 8)).foldl (fun v b => v + (y.data.getD (i * (w / 8) + b) 0).toNat * 2 ^ (8 * b)) 0
    | none => 0

/-- Ranks in the order in which the links deliver them to a rank, one order for each collective (R94). -/
def deliverOrder (use : Nat) (n : Nat) : List Nat :=
  (List.range n).mergeSort fun a b => decide (Config.linkOrder use a ≤ Config.linkOrder use b)

structure Reduced where
  code : Nat
  ovf : Bool := false
  flags : BitVec 5 := 0
  deriving DecidableEq, Repr

/-- Image of a code as W64, and back. -/
def collImage (f c : Nat) : Word := decodeImage f 0 true 127 c

/-- Reduction of the elements of all ranks, in rank order; the exact mode rounds once, into the format (R94, R204). -/
def reduceElems (f op : Nat) (mode : CollMode) (order : List Nat) (xs : List Nat) : Reduced :=
  if f = 8 then
    let v := xs.map (intOf true 32)
    let r : Int := match op, v with
      | 0, l => l.foldl (· + ·) 0
      | 1, x :: l => l.foldl min x
      | _, x :: l => l.foldl max x
      | _, [] => 0
    { code := (r % 2 ^ 32).toNat }
  else
    let ws := xs.map (collImage f)
    let finite (w : Word) : Bool := !nonFinite (valOf w) || ws.any fun x => nonFinite (valOf x)
    let enc (w : Word) (fl : BitVec 5) : Reduced :=
      let e := encodeImage f 0 false .rne false w
      { code := e.1, ovf := e.2 || !finite w, flags := fl }
    let fold (g : Word → Word → Word) (l : List Word) : Word :=
      match l with
      | [] => 0
      | x :: t => t.foldl g x
    match op, mode with
    | 0, .exact =>
      let a := ws.foldl Acc.add ({} : Acc)
      match floatFmt f with
      | some x => let e := x.encode a.val .rne false; { code := e.1, ovf := e.2, flags := a.f }
      | none => { code := (a.read .rne).toNat, ovf := !finite (a.read .rne), flags := a.f }
    | 0, .canonical => enc (fold (wAddOp .rne) ws) 0
    | 0, .fast => enc (fold (wAddOp .rne) (order.map fun i => nth ws i)) 0
    | 1, _ => enc (fold wMinOp ws) 0
    | _, _ => enc (fold wMaxOp ws) 0

/-- Ranks and elements that element `i` of a rank's destination comes from (R204); a coll.bc whose root is no rank has none. -/
def CollRun.sourcesOf (r : CollRun) (k : Command) (i : Nat) : List (Nat × Nat) :=
  match k.op with
  | .collAr => (List.range r.ranks).map fun t => (t, i)
  | .collRs => (List.range r.ranks).map fun t => (t, r.rank * r.count + i)
  | .collAg => [(i / r.count, i % r.count)]
  | .collBc => if ctlRoot r.control < r.ranks then [(ctlRoot r.control, i)] else []
  | _ => [(i / r.count, r.rank * r.count + i % r.count)]

/-- Element `i` of the destination of a rank (R204). What a root that is no rank sends is open: the value is free (log 22). -/
def State.collResult (s : State) (k : Command) (r : CollRun) (i : Nat) : Reduced :=
  let red (j : Nat) : Reduced :=
    reduceElems (ctlFmt r.control) (ctlOp r.control) k.mode (deliverOrder (256 * r.use + r.rank) r.ranks)
      ((List.range r.ranks).map fun t => s.collElem r t j)
  match k.op with
  | .collAr => red i
  | .collRs => red (r.rank * r.count + i)
  | .collAg => { code := s.collElem r (i / r.count) (i % r.count) }
  | .collBc =>
    { code := if ctlRoot r.control < r.ranks then s.collElem r (ctlRoot r.control) i
        else (Config.freeWord (s.free + i)).toNat % 2 ^ fmtWidth (ctlFmt r.control) }
  | _ => { code := s.collElem r (i / r.count) (r.rank * r.count + i % r.count) }

/-- Source granules of a collective at its rank. -/
def CollRun.srcSpan (r : CollRun) (k : Command) : Nat × Nat :=
  spanOf r.src (srcCount k.op r.count r.ranks (r.rank == ctlRoot r.control) * (fmtWidth (ctlFmt r.control) / 8))
def CollRun.dstSpan (r : CollRun) (k : Command) : Nat × Nat :=
  spanOf r.dst (dstCount k.op r.count r.ranks * (fmtWidth (ctlFmt r.control) / 8))
def CollRun.dstBytes (r : CollRun) (k : Command) : Nat := dstCount k.op r.count r.ranks * (fmtWidth (ctlFmt r.control) / 8)

/-- A rank of this module has read element `j` of its source, or it is a rank of another module, whose source is an operand. -/
def State.collHas (s : State) (r : CollRun) (t j : Nat) : Bool :=
  let x := s.groupRank r.group t
  if x.1 = s.moduleNo then
    let w := fmtWidth (ctlFmt r.control)
    match s.collAt x.2 r.group r.index with
    | some (_, o) => (granulesOf w [8 * o.src + j * w]).all fun g => o.got.any fun y => y.1 == g
    | none => false
  else true

/-- Elements that destination granule `g` overlaps. -/
def CollRun.elemsOf (r : CollRun) (k : Command) (g : Nat) : List Nat :=
  let w := fmtWidth (ctlFmt r.control) / 8
  let lo := (8 * g - r.dst) / w
  let hi := (8 * g + 7 - r.dst) / w
  (List.range (hi - lo + 1)).filterMap fun i =>
    if lo + i < dstCount k.op r.count r.ranks then some (lo + i) else none

/-- A destination granule may be written: the elements that it comes from have been read, and so has the granule itself where it is of the
rank's own source (R108, R204). Other granules need not have moved. -/
def State.collReady (s : State) (k : Command) (r : CollRun) (g : Nat) : Bool :=
  ((r.elemsOf k g).all fun i => (r.sourcesOf k i).all fun x => s.collHas r x.1 x.2)
    && (!inSpan (r.srcSpan k) g || r.got.any fun y => y.1 == g)

/-! ### Begin, moves and completion -/

/-- The head of a queue is withheld (R335). -/
def State.withholdQueue (s : State) (c : Fin 64) (q : QReg) (k : Command) (va : Nat) : State :=
  (s.editHead c q fun it => match it with
    | .cmd k r st _ => .cmd k r { st with faulted := true } true
    | .fence id w => .fence id w).withheldAt (dieOf c) (s.ownRegion c) k.asid (BitVec.ofNat 64 va) (queueDetail c q.val)

/-- The entry at the head of an engine queue begins: it reads its descriptor once (R189 step 4, R108). -/
def State.beginQueue (s0 : State) (c : Fin 64) (q : QReg) : State :=
  let s := s0.settleQueues c
  match getF (s.core c).queues q with
  | .cmd k .waiting _ false :: _ =>
    match k.op with
    | .cpy | .cpy2d =>
      match s.cmdDwords c k.asid k.user (k.base.toNat / 8) 6 with
      | .error g => s.withholdQueue c q k (8 * g)
      | .ok (l, s1) =>
        s1.editHead c q fun it => match copyStart k l, it with
          | .error st, it => endItem st it
          | .ok r, .cmd k _ st w => .cmd k (.copy r) st w
          | .ok _, .fence id w => .fence id w
    | _ =>
      match s.cmdDwords c k.asid k.user (k.base.toNat / 8) 4 with
      | .error g => s.withholdQueue c q k (8 * g)
      | .ok (l, s1) =>
        match s1.collStart k l with
        | .error st => s1.editHead c q (endItem st)
        | .ok r =>
          s1.editHead c q fun it => match it with
            | .cmd k _ st w => .cmd k (.coll r) st w
            | .fence id w => .fence id w
  | _ => s

/-- A granule read of the head of an engine queue performs. -/
def State.queueRead (s : State) (c : Fin 64) (q : QReg) (row g : Nat) : State :=
  match getF (s.core c).queues q with
  | .cmd k (.copy r) _ false :: _ =>
    if decide (row < r.rows) && inSpan (spanOf (r.srcRow row) r.rowBytes) g && !(r.got.any fun x => x.1 == row && x.2.1 == g) then
      match s.cmdRead c k.asid k.user g with
      | none => s.withholdQueue c q k (8 * g)
      | some (v, s1) =>
        s1.editHead c q fun it => match it with
          | .cmd k (.copy r) st w => .cmd k (.copy { r with got := r.got ++ [(row, g, v)] }) { st with faulted := false } w
          | it => it
    else s
  | .cmd k (.coll r) _ false :: _ =>
    if r.matched && inSpan (r.srcSpan k) g && !(r.got.any fun x => x.1 == g) then
      match s.cmdRead c k.asid k.user g with
      | none => s.withholdQueue c q k (8 * g)
      | some (v, s1) =>
        s1.editHead c q fun it => match it with
          | .cmd k (.coll r) st w => .cmd k (.coll { r with got := r.got ++ [(g, v)] }) { st with faulted := false } w
          | it => it
    else s
  | _ => s

/-- Value of a source byte that the copy has read, for a row. -/
def CopyRun.byteRead (r : CopyRun) (row a : Nat) : Option Byte :=
  match r.got.find? fun x => x.1 == row && x.2.1 == a / 8 with
  | some x => some (byteOf x.2.2 (a % 8))
  | none => none

/-- The write of destination granule `g`, once every source byte of it has been read. -/
def CopyRun.granuleWrite (r : CopyRun) (g : Nat) : Option (BitVec 8 × Word) :=
  let bs := r.bytesOf g
  let vs := bs.filterMap fun b => (r.byteRead b.2.1 b.2.2).map fun v => (b.1, v)
  if vs.length = bs.length then
    some (BitVec.ofNat 8 (vs.foldl (fun n x => n + 2 ^ x.1) 0), dword fun i => lookupD 0 i vs)
  else none

/-- Bytes of granule `g` that the destination of a collective covers. -/
def CollRun.covered (r : CollRun) (k : Command) (g : Nat) : Nat :=
  min (8 * g + 8) (r.dst + r.dstBytes k) - max (8 * g) r.dst

/-- A granule write of the head of an engine queue performs (R105, R108); a copy writes each granule that it touches in one move,
whatever rows share it (R202). -/
def State.queueWrite (s : State) (c : Fin 64) (q : QReg) (g path : Nat) : State :=
  match getF (s.core c).queues q with
  | .cmd k (.copy r) _ false :: _ =>
    if !(r.bytesOf g).isEmpty && !r.done.contains g then
      match r.granuleWrite g with
      | none => s
      | some (m, v) =>
        match s.translate (dieOf c) k.asid (8 * g) true k.user with
        | .error _ => s.withholdQueue c q k (8 * g)
        | .ok pa =>
          (s.writeGranule (.queue c q) (dieOf c) { granule := pa / 8, mask := m, value := v } path none).editHead c q
            fun it => match it with
              | .cmd k (.copy r) st w =>
                .cmd k (.copy { r with done := r.done ++ [g], moved := r.moved + (r.bytesOf g).length }) { st with faulted := false } w
              | it => it
    else s
  | .cmd k (.coll r) _ false :: _ =>
    if r.matched && s.collReady k r g && inSpan (r.dstSpan k) g && !r.done.contains g then
      let w := fmtWidth (ctlFmt r.control)
      let res := (r.elemsOf k g).map fun i => (i, s.collResult k r i)
      let sp := spread w (res.map fun x => (8 * r.dst + x.1 * w, x.2.code))
      let mv := lookupD (0, 0) g sp
      match s.translate (dieOf c) k.asid (8 * g) true k.user with
      | .error _ => s.withholdQueue c q k (8 * g)
      | .ok pa =>
        let s1 : State := { s with free := if ctlRoot r.control < r.ranks then s.free else s.free + dstCount k.op r.count r.ranks }
        (s1.writeGranule (.queue c q) (dieOf c) (s1.bitWrite (dieOf c) (pa / 8) mv.1 mv.2) path none).editHead c q
          fun it => match it with
            | .cmd k (.coll r) st w =>
              .cmd k (.coll { r with done := r.done ++ [g], moved := r.moved + r.covered k g })
                { st with ovf := st.ovf || res.any (fun x => x.2.ovf), faulted := false
                          flags := res.foldl (fun f x => f ||| x.2.flags) st.flags } w
            | it => it
    else s
  | _ => s

/-- Status of the head when nothing of it is left but its status write. -/
def queueEnd (k : Command) (r : QueueRun) (st : CmdStatus) : Option CmdStatus :=
  match r with
  | .waiting => none
  | .ended => some st
  | .copy c =>
    if c.done.length = c.granules.length then some { st with code := 0, info := if k.op == .cpy2d then c.rows else c.rowBytes } else none
  | .coll c =>
    if c.matched && decide (c.done.length = (c.dstSpan k).2) && decide ((c.srcSpan k).2 ≤ c.got.length) then
      some { st with code := 0, info := c.dstBytes k }
    else none

def State.popQueue (s : State) (c : Fin 64) (q : QReg) : State :=
  let k := s.core c
  s.setCore c { k with queues := setF k.queues q (getF k.queues q).tail }

/-- A rank of a match on this module has still to write its destination. -/
def State.collOpen (s : State) (r : CollRun) : Bool :=
  (s.localRanks r.group).any fun x => match (s.core x.2).collOf r.group r.index with
    | some (_, k, o) => decide (o.done.length < (o.dstSpan k).2)
    | none => false

/-- The head of a queue leaves it. What a collective has read stays for the other ranks of its match until each has written its
destination (R205). -/
def State.leaveQueue (s : State) (c : Fin 64) (q : QReg) : State :=
  let s1 := s.popQueue c q
  let left := match headColl (getF (s.core c).queues q) with
    | some (k, r) => if r.matched then [(c, k, r)] else []
    | none => []
  { s1 with exchanged := (s1.exchanged ++ left).filter fun x => s1.collOpen x.2.2 }

/-- Completion of the head of an engine queue, when its own accesses have performed and landed (R99, R189, R202, R205). -/
def State.completeQueue (s : State) (c : Fin 64) (q : QReg) : State :=
  match getF (s.core c).queues q with
  | .cmd k r st false :: _ =>
    match queueEnd k r st with
    | none => s
    | some full =>
      let settle (s1 : State) : State :=
        if s1.unlandedParty (.queue c q) then s1 else ((s1.leaveQueue c q).freeTag c k.tag).settleQueues c
      if full.written then settle s
      else
        let va := k.base.toNat + 16
        match s.writeStatus (.queue c q) c k.asid k.user va full with
        | none => s.withholdQueue c q k va
        | some s1 => settle (s1.editHead c q (statusDone full))
  | _ => s

end Sys2Proof.Machine
end

