-- ==== Sys2Proof/Machine/Streams.lean ====
section
/-!
DEFINITION. Stream engines: pattern records, load streams, store streams (R191 to R198).
-/
namespace Sys2Proof.Machine

/-! ### Pattern records (R191 to R193) -/

/-- Dword `i` of a record. -/
def StreamRun.dw (r : StreamRun) (i : Nat) : Nat := (nth r.record i).toNat
def StreamRun.fmt (r : StreamRun) : Nat := bits (r.dw 0) 20 4
def StreamRun.sgn (r : StreamRun) : Bool := (r.dw 0).testBit 19
def StreamRun.lay (r : StreamRun) : Nat := bits (r.dw 0) 17 2
def StreamRun.nd (r : StreamRun) : Nat := bits (r.dw 0) 11 3
def StreamRun.kind (r : StreamRun) : Nat := bits (r.dw 0) 9 2
def StreamRun.base (r : StreamRun) : Nat := r.dw 1
def StreamRun.aux (r : StreamRun) : Nat := r.dw 3
/-- Extent of dimension `d`. -/
def StreamRun.ext (r : StreamRun) (d : Nat) : Nat := bits (r.dw (4 + d / 2)) (32 * (d % 2)) 32
/-- Byte stride of dimension `d` from 1 to 4. -/
def StreamRun.stride (r : StreamRun) (d : Nat) : Int := (nth r.record (6 + d)).toInt
def StreamRun.width (r : StreamRun) : Nat := fmtWidth r.fmt
/-- Elements of a row, rows of a run, rows in one step of the outermost dimension. -/
def StreamRun.p (r : StreamRun) : Nat := posCount r.lay
def StreamRun.runRows (r : StreamRun) : Nat := (r.ext 0 + r.p - 1) / r.p
def StreamRun.stepRows (r : StreamRun) : Nat :=
  (List.range (r.nd - 2)).foldl (fun n d => n * r.ext (d + 1)) r.runRows
/-- Rows of the whole record. -/
def StreamRun.allRows (r : StreamRun) : Nat := if r.nd = 1 then r.runRows else r.stepRows * r.ext (r.nd - 1)

/-- Formats and layouts that pair (R192). -/
def pairs (f lay : Nat) : Bool :=
  match f with
  | 0 | 1 | 2 | 3 | 4 | 5 | 9 => lay == 0
  | 6 | 7 | 8 => lay == 0 || lay == 1
  | 10 => lay == 2
  | 11 => lay == 1
  | _ => false

/-- The header is bad, or its kind does not suit the opcode (R191, R192, R194). -/
def StreamRun.badHeader (r : StreamRun) (op : CmdOp) : Bool :=
  let h := r.dw 0
  let store := op == .strmSt || op == .strmSct
  let indirect := op == .strmGth || op == .strmSct
  bits h 32 32 != 0 || bits h 24 2 != 0 || bits h 14 3 != 0 || bits h 0 9 != 0
    || r.nd == 0 || decide (5 < r.nd) || r.kind == 3 || (r.kind != 0) != indirect || (indirect && r.nd != 2)
    || !pairs r.fmt r.lay || (store && r.fmt == 11) || (r.sgn && !(r.fmt == 6 || r.fmt == 7 || r.fmt == 8))

/-- e0 does not suit the format. -/
def StreamRun.badE0 (r : StreamRun) : Bool :=
  r.ext 0 == 0 || (r.fmt == 7 && r.ext 0 % 2 == 1) || (r.fmt == 5 && r.ext 0 % 32 != 0) || (r.fmt == 11 && r.ext 0 % 16 != 0)

/-- Byte offset of the first bad field (R190, R192). -/
def StreamRun.bad (r : StreamRun) (op : CmdOp) : Option Nat :=
  let dim (d : Nat) : Bool := decide (d < r.nd) && r.ext d == 0
  let str (d : Nat) : Bool := r.fmt == 5 && r.stride d % 16 != 0
  let aux := r.kind == 0 && r.fmt != 5 && r.fmt != 11 && r.aux != 0
  let tests : List (Nat × Bool) :=
    [(0, r.badHeader op), (24, aux), (32, r.badE0 || dim 1), (40, dim 2 || dim 3), (48, dim 4 || bits (r.dw 6) 32 32 != 0),
     (56, str 1), (64, str 2), (72, str 3), (80, str 4)] ++ (List.range 5).map fun i => (88 + 8 * i, r.dw (11 + i) != 0)
  (tests.find? (·.2)).map (·.1)

/-- Index of the run that holds row `j`, or its offset in bytes from base for affine kinds (R193, R194). -/
def StreamRun.runIndex (r : StreamRun) (j : Nat) : Nat := j / r.runRows

def StreamRun.affineOff (r : StreamRun) (j : Nat) : Int :=
  let step (d : Nat) (st : Nat × Int) : Nat × Int :=
    if d + 1 < r.nd then (st.1 / r.ext d, st.2 + Int.ofNat (st.1 % r.ext d) * r.stride d)
    else (0, st.2 + Int.ofNat st.1 * r.stride d)
  ((List.range (r.nd - 1)).foldl (fun st d => step (d + 1) st) (r.runIndex j, 0)).2

/-- First element of row `j` in its run. -/
def StreamRun.first (r : StreamRun) (j : Nat) : Nat := if r.nd = 1 then j * r.p else j % r.runRows * r.p

/-- Position `i` of row `j` is live: within the run, or in a run that the count extends (R194). A store that runs to end-of-run has no
count, so that the rows it takes past its one run have no live position (log 124). -/
def StreamRun.rowLive (r : StreamRun) (j i : Nat) : Bool :=
  decide (r.first j + i < r.ext 0) || (r.nd == 1 && decide (r.runRows < r.count))

/-- Bit address of index `i` of an indirect record, and its width. -/
def StreamRun.idxBits (r : StreamRun) (i : Nat) : Nat × Nat :=
  let w := if r.kind = 1 then 32 else 64
  (8 * addrOf (Int.ofNat r.aux + Int.ofNat (w / 8 * i)), w)

/-- Granules of the index of row `j`, none for an affine record. -/
def StreamRun.idxGranules (r : StreamRun) (j : Nat) : List Nat :=
  if r.kind = 0 then [] else let b := r.idxBits (r.runIndex j); granulesOf b.2 [b.1]

/-- Byte offset from base of the run of row `j`, once its index has been read. -/
def StreamRun.off (r : StreamRun) (j : Nat) : Int :=
  if r.kind = 0 then r.affineOff j
  else
    let b := r.idxBits (r.runIndex j)
    intOf true b.2 (gatherBits b.2 r.got b.1) * r.stride 1

/-- Bit address of element `i` of a run at an offset. -/
def StreamRun.elemBit (r : StreamRun) (off : Int) (i : Nat) : Nat :=
  8 * addrOf (Int.ofNat r.base + off + Int.ofNat (i * r.width / 8)) + i * r.width % 8

/-- Bit address of the MXFP4 scale, or CB2 scale half, of element `i` (R193). -/
def StreamRun.scaleBit (r : StreamRun) (off : Int) (i : Nat) : Nat :=
  if r.fmt = 5 then 8 * addrOf (Int.ofNat r.aux + (off + Int.ofNat (i / 32 * 16)) / 16)
  else 8 * addrOf (Int.ofNat r.aux + 2 * ((off + Int.ofNat (2 * i)) / 64))

def StreamRun.scaleWidth (r : StreamRun) : Nat := if r.fmt = 5 then 8 else 16
def StreamRun.scaled (r : StreamRun) : Bool := r.fmt == 5 || r.fmt == 11

/-- Lowest and highest byte that the rows of an affine record can touch from its base, by the count of rows where it has one (R354). -/
def StreamRun.span (r : StreamRun) : Int × Int :=
  let rows := max r.allRows r.count
  let run := if r.nd = 1 then max (r.ext 0) (rows * r.p) else r.ext 0
  let n (d : Nat) : Nat := if d + 1 = r.nd then (rows + r.stepRows - 1) / r.stepRows else r.ext d
  (List.range 4).foldl (fun s i =>
    if i + 1 < r.nd then
      let far := Int.ofNat (n (i + 1) - 1) * r.stride (i + 1)
      (s.1 + min 0 far, s.2 + max 0 far)
    else s) (0, Int.ofNat ((run * r.width + 7) / 8) - 1)

/-- The footprint of an affine pattern, in virtual addresses. -/
def StreamRun.footprint (r : StreamRun) : Nat × Nat :=
  let lo := addrOf (Int.ofNat r.base + r.span.1)
  (lo, lo + (r.span.2 - r.span.1).toNat)

def CmdOp.affine : CmdOp → Bool
  | .strmLd | .strmSt => true
  | .strmGth | .strmSct | .cpy | .cpy2d | .collAr | .collAg | .collRs | .collBc | .collA2a | .flm | .cfgLd => false

/-- Elements of row `j` of the run, by position. -/
def StreamRun.rowElems (r : StreamRun) (j : Nat) : List (Nat × Nat) :=
  ((List.range r.p).filter (r.rowLive j)).map fun i => (i, r.first j + i)

/-- Granules that the current row still has to read: the index first, then elements and scales. -/
def StreamRun.needs (r : StreamRun) (load : Bool) : List Nat :=
  let seen := r.got.map (·.1)
  let idx := (r.idxGranules r.row).filter fun g => !seen.contains g
  match idx with
  | _ :: _ => idx
  | [] =>
    if load then
      let off := r.off r.row
      let es := r.rowElems r.row
      ((granulesOf r.width (es.map fun e => r.elemBit off e.2)
        ++ if r.scaled then granulesOf r.scaleWidth (es.map fun e => r.scaleBit off e.2) else []).eraseDups).filter
          fun g => !seen.contains g
    else []

/-- Position `i` of the row that has been read (R84, R193). -/
def StreamRun.rowPos (r : StreamRun) (i : Nat) : Option Word :=
  if r.rowLive r.row i then
    let off := r.off r.row
    let e := r.first r.row + i
    let code := gatherBits r.width r.got (r.elemBit off e)
    if r.fmt = 11 then
      some (BitVec.ofNat 64 (code + gatherBits 16 r.got (r.scaleBit off e) % 2 ^ 10 * 2 ^ 16))
    else
      let scale := if r.fmt = 5 then gatherBits 8 r.got (r.scaleBit off e) else 127
      some (decodeImage r.fmt r.lay r.sgn scale code)
  else none

/-! ### Begin of a stream command (R194 to R197) -/

/-- Grant of a shape register that bounds a stream. -/
def grantDim (sh : ShapeReg) (dim : Nat) : Nat :=
  match dim with
  | 1 => sh.grantN.toNat
  | 2 => sh.grantK.toNat
  | _ => sh.grantM.toNat

/-- Bound in rows (R195). -/
def StreamRun.bound (r : StreamRun) (g : Nat) : Nat := if r.nd = 1 then (g + r.p - 1) / r.p else g * r.stepRows

/-- Prepares the current row: what it must read. -/
def StreamRun.openRow (r : StreamRun) : StreamRun :=
  let r1 := { r with got := [] }
  { r1 with todo := r1.needs r.cmd.op.isLoad }

/-- Output rate of a stream engine (R240). -/
def Elem.seRate (e : Elem) : Nat := e.outRate 0

/-- Work identifiers of a load stream, or the end with code 4 (R196). -/
def StreamRun.assign (r : StreamRun) (e : Elem) (t : Option Task) : StreamRun :=
  let rate := e.seRate
  let lastAll := match t with
    | some t => t.last
    | none => 2 ^ 64 - 1
  let w := if r.cmd.append then (e.se.lastWid + 1).toNat else r.cmd.wid.toNat
  let last := w + r.count / rate - 1
  if r.count % rate ≠ 0 ∨ lastAll < w ∨ lastAll < last then
    { r with finished := some { code := 4, openInfo := true } }
  else { r with w, last }

/-- The command has no rows to move: a bound of 0 clamps it, or is its count (R195). -/
def StreamRun.emptyStatus (r : StreamRun) : CmdStatus :=
  if r.truncated then { code := 1, info := r.requested } else { code := 0, info := 0 }

/-- A command with its record read: checks, bound and count (R192, R195). A count of 0 that is left makes a store run to end-of-run. -/
def StreamRun.prepare (r : StreamRun) (sh : ShapeReg) (e : Elem) (t : Option Task) : StreamRun :=
  let r0 := { r with started := true }
  match r0.bad r.cmd.op with
  | some o => { r0 with finished := some { code := 3, info := o } }
  | none =>
    let shv := (r0.dw 0).testBit 31
    if shv && !sh.valid then { r0 with finished := some { code := 3, info := 0 } }
    else
      let asked := r.cmd.count.toNat
      let b := r0.bound (grantDim sh (bits (r0.dw 0) 26 2))
      let count :=
        if shv then (if asked = 0 then b else min asked b)
        else if asked = 0 && r.cmd.op.isLoad then r0.allRows else asked
      let r1 := { r0 with count, requested := asked, truncated := shv && decide (b < asked) }
      let r2 := if r.cmd.op.isLoad then r1.assign e t else r1
      match r2.finished with
      | some _ => r2
      | none => if r2.count == 0 && (r2.cmd.op.isLoad || shv) then { r2 with finished := some r2.emptyStatus } else r2.openRow

/-- Event 6 for a clamped count (R195). -/
def State.reportOverrun (s : State) (a : ElemAt) (r : StreamRun) : State :=
  match s.regionAt a.die a.x a.y with
  | some k =>
    s.report (eventRec 6 a.die k.val r.requested (taskNo (s.region a.die k).task) r.cmd.base (s.portId a))
  | none => s

/-- The barrier that R34 and R196 call for ahead of the current row. -/
def StreamRun.rowBarrier (r : StreamRun) (e : Elem) (t : Option Task) : List Token :=
  let rate := e.seRate
  let ws := match t with
    | some t => t.widths
    | none => []
  let first := match t with
    | some t => t.first
    | none => 0
  let lead := decide (r.row = 0) && decide (BitVec.ofNat 64 r.w = e.se.lastWid + 1) && decide (first < r.w)
  if r.row % rate = 0 && (decide (0 < r.row) || lead) then
    (match barrierLevel ws (r.w + r.row / rate) with
     | some l => [barrierTok l]
     | none => [])
  else []

/-- A load stream takes up a row: its barrier joins the tokens to emit, ahead of the row's reads (R196). -/
def State.openLoadRow (s : State) (a : ElemAt) (r : StreamRun) : State :=
  let e := s.elem a
  s.setElem a { e with se := { e.se with cur := some r.openRow, outq := e.se.outq ++ r.rowBarrier e (s.taskAt a) } }

/-- A load of no rows: the barrier ahead of its work identifier, or the truncated end-of-run that stands in its place (R34, R196;
log 129). -/
def State.emptyLoad (s : State) (a : ElemAt) (r : StreamRun) : State :=
  let e := s.elem a
  let toks := if r.truncated then [eorTok true] else r.rowBarrier e (s.taskAt a)
  s.setElem a { e with se := { e.se with cur := some r, outq := e.se.outq ++ toks } }

/-- A stream access is withheld: event 4, and the engine holds its FIFO (R117, R335). -/
def State.withholdStream (s : State) (a : ElemAt) (r : StreamRun) (va : Nat) : State :=
  let e := s.elem a
  (s.setElem a { e with se := { e.se with cur := some { r with withheld := true, faulted := true } } }).withheldAt a.die
    (s.regionAt a.die a.x a.y) r.cmd.asid (BitVec.ofNat 64 va) (s.portId a)

def State.setRun (s : State) (a : ElemAt) (r : Option StreamRun) : State :=
  let e := s.elem a
  s.setElem a { e with se := { e.se with cur := r } }

/-- A load that has passed its checks and its work identifiers (R196). -/
def StreamRun.moves (r : StreamRun) : Bool :=
  match r.finished with
  | none => true
  | some st => st.code ≤ 1

/-- The engine reads the record of a command that it takes up, once (R189 step 4), and the grant that bounds it (DESIGN CHOICE, log 155), and
patches the footprint of an affine pattern (R354). Its overflow bit clears (R88). A clamped count is reported whatever its work identifiers
come to (R195, R285; log 125). -/
def State.beginStream (s : State) (a : ElemAt) (r : StreamRun) : State :=
  match s.cmdDwords r.cmd.core r.cmd.asid r.cmd.user (r.cmd.base.toNat / 8) 16 with
  | .error g => s.withholdStream a r (8 * g)
  | .ok (l, s1) =>
    let r1 : StreamRun := { r with record := l, faulted := false }
    let sh := getF (s1.core r.cmd.core).sh ⟨bits (r1.dw 0) 28 3, by unfold bits; omega⟩
    let r2 := r1.prepare sh (s1.elem a) (s1.taskAt a)
    let s2 := if r2.cmd.op.isLoad && r2.moves then (if r2.count == 0 then s1.emptyLoad a r2 else s1.openLoadRow a r2)
      else s1.setRun a (some r2)
    let s2 := if r2.cmd.op.affine && r2.finished.isNone then
        s2.patchRange a r2.cmd.asid (!r2.cmd.op.isLoad) r2.cmd.user r2.footprint.1 r2.footprint.2
      else s2
    if r2.truncated then s2.reportOverrun a r2 else s2

/-- The next command of an engine begins, or a withheld record read is tried again. A held engine begins none (R337). -/
def State.beginEngine (s0 : State) (a : ElemAt) : State :=
  let s := s0.settleEngines
  let e := s.elem a
  match e.se.cur, e.se.items with
  | some r, _ => if r.started || r.withheld then s else s.beginStream a r
  | none, .cmd k :: rest =>
    if e.se.hold = .stopped then s
    else
      let s1 := s.setElem a { e with se := { e.se with items := rest, ovf := false } }
      s1.beginStream a { cmd := k, record := [], count := 0, requested := 0 }
  | none, _ => s

/-! ### Load streams (R196) -/

/-- Work identifier of the current row. -/
def StreamRun.rowWid (r : StreamRun) (e : Elem) : Nat := r.w + r.row / e.seRate

/-- A row that has been read, and the end-of-run behind the last one. -/
def StreamRun.rowTokens (r : StreamRun) (e : Elem) (t : Option Task) : List Token :=
  let v := r.rowWid e
  let lastAll := match t with
    | some t => t.last
    | none => 2 ^ 64 - 1
  let h : Header := { seq := BitVec.ofNat 16 v, itag := BitVec.ofNat 8 v }
  let fin : List Token :=
    if r.row + 1 = r.count then (if r.truncated then [eorTok true] else if r.last = lastAll then [eorTok false] else []) else []
  posToken h r.lay r.rowPos :: fin

/-- The row that has been read joins the tokens to emit; behind the last row the command has moved everything. -/
def State.finishRow (s : State) (a : ElemAt) : State :=
  let e := s.elem a
  match e.se.cur with
  | none => s
  | some r =>
    let toks := r.rowTokens e (s.taskAt a)
    let r1 := { r with row := r.row + 1, got := [] }
    if r1.row = r.count then
      let st : CmdStatus := if r.truncated then { code := 1, info := r.requested } else { code := 0, info := r.count }
      s.setElem a { e with se := { e.se with
        cur := some { r1 with finished := some st }, outq := e.se.outq ++ toks
        issued := e.se.issued + 1 } }
    else
      s.setElem a { e with se := { e.se with cur := some r1, outq := e.se.outq ++ toks, issued := e.se.issued + 1 } }

/-- The engine opens its next row when the row before has left (R196). -/
def State.nextRow (s : State) (a : ElemAt) : State :=
  let e := s.elem a
  match e.se.cur with
  | some r =>
    if r.cmd.op.isLoad && r.started && r.finished.isNone && e.se.outq.isEmpty && r.todo.isEmpty && e.se.hold != .stopped then
      s.openLoadRow a r
    else s
  | none => s

/-- A drain lets a source emit up to and including its next barrier of the level, or its end-of-run (R337). -/
def SourceHold.after (h : SourceHold) (t : Token) (due : Bool) : SourceHold :=
  match h with
  | .draining l => if t.hdr.kind == 3 || (t.hdr.kind == 2 && decide (l ≤ t.hdr.level)) then .stopped else h
  | .upTo _ => if t.hdr.kind == 3 || (t.hdr.kind == 2 && due) then .stopped else h
  | .free | .stopped => h

/-- The barrier that leaves is the one ahead of work identifier `v`: the row behind it, still to be read, carries `v` (R196, R304). -/
def Elem.boundaryDue (e : Elem) : Bool :=
  match e.se.hold, e.se.cur with
  | .upTo v, some r => decide (r.rowWid e = v)
  | .upTo v, none => decide (e.se.lastWid + 1 = BitVec.ofNat 64 v)
  | _, _ => false

/-- A barrier waits to be emitted. -/
def StreamState.barrierDue (se : StreamState) : Bool := se.outq.any fun t => t.hdr.kind == 2

/-- STREAM_ROW_EMIT: the oldest token of a load stream enters its port when there is a credit. -/
def execStreamRowEmit (s : State) : Out :=
  .next (
    let a := s.focus
    let s1 := s.settleEngines
    let e := s1.elem a
    match e.se.outq with
    | [] => s1.nextRow a
    | t :: rest =>
      if s1.live a 0x204 && isStreamEngine a && s1.sourceReady a && e.se.hold != .stopped then
        let s2 := s1.setElem a { e with
          eor := e.eor || t.hdr.kind == 3, se := { e.se with outq := rest, hold := e.se.hold.after t e.boundaryDue } }
        (s2.sourceEmit a t).nextRow a
      else s1)

/-- The engine may read for its current row: a load once the barrier ahead of the row has left and while it is not held, a store for a
data row at its port (R196, R197, R337). -/
def Elem.mayRead (e : Elem) (r : StreamRun) : Bool :=
  if r.cmd.op.isLoad then decide (e.se.hold ≠ .stopped) && !e.se.barrierDue
  else r.writes.isEmpty && (match e.head? 0 with
    | some t => t.hdr.isData
    | none => false)

/-- A granule read of an engine's current row performs (R104, R108). -/
def State.streamRead (s0 : State) (a : ElemAt) (g : Nat) : State :=
  let e := s0.elem a
  match e.se.cur with
  | none => s0
  | some r =>
    if r.withheld || !r.todo.contains g || !e.mayRead r then s0
    else
      let s := s0.reach a r.cmd.asid (8 * g) false r.cmd.user
      match s.placeOf a r.cmd.asid (8 * g) false r.cmd.user with
      | .error _ => s.withholdStream a r (8 * g)
      | .ok pa =>
        let (v, s1) := s.readFor (s.core r.cmd.core).task a.die (pa / 8)
        let r1 := { r with got := r.got ++ [(g, v)], faulted := false }
        let r2 := { r1 with todo := r1.needs r.cmd.op.isLoad }
        let s2 := s1.setRun a (some r2)
        if r.cmd.op.isLoad && r2.todo.isEmpty then s2.finishRow a else s2

/-! ### Store streams (R197) -/

/-- Writes of a data row, and whether one of them sets the sticky bit. -/
def StreamRun.rowWrites (r : StreamRun) (e : Elem) (t : Token) : List (Nat × Word × Word) × Bool :=
  let off := r.off r.row
  let live := (List.range r.p).filter fun i => r.rowLive r.row i && posLive r.lay t.hdr.lanes i
  let codes := live.map fun i =>
    (r.elemBit off (r.first r.row + i), encodeImage r.fmt r.lay r.sgn e.rm e.sat (posImage r.lay t.pay i))
  (spread r.width (codes.map fun c => (c.1, c.2.1)), codes.any fun c => c.2.2)

/-- Writes of an MXFP4 block that begins at element `i` of its run (R87). -/
def StreamRun.blockWrites (r : StreamRun) (e : Elem) (off : Int) (i : Nat) (lanes : List (Option Word)) :
    List (Nat × Word × Word) × Bool :=
  let m := mxEncode (lanes ++ List.replicate (32 - lanes.length) none) e.rm e.sat
  let nib := (List.range 32).map fun k => (r.elemBit off (i + k), 4, m.2.1.getD k 0)
  (spreadAll (nib ++ [(r.scaleBit off i, 8, m.1)]), m.2.2)

/-- Takes one row into the MXFP4 block being gathered; a data row names the run that the block is written to. -/
def StreamRun.takeBlock (r : StreamRun) (e : Elem) (n : Nat) (t : Token) : StreamRun :=
  let lanes := (List.range 8).map fun i => if t.hdr.isData && r.rowLive r.row i then posAt 0 t i else none
  let blk := r.block ++ lanes
  let data := r.blockData || t.hdr.isData
  let place := if t.hdr.isData then (r.off r.row, r.first r.row / 32 * 32) else r.blockAt
  if r.first r.row % 32 = 24 then
    if data then
      let w := r.blockWrites e place.1 place.2 blk
      { r with block := [], blockData := false, ovf := r.ovf || w.2, writes := r.writes ++ w.1.map fun x => (n, x) }
    else { r with block := [], blockData := false }
  else { r with block := blk, blockData := data, blockAt := place }

/-- The end of a store stream: a block only partly taken is written (R197). -/
def StreamRun.finish (r : StreamRun) (e : Elem) (n : Nat) (st : CmdStatus) : StreamRun :=
  let r1 :=
    if r.blockData then
      let w := r.blockWrites e r.blockAt.1 r.blockAt.2 r.block
      { r with block := [], blockData := false, ovf := r.ovf || w.2, writes := r.writes ++ w.1.map fun x => (n, x) }
    else { r with block := [] }
  { r1 with finished := some st, todo := [] }

/-- End of a store by count: truncated when a shape bound clamped it. -/
def StreamRun.endStatus (r : StreamRun) : CmdStatus :=
  if r.truncated then { code := 1, info := r.requested } else { code := 0, info := r.row }

/-- Status at an end-of-run (R197); a store that a shape bound has clamped keeps code 1 at an unmarked one (R195; DESIGN CHOICE, log 152). -/
def StreamRun.eorStatus (r : StreamRun) (trunc : Bool) : CmdStatus :=
  if trunc then { code := 1, info := r.row }
  else if r.truncated then { code := 1, info := r.requested }
  else { code := if r.count = 0 then 0 else 2, info := r.row }

/-- STORE_STREAM_TAKE: a store stream takes the head token of its vo port; a data row of an indirect record waits for its index (R197). -/
def execStoreStreamTake (s : State) : Out :=
  .next (
    let a := s.focus
    let e := s.elem a
    match e.se.cur, e.head? 0 with
    | some r, some t =>
      if s.live a 0x204 && r.started && r.finished.isNone && !r.cmd.op.isLoad && !r.withheld && (r.todo.isEmpty || !t.hdr.isData) && e.calm 0 then
        let e1 := e.drop 0 1
        let put (e2 : Elem) (r2 : StreamRun) : State := s.setElem a { e2 with se := { e2.se with cur := some r2 } }
        if t.hdr.kind == 3 then put { e1 with eor := true } (r.finish e e.se.issued (r.eorStatus (t.hdr.seq.getLsbD 0)))
        else if t.hdr.kind == 2 then put { e1 with reached := some (max (e.reached.getD 0) t.hdr.level) } r
        else if t.hdr.kind == 6 || t.hdr.kind == 5 then put e1 r
        else
          let n := e.se.issued
          let r1 :=
            if r.fmt = 5 then r.takeBlock e n t
            else if t.hdr.isData then
              let w := r.rowWrites e t
              { r with ovf := r.ovf || w.2, writes := r.writes ++ w.1.map fun x => (n, x) }
            else r
          let r2 := { r1 with row := r.row + 1, poison := r.poison || t.hdr.isPoison }
          let e2 := { e1 with se := { e1.se with issued := n + 1 } }
          (if r.count ≠ 0 ∧ r2.row = r.count then put e2 (r2.finish e n r2.endStatus) else put e2 r2.openRow).endMiss a 0 t.hdr true
      else s
    | _, _ => s)

/-- A granule write of the oldest row of a store stream performs (R105, R108). -/
def State.streamWrite (s0 : State) (a : ElemAt) (g path : Nat) : State :=
  let e := s0.elem a
  match e.se.cur with
  | none => s0
  | some r =>
    match r.writes with
    | [] => s0
    | (n, _) :: _ =>
      match r.writes.find? fun w => w.1 == n && w.2.1 == g with
      | none => s0
      | some w =>
        if r.withheld then s0
        else
          let s := s0.reach a r.cmd.asid (8 * g) true r.cmd.user
          match s.placeOf a r.cmd.asid (8 * g) true r.cmd.user with
          | .error _ => s.withholdStream a r (8 * g)
          | .ok pa =>
            let gw := s.bitWrite a.die (pa / 8) w.2.2.1 w.2.2.2
            let s1 := s.writeGranule (.stream a) a.die gw path (some n)
            s1.setRun a (some { r with writes := r.writes.filter fun x => !(x.1 == n && x.2.1 == g), faulted := false })

/-- A load stream completes once its last read has performed (R196), but not while a trap has frozen its source (R334). -/
def StreamRun.mayComplete (r : StreamRun) (frozen : Bool) : Bool := !r.cmd.op.isLoad || !frozen

/-- The engine's last work identifier behind a command: that of a load which has moved its rows, or the one before a load of none
(R196). -/
def StreamRun.lastAfter (r : StreamRun) (old : Word) : Word :=
  if r.cmd.op.isLoad && r.moves then (if r.count = 0 then BitVec.ofNat 64 r.w - 1 else BitVec.ofNat 64 r.last) else old

/-- The engine lets its command and its extents go; its overflow bit stands until the next one (R88). -/
def State.leaveEngine (s : State) (a : ElemAt) (r : StreamRun) : State :=
  let e := s.elem a
  (s.freeExtents a).setElem a { e with se := { e.se with cur := none, ovf := r.ovf, lastWid := r.lastAfter e.se.lastWid } }

/-- Completion of an engine's command: the status dword is written, and the tag falls once every write has landed (R99, R189). -/
def State.completeStream (s : State) (a : ElemAt) : State :=
  let e := s.elem a
  match e.se.cur with
  | none => s
  | some r =>
    match r.finished with
    | none => s
    | some st =>
      if r.withheld || !r.writes.isEmpty || !r.mayComplete e.frozen then s
      else
        let settle (s1 : State) : State :=
          if s1.unlandedParty (.stream a) then s1 else ((s1.leaveEngine a r).freeTag r.cmd.core r.cmd.tag).settleEngines
        if st.written then settle s
        else
          let full := { st with ovf := r.ovf, poison := r.poison }
          let va := r.cmd.base.toNat + 16
          match s.writeStatus (.stream a) r.cmd.core r.cmd.asid r.cmd.user va full with
          | none => s.withholdStream a r va
          | some s1 => settle (s1.setRun a (some { r with faulted := false, finished := some { st with written := true } }))

end Sys2Proof.Machine
end

