-- ==== Sys2Proof/Machine/Tasks.lean ====
section
/-!
DEFINITION. Tasks: header fields (R312), completion records (R315), ending a task (R38, R116, R186, R319), and regions that return to
the task queue unit (R39).
-/
namespace Sys2Proof.Machine

def TaskState.isEnd : TaskState → Bool
  | .retired | .refused | .failed => true
  | .queued | .ready | .placing | .running | .drained | .frozen => false
/-- The task has been started (R38). -/
def TaskState.isStarted : TaskState → Bool
  | .running | .drained | .frozen => true
  | .queued | .ready | .placing | .retired | .refused | .failed => false

/-- Die of the TQU that accepted the task (R314). -/
def Task.home (t : Task) : Fin 4 := ⟨t.id.toNat / 2 ^ 30 % 4, by omega⟩
/-- The core of a placed task. -/
def Task.coreAt (t : Task) : Option (Fin 64) := t.core.map (coreOf t.die)

/-! ### The completion record and the tag (R38, R315) -/

/-- Miss time beyond the budget; a task without a budget counts every miss against its bound (R290, log 67). -/
def Task.missOver (t : Task) : Nat := if t.budget = 0 then 0 else t.missTime - t.budget

/-- The eight dwords of the record at device time `now`. -/
def Task.record (t : Task) (now : Nat) : List Word :=
  let w (n : Nat) : Word := BitVec.ofNat 64 n
  [w (t.cause + t.stage % 16 * 2 ^ 16 + t.code % 2 ^ 32 * 2 ^ 32), w t.faultTime, w t.missOver, w (t.missTime - t.missOver), w t.admitted, w t.start, w now, t.id.zeroExtend 64]

/-- Writes dwords at consecutive virtual addresses under an ASID, on paths of the board's choice (R105); the address of the first write that
faults. -/
def State.writeDwords (s : State) (p : Party) (d : Fin 4) (asid : BitVec 13) (user : Bool) (va : Nat) :
    List Word → Except Nat State
  | [] => .ok s
  | v :: t =>
    match s.translate d asid va true user with
    | .error _ => .error va
    | .ok pa => (s.writeGranule p d (storeAt pa 8 v) (Config.boardPath s.moves (pa / 8)) none).writeDwords p d asid user (va + 8) t

/-- A tag of a task completes, at the core that runs the task now or in its saved state; a dispatcher's at its core (R38, R341). -/
def State.tagDone (s : State) (owner : Option (BitVec 32)) (c : Fin 64) (tag : Tag) : State :=
  match owner with
  | none => s.freeTag c tag
  | some p =>
    match s.task? p with
    | none => s
    | some q =>
      match q.savedCore, q.coreAt with
      | some k, _ => s.setTask { q with savedCore := some (k.freeTag tag) }
      | none, some c => if (s.core c).task = some p then s.freeTag c tag else s
      | none, none => s

/-- The tag of the enq completes (R38). -/
def State.completeTag (s : State) (t : Task) : State := s.tagDone t.parent t.by' t.tag

def State.tquOf (s : State) (d : Fin 4) : Tqu := (s.die d).tqu
def State.setTqu (s : State) (d : Fin 4) (t : Tqu) : State := s.setDie d { s.die d with tqu := t }

/-- The task leaves the TQU for its history of the last 4,096 (R314). -/
def State.archive (s : State) (t : Task) : State :=
  let q := s.tquOf t.home
  let h := q.history ++ [(t.id, decide (t.st = .retired))]
  { s.setTqu t.home { q with history := h.drop (h.length - 4096) } with tasks := s.tasks.filter fun x => x.id != t.id }

/-- The record is written. A write that faults is withheld and reported, each time that a resume lets it try (R335, log 65). -/
def State.recordTask (s : State) (t : Task) : State :=
  if t.recorded || t.told then s
  else
    match s.writeDwords (.task t.id) t.die t.hdrAsid t.user (t.hdrAddr.toNat + 128) (t.record s.time) with
    | .ok s1 => s1.setTask { t with recorded := true }
    | .error va =>
      (s.setTask { t with told := true, recordFaulted := true }).report
        (eventRec 4 t.die 0 t.hdrAsid.toNat t.id (BitVec.ofNat 64 va) (BitVec.ofNat 64 (slotOf t.by').val))

/-! ### Status dwords of ended commands (R186, R335) -/

/-- Address of a command's status dword (R191, R202, R204, R214). -/
def Command.statusAt (k : Command) : Nat := if k.op = .cfgLd then k.cfgStatusAt else k.base.toNat + 16

/-- Event 4 for a late status dword. -/
def State.reportLate (s : State) (l : LateStatus) : State :=
  s.report (eventRec 4 (dieOf l.cmd.core) l.region l.cmd.asid.toNat l.task (BitVec.ofNat 64 l.cmd.statusAt) l.detail)

/-- A late status dword is withheld, and reported. -/
def State.withholdLate (s : State) (l : LateStatus) : State :=
  ({ s with late := s.late ++ [{ l with withheld := true }] } : State).reportLate l

/-- A late status dword that has been resumed is written, or is withheld again. -/
def State.retryLate (s : State) (l : LateStatus) : State :=
  let s1 : State := { s with late := s.late.erase l }
  match s1.writeStatus (.task l.task) l.cmd.core l.cmd.asid l.cmd.user l.cmd.statusAt l.st with
  | some s2 => s2
  | none => s1.withholdLate l

/-- The late status dwords of a task. -/
def State.lateOf (s : State) (id : BitVec 32) : List LateStatus := s.late.filter fun l => l.task == id

/-- Those of a task that have been resumed are tried. -/
def State.retryLates (s : State) (id : BitVec 32) : State :=
  ((s.lateOf id).filter fun l => !l.withheld).foldl State.retryLate s

/-- A release of a task has its markers (R116). -/
def State.gathered (s : State) (r : Nat) : Bool :=
  match s.release? r with
  | none => true
  | some q => q.sent && q.waiting.isEmpty

/-- The releases of an ended task have performed (R116). -/
def State.gatherTask (s : State) (t : Task) : Option State :=
  if t.rels.all s.gathered then
    some (t.rels.foldl (fun s r => match s.release? r with
      | some q => (s.dropRelease r).emptyPathSets q.parties
      | none => s) (s.setTask { t with rels := [] }))
  else none

/-- An ended task goes on: the release, the status dwords of its commands, then the record, then, once the record has landed, the
tag. -/
def State.settleTask (s : State) (id : BitVec 32) : State :=
  match s.task? id with
  | none => s
  | some t =>
    if t.st.isEnd then
      match s.gatherTask t with
      | none => s
      | some s1 =>
        let s2 := s1.retryLates id
        if (s2.lateOf id).isEmpty then
          let s3 := s2.recordTask { t with rels := [] }
          match s3.task? id with
          | some u => if u.recorded && !s3.unlandedParty (.task id) then (s3.archive u).completeTag u else s3
          | none => s3
        else s2
    else s

/-- Every ended task of a die goes on. -/
def State.settleTasks (s : State) (d : Fin 4) : State :=
  ((s.tasks.filter fun t => decide (t.die = d)).map (·.id)).foldl (fun s id => s.settleTask id) s

/-! ### Spill area (R317, R318) -/

/-- Base and capacity in entries of a die's spill area, physical address of an entry. -/
def Tqu.spillAt (q : Tqu) (slot : Nat) : Nat := bits q.spillBase.toNat 8 44 * 256 + 256 * slot
def Tqu.capacity (q : Tqu) : Nat := bits q.spillCap.toNat 0 21
def State.spilledOf (s : State) (d : Fin 4) : List Task := s.tasks.filter fun t => decide (t.die = d) && t.spilled
/-- SPILLCNT (R317). -/
def State.spillCount (s : State) (d : Fin 4) : Nat := (s.spilledOf d).length

/-- An error of a TQU: TQERR holds it, and the management interrupt is raised (R318). -/
def State.tqError (s : State) (d : Fin 4) (code addr : Nat) : State :=
  let s1 := s.setTqu d { s.tquOf d with tqErr := BitVec.ofNat 64 (code + addr / 256 * 256) }
  { s1 with host := { s1.host with msix := s1.host.msix + 1 } }

/-- A spill entry: the header, its address, and the TQU's state of the task, whose form the manual leaves to the device (log 22). -/
def State.writeSpill (s : State) (t : Task) : Option State :=
  let pa := (s.tquOf t.die).spillAt t.spillSlot
  match s.homeOf pa with
  | none => none
  | some _ =>
    let free := (List.range 15).map fun i => Config.freeWord (s.free + i)
    let ws := t.hdr ++ [t.hdrAddr] ++ free
    some (ws.zipIdx.foldl (fun s w => s.setHome (storeAt (s.canonPa pa + 8 * w.2) 8 w.1))
      { s with free := s.free + 15 })

/-! ### Dependents (R319) -/

/-- A task without a saved context: its context block is freed (R38, R341). -/
def Task.dropSaved (t : Task) : Task :=
  { t with ctx := none, savedCore := none, savedElems := [], savedTiles := [], savedStages := [], savedPackets := [], savedMt := [], savedFrame := none, savedPassed := 0
           needService := false, endAsked := false }

/-- A task that has not been started ends: it leaves its prefetch buffer (R38, R327). -/
def State.endUnstarted (s : State) (t : Task) (st : TaskState) (cause code stage : Nat) : State :=
  let s1 := s.setTask { t.dropSaved with st, cause, code, stage, region := none, core := none }
  match t.coreAt with
  | some c => let k := s1.core c
              s1.setCore c { k with prefetch := k.prefetch.filter (· ≠ t.id) }
  | none => s1

/-- A spilled task is marked in place; a mark that faults holds the refills of its bank (R318). -/
def State.markSpilled (s : State) (t : Task) : State :=
  let s1 := s.setTask { t with predFailed := true }
  match s1.writeSpill { t with predFailed := true } with
  | some s2 => s2
  | none =>
    let q := s1.tquOf t.die
    (s1.setTqu t.die { q with refillHeld := q.refillHeld ++ [t.prio / 16] }).tqError t.die 4 (q.spillAt t.spillSlot)

/-- Fails every task that names `id` as predecessor, and their dependents, in at most `n` rounds. -/
def State.failDeps (s : State) : Nat → BitVec 32 → State
  | 0, _ => s
  | n + 1, id =>
    ((s.tasks.filter fun t => !t.st.isEnd && !t.st.isStarted && !t.predFailed && t.preds.contains id).map (·.id)).foldl
      (fun s i =>
        match s.task? i with
        | some t => (if t.spilled then s.markSpilled t else s.endUnstarted t .failed 2 0 0).failDeps n i
        | none => s) s

def State.failDependents (s : State) (id : BitVec 32) : State := s.failDeps s.tasks.length id

/-! ### The work of a started task (R38, R186) -/

/-- The parties whose accesses are a task's (R116). -/
def State.taskParties (s : State) (d : Fin 4) (r : Fin 16) (c : Fin 64) : List Party :=
  .core c :: .fabric d r :: (List.finRange 8).map (Party.queue c) ++
    ((s.regionElems d r).filter isStreamEngine).map Party.stream

/-- Detail of event 4 for a command: the port of a stream engine, else its queue (R335). -/
def State.cmdDetail (s : State) (k : Command) : Word :=
  match k.engine with
  | some a => s.portId a
  | none => queueDetail k.core (if k.op = .cfgLd then 8 else k.queue.val)

/-- The status dword of a command of a task that the device ends: code 9 with what the command has moved and met (R186, R190). One
whose address faults is withheld: it is reported, and stands among the writes that wait (R335). -/
def State.endStatus (s : State) (task : BitVec 32) (p : Party) (k : Command) (st : CmdStatus) : State :=
  if k.op = .flm then s
  else
    let full := { st with code := 9, openInfo := false }
    match s.writeStatus p k.core k.asid k.user k.statusAt full with
    | some s1 => s1
    | none => s.withholdLate
        { cmd := k, st := full, task, region := regionNo (s.ownRegion k.core), detail := s.cmdDetail k }

/-- A store stream that is ended: a block only partly taken is written (R186, R197). -/
def State.endBlock (s : State) (a : ElemAt) : State :=
  let e := s.elem a
  match e.se.cur with
  | some r => if r.blockData then s.setRun a (some (r.finish e e.se.issued {})) else s
  | none => s

/-- Performs the writes of a store stream that it has issued. -/
def State.flushStream (s : State) (a : ElemAt) : Nat → State
  | 0 => s
  | n + 1 =>
    match (s.elem a).se.cur with
    | none => s
    | some r =>
      match r.writes with
      | [] => s
      | (_, g, _) :: _ => (s.streamWrite a g (Config.boardPath s.moves g)).flushStream a n

/-- What a command that is ended reports of its stream: rows moved, overflow, poison (R88, R186, R190). -/
def StreamRun.moved (r : StreamRun) : CmdStatus := { info := r.row, ovf := r.ovf, poison := r.poison }

/-- Commands of a stream engine that have not written their status. -/
def StreamState.open' (se : StreamState) : List (Command × CmdStatus) :=
  (match se.cur with
    | some r => if r.performed then [] else [(r.cmd, r.moved)]
    | none => [])
  ++ se.items.filterMap fun i => match i with
    | .cmd k => some (k, ({} : CmdStatus))
    | .shape _ | .barrier _ => none

/-- Bytes that a queue entry has moved: the info of code 9, also of a cpy2d (R186; DESIGN CHOICE, log 150). -/
def QueueRun.moved : QueueRun → Nat
  | .copy r => r.moved
  | .coll r => r.moved
  | .waiting | .ended => 0

/-- Entries of an engine queue that have not written their status. -/
def openItems (l : List QItem) : List (Command × CmdStatus) :=
  l.filterMap fun i => match i with
    | .cmd k r st _ => if st.written then none else some (k, { st with info := r.moved })
    | .fence _ _ => none

/-- Loads of cfg.ld that have not written their status; they have moved no rows or bytes (R186; DESIGN CHOICE, log 151). -/
def openLoads (l : List CfgRun) : List (Command × CmdStatus) :=
  l.filterMap fun r => match r.ended with
    | some st => if st.written then none else some (r.cmd, ({} : CmdStatus))
    | none => some (r.cmd, ({} : CmdStatus))

/-- Every one of some commands ends. -/
def State.endCommands (s : State) (task : BitVec 32) (p : Party) (l : List (Command × CmdStatus)) : State :=
  l.foldl (fun s x => s.endStatus task p x.1 x.2) s

/-- Ends what a stream engine runs and holds (R186). -/
def State.endEngine (s : State) (task : BitVec 32) (a : ElemAt) : State :=
  let s0 := s.endBlock a
  let n := match (s0.elem a).se.cur with
    | some r => r.writes.length
    | none => 0
  let s1 := s0.flushStream a n
  let se := (s1.elem a).se
  let s2 := s1.endCommands task (.stream a) se.open'
  s2.setElem a { s2.elem a with se :=
    { lastWid := se.lastWid, issued := se.issued, ovf := match se.cur with
        | some r => r.ovf
        | none => se.ovf } }

/-- Ends the entries of an engine queue. -/
def State.endQueue (s : State) (task : BitVec 32) (c : Fin 64) (q : QReg) : State :=
  let s1 := s.endCommands task (.queue c q) (openItems (getF (s.core c).queues q))
  s1.setCore c { s1.core c with queues := setF (s1.core c).queues q [] }

/-- Commands that still stand in a core's order buffer. -/
def CoreState.unbegun (k : CoreState) : List (Command × CmdStatus) :=
  k.order.filterMap fun i => match i with
    | .cmd k => some (k, ({} : CmdStatus))
    | .store _ | .sbar .. | .qfence .. | .shape .. => none

/-- The releases that a core's instruction and its flm commands have begun (R109, R207). -/
def RelFor.ofCore (c : Fin 64) : RelFor → Bool
  | .core k | .flm k _ => decide (k = c)
  | .retire .. => false

/-- They are dropped: nothing of them is left to complete a tag of the core's next task (R186). -/
def State.dropCoreReleases (s : State) (c : Fin 64) : State := { s with releases := s.releases.filter fun r => !r.who.ofCore c }

/-- Ends what a core has issued: its stores perform, its commands end (R186). -/
def State.endCore (s : State) (task : BitVec 32) (c : Fin 64) : State :=
  let s1 := s.drainStores c
  let s2 := s1.endCommands task (.task task) ((s1.core c).unbegun ++ openLoads (s1.core c).cfg)
  let s3 := (List.finRange 8).foldl (fun s q => s.endQueue task c q) s2
  (s3.dropCoreReleases c).setCore c { s3.core c with
    order := [], cfg := [], staged := false, waiting := false, amo := none, rel := none, hdrHeld := false, hdrFaulted := false, irq := [] }

/-- The stores of memory elements that have been issued and are not withheld perform. -/
def State.endFabric (s : State) (a : ElemAt) : State := s.performStores a fun p => !p.withheld && !p.dropped

/-- A region's tokens are discarded and its gates close; what its neighbours hold toward it stays theirs (R25, R38). -/
def State.discard (s : State) (d : Fin 4) (r : Fin 16) : State :=
  let s1 := (s.blankRegion d r id).clearEdges d r
  let s2 := s1.mapTiles d r fun t => { t with slots := Vector.replicate 8 {} }
  s2.setRegion d r { s2.region d r with committed := false }

/-- A region returns to the TQU (R38, R39). -/
def State.returnRegion (s : State) (d : Fin 4) (r : Fin 16) : State :=
  let g := s.region d r
  let s1 := match g.owner with
    | some k => let c := coreOf d k
                s.setCore c { s.core c with task := none }
    | none => s
  s1.setRegion d r { s1.region d r with task := none, phase := .idle, committed := false }

/-- Every outstanding command of a task in a region ends (R186). -/
def State.endWork (s : State) (task : BitVec 32) (d : Fin 4) (r : Fin 16) (c : Fin 64) : State :=
  let as := s.regionElems d r
  let s1 := as.foldl (fun s a => s.endFabric a) (s.stopCore c)
  let s2 := (s1.writeBack d r).endCore task c
  (as.filter isStreamEngine).foldl (fun s a => s.endEngine task a) s2

/-- The release of an end goes out (R116). -/
def State.releaseTask (s : State) (id : BitVec 32) (who : RelFor) (ps : List Party) : State :=
  let o := s.openRelease who ps []
  let m := o.2.sendMarkers ps o.1
  if m.1.isEmpty then s.emptyPathSets ps
  else
    let s1 := m.2.setRelease { id := o.1, who, parties := ps, rows := [], sent := true, waiting := m.1 }
    match s1.task? id with
    | some t => s1.setTask { t with rels := t.rels ++ [o.1] }
    | none => s1

/-- A started task fails: its work ends, its region returns, its context block is freed (R38). -/
def State.endStarted (s : State) (t : Task) (cause code stage : Nat) : State :=
  let s0 := s.setTask { t.dropSaved with st := .failed, cause, code, stage, region := none, core := none }
  match t.region, t.coreAt with
  | some r, some c =>
    let s1 := s0.endWork t.id t.die r c
    let ps := s1.taskParties t.die r c
    ((s1.releaseTask t.id (.retire t.die r) ps).discard t.die r).returnRegion t.die r
  | _, _ => s0

/-- Commands of a saved task that have not written their status, with what they moved. -/
def Task.savedCommands (t : Task) : List (Command × CmdStatus) :=
  (t.savedElems.flatMap fun x => x.2.se.open')
  ++ (match t.savedCore with
    | none => []
    | some k => k.queues.toList.flatMap openItems ++ openLoads k.cfg)

/-- Every outstanding command of a saved task ends with code 9 (R38, R186). -/
def State.endSaved (s : State) (t : Task) : State := s.endCommands t.id (.task t.id) t.savedCommands

/-- A task that has not ended fails or is refused; its dependents fail (R38, R319). A save in progress is dropped. -/
def State.failTask (s : State) (id : BitVec 32) (cause code stage : Nat) : State :=
  match s.task? id with
  | none => s
  | some t =>
    if t.st.isEnd then s
    else
      let s0 := s.endSaved t
      let s1 := if t.st.isStarted then s0.endStarted t cause code stage
        else s0.endUnstarted t (if cause = 1 then .refused else .failed) cause code stage
      (s1.failDependents id).settleTask id

/-! ### Uncorrectable data (R394) -/

/-- Tasks whose read met a marked granule fail with cause 6; event 17 carries the address. -/
def State.afterMove (s : State) : State :=
  match s.doomed with
  | [] => s
  | l =>
    l.foldl (fun s x =>
      match s.task? x.task with
      | some t =>
        if t.st.isEnd then s
        else
          let d := t.die
          let n := s.die d
          ((s.setDie d { n with uecnt := n.uecnt + 1 }).failTask x.task 6 0 0).report
            (eventRec 17 d (regionNo t.region) x.struct x.task x.addr (x.tile.getD (BitVec.ofNat 64 (match t.core with
              | some k => k.val
              | none => 0))))
      | none => s) { s with doomed := [] }

end Sys2Proof.Machine
end

