-- ==== Sys2Proof/Machine/Image.lean ====
section
/-!
DEFINITION. What the loader and the task queue unit read through a task's ASID (R361): images, texts, placement blocks (R358), and
the relocations whose targets are data (R359).
-/
namespace Sys2Proof.Machine

/-! ### Reads of the loader and the TQU -/

def State.seenDwords (s : State) (d : Fin 4) (asid : BitVec 13) (g : Nat) : Nat → Option (List Word)
  | 0 => some []
  | n + 1 => (s.seen d asid g).bind fun v => (s.seenDwords d asid (g + 1) n).map (v :: ·)

/-- `n` 32-bit words from an address that is a multiple of 8. -/
def State.seenWords (s : State) (d : Fin 4) (asid : BitVec 13) (va n : Nat) : Option (List Nat) :=
  (s.seenDwords d asid (va / 8) ((n + 1) / 2)).map fun l => imageWords l n

/-! ### The placement block (R358) -/

/-- Pairs of dwords. -/
def pairUp : List Word → List (Word × Word)
  | a :: b :: t => (a, b) :: pairUp t
  | _ => []

/-- The placement block ahead of an image; none where a read of it faults. -/
def State.placement (s : State) (d : Fin 4) (asid : BitVec 13) (image : Nat) : Option Placement :=
  (s.seenDwords d asid (image / 8 - 8) 8).bind fun l =>
    let n (i : Nat) : Nat := (nth l i).toNat
    (s.seenDwords d asid (n 1 / 8) (n 2)).bind fun hz =>
      (s.seenDwords d asid (n 3 / 8) (3 * n 4)).bind fun rl =>
        (s.seenDwords d asid (n 5 / 8) (2 * n 6)).map fun sh =>
          { portable := (nth l 0).getLsbD 0, hazards := hz, relocs := relocsOf rl, shapes := pairUp sh }

end Sys2Proof.Machine
end

