-- ==== Sys2Proof/Machine/ImageCheck.lean ====
section
/-!
DEFINITION. What the loader refuses in an image (R362 codes 5, 6 and the whole-graph codes): malformed commands (R145 to R149), and the
fields and combinations that R151 to R158 and the opcode entries refuse.
-/
namespace Sys2Proof.Machine

/-! ### Malformed commands (code 5) and unassigned opcodes (code 6) -/

/-- The geometry of an image and the kind of tile at each of its sites, `none` where it may name nothing (R149). -/
structure Sites where
  w : Nat
  h : Nat
  kind : Nat → Nat → TileKind

/-- The sites of a placement. -/
def Frame.sites (f : Frame) : Sites :=
  { w := f.w, h := f.h
    kind := fun x y =>
      if x ≤ 5 * f.w + 1 ∧ y ≤ 4 * f.h + 1 ∧ Region.owns { bx := f.bx, by' := f.by', w := f.w, h := f.h } (x + 5 * f.bx) (y + 4 * f.by')
      then tileKind (x + 5 * f.bx) (y + 4 * f.by') else .none }

/-- The sites of an image that has no placement yet: a ring site is a converter when the image uses it as one. -/
def freeSites (w h : Nat) (l : List CfgItem) : Sites :=
  { w, h
    kind := fun x y =>
      let ringX := x == 0 || x == 5 * w + 1
      let ringY := y == 0 || y == 4 * h + 1
      if 5 * w + 1 < x ∨ 4 * h + 1 < y ∨ (ringX && ringY) then .none
      else if ringX || ringY then
        (if l.any fun c => c.isWrite && c.x == x && c.y == y && (decide (8 ≤ c.e) || (c.e == 0 && c.f == 0 && c.value == 0x300))
         then .xt else .ag)
      else if x % 5 = 0 then .mt else .ct }

/-- The rules that command words of an image keep, walked in order. The first write of an MT's control stands directly behind the
bank-quiesce of that MT alone (R124, R148): `done` are the MTs whose control has been written, `just` the site that the command before
this one quiesced. -/
def itemBad (f : Sites) (done : List (Nat × Nat)) (just : Option (Nat × Nat)) (c : CfgItem) : Bool :=
  let kind := f.kind c.x c.y
  if c.isWrite then
    !elemAssigned kind c.e || fieldWidth c.f == 0 || decide (2 ^ fieldWidth c.f ≤ c.value)
      || decide (fieldWidth c.f < 10 + 30 * c.exts.length ∧ fieldWidth c.f ≤ 10 + 30 * (c.exts.length - 1) ∧ c.exts ≠ [])
      || (decide (kind = .mt) && c.e == 15 && !done.contains (c.x, c.y) && just != some (c.x, c.y))
  else
    match decodeConfigNat c.word with
    | .ok (.bankQuiesce x y all) =>
      !c.exts.isEmpty || (all && (x.val != 0 || y.val != 0)) ||
        (!all && decide (f.kind x.val y.val ≠ .mt))
    | .ok _ | .error _ => true

/-- The one MT site that a command quiesces. -/
def itemQuiesces (c : CfgItem) : Option (Nat × Nat) :=
  match c.isWrite, decodeConfigNat c.word with
  | false, .ok (.bankQuiesce x y false) => some (x.val, y.val)
  | _, _ => none

/-- The MT site whose control a command writes. -/
def itemControls (f : Sites) (c : CfgItem) : List (Nat × Nat) :=
  if c.isWrite && decide (f.kind c.x c.y = .mt) && c.e == 15 then [(c.x, c.y)] else []

/-- The commands between begin and commit: index of the first bad one. -/
def itemsBad (f : Sites) : List (Nat × Nat) → Option (Nat × Nat) → Nat → List CfgItem → Option Nat
  | _, _, _, [] => none
  | done, just, n, c :: t =>
    if itemBad f done just c then some n
    else itemsBad f (done ++ itemControls f c) (itemQuiesces c) (n + 1 + c.exts.length) t

def beginWord (part : Bool) (w h : Nat) : Nat := 32 * 2 ^ 26 + b2n part * 2 ^ 25 + w * 2 ^ 22 + h * 2 ^ 19

/-- A stream that is no begin, commands and commit, with the index of its first bad command (R148). -/
def malformedAt (f : Sites) (ws : List Nat) : Option Nat :=
  match cfgItems ws with
  | b :: rest =>
    if b.word ≠ beginWord (b.word.testBit 25) f.w f.h ∨ b.exts ≠ [] then some 0
    else
      match itemsBad f [] none 1 rest.dropLast with
      | some n => some n
      | none => if isCommitWord (ws.getLastD 0) then none else some (ws.length - 1)
  | [] => some 0

/-! ### Fields that an opcode honours -/

/-- Arity of the opcodes that take the fields of the lane opcodes (R220, R235). -/
def laneArity (op : Nat) : Option Nat :=
  if op = 0x043 then some 3
  else if (0x040 ≤ op ∧ op ≤ 0x045) ∨ (0x048 ≤ op ∧ op ≤ 0x04B) then some 2
  else if op = 0x046 ∨ op = 0x047 ∨ (0x080 ≤ op ∧ op ≤ 0x085) then some 1
  else if op = 0x0C1 ∨ op = 0x0C3 then some 3
  else if 0x0C0 ≤ op ∧ op ≤ 0x0C5 then some 2
  else if op = 0x103 then some 1
  else if 0x100 ≤ op ∧ op ≤ 0x107 then some 2
  else if (0x140 ≤ op ∧ op ≤ 0x149) ∨ (0x184 ≤ op ∧ op ≤ 0x186) then some 1
  else none

def isLaneOp (op : Nat) : Bool := (laneArity op).isSome || (decide (0x180 ≤ op) && decide (op ≤ 0x188))

/-- Fields that may be nonzero beside 0 and 12, by opcode, whatever the direction of a stream port (R123, R151). -/
def honoured (op : Nat) : List Nat :=
  if 0x040 ≤ op ∧ op ≤ 0x047 then [1, 3, 4, 5, 6, 7, 8, 9, 13, 14, 16, 17, 18]
  else if 0x048 ≤ op ∧ op ≤ 0x04B then [1, 3, 4, 5, 6, 7, 8, 9, 16, 17, 31]
  else if 0x080 ≤ op ∧ op ≤ 0x085 then [1, 3, 4, 5, 6, 7, 8, 9, 13, 14, 16]
  else if 0x0C0 ≤ op ∧ op ≤ 0x107 then [1, 3, 4, 5, 6, 7, 8, 9, 16, 17, 18, 31]
  else if 0x140 ≤ op ∧ op ≤ 0x149 then [1, 3, 4, 5, 6, 7, 8, 9, 13, 14, 16, 31]
  else if 0x180 ≤ op ∧ op ≤ 0x183 then [1, 3, 4, 5, 6, 7, 8, 9, 16, 17, 18, 19, 20, 21, 31]
  else if 0x184 ≤ op ∧ op ≤ 0x186 then [1, 3, 4, 5, 6, 7, 8, 9, 13, 14, 16]
  else if op = 0x187 ∨ op = 0x188 then [1, 3, 4, 5, 6, 7, 8, 9, 17, 31]
  else
    match op with
    | 0x001 => [16, 17, 18, 19]
    | 0x002 => [2, 3, 4, 5, 6, 9, 16, 17, 18, 19, 20, 21]
    | 0x242 => [2, 3, 4, 5, 6, 7, 9, 16, 17, 18, 19, 20, 21]
    | 0x003 => [3, 7, 9, 16, 17]
    | 0x1C0 => [1, 3, 4, 7, 8, 9, 13, 31]
    | 0x1C1 => [3, 7, 8, 9]
    | 0x200 | 0x201 | 0x202 | 0x203 => [1, 3, 4, 5, 6, 7, 8, 9, 10, 13, 14, 16, 17, 18, 31]
    | 0x204 => [9, 16]
    | 0x240 => [1, 2, 3, 4, 7, 9, 10, 13, 14, 16]
    | 0x241 => [1, 2, 3, 4, 5, 7, 8, 9, 10, 13, 14, 16]
    | 0x280 => [1, 3, 7, 8, 9]
    | 0x281 => [1, 3, 4, 5, 6, 7, 8, 9]
    | 0x289 => [1, 3, 4, 5, 6, 7, 9]
    | 0x28A => [1, 3, 9]
    | 0x282 | 0x283 | 0x284 => [1, 3, 4, 5, 6, 7, 9, 10]
    | 0x285 => [1, 3, 4, 7, 8, 9, 11]
    | 0x286 => [3, 4, 7, 8, 9, 16]
    | 0x287 => [3, 4, 5, 6, 7, 9, 16]
    | 0x288 => [3, 4, 5, 6, 7, 9, 11]
    | 0x2C0 => [1, 3, 4, 7, 9, 16]
    | 0x2C1 => [1, 2, 3, 7, 8, 9, 16, 17]
    | 0x2C2 => [1, 3, 4, 9, 10, 13, 14, 16]
    | 0x2C3 => [1, 2, 3, 4, 7, 9, 14, 16, 17]
    | 0x300 => [1, 3, 7, 9, 13, 14]
    | _ => []

/-- Fields that a stream port honours beside those: the route and the encoding mode of its direction (R240). -/
def portFields (F : Nat → Nat) : List Nat := if (F 16).testBit 6 then [3, 13] else [7]

/-- Bits of field 13 that an opcode honours: nantrap, sat, level, rm; sat only where it converts out of W64 (R75). -/
def numericBits (op : Nat) : Nat :=
  if (0x040 ≤ op ∧ op ≤ 0x047) ∨ (0x184 ≤ op ∧ op ≤ 0x186) then 0x23
  else if 0x080 ≤ op ∧ op ≤ 0x085 then 0x2F
  else if op = 0x142 ∨ op = 0x143 ∨ (0x145 ≤ op ∧ op ≤ 0x149) then 0x33
  else if 0x140 ≤ op ∧ op ≤ 0x149 then 0x23
  else if op = 0x201 ∨ op = 0x203 then 0x33
  else if op = 0x200 ∨ op = 0x202 then 0x23
  else
    match op with
    | 0x1C0 => 0x03
    | 0x204 => 0x13
    | 0x240 | 0x241 | 0x2C2 => 0x23
    | 0x300 => 0x20
    | _ => 0

/-- Bits of the option word c15 that a lane opcode honours (R223). -/
def optionBits (op : Nat) : Nat :=
  if 0x048 ≤ op ∧ op ≤ 0x04B then 2 ^ 17
  else if 0x0C0 ≤ op ∧ op ≤ 0x0C3 then 0xF * 2 ^ 11
  else if op = 0x0C4 ∨ op = 0x0C5 then 2 ^ 15
  else if (0x100 ≤ op ∧ op ≤ 0x107) ∨ op = 0x187 ∨ op = 0x188 then 3 * 2 ^ 6
  else if 0x140 ≤ op ∧ op ≤ 0x143 then 2 ^ 16
  else if 0x180 ≤ op ∧ op ≤ 0x183 then 3 * 2 ^ 6 + 0x3F * 2 ^ 18
  else if op = 0x1C0 then 7 * 2 ^ 8
  else if 0x200 ≤ op ∧ op ≤ 0x203 then 0xFE00
  else 0

/-- `v` has a bit outside `mask`. -/
def beyond (v mask : Nat) : Bool := v &&& mask != v

/-! ### One element -/

/-- The fields of one element of an image. -/
abbrev ElFields := Nat → Nat

def elIn (F : ElFields) (i : Nat) : Bool := bits (F (3 + i)) 8 2 != 0
def elReq (F : ElFields) (i : Nat) : Bool := (F 1).testBit (4 + i)
def elOut (F : ElFields) (o : Nat) : Bool := bits (F (7 + o)) 8 2 != 0

/-- Reserved bits of the routing fields (R153). -/
def routeBad (F : ElFields) : Bool :=
  ((List.range 4).any fun i =>
    let v := F (3 + i)
    let k := bits v 8 2
    beyond v 0x7F8 || (k == 0 && v != 0) || (k == 2 && v.testBit 3) || (k == 3 && bits v 3 5 != 0)) ||
  ((List.range 2).any fun o =>
    let v := F (7 + o)
    let k := bits v 8 2
    bits v 0 2 != 0 || (k == 0 && v != 0) || (k == 1 && bits v 10 10 != 0) || (k == 2 && (bits v 10 10 != 0 || bits v 2 2 != 0)))

/-- Opcodes at which a routed input need not be required (R152). -/
def freeInputs (op : Nat) : Bool :=
  op == 0 || op == 0x002 || op == 0x242 || op == 0x003 || op == 0x1C1 || op == 0x204 || op == 0x286 || op == 0x287 || op == 0x288

/-- Inputs that the entry of an opcode requires whatever else is routed; those of the lane, memory and matrix opcodes stand with them
(R237, R261 to R263, R268 to R271); a decoder's is a converter path (R281). -/
def mustReq (op : Nat) : List Nat :=
  match op with
  | 0x1C0 | 0x280 | 0x281 | 0x282 | 0x283 | 0x289 | 0x2C0 | 0x2C1 => [0]
  | 0x285 | 0x2C2 | 0x2C3 => [0, 1]
  | 0x284 => [0, 1, 2]
  | _ => []

/-- Enables, predicate input and rates (R152, R153, R220); an ejoin's match code (R262); the inputs of gate, mma and mrec, whose
predicate input is the one behind the data inputs (R257, R258, R261). -/
def inputBad (op : Nat) (F : ElFields) : Bool :=
  let code := bits (F 1) 0 2
  let p := bits (F 1) 2 2
  bits (F 1) 8 2 != 0 || ((code == 1 || code == 2) && !(elReq F p && elIn F p))
    || ((List.range 4).any fun i => elReq F i && !elIn F i) || ((mustReq op).any fun i => !elReq F i)
    || (!freeInputs op && (List.range 4).any fun i => elIn F i && !elReq F i)
    || (if op = 0x204 then beyond (F 9) (if (F 16).testBit 6 then 0x003 else 0x300) else if 0x200 ≤ op ∧ op ≤ 0x203 then false else F 9 != 0)
    || ((op == 0x282 || op == 0x283 || op == 0x284) && code != 0)
    || ((op == 0x240 || op == 0x241) && (List.range 4).any fun i =>
        let q := op - 0x23F
        (elReq F i && decide (q ≤ i) && !((code == 1 || code == 2) && p == i)) || ((code == 1 || code == 2) && p != q))
    || (op == 0x289 && (List.range 4).any fun i => elReq F i && i != 0 && !((code == 1 || code == 2) && p == i))
    || (match laneArity op with
      | none => false
      | some n => !elReq F 0 || (List.range 4).any fun i =>
          (decide (n ≤ i) && elReq F i && !((code == 1 || code == 2) && p == i)) ||
          (decide (i < n) && elReq F i && F (16 + i) != 0) || (decide (n ≤ i) && decide (i < 3) && F (16 + i) != 0))

/-- Flags and iteration policy (R59, R151, R245, R258). -/
def flagsBad (op : Nat) (F : ElFields) (partner : ElFields) : Bool :=
  let v := F 10
  let pol := bits (F 11) 0 2
  decide (32 ≤ v) || (v.testBit 1 && v.testBit 2) || (v.testBit 0 && !(op == 0x282 || op == 0x283 || op == 0x284))
    || ((v.testBit 3 || v.testBit 4) && !(op == 0x240 || op == 0x241 || op == 0x2C2)) || (v.testBit 3 && op == 0x241)
    || (v.testBit 1 && !(decide (0x200 ≤ op) && decide (op ≤ 0x203))) || (v.testBit 2 && !(decide (0x200 ≤ op) && decide (op ≤ 0x203)))
    || decide (64 ≤ F 11) || (pol == 2 && op != 0x288) || (pol == 3 && op != 0x285) || pol == 1 || (pol == 0 && F 11 != 0)
    || (pol == 2 && bits (partner 11) 0 2 != 3) || (pol == 3 && bits (partner 11) 0 2 != 2)

/-- Formats and placements of a memory element (R242); each input behind the heads is a completion input of rate 1 or the predicate
input (R241). -/
def memBad (op e : Nat) (F : ElFields) : Bool :=
  let v := F 31
  let fmt := bits v 12 4
  let lay := bits v 9 2
  let store := op == 0x201 || op == 0x203
  let indexed := op == 0x202 || op == 0x203
  let sq := e == 9
  let code := bits (F 1) 0 2
  let heads := if store then 2 else 1
  let cmpl (i : Nat) : Bool := (F (3 + i)).testBit 10
  ((List.range 4).any fun i =>
    (cmpl i && (decide (i < heads) || bits (F 9) (2 * i) 2 != 0))
      || (elReq F i && decide (heads ≤ i) && !cmpl i && !((code == 1 || code == 2) && bits (F 1) 2 2 == i))) || F 17 == 0 || (indexed && lay == 2) || (v.testBit 11 && !(fmt == 6 || fmt == 7 || fmt == 8))
    || !elReq F 0 || (store && !elReq F 1) || ((F 10).testBit 2 && store && !sq)
    || (if sq then !((fmt == 9 && lay == 0) || (fmt == 10 && lay == 2) || (fmt == 8 && lay == 1)) || F 18 != 0
          || decide (2 ^ 31 ≤ F 16) || decide (2 ^ 21 < bits (F 16) 0 21 + F 17 * fmtWidth fmt / 8)
        else !pairs fmt lay || fmt == 11 || (fmt == 5 && (store || indexed)) || decide (2 ^ 56 ≤ F 16) || (fmt != 5 && F 18 != 0))

/-- Capacity of an operand slot in elements, by kind: fp8, e2m1, bf16, w64 (R248). -/
def kindCapacity (kind : Nat) : Nat :=
  match kind with
  | 0 => 32768
  | 1 => 65536
  | 2 => 16384
  | _ => 4096

/-- Bindings of a tile memory control (R249, R253). -/
def tmBad (F : ElFields) : Bool :=
  let used := (List.range 4).filterMap fun i => if (F (17 + i)).testBit 3 then some (bits (F (17 + i)) 0 3) else none
  decide (used.eraseDups.length < used.length) || decide (16 ≤ F 16) || (List.range 4).any fun i =>
    let v := F (17 + i)
    let kind := bits v 16 2
    let fmt := bits v 18 4
    let cols := bits v 28 10 + 1
    v.testBit 3 && (decide (kindCapacity kind < (bits v 22 6 + 1) * cols) || decide (2 ^ 38 ≤ v) || bits v 4 10 != 0
      || (decide (4 ≤ bits v 0 3) && (F 16).testBit (bits v 0 3 - 4))
      || (if v.testBit 15 then fmt != 0 || cols % 8 != 0
          else !((kind == 0 && (fmt == 3 || fmt == 4)) || (kind == 1 && fmt == 5) || (kind == 2 && (fmt == 1 || fmt == 2))
              || (kind == 3 && (fmt == 0 || fmt == 9))) || (fmt == 5 && cols % 32 != 0)))

/-- Kinds of shape register that may stand behind a matrix operation, with the granule of k: the declared one, or any where the image
comes without a declaration of the register (R210, R255, log 105). -/
def matrixKinds (kind : Option Nat) : List (Nat × Nat) := [(0, 32), (1, 64), (2, 16)].filter fun k => kind.all fun d => d == k.1 + 1

/-- The constant c0 of mma and mrec (R255, R258); `kind` is the declared kind of the register that field 2 names (R397). -/
def mmaBad (op : Nat) (F tm : ElFields) (kind : Option Nat) : Bool :=
  let v := F 16
  let kt := bits v 18 11 + 1
  (!(matrixKinds kind).any fun k =>
    kt % k.2 == 0 && decide (16 * (bits v 14 2 + 1) * kt ≤ kindCapacity k.1) && decide (16 * (bits v 16 2 + 1) * kt ≤ kindCapacity k.1)) ||
  let acc (k : Nat) : Bool := decide (4 ≤ k) && (tm 16).testBit (k - 4)
  decide (2 ^ 52 ≤ v) || bits v 49 3 == 7 || bits v 39 10 % 16 != 0 || bits v 29 10 % 16 != 0 || !(tm 16).testBit (bits v 12 2)
    || acc (bits v 0 3) || acc (bits v 3 3) || acc (bits v 6 3) || acc (bits v 9 3)
    || (op == 0x240 && !(F 10).testBit 3 && !(F 10).testBit 4) || !elReq F 0 || (op == 0x241 && !elReq F 1)

/-- A slot that the tile memory of its CT fills with a tile of kind w64 (R270, R271). -/
def tableSlot (tm : ElFields) (slot : Nat) : Bool :=
  (List.range 4).any fun i => (tm (17 + i)).testBit 3 && bits (tm (17 + i)) 0 3 == slot && bits (tm (17 + i)) 16 2 == 3

/-- Constants of the other opcodes: reserved bits and ranges; shape registers that the entries ask for (R155, R253, R256, R259, R267 to
R271). -/
def constBad (op : Nat) (F tm : ElFields) : Bool :=
  match op with
  | 0x182 =>
    let P := posCount (bits (F 31) 6 2)
    let table := (List.range 6).foldl (fun n i => n + F (16 + i) * 2 ^ (64 * i)) 0
    decide (P ≤ bits (F 31) 18 6) || (List.range 64).any fun j =>
      let k := bits table (6 * j) 6
      (decide (P ≤ j) && k != 0) || (decide (P ≤ k) && k != 63)
  | 0x180 | 0x181 | 0x183 =>
    decide (posCount (bits (F 31) 6 2) ≤ bits (F 31) 18 6) || (List.range 6).any fun i => F (16 + i) != 0
  | 0x184 | 0x185 | 0x186 => F 16 != 0
  | 0x187 | 0x188 => (!elReq F 1) && decide (2 ^ posCount (bits (F 31) 6 2) ≤ F 17)
  | 0x1C0 => bits (F 31) 8 3 == 7
  | 0x001 => (List.range 4).any fun i => decide (2 ^ 8 ≤ F (16 + i))
  | 0x003 => decide (2 ^ 13 ≤ F 16) || decide (8 < bits (F 16) 0 4) || decide (bits (F 16) 9 4 + 1 < bits (F 16) 0 4)
  | 0x204 => beyond (F 16) 0xFDF
  | 0x240 | 0x241 => !(F 2).testBit 3
  | 0x242 => !(F 2).testBit 3 || decide (2 ^ 28 ≤ F 21) || bits (F 21) 18 10 % 16 != 0 || bits (F 21) 8 10 % 16 != 0
  | 0x286 => decide (2 ^ 33 ≤ F 16) || ((F 16).testBit 32 && elOut F 1) || !elIn F 0
  | 0x2C2 => decide (2 ^ 16 ≤ F 16) || !tableSlot tm (bits (F 16) 3 3)
  | 0x2C3 => !(F 2).testBit 3 || decide (8 ≤ F 16) || !tableSlot tm (F 16)
  | 0x287 | 0x2C0 => decide (4 ≤ F 16)
  | 0x2C1 => decide (4 ≤ F 16) || F 17 == 0 || decide (4096 < F 17) || !(F 2).testBit 3
  | _ => false

/-- Bits of lay that name no layout (R223). -/
def layBad (op : Nat) (F : ElFields) : Bool :=
  ((decide (0x100 ≤ op) && decide (op ≤ 0x107)) || (decide (0x180 ≤ op) && decide (op ≤ 0x183)) || op == 0x187 || op == 0x188)
    && bits (F 31) 6 2 == 3

/-- Fields that an element without an opcode honours: the channels and the control of an MT, and the table pages (R155, R157). -/
def honouredNone (k : TileKind) (e : Nat) : List Nat :=
  match k with
  | .mt => if e = 15 then [16, 17, 18] else [3, 7, 12, 16]
  | .xt => if 8 ≤ e then (List.range 16).map (16 + ·) else []
  | .ct | .ag | .ladder | .none => []

/-- The control of an MT: role, interleave and the range of a cache bank (R97, R155). -/
def mcBad (F : ElFields) : Bool :=
  decide (64 ≤ F 16) || decide (4 < bits (F 16) 2 4) ||
    (if bits (F 16) 0 2 = 3 then bits (F 17) 0 12 != 0 || decide (2 ^ 56 ≤ F 17) || F 18 == 0 || decide (2 ^ 44 ≤ F 18)
     else F 17 != 0 || F 18 != 0)

/-- An element without an opcode is refused (code 6): a field that it does not honour, or a value out of range. -/
def noneBad (k : TileKind) (e : Nat) (F : ElFields) : Bool :=
  ((List.range 32).any fun f => f != 0 && F f != 0 && !(honouredNone k e).contains f) || routeBad F
    || (decide (k = .mt) && (if e = 15 then mcBad F else decide (65536 < F 16) || (F 16 == 0 && (elIn F 0 || elOut F 0))))

/-- Kinds of register that an opcode may name in field 2 (R253, R255, R256, R269, R271). -/
def kindsOf (op : Nat) : List Nat :=
  if op = 0x240 ∨ op = 0x241 then [1, 2, 3] else if op = 0x2C1 ∨ op = 0x2C3 then [4] else [0, 1, 2, 3, 4]

/-- An element with an opcode is refused (code 6): a field that its opcode does not honour (R123, R151), or a value or combination that
its entry refuses. `kinds` gives the declared kind of a shape register (R397). -/
def elementBad (k : TileKind) (e : Nat) (F : ElFields) (tile : Nat → ElFields) (kinds : Nat → Option Nat) : Bool :=
  let op := F 0
  let allowed := honoured op ++ (if op = 0x204 then portFields F else [])
  let kind := if (F 2).testBit 3 then kinds (bits (F 2) 0 3) else none
  if op = 0 then noneBad k e F
  else
    ((List.range 32).any fun f => f != 0 && f != 12 && F f != 0 && !allowed.contains f)
      || (op == 0x001 && F 12 != 0) || kind.any (fun d => !(kindsOf op).contains d)
      || decide (16 ≤ F 2) || beyond (F 13) (numericBits op)
      || ((isLaneOp op || op == 0x1C0 || (decide (0x200 ≤ op) && decide (op ≤ 0x203))) && beyond (F 31) (optionBits op))
      || routeBad F || inputBad op F || flagsBad op F (tile (bits (F 11) 2 4)) || constBad op F (tile 14) || layBad op F
      || (decide (0x200 ≤ op) && decide (op ≤ 0x203) && memBad op e F)
      || ((op == 0x002 || op == 0x242) && tmBad F)
      || ((op == 0x240 || op == 0x241) && mmaBad op F (tile 14) kind)

/-! ### Edges and ports -/

/-- The two ends of a local or dynamic edge agree, and no input has two producers (R153). -/
def edgeBad (at' : Nat → Nat → Nat → ElFields) (els : List (Nat × Nat × Nat)) (p : Nat × Nat × Nat) : Bool :=
  let (x, y, e) := p
  let F := at' x y e
  ((List.range 2).any fun o =>
    let w := F (7 + o)
    let v := if bits w 8 2 = 3 then at' (bits w 15 5) (bits w 10 5) (bits w 4 4) (3 + bits w 2 2) else at' x y (bits w 4 4) (3 + bits w 2 2)
    (bits w 8 2 == 3 && bits v 8 2 != 3) || (bits w 8 2 == 1 && (bits v 8 2 != 1 || bits v 4 4 != e || bits v 3 1 != o))) ||
  ((List.range 4).any fun i =>
    let v := F (3 + i)
    let outs := els.flatMap fun q => (List.range 2).filterMap fun o =>
      let w := at' q.1 q.2.1 q.2.2 (7 + o)
      let here := (bits w 8 2 == 1 && q.1 == x && q.2.1 == y && bits w 4 4 == e && bits w 2 2 == i)
        || (bits w 8 2 == 3 && bits w 15 5 == x && bits w 10 5 == y && bits w 4 4 == e && bits w 2 2 == i)
      if here then some (bits w 8 2, q.2.2, o) else none
    match bits v 8 2 with
    | 1 => outs != [(1, bits v 4 4, (bits v 3 1))]
    | 3 => decide (outs.length ≠ 1) || outs.any fun o => o.1 != 3
    | _ => !outs.isEmpty)

/-- Two outputs of a tile send on one static channel (R153). -/
def channelBad (at' : Nat → Nat → Nat → ElFields) (x y : Nat) : Bool :=
  let sends := (List.range 16).flatMap fun e => (List.range 2).filterMap fun o =>
    let w := at' x y e (7 + o)
    if bits w 8 2 = 2 then some (bits w 4 4) else none
  decide (sends.eraseDups.length < sends.length)

/-- Port numbers and queue indices bound twice (R155). -/
def portsBad (at' : Nat → Nat → Nat → ElFields) (els : List (Nat × Nat × Nat)) : Bool :=
  let ses := (els.map fun q => at' q.1 q.2.1 q.2.2).filter fun F => F 0 == 0x204 && (F 16).testBit 7
  let ports := ses.map fun F => bits (F 16) 0 7 % 128
  let qps := (ses.filter fun F => (F 16).testBit 11).map fun F => bits (F 16) 8 3
  decide (ports.eraseDups.length < ports.length) || decide (qps.eraseDups.length < qps.length)

/-- The virtual converter is reached by dynamic edges alone, and the one virtual ladder is named by 0 (R275). -/
def portableElementBad (y e : Nat) (F : ElFields) : Bool :=
  (y == 0 && e == 0 && F 0 == 0x300 && (bits (F 3) 8 2 != 3 || bits (F 7) 8 2 != 3)) || (F 0 == 0x2C1 && F 16 != 0)

/-- GVF-1 sites that a portable image may configure (R275). -/
def portableBad (c : CfgItem) : Bool :=
  c.isWrite && (c.x == 0 || c.x == 11 || c.y == 9 || (c.y == 0 &&
    !((c.x == 7 && (c.e == 0 || decide (8 ≤ c.e))) || (virtualAgs.contains c.x && (c.e == 0 || c.e == 4)))))

end Sys2Proof.Machine
end

