-- ==== Sys2Proof/Machine/ImageGraph.lean ====
section
/-!
DEFINITION. What the loader refuses in the graph of an image (R362 codes 6 and 8): the routes of R153 traced through pass maps and MT
sites, completion edges (R54, R152), the layouts of R237, R242, R263, R264 and R267, the elements that a takeback can reach (R56, R61),
and cycles of edges without an initial token (R259, R281). The counts of rates, cycles and loops follow in ImageRates.
-/
namespace Sys2Proof.Machine

/-! ### Edges of an image (R50, R153) -/

/-- An element of an image: x, y and element address. -/
abbrev ImgElem := Nat × Nat × Nat

/-- An output or an input of an element of an image. -/
abbrev ImgPort := ImgElem × Nat

/-- An image as the loader sees it: its geometry, the elements it writes and their fields. -/
structure Img where
  sites : Sites
  at' : Nat → Nat → Nat → ElFields
  els : List ImgElem
  /-- Declared kind of each shape register, where the image comes with one (R397). -/
  kinds : Nat → Option Nat

def Img.of (f : Sites) (kinds : Nat → Option Nat) (l : List CfgItem) : Img :=
  { sites := f, kinds, at' := imgField l, els := ((l.filter CfgItem.isWrite).map fun c => (c.x, c.y, c.e)).eraseDups }

def Img.fields (g : Img) (p : ImgElem) : ElFields := g.at' p.1 p.2.1 p.2.2
def Img.op (g : Img) (p : ImgElem) : Nat := g.fields p 0

/-- Where a static channel ends. -/
inductive ImgEnd where
  | input (p : ImgPort)
  | leaves
  | dead
  deriving DecidableEq, Repr

/-- A direction and a channel of a route field. -/
def sendsOn (F : ElFields) (d : Dir) (c : Nat) : Bool :=
  (List.range 2).any fun o => bits (F (7 + o)) 8 2 == 2 && bits (F (7 + o)) 6 2 == d.num && bits (F (7 + o)) 4 2 == c

/-- The input of a tile that terminates channel `c` arriving from side `d`. -/
def Img.terminates (g : Img) (x y : Nat) (d : Dir) (c : Nat) : Option ImgPort :=
  g.els.findSome? fun p =>
    if p.1 == x && p.2.1 == y then
      (List.range 4).findSome? fun i =>
        let v := g.fields p (3 + i)
        if bits v 8 2 = 2 ∧ bits v 6 2 = d.num ∧ bits v 4 2 = c then some (p, i) else none
    else none

/-- Follows channel `c` out of (x, y) in direction `d`: the links it takes, and its end. A ring site that the image leaves alone may be a
tile of a neighbouring region (R22, R149). -/
def Img.follow (g : Img) (c : Nat) : Nat → Nat → Nat → Dir → List (Nat × Nat × Nat × Nat) × ImgEnd
  | 0, _, _, _ => ([], .dead)
  | fuel + 1, x, y, d =>
    let here := (x, y, d.num, c)
    match d.go x y with
    | none => ([here], .dead)
    | some (nx, ny) =>
      match g.terminates nx ny d.opp c with
      | some p => ([here], .input p)
      | none =>
        let on (way : Dir) : List (Nat × Nat × Nat × Nat) × ImgEnd :=
          let r := g.follow c fuel nx ny way
          (here :: r.1, r.2)
        match g.sites.kind nx ny with
        | .mt => if (List.range 8).any fun e => sendsOn (g.at' nx ny e) d c then ([here], .dead) else on d
        | .ct =>
          match bits (g.at' nx ny 15 (16 + d.opp.num)) (2 * c) 2 with
          | 1 => on d
          | 2 => on d.left
          | 3 => on d.right
          | _ => ([here], .dead)
        | .ag | .xt => ([here], if g.els.any fun p => p.1 == nx && p.2.1 == ny then .dead else .leaves)
        | .ladder | .none => ([here], if nx ≤ 5 * g.sites.w + 1 ∧ ny ≤ 4 * g.sites.h + 1 then .leaves else .dead)

/-- Enabled outputs of an image. -/
def Img.outs (g : Img) : List ImgPort :=
  g.els.flatMap fun p => (List.range 2).filterMap fun o => if elOut (g.fields p) o then some (p, o) else none

/-- Links and end of the edge of an output. -/
def Img.route (g : Img) (q : ImgPort) : List (Nat × Nat × Nat × Nat) × ImgEnd :=
  let v := g.fields q.1 (7 + q.2)
  match bits v 8 2 with
  | 1 => ([], .input ((q.1.1, q.1.2.1, bits v 4 4), bits v 2 2))
  | 2 => g.follow (bits v 4 2) 512 q.1.1 q.1.2.1 (dirOf (bits v 6 2))
  | _ => ([], .input ((bits v 15 5, bits v 10 5, bits v 4 4), bits v 2 2))

/-- Edges inside the image. -/
abbrev Edges := List (ImgPort × ImgPort)

def Img.edges (g : Img) : Edges :=
  g.outs.filterMap fun q => match (g.route q).2 with
    | .input p => some (q, p)
    | .leaves | .dead => none

def Edges.from? (l : Edges) (q : ImgPort) : Option ImgPort := (l.find? fun e => e.1 == q).map (·.2)
def Edges.into (l : Edges) (p : ImgPort) : Option ImgPort := (l.find? fun e => e.2 == p).map (·.1)

/-- The ring site from which channel `c` can come to (x, y) from side `d`: next to it, or beyond MTs that pass the channel on (R155). -/
def Img.entry (g : Img) (c : Nat) (d : Dir) : Nat → Nat → Nat → Option (Nat × Nat)
  | 0, _, _ => none
  | fuel + 1, x, y =>
    match d.go x y with
    | none => none
    | some (nx, ny) =>
      if nx == 0 || ny == 0 || nx == 5 * g.sites.w + 1 || ny == 4 * g.sites.h + 1 then some (nx, ny)
      else if g.sites.kind nx ny = .mt ∧ !((List.range 8).any fun e => sendsOn (g.at' nx ny e) d.opp c) then g.entry c d fuel nx ny
      else none

/-- Channels that may come from a neighbouring region: those that a pass map of the image carries on from a ring site that the image
leaves alone, past the MTs of an edge column too, with the pass map that carries each (R149, R153, R155, log 100). -/
def Img.guests (g : Img) : List (ImgElem × List (Nat × Nat × Nat × Nat) × ImgEnd) :=
  g.els.flatMap fun p =>
    if p.2.2 = 15 ∧ g.op p = 0x001 then
      [Dir.n, .e, .s, .w].flatMap fun d => (List.range 4).filterMap fun c =>
        match g.entry c d 32 p.1 p.2.1 with
        | none => none
        | some (nx, ny) =>
          if bits (g.fields p (16 + d.num)) (2 * c) 2 ≠ 0 ∧ !(g.els.any fun q => q.1 == nx && q.2.1 == ny) then
            some (p, g.follow c 512 nx ny d.opp)
          else none
    else []

/-- Elements of a portable image whose channels leave by a ring site, or come from one: GVF-1 has nothing there (R275). -/
def Img.crosses (g : Img) : List ImgElem :=
  ((g.outs.filter fun q => (g.route q).2 == .leaves).map (·.1)) ++ g.guests.map (·.1)

/-- Elements whose channel, or the channel that they carry on, is carried nowhere or shares a link with another (R153). -/
def Img.routesBad (g : Img) : List ImgElem :=
  let rs := (g.outs.map fun q => (q.1, g.route q)) ++ g.guests
  let links := rs.flatMap fun r => r.2.1
  (rs.filter fun r => r.2.2 == .dead || r.2.1.any fun k => decide (1 < links.count k)).map (·.1)

/-! ### Completion edges (R54, R152) -/

def isMemOp (op : Nat) : Bool := decide (0x200 ≤ op) && decide (op ≤ 0x203)

/-- Completion tokens can leave by the output: output 1 of a memory element, directly or through forks. -/
def Img.completes (g : Img) (l : Edges) : Nat → ImgPort → Bool
  | 0, _ => false
  | fuel + 1, q =>
    if isMemOp (g.op q.1) then q.2 == 1
    else if g.op q.1 = 0x280 then
      (match l.into (q.1, 0) with
       | some r => g.completes l fuel r
       | none => false)
    else false

/-- A completion input that another output feeds, or completion tokens at an input that does not take them. -/
def Img.completionBad (g : Img) (l : Edges) (p : ImgElem) : Bool :=
  let F := g.fields p
  (List.range 4).any fun i =>
    let brings := match l.into (p, i) with
      | some q => g.completes l 64 q
      | none => false
    if (F (3 + i)).testBit 10 then !brings
    else brings && !(F 0 == 0x280 || F 0 == 0x28A || F 0 == 0x204)

/-! ### Layouts of single opcodes -/

/-- An exact-reduce chain keeps the layout of R237, and every limb stands in one. -/
def Img.chainBad (g : Img) (l : Edges) (p : ImgElem) : Bool :=
  let e := p.2.2
  let sib (k : Nat) : ImgElem := (p.1, p.2.1, k)
  let F := g.fields p
  if F 0 = 0x1C0 then
    l.from? (p, 1) != some (sib (e + 1), 0)
      || (elReq F 1 && !((bits (F 1) 0 2 == 1 || bits (F 1) 0 2 == 2) && bits (F 1) 2 2 == 1))
      || (List.range 4).any fun k =>
        let q := sib (e + k + 1)
        g.op q != 0x1C1 || bits (g.fields q 3) 8 2 != 1 ||
          (if k = 3 then elOut (g.fields q) 1 else elOut (g.fields q) 0 || l.from? (q, 1) != some (sib (e + k + 2), 0))
  else if F 0 = 0x1C1 then
    !(List.range 4).any fun k => decide (k + 1 ≤ e) && g.op (sib (e - (k + 1))) == 0x1C0
      && (List.range k).all fun j => g.op (sib (e - (j + 1))) == 0x1C1
  else false

/-- The MT that sq names: a site of the region, in the addressed-buffer role (R241, R242). -/
def Img.bufferBad (g : Img) (p : ImgElem) : Bool :=
  let c := g.fields p 16
  isMemOp (g.op p) && p.2.2 == 9 &&
    !(decide (g.sites.kind (bits c 26 5) (bits c 21 5) = .mt) && bits (g.at' (bits c 26 5) (bits c 21 5) 15 16) 0 2 == 1)

/-- A further cache bank declares a range that overlaps another without being identical (R97). -/
def Img.rangeBad (g : Img) (p : ImgElem) : Bool :=
  let bank (q : ImgElem) : Bool := decide (g.sites.kind q.1 q.2.1 = .mt) && q.2.2 == 15 && bits (g.fields q 16) 0 2 == 3
  let lo (q : ImgElem) : Nat := g.fields q 17
  let hi (q : ImgElem) : Nat := g.fields q 17 + 4096 * g.fields q 18
  bank p && g.els.any fun q => bank q && (lo q != lo p || hi q != hi p) && decide (lo p < hi q) && decide (lo q < hi p)

/-- Elements downstream of an output, in the order in which they are found. -/
def Img.downstream (l : Edges) : Nat → List ImgElem → List ImgElem
  | 0, found => found
  | fuel + 1, found =>
    let next := (l.filter fun e => found.contains e.1.1 && !found.contains e.2.1).map (·.2.1)
    if next.isEmpty then found else Img.downstream l fuel (found ++ next.eraseDups)

/-- The points at which the arm from an output can end: merges, sinks and ports of store streams (R264). -/
def Img.armEnds (g : Img) (l : Edges) (q : ImgPort) : List ImgElem :=
  match (g.route q).2 with
  | .leaves | .dead => []
  | .input p =>
    (Img.downstream l g.els.length [p.1]).filter fun b =>
      let F := g.fields b
      F 0 == 0x287 || F 0 == 0x288 || F 0 == 0x28A || (F 0 == 0x204 && (F 16).testBit 6)

/-- The arms of a steer end as R264 asks: both meet one merge, or each ends at a sink, a store port or a loop-entry merge. A steer of
which one arm reaches a merge by seq and the other can end at a sink alone would leave its merge waiting: it is refused too (log 106). -/
def Img.armsBad (g : Img) (l : Edges) (p : ImgElem) : Bool :=
  let a := g.armEnds l (p, 0)
  let b := g.armEnds l (p, 1)
  let bySeq (x : List ImgElem) : Bool := x.any fun q => g.op q == 0x287
  let ends (x : List ImgElem) : Bool :=
    x.any fun q => g.op q == 0x28A || g.op q == 0x204 || (g.op q == 0x288 && bits (g.fields q 11) 0 2 == 2)
  let common := a.any fun q => (g.op q == 0x287 || g.op q == 0x288) && b.contains q
  let waits (x y : List ImgElem) : Bool := bySeq x && !bySeq y && y.any fun q => g.op q == 0x28A
  !(common || (ends a && ends b)) || waits a b || waits b a

/-- The input that an output leads to, past delay nodes and FIFO channels. -/
def Img.leadsTo (g : Img) (l : Edges) : Nat → ImgPort → Option ImgPort
  | 0, _ => none
  | fuel + 1, q =>
    match l.from? q with
    | some p => if g.op p.1 = 0x003 ∨ g.op p.1 = 0x000 then g.leadsTo l fuel (p.1, 0) else some p
    | none => none

/-- The steers: two routed arms that end; a loop exit whose output 1 leads to its partner's input 1, delay nodes and channels on the way
allowed (R263, R264, log 100). -/
def Img.steerBad (g : Img) (l : Edges) (p : ImgElem) : Bool :=
  let F := g.fields p
  F 0 == 0x285 && (!elOut F 0 || !elOut F 1 ||
    (if bits (F 11) 0 2 = 3 then g.leadsTo l 64 (p, 1) != some ((p.1, p.2.1, bits (F 11) 2 4), 1)
     else g.armsBad l p))

/-- An input of a FIFO channel. -/
def Img.isChannel (g : Img) (p : ImgPort) : Bool :=
  decide (g.sites.kind p.1.1 p.1.2.1 = .mt) && decide (p.1.2.2 < 8) && bits (g.at' p.1.1 p.1.2.1 15 16) 0 2 == 2

/-- Inputs that a ticket reaches, through forks, delay nodes and FIFO channels. -/
def Img.tickets (g : Img) (l : Edges) : Nat → ImgPort → List ImgPort
  | 0, _ => []
  | fuel + 1, q =>
    match l.from? q with
    | none => []
    | some p =>
      if g.op p.1 = 0x280 then g.tickets l fuel (p.1, 0) ++ g.tickets l fuel (p.1, 1)
      else if g.op p.1 = 0x003 ∨ g.isChannel p then g.tickets l fuel (p.1, 0)
      else [p]

/-- A missed row must be parked: output 1 of a direct steer.ert, and the missed arm of each steer that takes its tickets, end at a
FIFO channel (R267, R308). -/
def Img.parkBad (g : Img) (l : Edges) (p : ImgElem) : Bool :=
  let F := g.fields p
  let parks (q : ImgPort) : Bool := match l.from? q with
    | some r => g.isChannel r
    | none => false
  F 0 == 0x286 &&
    (if (F 16).testBit 32 then (g.tickets l 64 (p, 0)).any fun t => g.op t.1 == 0x285 && t.2 == 1 && !parks (t.1, 0)
     else !parks (p, 1))

/-- Only data tokens, and poison of a trap, can leave an output that stands on the feedback loop of an mrec: output 1 of an mrec, or that of
an element whose inputs bring nothing else and which skips no firing (R303). A completion output is none. -/
def Img.dataOnly (g : Img) (l : Edges) : Nat → ImgPort → Bool
  | 0, _ => true
  | fuel + 1, q =>
    let F := g.fields q.1
    let from' (i : Nat) : Bool := match l.into (q.1, i) with
      | some r => g.dataOnly l fuel r
      | none => false
    if F 0 = 0x241 then q.2 == 1
    else if F 0 = 0x003 ∨ g.isChannel (q.1, 0) ∨ F 0 = 0x286 then from' 0
    else if F 0 = 0x287 ∨ F 0 = 0x288 then (List.range 4).all fun i => !elIn F i || from' i
    else if F 0 = 0x285 then from' 0 && from' 1
    else if (0x280 ≤ F 0 ∧ F 0 ≤ 0x284) ∨ F 0 = 0x289 ∨ F 0 = 0x2C0 ∨ F 0 = 0x300 ∨ isLaneOp (F 0) ∨ (isMemOp (F 0) ∧ q.2 = 0) then
      bits (F 1) 0 2 == 0 && (List.range 4).all fun i => !elReq F i || (F (3 + i)).testBit 10 || from' i
    else false

/-- Input 1 of an mrec, fed by something that can bring it another kind of token than data (R303). -/
def Img.feedbackBad (g : Img) (l : Edges) (p : ImgElem) : Bool :=
  g.op p == 0x241 && !(match l.into (p, 1) with
    | some q => g.dataOnly l (2 * g.els.length + 1) q
    | none => false)

/-! ### Takebacks (R56, R61) -/

/-- Inputs up which an element passes a takeback that has reached the outputs `o`: none where it ends there. -/
def passesUp (F : ElFields) (o : List Nat) : List Nat :=
  let op := F 0
  let whole := (List.range 2).all fun k => !elOut F k || o.contains k
  let data := (List.range 4).filter fun i => elReq F i && !(F (3 + i)).testBit 10
  if op = 0x003 ∨ op = 0x000 then [0]
  else if isMemOp op then (if (F 10).testBit 2 then data else [])
  else if sideEffectFree op then (if whole then data else [])
  else []

/-- An opcode at which the loader refuses a takeback (R61, R237, R245, R254, R257, R263, R265 to R267, R269 to R272). -/
def refusesTakeback (F : ElFields) : Bool :=
  match F 0 with
  | 0x002 | 0x242 | 0x240 | 0x241 | 0x2C1 | 0x2C2 | 0x2C3 | 0x300 | 0x1C0 | 0x1C1 | 0x286 | 0x287 => true
  | 0x285 => bits (F 11) 0 2 != 3
  | 0x288 => bits (F 11) 0 2 != 2
  | op => isMemOp op && !(F 10).testBit 1 && !(F 10).testBit 2

/-- Outputs that a takeback can reach, from those where it starts. -/
def Img.taken (g : Img) (l : Edges) : Nat → List ImgPort → List ImgPort
  | 0, found => found
  | fuel + 1, found =>
    let next := (found.map (·.1)).eraseDups.flatMap fun p =>
      (passesUp (g.fields p) ((found.filter fun q => q.1 == p).map (·.2))).filterMap fun i => l.into (p, i)
    let fresh := (next.eraseDups).filter fun q => !found.contains q
    if fresh.isEmpty then found else g.taken l fuel (found ++ fresh)

/-- Outputs that feed the inputs of early joins: those that `want` picks by opcode and input. -/
def Img.joined (g : Img) (l : Edges) (want : Nat → Nat → Bool) : List ImgPort :=
  (l.filter fun e => (g.fields e.2.1 10).testBit 0 && elReq (g.fields e.2.1) e.2.2 && want (g.op e.2.1) e.2.2).map (·.1)

/-- Elements that a takeback can reach where the loader refuses one, and must-perform elements on an arm of a select join that do not
take a predicate (R56). -/
def Img.takenBad (g : Img) (l : Edges) : List ImgElem :=
  let n := 2 * g.els.length
  let all := g.taken l n (g.joined l fun _ _ => true)
  let arms := g.taken l n (g.joined l fun op i => op == 0x284 && i != 0)
  (all.filter fun q => refusesTakeback (g.fields q.1)).map (·.1) ++
    (arms.filter fun q =>
      let F := g.fields q.1
      isMemOp (F 0) && (F 10).testBit 1 && !(bits (F 1) 0 2 == 1 || bits (F 1) 0 2 == 2)).map (·.1)

/-! ### Cycles (R259, R281) -/

/-- An element that holds an initial token, or a loop-entry merge. -/
def Img.opens (g : Img) (p : ImgElem) : Bool :=
  let F := g.fields p
  (F 0 == 0x003 && bits (F 16) 0 4 != 0) || (F 0 == 0x288 && bits (F 11) 0 2 == 2)

/-- Elements left when those without a predecessor among the rest are removed, again and again. -/
def Img.cyclic (l : List (ImgElem × ImgElem)) : Nat → List ImgElem → List ImgElem
  | 0, rest => rest
  | fuel + 1, rest =>
    let keep := rest.filter fun p => l.any fun e => e.2 == p && rest.contains e.1
    if keep.length = rest.length then rest else Img.cyclic l fuel keep

/-- A cycle of edges without an initial token and without a loop-entry merge; edges that end at a release input do not count (R307). -/
def Img.cycleBad (g : Img) (l : Edges) : List ImgElem :=
  Img.cyclic ((l.filter fun e => !(g.op e.2.1 == 0x286 && e.2.2 == 1)).map fun e => (e.1.1, e.2.1)) g.els.length
    (g.els.filter fun p => !g.opens p)

end Sys2Proof.Machine
end

