-- ==== Sys2Proof/Machine/ImageRates.lean ====
section
/-!
DEFINITION. The whole-graph counts of R281 and the refusal of an image (R362): tokens per work identifier on each edge (R57, R239, R254,
R264, R269, R272), what a cycle can hold, converter paths (R20) and loop windows (R66). Log 107 gives the readings.
-/
namespace Sys2Proof.Machine

/-! ### Counts per work identifier (log 107) -/

/-- A quantity that the fields of an image leave open, by which a count of tokens per work identifier is a multiple. -/
inductive Atom where
  /-- Barriers of level `k` or higher and ends of run, for each work identifier; those of level 0 are one each (R34, R239). -/
  | level (k : Nat)
  /-- Tokens with pbit 1 that leave output `q`. -/
  | taken (q : ImgPort)
  /-- Rows that a steer.ert finds resident. -/
  | found (p : ImgElem)
  /-- Tokens on the back edge of a loop. -/
  | back (p : ImgElem)
  /-- Tokens of a request for shape register `r`: ceil(L / 8) (R269). -/
  | request (r : Nat)
  /-- Rank tokens of a reply: ceil(Kₑ / 16) (R269). -/
  | ranks (p : ImgElem)
  /-- Firings of a pass: ceil(K / kt) for shape register `r` (R256). -/
  | passes (r kt : Nat)
  deriving DecidableEq, Repr

/-- A product of powers of atoms. -/
abbrev Mono := List (Atom × Int)

/-- Multiplies by a power of an atom. -/
def Mono.times (m : Mono) (a : Atom) (n : Int) : Mono :=
  match m with
  | [] => if n = 0 then [] else [(a, n)]
  | (b, k) :: t => if b = a then (if k + n = 0 then t else (b, k + n) :: t) else (b, k) :: Mono.times t a n

def Mono.same (m n : Mono) : Bool := m.length == n.length && m.all n.contains

/-- Tokens per work identifier: a sum of multiples of products of atoms. -/
abbrev Count := List (Mono × Rat)

def Count.addTerm (c : Count) (m : Mono) (q : Rat) : Count :=
  match c with
  | [] => [(m, q)]
  | (n, r) :: t => if Mono.same n m then (n, r + q) :: t else (n, r) :: Count.addTerm t m q

def Count.add (x y : Count) : Count := y.foldl (fun c t => c.addTerm t.1 t.2) x
def Count.scale (x : Count) (q : Rat) : Count := x.map fun t => (t.1, t.2 * q)
def Count.times (x : Count) (a : Atom) (n : Int) : Count := x.map fun t => (t.1.times a n, t.2)
def Count.sub (x y : Count) : Count := x.add (y.scale (-1))
def Count.isZero (x : Count) : Bool := x.all fun t => t.2 == 0
def Count.same (x y : Count) : Bool := (x.sub y).isZero
def Count.nat (n : Nat) : Count := [([], (n : Rat))]
def Count.atom (a : Atom) : Count := [([(a, 1)], 1)]

/-- One token for each barrier of a level or higher (R239, R257). -/
def Count.level (k : Nat) : Count := if k = 0 then Count.nat 1 else Count.atom (.level k)

/-- The data-dependent part of a count: what a steer, a probe or a loop decides. -/
def Count.steered (x : Count) : Bool :=
  x.any fun t => t.2 != 0 && t.1.any fun a => match a.1 with
    | .taken _ | .found _ | .back _ => true
    | .level _ | .request _ | .ranks _ | .passes .. => false

/-- The count with the lengths of replies taken out: the grain of one request (R269, R270). -/
def Count.perRequest (x : Count) : Count :=
  x.foldl (fun c t => c.addTerm (t.1.filter fun a => match a.1 with
    | .ranks _ => false
    | .level _ | .taken _ | .found _ | .back _ | .request _ | .passes .. => true) t.2) []

def elInRate (F : ElFields) (i : Nat) : Nat := bits (F 9) (2 * i) 2 + 1
def elOutRate (F : ElFields) (o : Nat) : Nat := bits (F 9) (8 + 2 * o) 2 + 1

/-- Counts that are known, by output. -/
abbrev Known := List (ImgPort × Count)

/-- Tokens that reach an input. -/
def Img.inCount (l : Edges) (k : Known) (p : ImgElem) (i : Nat) : Option Count :=
  (l.into (p, i)).bind fun q => (k.find? fun x => x.1 == q).map (·.2)

/-- Inputs whose counts a firing of the element ties together; the release input of a steer.ert is none of them (R307). -/
def tiedInputs (F : ElFields) : List Nat := (List.range 4).filter fun i => elReq F i && !(F 0 == 0x286 && i == 1)

/-- Firings of an element, from the first of its inputs that is known. -/
def Img.firings (g : Img) (l : Edges) (k : Known) (p : ImgElem) : Option Count :=
  let F := g.fields p
  let ins := if F 0 = 0x003 ∨ F 0 = 0x000 ∨ F 0 = 0x1C1 ∨ F 0 = 0x286 then [0] else tiedInputs F
  ins.findSome? fun i => (Img.inCount l k p i).map fun c => c.scale (1 / (elInRate F i : Rat))

/-- The output from which tokens come, past forks, joins, delay nodes and channels. -/
def Img.root (g : Img) (l : Edges) : Nat → ImgPort → ImgPort
  | 0, q => q
  | fuel + 1, q =>
    let back (i : Nat) : ImgPort := match l.into (q.1, i) with
      | some r => g.root l fuel r
      | none => q
    if g.op q.1 = 0x280 ∨ g.op q.1 = 0x003 ∨ g.isChannel (q.1, 0) then back 0
    else if g.op q.1 = 0x281 then back q.2
    else q

/-- Drains of the accumulator that a tdrain names, by the flags of the matrix array of its tile (R253, R257, R270). -/
def Img.drains (g : Img) (l : Edges) (k : Known) (p : ImgElem) : Option Count :=
  let ma : ImgElem := (p.1, p.2.1, 8)
  let F := g.fields ma
  let j := bits (g.fields p 21) 0 2
  if F 0 = 0x2C2 then
    if bits (F 16) 6 2 = j ∧ (F 10).testBit 4 then Img.inCount l k ma 1 else none
  else if F 0 = 0x240 ∨ F 0 = 0x241 then
    if bits (F 16) 12 2 ≠ j then none
    else if (F 10).testBit 4 then (g.firings l k ma).map fun c => c.times (.passes (bits (F 2) 0 3) (bits (F 16) 18 11 + 1)) (-1)
    else some (Count.level (bits (F 16) 49 3))
  else none

/-- Tokens that an output produces (R57, R239, R254, R263 to R267, R269, R271, R272). -/
def Img.outCount (g : Img) (l : Edges) (k : Known) (q : ImgPort) : Option Count :=
  let p := q.1
  let F := g.fields p
  let input (i : Nat) : Option Count := Img.inCount l k p i
  match F 0 with
  | 0x204 => if (F 16).testBit 11 then none else some (Count.nat (elOutRate F 0))
  | 0x1C0 => if q.2 = 0 then some (Count.level (bits (F 31) 8 3)) else g.firings l k p
  | 0x1C1 => if q.2 = 1 then input 0 else some (Count.level (bits (g.at' p.1 p.2.1 (p.2.2 - 4) 31) 8 3))
  | 0x242 => (g.drains l k p).map fun c => c.scale (32 * (bits (F 21) 4 2 + 1) * (bits (F 21) 6 2 + 1) : Nat)
  | 0x285 =>
    (g.firings l k p).bind fun n =>
      let t : Option Count :=
        if bits (F 11) 0 2 = 3 then some (Count.atom (.back (p.1, p.2.1, bits (F 11) 2 4)))
        else (l.into (p, 1)).map fun r => Count.atom (.taken (g.root l 64 r))
      t.map fun t => if q.2 = 1 then t else n.sub t
  | 0x286 =>
    (input 0).map fun n =>
      if (F 16).testBit 32 then n else if q.2 = 0 then Count.atom (.found p) else n.sub (Count.atom (.found p))
  | 0x287 => some (Count.nat (F 16 + 1))
  | 0x288 =>
    if bits (F 11) 0 2 = 2 then (input 0).map fun n => n.add (Count.atom (.back p))
    else ((List.range 4).filter (elIn F)).foldl (fun c i => c.bind fun c => (input i).map (Count.add c)) (some [])
  | 0x2C1 =>
    (input 0).map fun n =>
      let c := n.times (.request (bits (F 2) 0 3)) (-1)
      if q.2 = 0 then c.times (.ranks p) 1 else c
  | 0x2C3 => (input 1).map fun n => n.times (.request (bits (F 2) 0 3)) 1
  | 0x300 => (input 0).map fun n => n.scale 16
  | _ => (g.firings l k p).map fun n => n.scale (elOutRate F q.2 : Rat)

/-- One round over the outputs whose count is not yet known. -/
def Img.learn (g : Img) (l : Edges) (k : Known) : Known :=
  g.outs.foldl (fun k q => if k.any fun x => x.1 == q then k else
    match g.outCount l k q with
    | some c => k ++ [(q, c)]
    | none => k) k

/-- Rounds until nothing new is known. -/
def Img.known (g : Img) (l : Edges) : Nat → Known → Known
  | 0, k => k
  | n + 1, k =>
    let k' := g.learn l k
    if k'.length = k.length then k else g.known l n k'

/-- The drain that the tokens of an output come from, past elements that take them at their first tied input. -/
def Img.drainOf (g : Img) (l : Edges) : Nat → ImgPort → Option ImgElem
  | 0, _ => none
  | fuel + 1, q =>
    if g.op q.1 = 0x242 then some q.1
    else if g.op q.1 = 0x204 then none
    else match l.into (q.1, if g.isChannel (q.1, 0) then 0 else (tiedInputs (g.fields q.1)).headD 0) with
      | some r => g.drainOf l fuel r
      | none => none

/-- A rows fill that a drain feeds: what one drain brings it is not what one fill takes (R251, R254, log 107). -/
def Img.fillBad (g : Img) (l : Edges) (k : Known) (p : ImgElem) : Bool :=
  let F := g.fields p
  (List.range 4).any fun i =>
    let b := F (17 + i)
    b.testBit 3 && b.testBit 15 &&
      (match (l.into (p, i)).bind (g.drainOf l (2 * g.els.length)) with
       | none => false
       | some d => match Img.inCount l k p i, g.drains l k d with
         | some c, some n => !c.same (n.scale ((bits b 22 6 + 1) * (bits b 28 10 + 1) / 8 : Nat))
         | _, _ => false)

/-- The element takes its inputs at different counts (R57, R281 item 1). A count that comes from outside the image is not known and is
not compared; nor is that of a port that a queue-mapped register feeds, whose tokens the program sends. -/
def Img.unbalanced (g : Img) (l : Edges) (k : Known) (p : ImgElem) : Bool :=
  let F := g.fields p
  let input (i : Nat) : Option Count := Img.inCount l k p i
  let differ (x y : Option Count) : Bool := match x, y with
    | some x, some y => !x.same y
    | _, _ => false
  match F 0 with
  | 0x287 =>
    let sum : Option Count := ((List.range 4).filter (elIn F)).foldl (fun c i => c.bind fun c => (input i).map (Count.add c)) (some [])
    match sum with
    | some c => !Count.steered c && !Count.same c (Count.nat (F 16 + 1))
    | none => false
  | 0x288 => bits (F 11) 0 2 == 2 && differ (input 1) (some (Count.atom (.back p)))
  | 0x002 | 0x242 => g.fillBad l k p
  | 0x2C2 | 0x2C3 => differ ((input 0).map Count.perRequest) ((input 1).map Count.perRequest)
  | _ =>
    let ins := (tiedInputs F).filterMap fun i => (input i).map fun c => c.scale (1 / (elInRate F i : Rat))
    (match ins with
      | c :: t => t.any fun d => !c.same d
      | [] => false) ||
      (F 0 == 0x285 && bits (F 11) 0 2 == 3 &&
        differ (g.firings l k p) ((k.find? fun x => x.1 == ((p.1, p.2.1, bits (F 11) 2 4), 0)).map (·.2)))

/-- Elements at which the rates of an image do not balance. -/
def Img.rateBad (g : Img) (l : Edges) : List ImgElem :=
  let k := g.known l (2 * g.els.length + 1) []
  g.els.filter (g.unbalanced l k)

/-! ### What a cycle can hold (R259, R281 item 2) -/

/-- Depth of the queue at an input (R50). -/
def Img.queueDepth (g : Img) (p : ImgPort) : Nat := if g.isChannel p then g.fields p.1 16 else 4

/-- Places of an edge: its receiving queue and a crossing stage of 2 for each static link (R51). -/
def Img.places (g : Img) (e : ImgPort × ImgPort) : Nat := g.queueDepth e.2 + 2 * (g.route e.1).1.length

def dlyDepthOf (F : ElFields) : Nat := if F 0 = 0x003 then bits (F 16) 9 4 + 1 else 0
def dlyInitOf (F : ElFields) : Nat := if F 0 = 0x003 then bits (F 16) 0 4 else 0

/-- The simple cycles through `start` that extend a path of edges, newest first. -/
def Img.cyclesFrom (l : Edges) (start : ImgElem) : Nat → List (ImgPort × ImgPort) → ImgElem → List (List (ImgPort × ImgPort))
  | 0, _, _ => []
  | fuel + 1, path, here =>
    (l.filter fun e => e.1.1 == here).flatMap fun e =>
      if e.2.1 = start then [(e :: path).reverse]
      else if path.any fun b => b.2.1 == e.2.1 then []
      else Img.cyclesFrom l start fuel (e :: path) e.2.1

/-- Tokens that leave output `o` for each token taken at input `i`. -/
def portGain (F : ElFields) (i o : Nat) : Rat :=
  if F 0 = 0x300 then 16 else (elOutRate F o : Rat) / (elInRate F i : Rat)

/-- Weight of each edge of a cycle: its tokens for one token of the first edge. -/
def Img.weights (g : Img) : Rat → List (ImgPort × ImgPort) → List Rat
  | w, e :: d :: t => w :: g.weights (w * portGain (g.fields e.2.1) e.2.2 d.1.2) (d :: t)
  | w, [_] => [w]
  | _, [] => []

/-- Most tokens that the rates let a cycle hold: its initial tokens, all of them on the edge where each counts most. -/
def Img.mostHeld (g : Img) (c : List (ImgPort × ImgPort)) : Rat :=
  let ws := g.weights 1 c
  let units : Rat := (c.zip ws).foldl (fun n x => n + (dlyInitOf (g.fields x.1.2.1) : Rat) / x.2) 0
  units * ws.foldl max 0

/-- A cycle whose places do not exceed what it can hold; one with a loop-entry merge is bounded by its window instead (R66). -/
def Img.cycleFull (g : Img) (l : Edges) : List ImgElem :=
  let l' := l.filter fun e => !(g.op e.2.1 == 0x286 && e.2.2 == 1)
  (g.els.filter fun p => dlyInitOf (g.fields p) != 0).filter fun p =>
    (Img.cyclesFrom l' p (g.els.length + 1) [] p).any fun c =>
      (c.all fun e => !(g.op e.2.1 == 0x288 && bits (g.fields e.2.1 11) 0 2 == 2)) &&
        decide ((c.foldl (fun n e => n + g.places e + dlyDepthOf (g.fields e.2.1)) 0 : Nat) ≤ g.mostHeld c)

/-! ### Converter paths and loop windows (R20, R66, R281 items 3 and 4) -/

/-- The codebook streams of an image are those that end at its decoders: a decoder that no edge reaches, or whose weights go nowhere, has
no path through its converter tile (log 107). -/
def Img.converterBad (g : Img) (l : Edges) (p : ImgElem) : Bool :=
  g.op p == 0x300 && ((l.into (p, 0)).isNone || !elOut (g.fields p) 0)

/-- Elements from which an element can be reached. -/
def Img.upstream (l : Edges) : Nat → List ImgElem → List ImgElem
  | 0, found => found
  | fuel + 1, found =>
    let next := (l.filter fun e => found.contains e.2.1 && !found.contains e.1.1).map (·.1.1)
    if next.isEmpty then found else Img.upstream l fuel (found ++ next.eraseDups)

/-- The in-flight bound of the loop of a loop-entry merge: places of its edges, one for each element, and the depths of its delay nodes. A
restore-table entry is made when a pawn enters and freed when it leaves, so none is held outside (R65). -/
def Img.window (g : Img) (l : Edges) (p : ImgElem) : Nat :=
  let n := g.els.length
  let inner := l.filter fun e => !(e.2 == (p, 0))
  let down := Img.downstream inner n [p]
  let up := match l.into (p, 1) with
    | some q => Img.upstream inner n [q.1]
    | none => []
  let body := down.filter fun b => b == p || up.contains b
  let edges := inner.filter fun e => body.contains e.1.1 && body.contains e.2.1
  edges.foldl (fun n e => n + g.places e) 0 + body.length + body.foldl (fun n b => n + dlyDepthOf (g.fields b)) 0

def Img.windowBad (g : Img) (l : Edges) (p : ImgElem) : Bool :=
  g.op p == 0x288 && bits (g.fields p 11) 0 2 == 2 && decide (128 < g.window l p)

/-! ### The refusal of an image -/

/-- The element is refused for its fields or its place in the graph (code 6). -/
def Img.elemBad (g : Img) (l : Edges) (p : ImgElem) : Bool :=
  let k := g.sites.kind p.1 p.2.1
  !opcodeHeld k p.2.2 (g.op p) || elementBad k p.2.2 (g.fields p) (g.at' p.1 p.2.1) g.kinds || edgeBad g.at' g.els p
    || channelBad g.at' p.1 p.2.1 || g.completionBad l p || g.chainBad l p || g.bufferBad p || g.rangeBad p || g.steerBad l p
    || g.parkBad l p || g.feedbackBad l p

/-- The first of the whole-graph counts that an image fails, with an element at fault (R281). -/
def Img.countsBad (g : Img) (l : Edges) : Option (Nat × Option ImgElem) :=
  match g.rateBad l, g.cycleBad l ++ g.cycleFull l, g.els.find? (g.converterBad l), g.els.find? (g.windowBad l) with
  | p :: _, _, _, _ => some (7, some p)
  | [], p :: _, _, _ => some (8, some p)
  | [], [], some p, _ => some (9, some p)
  | [], [], none, some p => some (10, some p)
  | [], [], none, none => none

/-- The first refusal of the graph: its code and the element at fault, none where the ports of the image as a whole are refused. -/
def Img.refusal (g : Img) (portable : Bool) (items : List CfgItem) : Option (Nat × Option ImgElem) :=
  let l := g.edges
  match g.els.find? (g.elemBad l), g.routesBad ++ g.takenBad l with
  | some p, _ | none, p :: _ => some (6, some p)
  | none, [] =>
    if portsBad g.at' g.els then some (6, none)
    else if portable && (items.any portableBad || !g.crosses.isEmpty || g.els.any fun p => portableElementBad p.2.1 p.2.2 (g.fields p)) then
      some (12, none)
    else g.countsBad l

/-- The declared kinds of the shape registers of an image, from its .shape entries (R397). -/
def declaredKinds (shapes : List (Word × Word)) (r : Nat) : Option Nat :=
  (shapes.find? fun e => bits e.1.toNat 0 3 == r).map fun e => bits e.1.toNat 8 3

/-- Refusal code of an image at its sites, with the index of the command at fault (R362): 5 to 10 or 12. -/
def imageRefusal (f : Sites) (portable : Bool) (kinds : Nat → Option Nat) (ws : List Nat) : Option (Nat × Nat) :=
  match malformedAt f ws with
  | some n => some (5, n)
  | none =>
    let items := cfgItems ws
    let g := Img.of f kinds items
    let index (p : ImgElem) : Nat :=
      (ws.findIdx? fun w => w / 2 ^ 30 == 0 && bits w 16 14 == p.1 * 2 ^ 9 + p.2.1 * 2 ^ 4 + p.2.2).getD 0
    (g.refusal portable items).map fun x => (x.1, (x.2.map index).getD 0)

end Sys2Proof.Machine
end

