-- ==== Sys2Proof/Machine/Loader.lean ====
section
/-!
DEFINITION. The relocating loader: object layout (R277, R278), relocations (R279), symbols (R282), checks (R281, R362), and the load map
(R357, R358).
-/
namespace Sys2Proof.Machine

/-- A refusal: its code and the index at fault, none where the manual names none (the value written is free, log 22). -/
abbrev Refused := Nat × Option Nat

/-- `n` bytes of a list from an offset, as a little-endian number. -/
def leNat (b : List Byte) (off n : Nat) : Nat :=
  ((b.drop off).take n).foldr (fun x v => x.toNat + 256 * v) 0

/-- Replaces `n` bytes by a number, little-endian. -/
def lePut (b : List Byte) (off n v : Nat) : List Byte :=
  b.take off ++ ((List.range n).map fun i => BitVec.ofNat 8 (v / 2 ^ (8 * i))) ++ b.drop (off + n)

/-- Two's complement value of an `n`-bit number. -/
def twosComp (n v : Nat) : Int := if v < 2 ^ (n - 1) then Int.ofNat v else Int.ofNat v - Int.ofNat (2 ^ n)

/-! ### Sections and symbols (R277, R278) -/

structure Sect where
  type : Nat
  off : Nat
  size : Nat
  link : Nat
  info : Nat
  bytes : List Byte
  deriving DecidableEq, Repr

/-- The object's sections, or its refusal with code 1. -/
def objSections (o : List Byte) : Except Refused (List Sect) :=
  let n := leNat o 8 4
  let table := leNat o 16 8
  if o.length < 64 ∨ leNat o 0 4 ≠ 0x314F4747 ∨ leNat o 4 2 ≠ 1 ∨ 2 ≤ leNat o 6 2 ∨ n = 0 ∨ 65535 < n ∨ leNat o 12 4 ≠ 0
      ∨ table % 8 ≠ 0 ∨ leNat o 32 32 ≠ 0 ∨ o.length < table + 32 * n then .error (1, none)
  else
    let l := (List.range n).map fun i =>
      let a := table + 32 * i
      (leNat o (a + 4) 4,
        ({ type := leNat o a 4, off := leNat o (a + 8) 8, size := leNat o (a + 16) 8, link := leNat o (a + 24) 4
           info := leNat o (a + 28) 4, bytes := (o.drop (leNat o (a + 8) 8)).take (leNat o (a + 16) 8) } : Sect))
    let kind (i : Nat) : Nat := match l[i]? with
      | some x => x.2.type
      | none => 0
    let bad (x : Nat × Sect) : Bool :=
      let s := x.2
      x.1 != 0 || decide (o.length < s.off + s.size) || (match s.type with
        | 1 => s.link != 0 || s.info != 0 || s.size % 4 != 0
        | 2 => s.link != 0 || s.info != 0
        | 3 => s.link != 0 || s.size % 4 != 0 || decide (64 ≤ s.info) || bits s.info 0 3 == 0 || decide (4 < bits s.info 0 3)
            || bits s.info 3 3 == 0 || decide (5 < bits s.info 3 3)
        | 4 => kind s.link != 8 || s.info != 0 || s.size % 24 != 0
        | 5 => kind s.link != 4 || decide (n ≤ s.info) || s.size % 24 != 0
        | 6 => kind s.link != 3 || s.info != 0 || s.size % 8 != 0
        | 7 => kind s.link != 3 || s.info != 0 || s.size % 16 != 0
        | 8 => s.link != 0 || s.info != 0
        | _ => true)
    match l.findIdx? bad with
    | some i => .error (1, some i)
    | none => .ok (l.map (·.2))

/-- A symbol entry with its name. -/
structure ObjSym where
  name : List Byte
  sect : Nat
  binding : Nat
  kind : Nat
  value : Nat
  size : Nat
  deriving DecidableEq, Repr

/-- Symbols of a symbols section. -/
def sectSyms (l : List Sect) (s : Sect) : List ObjSym :=
  let names := match l[s.link]? with
    | some k => k.bytes
    | none => []
  (List.range (s.size / 24)).map fun i =>
    let a := 24 * i
    { name := (names.drop (leNat s.bytes a 4)).takeWhile (· != 0), sect := leNat s.bytes (a + 4) 2, binding := leNat s.bytes (a + 6) 1
      kind := leNat s.bytes (a + 7) 1, value := leNat s.bytes (a + 8) 8, size := leNat s.bytes (a + 16) 8 }

/-- Symbols by the number of their section. -/
def objSyms (l : List Sect) : List (Nat × List ObjSym) :=
  (l.zipIdx.filter fun x => x.1.type == 4).map fun x => (x.2, sectSyms l x.1)

/-- Relocation entry (R279). -/
structure Reloc where
  target : Nat
  sym : Nat
  kind : Nat
  param : Nat
  addend : Int
  deriving DecidableEq, Repr

def sectRelocs (s : Sect) : List Reloc :=
  (List.range (s.size / 24)).map fun i =>
    let a := 24 * i
    { target := leNat s.bytes a 8, sym := leNat s.bytes (a + 8) 4, kind := leNat s.bytes (a + 12) 2
      param := leNat s.bytes (a + 14) 2, addend := twosComp 64 (leNat s.bytes (a + 16) 8) }

/-- Bytes that a relocation of a kind patches (R279). -/
def relocWidth (kind : Nat) : Nat := if kind = 1 ∨ kind = 6 then 8 else if kind = 5 then 12 else 4

/-- Body of a defined symbol: its bytes and every relocation entry that patches one of them (R278). -/
def symBody (l : List Sect) (y : ObjSym) : List Byte :=
  let own := match l[y.sect]? with
    | some s => (s.bytes.drop y.value).take y.size
    | none => []
  own ++ (l.filter fun s => s.type == 5 && s.info == y.sect).flatMap fun s =>
    (List.range (s.size / 24)).flatMap fun i =>
      let t := leNat s.bytes (24 * i) 8
      if y.value < t + relocWidth (leNat s.bytes (24 * i + 12) 2) ∧ t < y.value + y.size then (s.bytes.drop (24 * i)).take 24 else []

/-! ### Where things go (R357, R358) -/

def roundUp (v g : Nat) : Nat := (v + g - 1) / g * g

/-- Byte offsets of the text sections in code memory, by section. -/
def textPlaces (l : List Sect) : List (Nat × Nat) :=
  (l.zipIdx.foldl (fun (p : Nat × List (Nat × Nat)) (x : Sect × Nat) =>
    if x.1.type = 1 then (p.1 + x.1.size, p.2 ++ [(x.2, p.1)]) else p) (0, [])).2

/-- Addresses of the data sections, each aligned to 64 bytes, in section order. -/
def dataPlaces (base : Nat) (l : List Sect) : List (Nat × Nat) :=
  (l.zipIdx.foldl (fun (p : Nat × List (Nat × Nat)) (x : Sect × Nat) =>
    if x.1.type = 2 then (roundUp p.1 64 + x.1.size, p.2 ++ [(x.2, roundUp p.1 64)]) else p) (base, [])).2

/-- Sections that belong to a configuration section. -/
def linked (l : List Sect) (type i : Nat) : List Byte := (l.filter fun s => s.type == type && s.link == i).flatMap (·.bytes)

/-- Entries of kind 6 that an image carries: those of its section, as command indexes, and those of the data, as addresses. -/
def kindSix (l : List Sect) (datas : List (Nat × Nat)) (i : Nat) : List (Nat × Nat) :=
  (l.filter fun s => s.type == 5).flatMap fun s =>
    ((sectRelocs s).filter fun r => r.kind == 6).filterMap fun r =>
      if s.info = i then some (r.target / 4, r.param)
      else if datas.any fun d => d.1 == s.info then some (lookupD 0 s.info datas + r.target, r.param) else none

/-- Addresses of an image: its own, its hazard table, its relocations, its shapes; and the end (log 37). -/
structure ImagePlace where
  image : Nat
  hazard : Nat
  relocs : Nat
  shapes : Nat
  deriving DecidableEq, Repr

/-- Lays the images out behind the load map, and the text behind them. -/
def imagePlaces (l : List Sect) (datas : List (Nat × Nat)) (base : Nat) : List (Nat × ImagePlace) × Nat :=
  let cs := (l.zipIdx.filter fun x => x.1.type == 3).map fun x => (x.2, x.1)
  cs.foldl (fun (p : List (Nat × ImagePlace) × Nat) x =>
    let image := roundUp p.2 64 + 64
    let hazard := image + roundUp x.2.size 8
    let relocs := hazard + (linked l 6 x.1).length
    let shapes := relocs + 24 * (kindSix l datas x.1).length
    (p.1 ++ [(x.1, ({ image := image, hazard := hazard, relocs := relocs, shapes := shapes } : ImagePlace))], shapes + (linked l 7 x.1).length)) ([], base + 32 + 16 * cs.length)

/-- The plan of a load. -/
structure Plan where
  sects : List Sect
  texts : List (Nat × Nat)
  datas : List (Nat × Nat)
  images : List (Nat × ImagePlace)
  textAt : Nat
  deriving DecidableEq, Repr

/-- Address that the loader gives a defined symbol (R357). -/
def Plan.address (p : Plan) (y : ObjSym) : Nat :=
  match y.kind with
  | 0 => lookupD 0 y.sect p.texts + y.value
  | 1 => lookupD 0 y.sect p.datas + y.value
  | _ => match p.images.find? fun x => x.1 == y.sect with
    | some x => x.2.image
    | none => 0

/-! ### Symbols (R282) -/

/-- Malformed symbols: names, kinds, sections or sizes that do not exist (code 1). -/
def symBad (l : List Sect) (y : ObjSym) : Bool :=
  decide (2 < y.binding) || decide (2 < y.kind) || (y.sect != 0xFFFF && (match l[y.sect]? with
    | some s => s.type != y.kind + 1 || decide (s.size < y.value + y.size)
    | none => true))

/-- Binds a global definition into a context; none where two strong bodies differ. -/
def bindSym (ctx : BitVec 13) (tab : List Symbol) (name : List Byte) (weak : Bool) (value : Nat) (body : List Byte) :
    Option (List Symbol) :=
  match tab.find? fun t => decide (t.ctx = ctx) && t.name == name with
  | none => some (tab ++ [{ ctx, name, value, body, weak }])
  | some t =>
    if t.body == body then
      some (updateFirst (fun u => decide (u.ctx = ctx) && u.name == name) (fun u => { u with weak := u.weak && weak }) tab)
    else if t.weak && !weak then
      some (updateFirst (fun u => decide (u.ctx = ctx) && u.name == name) (fun _ => { ctx, name, value, body, weak }) tab)
    else if !t.weak && !weak then none
    else some tab

/-- Binds every global of an object in order, or the index of the one that is refused. -/
def bindAll (p : Plan) (ctx : BitVec 13) : List (ObjSym × Nat) → List Symbol → Except Refused (List Symbol)
  | [], tab => .ok tab
  | (y, i) :: t, tab =>
    if y.sect = 0xFFFF ∨ y.binding = 0 then bindAll p ctx t tab
    else
      match bindSym ctx tab y.name (y.binding == 2) (p.address y) (symBody p.sects y) with
      | some tab' => bindAll p ctx t tab'
      | none => .error (2, some i)

/-- S of a symbol: its own address when local, else what its name is bound to; none for an undefined reference. -/
def Plan.resolve (p : Plan) (ctx : BitVec 13) (tab : List Symbol) (y : ObjSym) : Option Nat :=
  if y.binding = 0 then (if y.sect = 0xFFFF then none else some (p.address y))
  else (tab.find? fun t => decide (t.ctx = ctx) && t.name == y.name).map (·.value)

/-! ### Relocations 1 to 5 (R279) -/

/-- Applies one entry to the bytes of its section at address `base`; none where the value does not fit or the target is misaligned
(code 4). -/
def applyReloc (s : Sect) (base : Nat) (r : Reloc) (sym : Nat) : Option Sect :=
  let v : Int := Int.ofNat sym + r.addend
  let n := v.toNat
  let fits := decide (0 ≤ v) && decide (v < 2 ^ 64)
  let word := leNat s.bytes r.target 4
  let rel : Int := v - Int.ofNat (base + r.target)
  let inside (k : Nat) : Bool := decide (r.target + k ≤ s.size)
  let put (w : Nat) : Sect := { s with bytes := lePut s.bytes r.target 4 w }
  match r.kind with
  | 1 => if fits && s.type == 2 && r.target % 8 == 0 && inside 8 && r.param == 0 then some { s with bytes := lePut s.bytes r.target 8 n } else none
  | 2 =>
    if fits && s.type == 1 && r.target % 4 == 0 && inside 4 && decide (r.param < 4) then
      some (put (word / 2 ^ 16 * 2 ^ 16 + bits n (16 * r.param) 16))
    else none
  | 3 =>
    let o := rel / 4
    if fits && s.type == 1 && r.target % 4 == 0 && inside 4 && r.param == 0 && n % 4 == 0 && decide (-(2 ^ 15) ≤ o) && decide (o < 2 ^ 15) then
      some (put (word / 2 ^ 16 * 2 ^ 16 + (o % 2 ^ 16).toNat))
    else none
  | 4 =>
    let o := rel / 4
    if fits && s.type == 1 && r.target % 4 == 0 && inside 4 && r.param == 0 && n % 4 == 0 && decide (-(2 ^ 25) ≤ o) && decide (o < 2 ^ 25) then
      some (put (word / 2 ^ 26 * 2 ^ 26 + (o % 2 ^ 26).toNat))
    else none
  | 5 =>
    let e1 := leNat s.bytes (r.target + 4) 4
    let e2 := leNat s.bytes (r.target + 8) 4
    if fits && s.type == 3 && r.target % 4 == 0 && inside 12 && r.param == 0 && word / 2 ^ 30 == 0 && decide (16 ≤ bits word 10 6)
        && decide (bits word 10 6 < 32) && e1 / 2 ^ 30 == 1 && e2 / 2 ^ 30 == 1 then
      some { s with bytes := lePut (lePut (lePut s.bytes r.target 4 (word / 2 ^ 10 * 2 ^ 10 + n % 2 ^ 10))
        (r.target + 4) 4 (2 ^ 30 + bits n 10 30)) (r.target + 8) 4 (2 ^ 30 + bits n 40 24) }
    else none
  | 6 =>
    if decide (r.param < 3) && ((s.type == 3 && r.target % 4 == 0 && inside 4) || (s.type == 2 && r.target % 8 == 0 && inside 8)) then some s
    else none
  | _ => none

/-- Applies the entries of every relocations section in order. -/
def Plan.relocateAll (p : Plan) (ctx : BitVec 13) (tab : List Symbol) : List (Nat × Sect) → List Sect → Except Refused (List Sect)
  | [], l => .ok l
  | (n, q) :: t, l =>
    let syms := lookupD [] q.link (objSyms p.sects)
    let base := (p.texts ++ p.datas).find? fun x => x.1 == q.info
    let one (acc : Except Refused Sect) (r : Reloc) : Except Refused Sect :=
      match acc with
      | .error e => .error e
      | .ok s =>
        let sym : Except Refused Nat :=
          if r.kind = 6 then .ok 0
          else
            match syms[r.sym]? with
            | none => .error (1, some n)
            | some y =>
              match p.resolve ctx tab y with
              | some v => .ok v
              | none => .error (3, some r.sym)
        match sym with
        | .error e => .error e
        | .ok v =>
          match applyReloc s (match base with
            | some b => b.2
            | none => 0) r v with
          | some s' => .ok s'
          | none => .error (4, some n)
    match l[q.info]? with
    | none => .error (1, some n)
    | some s =>
      match (sectRelocs q).foldl one (.ok s) with
      | .error e => .error e
      | .ok s' => p.relocateAll ctx tab t (l.set q.info s')

/-! ### Checks of the images (R281, R362) -/

/-- Words of a section. -/
def Sect.words (s : Sect) : List Nat := (List.range (s.size / 4)).map fun i => leNat s.bytes (4 * i) 4
/-- Dwords of bytes. -/
def dwords (b : List Byte) : List Word := (List.range (b.length / 8)).map fun i => BitVec.ofNat 64 (leNat b (8 * i) 8)

/-- The first refusal of an image: 5, 6, 12 or a whole-graph code, then a shape minimum (R281, R397). -/
def Plan.imageBad (p : Plan) (portable : Bool) (x : Nat × Sect) : Option Refused :=
  let w := bits x.2.info 0 3
  let h := bits x.2.info 3 3
  let ws := x.2.words
  if portable && (w != 2 || h != 2) then some (12, some x.1)
  else if ws.length < 2 ∨ 2 ^ 24 < ws.length then some (5, some 0)
  else
    let entries := pairUp (dwords (linked p.sects 7 x.1))
    match imageRefusal (freeSites w h (cfgItems ws)) portable (declaredKinds entries) ws with
    | some c => some (c.1, some c.2)
    | none =>
      if entries.all (minimumMet w h) then none else some (11, some x.1)

/-! ### The outputs (R358) -/

/-- The load map. -/
def Plan.map (p : Plan) (entry : Nat) : List Word :=
  let w (n : Nat) : Word := BitVec.ofNat 64 n
  let words := (p.sects.filter fun s => s.type == 1).foldl (fun n s => n + s.size / 4) 0
  [w p.images.length, w (if words = 0 then 0 else p.textAt), w ((words - 1) + entry * 2 ^ 16), 0] ++ p.images.flatMap fun x =>
    let s := p.sects.getD x.1 { type := 0, off := 0, size := 0, link := 0, info := 0, bytes := [] }
    [w x.2.image, w (s.size / 4 + bits s.info 0 3 * 2 ^ 24 + bits s.info 3 3 * 2 ^ 27)]

/-- A placement block (R358); its last dword is the status of cfg.ld and is not written. -/
def Plan.block (p : Plan) (portable : Bool) (i : Nat) (k : ImagePlace) : List Word :=
  let w (n : Nat) : Word := BitVec.ofNat 64 n
  let sh := (linked p.sects 7 i).length / 16
  [w (b2n portable), w k.hazard, w ((linked p.sects 6 i).length / 8), w k.relocs, w (kindSix p.sects p.datas i).length,
   w (if sh = 0 then 0 else k.shapes), w sh]

/-- Bytes of dwords. -/
def wordBytes (l : List Word) : List Byte := l.flatMap fun v => (List.range 8).map (byteOf v)

/-- Everything that a load writes, by address; `l` are the sections after relocation. -/
def Plan.outputs (p : Plan) (portable : Bool) (base entry : Nat) (l : List Sect) : List (Nat × List Byte) :=
  let bytes (i : Nat) : List Byte := match l[i]? with
    | some s => s.bytes
    | none => []
  let six (i : Nat) : List Byte := (kindSix p.sects p.datas i).flatMap fun r =>
    wordBytes [BitVec.ofNat 64 r.1, BitVec.ofNat 64 (6 * 2 ^ 32 + r.2 * 2 ^ 48), 0]
  p.datas.map (fun d => (d.2, bytes d.1))
    ++ p.images.flatMap (fun x =>
        [(x.2.image - 64, wordBytes (p.block portable x.1 x.2)), (x.2.image, bytes x.1), (x.2.hazard, linked p.sects 6 x.1),
         (x.2.relocs, six x.1), (x.2.shapes, linked p.sects 7 x.1)])
    ++ [(p.textAt, p.texts.flatMap fun t => bytes t.1), (base, wordBytes (p.map entry))]

/-- Writes bytes at a virtual address under an ASID, on paths of the board's choice (R105); none where a write faults. What a placement has
moved in the dword is no more (R359). -/
def State.writeAt (s : State) (d : Fin 4) (asid : BitVec 13) (va : Nat) : List Byte → Option State
  | [] => some s
  | b :: t =>
    match s.translate d asid va true true with
    | .error _ => none
    | .ok pa => ({ s with tileIds := s.tileIds.filter fun x => x.1 / 8 != pa / 8 }.writeGranule (.device d) d (storeAt pa 1 (b.zeroExtend 64)) (Config.boardPath s.moves (pa / 8)) none).writeAt d asid (va + 1) t

def State.writeOutputs (s : State) (d : Fin 4) (asid : BitVec 13) : List (Nat × List Byte) → Option State
  | [] => some s
  | x :: t => (s.writeAt d asid x.1 x.2).bind fun s' => s'.writeOutputs d asid t

/-- `n` bytes that the loader reads at a virtual address. -/
def State.seenBytes (s : State) (d : Fin 4) (asid : BitVec 13) (va n : Nat) : Option (List Byte) :=
  (s.seenDwords d asid (va / 8) ((va + n + 7) / 8 - va / 8)).map fun l => ((wordBytes l).drop (va % 8)).take n

/-- Serves one load: the new state, or the refusal (R357, R362). -/
def State.loadObject (s : State) (d : Fin 4) (desc : List Word) : Except Refused State :=
  let n (i : Nat) : Nat := (nth desc i).toNat
  let ctx : BitVec 13 := BitVec.ofNat 13 (n 2)
  match s.seenBytes d ctx (n 0) (n 1) with
  | none => .error (18, none)
  | some o =>
    match objSections o with
    | .error e => .error e
    | .ok l =>
      let portable := leNat o 6 2 % 2 == 1
      let base := n 4
      let datas := dataPlaces (n 3) l
      let im := imagePlaces l datas base
      let texts := textPlaces l
      let size := (l.filter fun x => x.type == 1).foldl (fun k x => k + x.size) 0
      let textAt := roundUp im.2 8
      let p : Plan := { sects := l, texts, datas, images := im.1, textAt }
      let syms := (objSyms l).flatMap (·.2)
      match (objSyms l).find? fun x => x.2.any (symBad l) with
      | some x => .error (1, some x.1)
      | none =>
        match bindAll p ctx syms.zipIdx s.host.symbols with
        | .error e => .error e
        | .ok tab =>
          match syms.findIdx? fun y => (p.resolve ctx tab y).isNone with
          | some i => .error (3, some i)
          | none =>
            match p.relocateAll ctx tab ((l.zipIdx.filter fun x => x.1.type == 5).map fun x => (x.2, x.1)) l with
            | .error e => .error e
            | .ok l' =>
              let images := (l'.zipIdx.filter fun x => x.1.type == 3).map fun x => (x.2, x.1)
              match images.findSome? (p.imageBad portable) with
              | some e => .error e
              | none =>
                let e := leNat o 24 8
                let entry : Option Nat := if e = 2 ^ 64 - 1 then some 0 else (syms[e]?).bind fun y => (p.resolve ctx tab y).map (· / 4)
                match entry with
                | none => .error (13, some e)
                | some w =>
                  if 64512 < size / 4 then .error (13, some ((texts.map (·.1)).headD 0))
                  else if e ≠ 2 ^ 64 - 1 ∧ size / 4 ≤ w then .error (13, some e)
                  else if base + n 5 < textAt + size then .error (14, none)
                  else
                    match s.writeOutputs d ctx (p.outputs portable base w l') with
                    | none => .error (18, none)
                    | some s' => .ok { s' with host := { s'.host with symbols := tab } }

/-- The status dword of a served load is written when every output has landed (R357). -/
def State.endLoad (s : State) : State :=
  match s.host.loadEnd with
  | some (d, pa, v) =>
    if s.unlandedParty (.device d) then s
    else { s with host := { s.host with loadEnd := none } }.setHome (storeAt pa 8 v)
  | none => s

/-- The status of a load, for the descriptor's offset 48. -/
def State.loadStatus (s : State) (d : Fin 4) (pa code : Nat) (index : Option Nat) : State :=
  let i : Nat := match index with
    | some i => i
    | none => (Config.freeWord s.free).toNat
  { s with
    free := if index.isNone then s.free + 1 else s.free
    host := { s.host with loadEnd := some (d, s.canonPa (pa + 48), BitVec.ofNat 64 (code + i % 2 ^ 32 * 2 ^ 32)) } }.endLoad

/-- OBJECT_LOAD: the loader ends the load that it serves, or serves the oldest request. A descriptor that no home holds is dropped
(log 147). -/
def execObjectLoad (s : State) : Out :=
  .next (
    match s.host.loadEnd, s.host.loads with
    | some _, _ => s.endLoad
    | none, [] => s
    | none, (d, v) :: rest =>
      let s1 : State := { s with host := { s.host with loads := rest } }
      let pa := v.toNat
      match s1.homeOf pa with
      | none => s1
      | some _ =>
        let desc := (List.range 8).map fun i => s1.home (s1.canonPa pa / 8 + i)
        match s1.loadObject d desc with
        | .ok s2 => s2.loadStatus d pa 0 (some 0)
        | .error e => s1.loadStatus d pa e.1 e.2)

end Sys2Proof.Machine
end

