-- ==== Sys2Proof/Machine/Moves.lean ====
section
/-!
DEFINITION. The moves of the board (R103 to R109, R117, R118) and the begin and end of commands (R189), each at the party that its
operand names. A move that no rule allows leaves the machine as it is (log 2).
-/
namespace Sys2Proof.Machine

/-! ### Reads and writes (R104, R105) -/

/-- Die of the party that makes an access, or runs a command. -/
def accessDie : AccessAt → Fin 4
  | .core c => dieOf c
  | .stream a _ => a.die
  | .queue c _ _ _ => dieOf c
  | .fabric a _ _ => a.die
def beginDie : BeginAt → Fin 4
  | .core c => dieOf c
  | .engine a => a.die
  | .queue c _ => dieOf c
  | .config c => dieOf c

/-- READ_PERFORM. A core's own reads perform within its instructions; the reads of its parties perform here (R104, R108). -/
def execReadPerform (r : AccessAt) (s : State) : Out :=
  .next (s.onDie (accessDie r) <| match r with
    | .core _ => s
    | .stream a g => s.streamRead a g
    | .queue c q row g => s.queueRead c q row g
    | .fabric a n g => s.fabricRead a n g)

/-- The oldest store of a core's order buffer performs (R105, R108). -/
def State.coreWrite (s : State) (c : Fin 64) (path : Nat) : State :=
  match (s.core c).order with
  | .store w :: t =>
    let s1 := s.setCore c { s.core c with order := t }
    (s1.performStore c w path).settleOrder c t
  | .cmd _ :: _ | .sbar .. :: _ | .qfence .. :: _ | .shape .. :: _ | [] => s

/-- WRITE_PERFORM. -/
def execWritePerform (w : AccessAt) (path : Nat) (s : State) : Out :=
  .next (s.onDie (accessDie w) <| match w with
    | .core c => s.coreWrite c path
    | .stream a g => s.streamWrite a g path
    | .queue c q _ g => s.queueWrite c q g path
    | .fabric a n g => s.fabricWrite a n g path)

/-! ### Path FIFOs and landing ports (R106, R118, R383) -/

/-- A path moves: a path to another module needs its port up (R383). -/
def State.pathUp (s : State) (p : PathId) : Bool :=
  match p.dst with
  | .module _ => if h : p.k < 36 then getF s.host.ngUp ⟨p.k, h⟩ else false
  | .die _ | .tier _ | .host => true

/-- A row that came on a path stands in a landing port. -/
def State.rowsOnPort (s : State) (p : PathId) : Bool := s.landing.any fun l => l.2.any fun r => decide (r.2.1 = p)

def State.landingAt (s : State) (l : LandingId) : List (Nat × PathId × GWrite) := lookupD [] l s.landing
def State.setLanding (s : State) (l : LandingId) (v : List (Nat × PathId × GWrite)) : State :=
  { s with landing := assign l v s.landing }

/-- PATH_HEAD (R106). -/
def execPathHead (p : PathId) (s : State) : Out :=
  .next (
    if s.pathUp p then
      match s.pathItems p with
      | [] => s
      | .write _ w :: t => (s.setPath p t).setHome w
      | .row a n w :: t =>
        let l : LandingId := { dst := p.dst, stream := a }
        (s.setPath p t).setLanding l (s.landingAt l ++ [(n, p, w)])
      | .marker id :: t => if s.rowsOnPort p then s else (s.setPath p t).gather id p
    else s)

/-- Row number of an item of a stream's path. -/
def PathItem.rowOf (a : ElemAt) : PathItem → Option Nat
  | .row b n _ => if b = a then some n else none
  | .write .. | .marker _ => none

/-- No row of the stream toward the destination with a lower number has still to land. -/
def State.rowDue (s : State) (l : LandingId) (n : Nat) : Bool :=
  ((s.landingAt l).all fun r => decide (n ≤ r.1)) &&
  (s.paths.all fun q => decide (q.1.dst ≠ l.dst) || q.2.all fun it => match it.rowOf l.stream with
    | some m => decide (n ≤ m)
    | none => true)

/-- A row faults at its destination: it stays in its landing port and is reported, as a withheld row write of its stream (R118, R335,
log 127). -/
def State.refuseRow (s : State) (l : LandingId) (n : Nat) (w : GWrite) : State :=
  let asid : BitVec 13 := match (s.elem l.stream).se.cur with
    | some r => r.cmd.asid
    | none => s.taskAsid l.stream
  { s with rowFaults := s.rowFaults ++ [(l, n)] }.withheldAt l.stream.die (s.regionAt l.stream.die l.stream.x l.stream.y) asid
    (BitVec.ofNat 64 (8 * w.granule)) (s.portId l.stream)

/-- A page is not present for the row: nothing is homed there, or the module that it is for says so. -/
def State.rowRefused (s : State) (l : LandingId) (w : GWrite) (fault : Bool) : Bool :=
  (s.homeOf (8 * w.granule)).isNone || (fault && (match l.dst with
    | .module _ => true
    | .die _ | .tier _ | .host => false))

/-- LANDING_PORT_LAND: a granule of the row that is due lands; one that faults at its destination stays until a resume token lets it
try again (R106, R118). -/
def execLandingPortLand (port : LandingId) (granule : LandingTry) (s : State) : Out :=
  .next (
    match (s.landingAt port).find? fun r => r.2.2.granule == granule.granule with
    | none => s
    | some r =>
      if !s.rowDue port r.1 || s.rowFaults.contains (port, r.1) then s
      else if s.rowRefused port r.2.2 granule.fault then s.refuseRow port r.1 r.2.2
      else (s.setLanding port ((s.landingAt port).erase r)).setHome r.2.2)

/-- RDC_DROP (R107). -/
def execRdcDrop (die : Fin 4) (granule : Nat) (s : State) : Out :=
  .next (if s.unlanded die granule then s else s.setRdc die granule none)

/-! ### Releases (R109, R110) -/

/-- The end of a release: an flm completes its tag; a core's instruction and a retirement take theirs up themselves. -/
def State.endRelease (s : State) (r : Release) : State :=
  match r.who with
  | .flm c t => ((s.dropRelease r.id).emptyPathSets r.parties).freeTag c t
  | .core _ | .retire .. => s

/-- The markers of a release go out once the accesses that it covers have performed. -/
def State.startRelease (s : State) (r : Release) : State :=
  if s.rowsPerformed r then
    let m := s.sendMarkers r.parties r.id
    let s1 := m.2.setRelease { r with sent := true, waiting := m.1 }
    if m.1.isEmpty then s1.endRelease { r with sent := true, waiting := m.1 } else s1
  else s

/-- RELEASE_PERFORM (R109). -/
def execReleasePerform (id : Nat) (s : State) : Out :=
  .next (
    match s.release? id with
    | none => s
    | some r => if r.sent then (if r.waiting.isEmpty then s.endRelease r else s) else s.startRelease r)

/-! ### Extents (R354) -/

/-- A stream engine with an affine command patches a page of its footprint ahead of its row, while an extent is free; and the extent of an
element that an invalidation in progress affects is walked again and patched in place. When they do is the model's agenda (R354, R355,
log 36). -/
def State.patchExtent (s : State) (a : ElemAt) (page : Nat) : State :=
  s.onDie a.die <| match (s.extents a).find? fun x => x.elem == a.e && decide (x.page ≤ page) && decide (page < x.page + x.pages) with
  | some x => if s.affected x then s.repatchTile a (· == x) else s
  | none =>
    match (s.elem a).se.cur with
    | some r =>
      let f := r.footprint
      if r.cmd.op.affine && r.started && r.finished.isNone && decide (f.1 / 4096 ≤ page) && decide (page ≤ f.2 / 4096)
          && decide ((s.extents a).length < 256) then
        s.patchRange a r.cmd.asid (!r.cmd.op.isLoad) r.cmd.user (4096 * page) (4096 * page)
      else s
    | none => s

/-- Pages that the withheld access of an element has still to reach. -/
def Elem.heldPages (e : Elem) : List Nat :=
  let gs := (match e.pend.find? fun p => p.withheld with
    | some p => p.todo ++ p.writes.map fun (w : Nat × Word × Word) => w.1
    | none => []) ++ match e.se.cur with
    | some r => r.todo ++ r.writes.map fun (w : Nat × Nat × Word × Word) => w.2.1
    | none => []
  gs.map fun g => 8 * g / 4096

/-! ### Resume tokens (R117, R216, R328, R335) -/

/-- The withheld access of an element may try once: the oldest one of a memory element, that of a stream engine with the rows that
its landing ports hold (R118), or every line of the fills of a tile memory control. The pages that it reaches are walked again (R354). -/
def State.retryAt (s : State) (a : ElemAt) : State :=
  let e := s.elem a
  if a.e = 14 ∧ tileKind a.x a.y = .ct then
    let t := s.tile a.die a.x a.y
    s.setTile a.die a.x a.y { t with slots := Vector.ofFn fun k => { getF t.slots k with withheld := [] } }
  else
    { (s.forgetBad a e.heldPages).setElem a { e with
        pend := updateFirst (fun p => p.withheld) (fun p => { p with withheld := false }) e.pend
        se := { e.se with cur := e.se.cur.map fun r => { r with withheld := false } } } with
      rowFaults := s.rowFaults.filter fun x => decide (x.1.stream ≠ a) }

/-- RESUME_TOKEN: a resume token takes effect at the element that it was sent to. -/
def execResumeToken (s : State) : Out :=
  .next (
    let a := s.focus
    let e := s.elem a
    if 0 < e.resumes then (s.setElem a { e with resumes := e.resumes - 1 }).retryAt a else s)

/-! ### Begin and end of commands (R103, R189) -/

/-- A command leaves the order buffer toward its engine, queue, release or configuration path. -/
def State.deliver (s : State) (k : Command) : State :=
  let c := k.core
  match k.op with
  | .strmLd | .strmSt | .strmGth | .strmSct =>
    match k.engine with
    | some a =>
      let e := s.elem a
      s.setElem a { e with se := { e.se with items := e.se.items ++ [.cmd k] } }
    | none => s
  | .cpy | .cpy2d | .collAr | .collAg | .collRs | .collBc | .collA2a =>
    let z := s.core c
    s.setCore c { z with queues := setF z.queues k.queue (getF z.queues k.queue ++ [.cmd k .waiting {} false]) }
  | .flm => s.beginFlm k
  | .cfgLd => s.setCore c { s.core c with cfg := (s.core c).cfg ++ [{ cmd := k }] }

/-- The command at the head of a core's order buffer leaves it: every earlier access has performed (R103). -/
def State.beginCore (s : State) (c : Fin 64) : State :=
  match (s.core c).order with
  | .cmd k :: t => ((s.setCore c { s.core c with order := t }).deliver k).settleOrder c t
  | .store _ :: _ | .sbar .. :: _ | .qfence .. :: _ | .shape .. :: _ | [] => s

/-- COMMAND_BEGIN. -/
def execCommandBegin (w : BeginAt) (s : State) : Out :=
  .next (s.onDie (beginDie w) <| match w with
    | .core c => s.beginCore c
    | .engine a => s.beginEngine a
    | .queue c q => s.beginQueue c q
    | .config c => s.beginConfig c)

/-- COMMAND_COMPLETION. An flm completes with its release. -/
def execCommandCompletion (w : BeginAt) (s : State) : Out :=
  .next (s.onDie (beginDie w) <| match w with
    | .core _ => s
    | .engine a => s.completeStream a
    | .queue c q => s.completeQueue c q
    | .config c => s.completeConfig c)

end Sys2Proof.Machine
end

