-- ==== Sys2Proof/Machine/Exact.lean ====
section
/-!
DEFINITION. The exact-reduce chain (R237 to R239). Each lane holds its own 64 bits of A; how a carry token lays out its pieces and its
carries is the model's choice (log 31).
-/
namespace Sys2Proof.Machine

/-- The element `k` places after a lane. -/
def laneAfter (a : ElemAt) (k : Nat) : ElemAt := { a with e := a.e + k }

/-- A head firing needs its heads and the credits of both outputs (R52), and what its last read left to send has gone (R54). -/
def State.xaccReady (s : State) (a : ElemAt) : Bool :=
  s.live a 0x1C0 && (s.elem a).req 0 && (s.elem a).headsReady && s.outsReady a && (s.elem a).outq.isEmpty

/-! ### Carry tokens (R92, R237, log 31) -/

/-- The dword of position `j` in a carry token: bits 49:0 mantissa and 58:50 shift of the integer n of R92, bit 59 its sign, bit 60 the
carry into the next limb. -/
def pieceOf (p : Payload) (j : Nat) : Nat := bits p.toNat (64 * j) 64

/-- The integer n of a dword, as A takes it. -/
def pieceValue (v : Nat) : BitVec 320 :=
  let m : BitVec 320 := BitVec.ofNat 320 (bits v 0 50 * 2 ^ bits v 50 9)
  if v.testBit 59 then -m else m

/-- Bits 64k+63:64k of it. -/
def pieceBits (v k : Nat) : Nat := bits (pieceValue v).toNat (64 * k) 64

/-- A live value as a dword, and the flags that it sets (R92). -/
def xaccPiece (w : Word) : Nat × BitVec 5 :=
  let x := xaccTerm w
  (x.2.1 + x.2.2.1 * 2 ^ 50 + b2n x.1 * 2 ^ 59, x.2.2.2)

/-- What a limb makes of a carry token: its new bits, the payload that it sends on, and whether the sum left 320 bits. -/
structure LimbStep where
  limb : Word
  pay : Nat := 0
  wraps : Bool := false
  deriving DecidableEq, Repr

/-- Limb `k` adds its bits of position `j` and the carry that comes with them. -/
def LimbStep.add (k : Nat) (p : Payload) (x : LimbStep) (j : Nat) : LimbStep :=
  let v := pieceOf p j
  let b := pieceBits v k
  let sum := x.limb.toNat + b + b2n (v.testBit 60)
  let limb := BitVec.ofNat 64 sum
  { limb
    pay := x.pay + (v % 2 ^ 60 + if 2 ^ 64 ≤ sum then 2 ^ 60 else 0) * 2 ^ (64 * j)
    wraps := x.wraps || (decide (k = 4) && x.limb.msb == b.testBit 63 && limb.msb != x.limb.msb) }

/-- Limb `k` takes a carry token, position 0 first (R238). -/
def limbStep (k : Nat) (limb : Word) (p : Payload) : LimbStep := (List.range 8).foldl (LimbStep.add k p) { limb }

/-- The dwords of a head's live values, and their flags. -/
def headPieces (t : Token) : Payload × BitVec 5 :=
  let x := (List.range 8).map fun j => match posAt 0 t j with
    | some w => xaccPiece w
    | none => (0, 0)
  (BitVec.ofNat 512 (x.zipIdx.foldl (fun n v => n + v.1.1 * 2 ^ (64 * v.2)) 0), x.foldl (fun f v => f ||| v.2) 0)

/-- The carry token with a payload. -/
def carryTok (h : Header) (pay : Nat) : Token := dataTok { h with lanes := 0 } (BitVec.ofNat 512 pay)

/-! ### Firings (R238) -/

/-- XACC: the head turns each live value into a dword, adds the low 64 bits of each to its own of A, and sends the dwords with their
carries on; a skipped firing adds nothing and sends zero pieces (R238). -/
def execXacc (s : State) : Out :=
  .next (
    let a := s.focus
    let e := s.elem a
    if s.xaccReady a then
      let ins := e.dataIns 1
      let h := e.header ins
      let e' := e.consume
      match e.poisonHead with
      | some p => s.emitFired a h.itag e' [poisonTok h p] [poisonTok h p]
      | none =>
        match e.outcome ins with
        | .illegal =>
          (s.emitFired a h.itag e' [poisonTok h (origin a .illegal)] [poisonTok h (origin a .illegal)]).elemTrap a h
            (e.illegalInfo h 1)
        | .skip => s.emitFired a h.itag { e' with accHdr := some (h.seq, h.itag) } [] [carryTok h 0]
        | .perform =>
          let p := match e.head? 0 with
            | some t => headPieces t.operand
            | none => (0, 0)
          let r := limbStep 0 e.acc p.1
          s.emitFired a h.itag { e' with acc := r.limb, accFlags := e.accFlags ||| p.2, accHdr := some (h.seq, h.itag) } [] [carryTok h r.pay]
    else s)

/-- Place of a limb in its chain: the head stands so many lanes before it (R237). -/
def State.limbNo (s : State) (a : ElemAt) : Nat :=
  (([1, 2, 3].find? fun k => (s.elem { a with e := a.e - k }).opcode == 0x1C0)).getD 4

/-- XACC_LIMB: a limb adds its bits of the pieces, with their carries, to its own of A and sends the token on; the last limb ends it, and
sees the overflow of A; poison goes on as R54 says. -/
def execXaccLimb (s : State) : Out :=
  .next (
    let a := s.focus
    let e := s.elem a
    match e.head? 0 with
    | none => s
    | some t =>
      if s.live a 0x1C1 && e.calm 0 && !t.hdr.isControl && s.outsReady a && e.outq.isEmpty then
        if t.hdr.isPoison then s.emitFired a t.hdr.itag (e.drop 0 1) [t] [t]
        else
          let r := limbStep (s.limbNo a) e.acc t.pay
          s.emitFired a t.hdr.itag
            { e.drop 0 1 with acc := r.limb, accFlags := if r.wraps then e.accFlags ||| 0b01001 else e.accFlags } [] [carryTok t.hdr r.pay]
      else s)

/-! ### Reads (R239) -/

/-- A control token that reads the accumulator (R223, R239). -/
def Elem.reads (e : Elem) (h : Header) : Bool :=
  let l := e.opt 8 3
  h.kind == 3 || (h.kind == 2 && decide (l ≤ 5) && decide (l ≤ h.level))

/-- The control token that stands at every required input, when all are equal in kind (R54). -/
def Elem.aligned (e : Elem) : Option Token :=
  let ins := (List.finRange 4).filter fun i => e.req i.val
  match ins with
  | [] => none
  | i :: _ =>
    match e.head? i with
    | none => none
    | some t =>
      if t.hdr.isControl && ins.all fun j => e.calm j && (match e.head? j with
          | some u => u.hdr.kind == t.hdr.kind
          | none => false) then some t
      else none

/-- Removes one head from every required input. -/
def Elem.dropHeads (e : Elem) : Elem :=
  (List.finRange 4).foldl (fun e' i => if e.req i.val then e'.drop i 1 else e') e

/-- The limbs behind a head have taken every carry token, and have sent what an earlier read left to them. -/
def State.chainEmpty (s : State) (a : ElemAt) : Bool :=
  (List.range 4).all fun k => s.load (laneAfter a (k + 1), 0) == 0 && (s.elem (laneAfter a (k + 1))).outq.isEmpty

/-- The accumulator of a chain and its flags (R92). -/
def State.chainAcc (s : State) (a : ElemAt) : Acc :=
  { a := BitVec.ofNat 320 ((List.range 5).foldl (fun n k => n + (s.elem (laneAfter a k)).acc.toNat * 2 ^ (64 * k)) 0)
    f := (s.elem a).accFlags ||| (s.elem (laneAfter a 4)).accFlags }

/-- The reset of a lane of a chain (R92, R239). -/
def Elem.accReset (e : Elem) : Elem := { e with acc := 0, accFlags := 0, accHdr := none }

/-- A token waits for the credit of an output, when that is enabled. -/
def Elem.waitOn (e : Elem) (o : Fin 2) (t : Token) : Elem := if e.outOn o.val then { e with outq := e.outq ++ [(o, t)] } else e

/-- Sends the oldest token that waits for an output, when that has a credit. -/
def State.pumpOne (s : State) (a : ElemAt) (o : Fin 2) : State :=
  let e := s.elem a
  match e.outq.find? fun x => x.1 == o with
  | some x => if 0 < s.credits a o.val then (s.setElem a { e with outq := e.outq.erase x }).send a o.val x.2 else s
  | none => s

/-- The read itself: the sum at the head and the flags at limb 4 wait for their credits, at the head with the control token behind; A and
the flags are reset. -/
def State.chainRead (s : State) (a : ElemAt) (t : Token) : State :=
  let e := s.elem a
  let hd := e.accHdr.getD (0, 0)
  let h : Header := { seq := hd.1, itag := hd.2, lanes := 3 }
  let k := s.chainAcc a
  let sum := dataTok h ((k.read e.rm).zeroExtend 512)
  let flags := dataTok { h with lanes := 1 } (k.f.zeroExtend 512)
  let s1 := s.setElem a (((e.dropHeads.accReset.waitOn 0 sum).waitOn 0 t).waitOn 1 t)
  (List.range 4).foldl (fun s i =>
    let b := laneAfter a (i + 1)
    let l := (s.elem b).accReset
    s.setElem b (if i = 3 then l.waitOn 0 flags else l)) s1

/-- XACC_READ: a read begins when a control token aligns at the head and every value has entered A; what it leaves to send at the head or
at limb 4 goes as credits allow, a control token behind the result. The token itself goes down the chain to limb 4 (R239, log 43). -/
def execXaccRead (s : State) : Out :=
  .next (
    let a := s.focus
    let e := s.elem a
    if s.live a 0x1C1 || (s.live a 0x1C0 && !e.outq.isEmpty) then (s.pumpOne a 0).pumpOne a 1
    else
      match e.aligned with
      | none => s
      | some t =>
        if s.live a 0x1C0 && e.reads t.hdr && e.cancels.isEmpty && s.chainEmpty a then s.chainRead a t else s)

end Sys2Proof.Machine
end

