-- ==== Sys2Proof/Machine/Matrix.lean ====
section
/-!
DEFINITION. Tile slots (R247, R248), fills and drains (R249 to R254, R114), the matrix array (R255 to R258).
-/
namespace Sys2Proof.Machine

/-! ### Slots and bindings -/

def State.slotAt (s : State) (a : ElemAt) (k : Fin 8) : Slot := getF (s.tile a.die a.x a.y).slots k
def State.setSlotAt (s : State) (a : ElemAt) (k : Fin 8) (v : Slot) : State :=
  s.setTile a.die a.x a.y { s.tile a.die a.x a.y with slots := setF (s.tile a.die a.x a.y).slots k v }

/-- A binding of tm (R249). -/
structure Binding where
  slot : Fin 8
  keep : Bool
  rows : Bool
  kind : Nat
  fmt : Nat
  m : Nat
  n : Nat
  deriving DecidableEq, Repr

/-- The binding of input `i`. -/
def Elem.binding (tm : Elem) (i : Nat) : Option Binding :=
  let c := tm.const (1 + i)
  if c.testBit 3 then
    some { slot := ⟨bits c 0 3, by unfold bits; omega⟩, keep := c.testBit 14, rows := c.testBit 15, kind := bits c 16 2
           fmt := bits c 18 4, m := bits c 22 6 + 1, n := bits c 28 10 + 1 }
  else none

/-- The tile memory control of an element's tile. -/
def State.tmOf (s : State) (a : ElemAt) : Elem := s.elem { a with e := 14 }

/-- The binding that fills slot `k` of a tile. -/
def State.slotBinding (s : State) (a : ElemAt) (k : Fin 8) : Option Binding :=
  (List.range 4).findSome? fun i => match (s.tmOf a).binding i with
    | some b => if b.slot = k then some b else none
    | none => none

/-- Columns and elements of the tile in a slot. -/
def State.slotCols (s : State) (a : ElemAt) (k : Fin 8) : Nat := match s.slotBinding a k with
  | some b => b.n
  | none => 64
def State.slotSize (s : State) (a : ElemAt) (k : Fin 8) : Nat := match s.slotBinding a k with
  | some b => b.m * b.n
  | none => 4096

/-- Accumulator ac(j) is configured (R155). -/
def State.hasAcc (s : State) (a : ElemAt) (j : Nat) : Bool := ((s.tmOf a).const 0).testBit j
def accSlot (j : Nat) : Fin 8 := ⟨4 + j % 4, by omega⟩

/-- The value of an element that fits the kind of a slot (R248). -/
def fitsKind (kind : Nat) (w : Word) : Bool :=
  let fits (n : Nat) (lo : Int) (m : Nat) (ex : Int) : Bool :=
    let len := Nat.log2 m + 1
    decide (len ≤ n ∨ m % 2 ^ (len - n) = 0) && decide (lo ≤ ex + Int.ofNat (Nat.log2 m))
  match kind, valOf w with
  | 3, _ => true
  | _, .nan | _, .zero _ => true
  | k, .inf _ => k != 1
  | 0, .fin _ m ex => fits 4 (-16) m ex && !ltVal (.fin false 57344 0) (.fin false m ex)
  | 1, .fin _ m ex => fits 8 (-129) m ex && ltVal (.fin false m ex) (.fin false 1 132)
  | _, .fin _ m ex => fits 11 (-133) m ex && ltVal (.fin false m ex) (.fin false 1 128)

/-! ### Fills (R250, R251) -/

/-- Bit address of element (i, c) of a TFU tile, and of its MXFP4 scale. -/
def tileBit (b : Binding) (t : Token) (i c : Nat) : Nat :=
  8 * addrOf ((posImage 0 t.pay 0).toNat + Int.ofNat i * (posImage 0 t.pay 1).toInt + Int.ofNat (c * fmtWidth b.fmt / 8))
    + c * fmtWidth b.fmt % 8
def tileScale (t : Token) (i c : Nat) : Nat :=
  8 * addrOf ((posImage 0 t.pay 2).toNat + Int.ofNat i * (posImage 0 t.pay 3).toInt + Int.ofNat (c / 32))

/-- Virtual lines that a tile touches. -/
def tileLines (b : Binding) (t : Token) : List Nat :=
  let cells := (List.range b.m).flatMap fun i => (List.range b.n).map fun c => (i, c)
  let els := granulesOf (fmtWidth b.fmt) (cells.map fun x => tileBit b t x.1 x.2)
  let sc := if b.fmt = 5 then granulesOf 8 (cells.map fun x => tileScale t x.1 x.2) else []
  ((els ++ sc).map (· / 8)).eraseDups

/-- W64 images of a tile from its snapshots, in row-major order; +0 is not listed (R84, R248). -/
def tileData (b : Binding) (t : Token) (snaps : List (Nat × List Word)) : Map Word :=
  let got := snaps.flatMap fun l => (List.range 8).map fun k => (8 * l.1 + k, nth l.2 k)
  (List.range (b.m * b.n)).filterMap fun k =>
    let i := k / b.n
    let c := k % b.n
    let scale := if b.fmt = 5 then gatherBits 8 got (tileScale t i c) else 127
    let v := decodeImage b.fmt 0 true scale (gatherBits (fmtWidth b.fmt) got (tileBit b t i c))
    if v = 0 then none else some (k, v)

/-- Whether a new fill of a slot may start (R250, R252). -/
def Slot.fillable (sl : Slot) (keep : Bool) : Bool :=
  match sl.tag with
  | .empty => true
  | .full => keep
  | .filling | .opened => false

/-- Stores eight elements of a rows fill, row-major from `8 * n` (R251). -/
def storeRow (data : Map Word) (n : Nat) (f : Nat → Word) : Map Word :=
  (List.range 8).foldl (fun d p => Map.put 0 (8 * n + p) (f p) d) data

/-- A row token of a fill. -/
def State.takeRow (s : State) (a : ElemAt) (i : Fin 4) (b : Binding) (t : Token) : State :=
  let sl := s.slotAt a b.slot
  let going := sl.tag == .filling
  if going || sl.fillable b.keep then
    let base : Slot := if going then sl else { kind := b.kind, tag := .filling }
    let v (p : Nat) : Option Word := posAt 0 t p
    let bad := firstLane 8 fun p => match v p with
      | some w => !fitsKind b.kind w
      | none => false
    let data := storeRow base.data base.taken fun p => if bad.isSome then 0 else (v p).getD 0
    let n := base.taken + 1
    let done := decide (b.m * b.n / 8 ≤ n)
    let sl' : Slot :=
      { base with data, taken := if done then 0 else n, tag := if done then .full else .filling, unread := done
                  rows := if done then [] else base.rows ++ [t] }
    let s1 := (s.setElem a ((s.elem a).drop i 1)).setSlotAt a b.slot sl'
    match bad with
    | some p => s1.elemTrap a t.hdr { cause := .illegal, lane := p, d1 := posImage 0 t.pay p }
    | none => s1
  else s

/-- An address token of a fill. -/
def State.takeAddress (s : State) (a : ElemAt) (i : Fin 4) (b : Binding) (t : Token) : State :=
  let sl := s.slotAt a b.slot
  if sl.fillable b.keep then
    let s1 := s.setElem a ((s.elem a).drop i 1)
    match firstLane 2 fun p => (posAt 0 t p).isNone with
    | some p => s1.elemTrap a t.hdr { cause := .illegal, lane := p, d1 := posImage 0 t.pay p }
    | none => s1.setSlotAt a b.slot { kind := b.kind, tag := .filling, addr := some t, unread := true }
  else s

/-- The element is a tile memory control with its opcode. -/
def State.isTm (s : State) (a : ElemAt) : Bool := s.live a 0x002 || s.live a 0x242

/-- TSLOT: tm takes the head of input `i` into its bound slot; poison starts no fill and goes on as R54 says (R250, R251). -/
def execTslot (a : ElemAt) (i : Fin 4) (s : State) : Out :=
  .next (
    let e := s.elem a
    match e.binding i.val, e.head? i with
    | some b, some t =>
      if s.isTm a && e.calm i && !t.hdr.isControl then
        if t.hdr.isPoison then
          (if s.oneCredit a then
            s.emitFired a t.hdr.itag (e.drop i 1) [poisonTok t.hdr t.pay] [poisonTok t.hdr t.pay]
           else s)
        else if b.rows then s.takeRow a i b t.operand else s.takeAddress a i b t.operand
      else s
    | _, _ => s)

/-- Physical lines pinned in an L2 slice of a die (R114). -/
def State.pinnedIn (s : State) (d : Fin 4) (slice : Nat) : Nat :=
  (s.tiles.filter fun t => t.1 / 1024 == d.val).foldl (fun n t =>
    t.2.slots.toList.foldl (fun n sl => n + (sl.pins.filter fun p => Config.sliceOf p.2 == slice).length) n) 0

/-- The fill in progress at input `i` of a tm. -/
def State.fillAt (s : State) (a : ElemAt) (i : Fin 4) : Option (Binding × Token × Slot) :=
  match (s.elem a).binding i.val with
  | some b =>
    let sl := s.slotAt a b.slot
    match sl.addr with
    | some t => if s.isTm a && sl.tag == .filling then some (b, t, sl) else none
    | none => none
  | none => none

/-- TFU_PIN: a line of the tile is pinned while its slice holds less than 1 MiB of pinned lines; one that faults is withheld (R114,
R335). -/
def execTfuPin (a : ElemAt) (i : Fin 4) (line : Nat) (s : State) : Out :=
  .next (
    match s.fillAt a i with
    | none => s
    | some (b, t, sl) =>
      if (tileLines b t).contains line && !(sl.pins.any fun p => p.1 == line) && !sl.withheld.contains line then
        match s.translateBy (.tile a.die a.x a.y) (s.taskAsid a) (64 * line) false true with
        | .error _ =>
          (s.setSlotAt a b.slot { sl with withheld := sl.withheld ++ [line] }).withheldAt a.die (s.regionAt a.die a.x a.y)
            (s.taskAsid a) (BitVec.ofNat 64 (64 * line)) (s.portId a)
        | .ok pa =>
          if s.pinnedIn a.die (Config.sliceOf (pa / 64)) * 64 < 2 ^ 20 then
            s.setSlotAt a b.slot { sl with pins := sl.pins ++ [(line, pa / 64)] }
          else s
      else s)

/-- The eight granules of a physical line, read in one move for a task. -/
def State.readLine (s : State) (task : Option (BitVec 32)) (d : Fin 4) (line : Nat) : List Word × State :=
  (List.range 8).foldl (fun r k => let v := r.2.readFor task d (8 * line + k); (r.1 ++ [v.1], v.2)) ([], s)

/-- TFU_SNAPSHOT: the eight granules of a pinned line are read in one move (R114). -/
def execTfuSnapshot (a : ElemAt) (i : Fin 4) (line : Nat) (s : State) : Out :=
  .next (
    match s.fillAt a i with
    | none => s
    | some (b, _, sl) =>
      match sl.pins.find? fun p => p.1 == line with
      | some p =>
        if sl.snaps.any fun l => l.1 == line then s
        else
          let task := match s.regionAt a.die a.x a.y with
            | some r => (s.region a.die r).task
            | none => none
          let v := s.readLine task a.die p.2
          v.2.setSlotAt a b.slot { sl with snaps := sl.snaps ++ [(line, v.1)] }
      | none => s)

/-- TILE_FILL_COMPLETE: every line has been read; the tile is decoded and its tag becomes full (R250). The last token of a rows fill
makes its tag full itself (R251). -/
def execTileFillComplete (a : ElemAt) (i : Fin 4) (s : State) : Out :=
  .next (
    match s.fillAt a i with
    | none => s
    | some (b, t, sl) =>
      if (tileLines b t).all fun l => sl.snaps.any fun x => x.1 == l then
        s.setSlotAt a b.slot { sl with tag := .full, data := tileData b t sl.snaps, addr := none, snaps := [] }
      else s)

/-- A firing or a drain reads a slot: one that an uncorrectable error has marked fails the task (R394). -/
def State.readSlot (s : State) (a : ElemAt) (k : Fin 8) : State := if (s.slotAt a k).bad then s.doom a 5 else s

/-- A slot is consumed by a firing that completes: its pins go, and it becomes empty unless its binding keeps it (R252). -/
def State.consumeSlot (s0 : State) (a : ElemAt) (k : Fin 8) : State :=
  let s := s0.readSlot a k
  let sl := s.slotAt a k
  let keep := match s.slotBinding a k with
    | some b => b.keep
    | none => false
  s.setSlotAt a k (if keep then { sl with pins := [], unread := false } else { kind := sl.kind })

/-! ### Drains (R253) -/

/-- Grants of a latched shape, and its kind (R209, R212). -/
def shapeM (w : Word) : Nat := bits w.toNat 0 16
def shapeN (w : Word) : Nat := bits w.toNat 16 16
def shapeK (w : Word) : Nat := bits w.toNat 32 16
def shapeKind (w : Word) : Nat := bits w.toNat 51 3

/-- The drain binding of tdrain (R253). -/
structure Drain where
  slot : Fin 8
  keep : Bool
  rows : Nat
  cols : Nat
  mo : Nat
  no : Nat
  deriving DecidableEq, Repr

def Elem.drain (tm : Elem) : Option Drain :=
  let c := tm.const 5
  if c.testBit 3 then
    some { slot := accSlot (bits c 0 2), keep := c.testBit 2, rows := 16 * (bits c 4 2 + 1), cols := 16 * (bits c 6 2 + 1)
           mo := bits c 8 10, no := bits c 18 10 }
  else none

/-- The tag of a drained accumulator (R253, R274). -/
def Slot.drained (sl : Slot) (keep : Bool) : Slot :=
  if keep && !sl.reset then { sl with tag := .opened, taken := 0, kept := true } else { kind := sl.kind }

/-- Drain token `n`: row n / (cols / 8), eight columns; live within the grants. -/
def drainToken (d : Drain) (sl : Slot) (shape : Word) (n : Nat) : Token :=
  let i := n / (d.cols / 8)
  let c := n % (d.cols / 8)
  posToken { seq := sl.step.1, itag := sl.step.2 } 0 fun p =>
    if d.mo + i < shapeM shape ∧ d.no + 8 * c + p < shapeN shape then some (Map.get 0 (64 * i + 8 * c + p) sl.data) else none

/-- TDRAIN: the next token of a full accumulator leaves on output 0; after the last one the tag becomes empty or open (R253). -/
def execTdrain (s : State) : Out :=
  .next (
    let a := s.focus
    let e := s.elem a
    match e.drain, e.shape with
    | some d, some w =>
      let sl := s.slotAt a d.slot
      if s.live a 0x242 && sl.tag == .full && (!e.outOn 0 || decide (0 < s.credits a 0)) then
        let t := drainToken d sl w sl.taken
        let sl' : Slot := if sl.taken + 1 = d.rows * d.cols / 8 then sl.drained d.keep else { sl with taken := sl.taken + 1 }
        let s1 := (s.readSlot a d.slot).setSlotAt a d.slot sl'
        if e.outOn 0 then s1.send a 0 t else s1
      else s
    | _, _ => s)

/-! ### mma and mrec (R255 to R258) -/

/-- c0 of mma (R255). -/
structure MmaCfg where
  a : Fin 8
  b : Fin 8
  j : Nat
  mt : Nat
  nt : Nat
  kt : Nat
  mo : Nat
  no : Nat
  lvl : Nat
  acc : Bool
  last : Bool
  deriving DecidableEq, Repr

/-- The configuration at the present firing of a pass: the slots alternate. An mrec always adds to an open destination (R258). -/
def Elem.mma (e : Elem) : MmaCfg :=
  let c := e.const 0
  let odd := e.pass % 2 = 1
  { a := ⟨if odd then bits c 3 3 else bits c 0 3, by split <;> (unfold bits; omega)⟩
    b := ⟨if odd then bits c 9 3 else bits c 6 3, by split <;> (unfold bits; omega)⟩
    j := bits c 12 2, mt := 16 * (bits c 14 2 + 1), nt := 16 * (bits c 16 2 + 1), kt := bits c 18 11 + 1
    mo := bits c 29 10, no := bits c 39 10, lvl := bits c 49 3
    acc := (e.field 10).testBit 3 || e.opcode == 0x241, last := (e.field 10).testBit 4 }

/-- A destination that a pass may take at firing `f` (R256). -/
def Slot.takes (d : Slot) (f : Nat) (acc : Bool) : Bool :=
  decide (d.taken = 0) && (match d.tag with
    | .empty => true
    | .opened => decide (0 < f) || acc || d.kept
    | .filling | .full => false)

/-- Element (i, j) of a destination before a firing: an empty one reads +0. -/
def Slot.value (d : Slot) (k : Nat) : Word := if d.tag = .empty then 0 else Map.get 0 k d.data

/-- One group sum (R89): exact, then one rounding. -/
def groupSum (rm : RM) (xs : List (Word × Word)) : Word :=
  let ps := xs.map fun x => mulVal (valOf x.1) (valOf x.2)
  if ps.any fun p => p == .nan then canonicalNaN else roundW64 (exactSum ps rm) rm

/-- The operand pairs of output (i, j) for the k range of a firing, in ascending k. A masked k of the tail has no pair, so that a group
whose live products are all -0 stays -0 (log 117). -/
def mmaPairs (A B : Map Word) (ca cb i j n : Nat) : List (Word × Word) :=
  (List.range n).map fun k => (Map.get 0 (i * ca + k) A, Map.get 0 (j * cb + k) B)

/-- Groups of 32 of a list. -/
def groups32 (l : List (Word × Word)) : List (List (Word × Word)) :=
  (List.range ((l.length + 31) / 32)).map fun g => (l.drop (32 * g)).take 32

/-- What a firing computes for one output: its image before and after, and whether an operand was a NaN. -/
structure Cell where
  row : Nat
  col : Nat
  old : Word
  new : Word
  nanIn : Bool
  deriving DecidableEq, Repr

/-- The live outputs of a firing (R256, R258). -/
def mmaCells (c : MmaCfg) (rm : RM) (gamma : Option Word) (A B : Map Word) (ca cb : Nat) (d : Slot) (M N n : Nat) : List Cell :=
  (List.range c.mt).flatMap fun i => (List.range c.nt).filterMap fun j =>
    if c.mo + i < M ∧ c.no + j < N then
      let old := d.value (64 * i + j)
      let start := match gamma with
        | some g => wMulOp rm g old
        | none => old
      let ps := mmaPairs A B ca cb i j n
      some { row := i, col := j, old, new := (groups32 ps).foldl (fun x g => wAddOp rm x (groupSum rm g)) start
             nanIn := isNaN old || (match gamma with
               | some g => isNaN g
               | none => false) || ps.any fun p => isNaN p.1 || isNaN p.2 }
    else none

/-- The record of a trap at an element of the destination (R333). -/
def Cell.info (x : Cell) (c : ElemCause) : TrapInfo := { cause := c, lane := x.col, d1 := BitVec.ofNat 64 x.row, d2 := x.old, d3 := x.new }

/-- The NaN trap of a matrix firing over its written elements (R74). -/
def cellNan (e : Elem) (cs : List Cell) : Option TrapInfo :=
  if e.nantrap then (cs.find? fun x => isNaN x.new && !x.nanIn).map fun x => x.info .nan else none

/-- The range guard over its written elements (R225). -/
def cellGuard (e : Elem) (cs : List Cell) : Option TrapInfo := (cs.find? fun x => e.guards x.new).map fun x => x.info .guard

/-- Stores cells into a destination, which becomes open; an empty one takes +0 first. -/
def Slot.store (d : Slot) (cs : List Cell) : Slot :=
  { d with
    data := cs.foldl (fun m x => Map.put 0 (64 * x.row + x.col) x.new m) (if d.tag = .empty then [] else d.data)
    tag := .opened, kept := false, kind := 3 }

/-- A destination that becomes full; an empty one takes +0 in every element (R257). -/
def Slot.makeFull (d : Slot) (step : BitVec 16 × BitVec 8) : Slot :=
  { d with data := if d.tag = .empty then [] else d.data, tag := .full, taken := 0, reset := false, step, kind := 3 }

/-- Replaces position 0 of a W64 payload. -/
def setPos0 (p : Payload) (w : Word) : Payload := BitVec.ofNat 512 (p.toNat / 2 ^ 64 * 2 ^ 64 + w.toNat)

/-- The step's γ: 1.0 where position 0 is masked (R258). -/
def stepGamma (t : Token) : Word := (posAt 0 t 0).getD (wOne false)

/-- Output 1 of an mrec at a performed firing (R258). -/
def feedback (e : Elem) (step fb : Token) : Token :=
  let t : Token := { fb with hdr := { fb.hdr with kind := 0 } }
  match posAt 0 fb 0 with
  | some p => if e.pass = 0 then { t with pay := setPos0 fb.pay (wMulOp e.rm p (stepGamma step)) } else t
  | none => t

/-- The NaN trap of output 1 of an mrec: a product that is a NaN of operands that are none (R74). It records the operands, γ and P
(R333, log 132). -/
def feedbackTrap (e : Elem) (step fb : Token) (rec : Bool) : Option TrapInfo :=
  match posAt 0 fb 0 with
  | some p =>
    let g := stepGamma step
    if rec && e.pass == 0 && e.nantrap && isNaN (wMulOp e.rm p g) && !isNaN p && !isNaN g then
      some { cause := .nan, d1 := g, d2 := p }
    else none
  | none => none

/-- The end of a firing, performed or skipped: f advances, and LAST makes the destination full at the end of the pass (R256,
R257). -/
def State.mmaFinish (s : State) (a : ElemAt) (rec : Bool) (h : Header) (e' : Elem) (c : MmaCfg) (d : Slot) (passes : Nat)
    (fb : Token) : State :=
  let last := decide (passes ≤ e'.pass + 1)
  let full := last && c.last
  let d1 : Slot := { d with step := (h.seq, h.itag) }
  let d2 := if full then d1.makeFull (h.seq, h.itag) else d1
  let s1 := ((s.setSlotAt a (accSlot c.j) d2).consumeSlot a c.a).consumeSlot a c.b
  let out := dataTok { h with lanes := 0, pvalid := true, pbit := full } 0
  s1.emitFired a h.itag { e' with pass := if last then 0 else e'.pass + 1 } [out]
    (if rec then [fb] else [])

/-- A firing of the matrix array (R255 to R258); a NaN of either output comes before the range guard (R224). -/
def State.mmaFire (s : State) (op : Nat) (rec : Bool) : State :=
  let a := s.focus
  let e := s.elem a
  if s.canFire a op then
    let ins := e.dataIns (if rec then 2 else 1)
    let h := e.header ins
    let e' := e.consume
    let poison (p : Payload) : State := s.emitFired a h.itag e' [poisonTok h p] [poisonTok h p]
    match e.poisonHead with
    | some p => poison p
    | none =>
      match e.shape with
      | none => s
      | some w =>
        let c := e.mma
        let sa := s.slotAt a c.a
        let sb := s.slotAt a c.b
        let d := s.slotAt a (accSlot c.j)
        let kind := shapeKind w
        if isMatrix kind && sa.tag == .full && sb.tag == .full && decide (sa.kind + 1 = kind) && decide (sb.kind + 1 = kind)
            && d.takes e.pass c.acc then
          let K := shapeK w
          let passes := (K + c.kt - 1) / c.kt
          let fb := (((getF e.inq 1).head?).getD { hdr := h })
          match e.outcome ins with
          | .illegal =>
            ((poison (origin a .illegal)).elemTrap a h { cause := .illegal, d2 := d.value 0, d3 := Config.freeWord s.free }).useFree 1
          | .skip => s.mmaFinish a rec h e' c d passes { fb with hdr := { fb.hdr with kind := 0 } }
          | .perform =>
            let n := min ((e.pass + 1) * c.kt) K - e.pass * c.kt
            let step := ((e.head? 0).map Token.operand).getD { hdr := h }
            let gamma := if rec && e.pass == 0 then some (stepGamma step) else none
            let cs := mmaCells c e.rm gamma sa.data sb.data (s.slotCols a c.a) (s.slotCols a c.b) d (shapeM w) (shapeN w) n
            match ((cellNan e cs).or (feedbackTrap e step fb.operand rec)).or (cellGuard e cs) with
            | some t => (poison (origin a t.cause)).elemTrap a h t
            | none => s.mmaFinish a rec h e' c (d.store cs) passes (feedback e step fb.operand)
        else s
  else s
where
  /-- Kinds 1 to 3 are fp8, e2m1 and bf16. -/
  isMatrix (k : Nat) : Bool := decide (1 ≤ k) && decide (k ≤ 3)

def execMma (s : State) : Out := .next (s.mmaFire 0x240 false)
def execMrec (s : State) : Out := .next (s.mmaFire 0x241 true)

/-- The token makes a destination under ACC full (R257): a barrier of the level or higher, or an end-of-run. -/
def fullsAt (lvl : Nat) (h : Header) : Bool := h.kind == 3 || (h.kind == 2 && decide (lvl ≤ 5) && decide (lvl ≤ h.level))

end Sys2Proof.Machine
end

