-- ==== Sys2Proof/Machine/Special.lean ====
section
/-!
DEFINITION. The special functions sf.exp2 to sf.sigm (R228, R229): the exact results of R229, and elsewhere a free image within the error
bound of the level. The functions are enclosed in 128-bit fixed point.
-/
namespace Sys2Proof.Machine

/-! ### Fixed point -/

/-- ln 2 and log2 e times 2^128, rounded down. -/
def ln2Fx : Nat := 0xb17217f7d1cf79abc9e3b39803f2f6af
def log2eFx : Nat := 0x171547652b82fe1777d0ffda0d23a7d11

def mulFx (a b : Nat) : Nat := a * b / 2 ^ 128

/-- e^y times 2^128 for y at most 1 in fixed point, by its series. -/
def expFx (y : Nat) : Nat :=
  ((List.range 48).foldl (fun (p : Nat × Nat) n => (mulFx p.1 y / (n + 1), p.2 + p.1)) (2 ^ 128, 0)).2

/-- 2^f times 2^128 for f from 0 to 1 in fixed point. -/
def exp2Fx (f : Nat) : Nat := expFx (mulFx f ln2Fx)

/-- log2 of m / 2^l times 2^128, for a quotient from 1 to 2, by the series of the area tangent. -/
def log2Fx (m l : Nat) : Nat :=
  let z := (m - 2 ^ l) * 2 ^ 128 / (m + 2 ^ l)
  let zz := mulFx z z
  mulFx (2 * ((List.range 44).foldl (fun (p : Nat × Nat) n => (mulFx p.1 zz, p.2 + p.1 / (2 * n + 1))) (z, 0)).2) log2eFx

/-- The integer square root of a number below 2^520. -/
def sqrtNat (n : Nat) : Nat :=
  (List.range 260).reverse.foldl (fun r i => if (r + 2 ^ i) * (r + 2 ^ i) ≤ n then r + 2 ^ i else r) 0

/-! ### Enclosures of the functions -/

/-- The function's value has sign `neg` and a magnitude from lo × 2^ex to hi × 2^ex. -/
structure Enclosure where
  neg : Bool
  lo : Nat
  hi : Nat
  ex : Int
  deriving DecidableEq, Repr

/-- Slack of a fixed-point result. -/
def slackFx : Nat := 2 ^ 30

/-- e^(−m × 2^ex) as v / 2^d, up to the slack in v. -/
def expNeg (m : Nat) (ex : Int) : Nat × Nat :=
  let u := mulFx (roundScaled m (ex + 128) .rtz false) log2eFx
  (exp2Fx (2 ^ 128 - u % 2 ^ 128), u / 2 ^ 128 + 129)

/-- Encloses function `op` (0 to 5 as in R228) at the finite nonzero operand (−1)^neg × m × 2^ex. -/
def encloses (op : Nat) (neg : Bool) (m : Nat) (ex : Int) : Enclosure :=
  match op with
  | 0 =>
    let t : Int := if neg then -(Int.ofNat (roundScaled m (ex + 128) .rup false)) else Int.ofNat (roundScaled m (ex + 128) .rtz false)
    let v := exp2Fx (t % 2 ^ 128).toNat
    { neg := false, lo := v - slackFx, hi := v + slackFx, ex := t / 2 ^ 128 - 128 }
  | 1 =>
    let l := Nat.log2 m
    let t : Int := (ex + Int.ofNat l) * 2 ^ 128 + Int.ofNat (log2Fx m l)
    { neg := decide (t < 0), lo := t.natAbs - slackFx, hi := t.natAbs + slackFx, ex := -128 }
  | 2 =>
    let q := 2 ^ 256 / m
    { neg, lo := q, hi := q + 1, ex := -256 - ex }
  | 3 =>
    let odd := ex % 2
    let q := sqrtNat (2 ^ 512 / (if odd = 0 then m else 2 * m))
    { neg := false, lo := q, hi := q + 1, ex := -256 - (ex - odd) / 2 }
  | 4 =>
    if ltVal (.fin false m ex) (.fin false 1 (-40)) then { neg, lo := m * (2 ^ 79 - 1), hi := m * 2 ^ 79, ex := ex - 79 }
    else
      let e := expNeg m (ex + 1)
      let f (v : Nat) : Nat := (2 ^ e.2 - v) * 2 ^ 256 / (2 ^ e.2 + v)
      { neg, lo := f (e.1 + slackFx), hi := f (e.1 - slackFx) + 1, ex := -256 }
  | _ =>
    let e := expNeg m ex
    if neg then
      let f (v : Nat) : Nat := v * 2 ^ (e.2 + 256) / (2 ^ e.2 + v)
      { neg := false, lo := f (e.1 - slackFx), hi := f (e.1 + slackFx) + 1, ex := -Int.ofNat (e.2 + 256) }
    else
      let f (v : Nat) : Nat := 2 ^ (e.2 + 256) / (2 ^ e.2 + v)
      { neg := false, lo := f (e.1 + slackFx), hi := f (e.1 - slackFx) + 1, ex := -256 }

/-! ### The error bound of a level (R228) -/

/-- The worst-case error of a level is 2^−levelBits. -/
def levelBits (level : Nat) : Nat :=
  match level with
  | 0 => 45
  | 1 => 23
  | 2 => 14
  | _ => 8

/-- A ≤ b for finite magnitudes. -/
def leMag (m : Nat) (e : Int) (n : Nat) (f : Int) : Bool := !ltVal (.fin false n f) (.fin false m e)

/-- A result lies within a relative error 2^−b of an enclosed value; a zero stands for one that has been flushed (R229). -/
def Enclosure.admits (i : Enclosure) (b : Nat) (y : Val) : Bool :=
  match y with
  | .fin n m e => n == i.neg && leMag (i.lo * (2 ^ b - 1)) i.ex (m * 2 ^ b) e && leMag (m * 2 ^ b) e (i.hi * (2 ^ b + 1)) i.ex
  | .zero n => n == i.neg && !leMag 1 (Int.ofNat b - 4094) (i.lo * (2 ^ b - 1)) i.ex
  | .inf _ | .nan => false

/-- A result lies within an absolute error 2^−b of an enclosed value. -/
def Enclosure.near (i : Enclosure) (b : Nat) (y : Val) : Bool :=
  let lo : Val := if i.neg then .fin true i.hi i.ex else .fin false i.lo i.ex
  let hi : Val := if i.neg then .fin true i.lo i.ex else .fin false i.hi i.ex
  let ok := !ltVal y (addVal lo (.fin true 1 (-Int.ofNat b)) .rne) && !ltVal (addVal hi (.fin false 1 (-Int.ofNat b)) .rne) y
  match y with
  | .fin .. | .zero _ => ok
  | .inf _ | .nan => false

/-- A magnitude lies from (1 − 2^−b)^k to (1 + 2^−b)^k. -/
def nearOne (b k m : Nat) (e : Int) : Bool :=
  leMag ((2 ^ b - 1) ^ k) (-Int.ofNat (k * b)) m e && leMag m e ((2 ^ b + 1) ^ k) (-Int.ofNat (k * b))

/-- A result of function `op` at (−1)^neg × m × 2^ex meets the bound. For a reciprocal the product with the operand, and for a reciprocal
square root the product of its square, decides it exactly. -/
def meetsBound (op level : Nat) (neg : Bool) (m : Nat) (ex : Int) (y : Val) : Bool :=
  let b := levelBits level
  let i := encloses op neg m ex
  match op, y with
  | 2, .fin n k e => n == neg && nearOne b 1 (k * m) (e + ex)
  | 3, .fin n k e => !n && nearOne b 2 (k * k * m) (2 * e + ex)
  | 1, y => if ex + Int.ofNat (Nat.log2 m) = 0 ∨ ex + Int.ofNat (Nat.log2 m) = -1 then i.near b y else i.admits b y
  | _, y => i.admits b y

/-- The free image where it meets the bound, else the enclosed value rounded with rm (log 8). -/
def approxFn (op level : Nat) (rm : RM) (rmNum : Nat) (w : Word) (neg : Bool) (m : Nat) (ex : Int) : Word :=
  let c := Config.specialImage op level rmNum w
  if meetsBound op level neg m ex (valOf c) then c
  else
    let i := encloses op neg m ex
    roundFin i.neg i.lo i.ex rm

/-! ### The six functions (R229) -/

/-- The exponent when a magnitude is a power of two. -/
def pow2? (m : Nat) (ex : Int) : Option Int := if m = 2 ^ Nat.log2 m then some (ex + Int.ofNat (Nat.log2 m)) else none

def wPow2 (neg : Bool) (e : Int) : Word := roundFin neg 1 e .rne

/-- m × 2^ex ≥ k. -/
def geNat (m : Nat) (ex : Int) (k : Nat) : Bool := !ltVal (.fin false m ex) (.fin false k 0)
def gtNat (m : Nat) (ex : Int) (k : Nat) : Bool := ltVal (.fin false k 0) (.fin false m ex)

/-- The integer value of a finite magnitude, when it is one. -/
def intVal? (m : Nat) (ex : Int) : Option Nat :=
  match ex with
  | .ofNat n => some (m * 2 ^ n)
  | .negSucc n => if m % 2 ^ (n + 1) = 0 then some (m / 2 ^ (n + 1)) else none

/-- sf.exp2 to sf.sigm by number 0 to 5: the exact results of R229, else what R228 allows (log 8). -/
def specialFn (op level : Nat) (rm : RM) (rmNum : Nat) (w : Word) : Word :=
  match op, valOf w with
  | _, .nan => canonicalNaN
  | 0, .inf n => if n then 0 else wInf false
  | 0, .zero _ => wOne false
  | 0, .fin n m e =>
    if n then
      (if gtNat m e 4094 then 0
       else match intVal? m e with
        | some k => wPow2 false (-(Int.ofNat k))
        | none => approxFn op level rm rmNum w n m e)
    else if geNat m e 4096 then overflowW64 false rm
    else match intVal? m e with
      | some k => wPow2 false (Int.ofNat k)
      | none => approxFn op level rm rmNum w n m e
  | 1, .inf n => if n then canonicalNaN else wInf false
  | 1, .zero _ => wInf true
  | 1, .fin n m e =>
    if n then canonicalNaN
    else match pow2? m e with
      | some k => wOfInt k
      | none => approxFn op level rm rmNum w n m e
  | 2, .inf n => wZero n
  | 2, .zero n => wInf n
  | 2, .fin n m e =>
    match pow2? m e with
    | some k => if k > 4094 then wZero n else wPow2 n (-k)
    | none => if ltVal (.fin false 1 4094) (.fin false m e) then wZero n else approxFn op level rm rmNum w n m e
  | 3, .inf n => if n then canonicalNaN else 0
  | 3, .zero n => wInf n
  | 3, .fin n m e =>
    if n then canonicalNaN
    else match pow2? m e with
      | some k => if k % 2 = 0 then wPow2 false (-(k / 2)) else approxFn op level rm rmNum w n m e
      | none => approxFn op level rm rmNum w n m e
  | 4, .inf n => wOne n
  | 4, .zero n => wZero n
  | 4, .fin n m e => if geNat m e 18 then wOne n else approxFn op level rm rmNum w n m e
  | _, .inf n => if n then 0 else wOne false
  | _, .zero _ => wPow2 false (-1)
  | _, .fin n m e =>
    if n then (if gtNat m e 2838 then 0 else approxFn op level rm rmNum w n m e) else if geNat m e 40 then wOne false else approxFn op level rm rmNum w n m e

end Sys2Proof.Machine
end

