-- ==== Sys2Proof/Machine/Rank.lean ====
section
/-!
DEFINITION. Tournaments, ranking and codebook decode (R268 to R272). Tokens of one request leave as credits allow, by further moves
of the same step.
-/
namespace Sys2Proof.Machine

/-! ### Tokens that wait for credits -/

/-- Sends tokens of a request while their outputs have credits; those of a disabled output are dropped. -/
def State.pump (s : State) (a : ElemAt) : Nat → State
  | 0 => s
  | n + 1 =>
    let e := s.elem a
    match e.outq with
    | [] => s
    | (o, t) :: rest =>
      if e.outOn o.val then
        (if 0 < s.credits a o.val then ((s.setElem a { e with outq := rest }).send a o.val t).pump a n else s)
      else (s.setElem a { e with outq := rest }).pump a n

def State.pumpAll (s : State) (a : ElemAt) : State := s.pump a (s.elem a).outq.length

/-- Sets the tokens of a request and sends what may go; counts the firing (R393). -/
def State.answerRun (s : State) (a : ElemAt) (e : Elem) (ts : List (Fin 2 × Token)) : State :=
  ((s.setElem a { e with outq := ts }).countFire a.die).pumpAll a

/-! ### cfwd (R268) -/

/-- A candidate: score, id, input and images. -/
structure Cand where
  score : Word
  id : Nat
  src : Nat
  idImage : Word
  deriving DecidableEq, Repr

/-- The id of a candidate, when it is an integer from 0 to 65,535. -/
def idOf (w : Word) : Option Nat :=
  match valOf w with
  | .zero _ => some 0
  | .fin false m ex =>
    match intVal? m ex with
    | some n => if n ≤ 65535 then some n else none
    | none => none
  | .fin true .. | .inf _ | .nan => none

/-- `p` comes no later than `q` in the order of R268. -/
def candLe (p q : Cand) : Bool :=
  if isNaN p.score != isNaN q.score then isNaN q.score
  else if !isNaN p.score && ltVal (valOf q.score) (valOf p.score) then true
  else if !isNaN p.score && ltVal (valOf p.score) (valOf q.score) then false
  else if p.id != q.id then decide (p.id < q.id)
  else decide (p.src ≤ q.src)

/-- Pairs present in the list of input `i`, or the position of a bad id. -/
def pairsOf (i : Nat) (t : Token) : List (Nat × Option Cand) :=
  (List.range 4).filterMap fun q =>
    match posAt 0 t (2 * q), posAt 0 t (2 * q + 1) with
    | some sc, some im => some (2 * q + 1, (idOf im).map fun n => { score := sc, id := n, src := i, idImage := im })
    | _, _ => none

def execCfwd (s : State) : Out :=
  .next (s.fire s.focus 0x2C0 2 fun e h hs =>
    let ins : List (Fin 4) := [0, 1].filter fun i => e.req i.val
    let lists := ins.flatMap fun i => (hs i).flatMap (pairsOf i.val)
    let img (i : Fin 4) (j : Nat) : Word := match hs i with
      | t :: _ => posImage 0 t.pay j
      | [] => 0
    match firstLane 8 fun j => lists.any fun p => p.1 == j && p.2.isNone with
    | some j => .trap { cause := .illegal, lane := j, d1 := img 0 j, d2 := img 1 j }
    | none =>
      let best := ((lists.filterMap (·.2)).mergeSort candLe).take (bits (e.const 0) 0 2 + 1)
      let t := posToken h 0 fun p =>
        match best[p / 2]? with
        | some c => some (if p % 2 = 0 then c.score else c.idImage)
        | none => none
      .emit [t] [t] e)

/-! ### Requests -/

/-- How a gathered request is settled before its operation: poison with its record (R54), else R55. -/
def Elem.runOutcome (e : Elem) (toks : List Token) (pred : Option Token) : Option Payload × Outcome :=
  let bad := (toks ++ pred.toList).findSome? fun t => if t.hdr.isPoison then some t.pay else none
  let anyNull := toks.any fun t => t.hdr.isNull
  let o : Outcome :=
    match e.code with
    | 0 => .perform
    | 3 => if anyNull then .skip else .perform
    | c =>
      match pred with
      | none => .illegal
      | some t => if !t.hdr.pvalid then .illegal else if t.hdr.pbit == (c == 1) && !anyNull then .perform else .skip
  (bad, o)

/-- The element uses a predicate input. -/
def Elem.hasPred (e : Elem) : Bool := e.code == 1 || e.code == 2

/-- One token per count on outputs 0 and 1. -/
def fillRun (n0 n1 : Nat) (t : Token) : List (Fin 2 × Token) := List.replicate n0 (0, t) ++ List.replicate n1 (1, t)

/-- A trap of a request: poison in place of each token, and the record (R224). -/
def State.trapRun (s : State) (a : ElemAt) (e : Elem) (h : Header) (n0 n1 : Nat) (t : TrapInfo) : State :=
  (s.answerRun a e (fillRun n0 n1 (poisonTok h (origin a t.cause)))).elemTrap a h t

/-- Takes the head of input `i` into the request being gathered. -/
def Elem.gatherHead (e : Elem) (i : Fin 4) : Elem :=
  match e.head? i with
  | some t => if t.hdr.isControl || !e.calm i then e else { e.drop i 1 with run := e.run ++ [t] }
  | none => e

/-- Latched length of a rank register (R209). -/
def Elem.rankLen (e : Elem) : Option Nat :=
  match e.shape with
  | some w => if shapeKind w = 4 then some (shapeM w) else none
  | none => none

/-! ### rank.k and the ladders (R21, R269) -/

/-- Rank tokens of a request, and its limit. -/
def Elem.rankCut (e : Elem) (len : Nat) : Nat := min (e.const 1) len

/-- A complete request of rank.k: settled here, or sent to the ladder that c0 names. -/
def State.rankRequest (s : State) (a : ElemAt) (len : Nat) : State :=
  let e := s.elem a
  let pin := e.predFin
  let own := decide (pin = 0)
  let pred : Option Token := if e.hasPred then (if own then e.run.head? else e.head? pin) else none
  let ready := !e.hasPred || own || (e.calm pin && (match pred with
    | some t => !t.hdr.isControl
    | none => false))
  if ready then
    let e1 := if e.hasPred && !own then e.drop pin 1 else e
    let h := (e.run.headD { hdr := {} }).hdr
    let cut := e.rankCut len
    let n := (cut + 15) / 16
    let e0 : Elem := { e1 with run := [] }
    match e.runOutcome e.run pred with
    | (some p, _) => s.answerRun a e0 (fillRun n 1 (poisonTok h p))
    | (none, .illegal) => s.trapRun a e0 h n 1 (illegalAt 0 h [e.run.head?])
    | (none, .skip) => s.answerRun a e0 (fillRun n 1 (nullTok h))
    | (none, .perform) =>
      let l : Fin 4 := ⟨bits (e.const 0) 0 2, by unfold bits; omega⟩
      let d := s.die a.die
      let r : LadderReq := { who := a, region := (s.regionAt a.die a.x a.y).getD 0, tokens := e.run, len, cut }
      (s.setElem a { e1 with asked := true }).setDie a.die { d with ladders := setF d.ladders l (getF d.ladders l ++ [r]) }
  else s

/-- RANK_K: the vector is consumed token by token while the outputs have credits (R52); once whole it goes to the ladder. -/
def execRankK (s : State) : Out :=
  .next (
    let a := s.focus
    let e := s.elem a
    match e.rankLen with
    | none => s
    | some len =>
      if s.live a 0x2C1 && !e.asked && e.reply.isNone && e.outq.isEmpty && s.outsReady a then
        let n := (len + 7) / 8
        let e1 := if e.run.length < n then e.gatherHead 0 else e
        let s1 := s.setElem a e1
        if n ≤ e1.run.length then s1.rankRequest a len else s1
      else s)

/-- Values of a request by index, masked ones left out. -/
def ladderValues (r : LadderReq) : List (Nat × Word) :=
  (List.range r.len).filterMap fun i =>
    match r.tokens[i / 8]? with
    | some t => if t.hdr.isNull then none else (posAt 0 t (i % 8)).map fun w => (i, w)
    | none => none

/-- Ranks of a request from the largest value down, and the count of NaNs (R269). -/
def ladderRank (r : LadderReq) : List Nat × Nat :=
  let vs := ladderValues r
  let ok := vs.filter fun v => !isNaN v.2
  (((ok.mergeSort fun x y => !ltVal (valOf x.2) (valOf y.2)).map (·.1)).take r.cut, (vs.filter fun v => isNaN v.2).length)

/-- LADDER_SERVE: a ladder serves its oldest request. -/
def execLadderServe (die : Fin 4) (l : Fin 4) (s : State) : Out :=
  .next (s.onDie die <|
    let d := s.die die
    match getF d.ladders l with
    | [] => s
    | r :: rest =>
      let s1 := s.setDie die { d with ladders := setF d.ladders l rest }
      s1.setElem r.who { s1.elem r.who with reply := some (ladderRank r) })

/-- A 32-bit integer token with the given lanes. -/
def laneNats (h : Header) (f : Nat → Option Nat) : Token := posToken h 1 fun j => (f j).map (BitVec.ofNat 64)

/-- Index tokens and the count token of a reply. -/
def replyTokens (h : Header) (cut : Nat) (r : List Nat × Nat) : List (Fin 2 × Token) :=
  ((List.range ((cut + 15) / 16)).map fun t => ((0 : Fin 2), laneNats h fun j => r.1[16 * t + j]?)) ++
    [(1, laneNats h fun j => if j = 0 then some r.1.length else if j = 1 then some r.2 else none)]

/-- RANK_K_REPLY: the reply arrives, and its tokens leave as credits allow. -/
def execRankKReply (s : State) : Out :=
  .next (
    let a := s.focus
    let e := s.elem a
    if s.live a 0x2C1 then
      match e.reply with
      | some r =>
        let h := (e.run.headD { hdr := {} }).hdr
        s.answerRun a { e with run := [], asked := false, reply := none } (replyTokens h (e.rankCut (e.rankLen.getD 0)) r)
      | none => s.pumpAll a
    else s)

/-! ### The grain of a request at its consumers (log 33) -/

/-- The output that feeds an input. -/
def State.feeder (s : State) (p : InPort) : Option (ElemAt × Fin 2) :=
  (s.elems.map fun e => elemOfKey e.1).findSome? fun a =>
    (List.finRange 2).findSome? fun o => if s.dest a o.val = some p then some (a, o) else none

/-- The rank.k from which an input's tokens come, following input 0 of the elements between. -/
def State.rankSource (s : State) : Nat → InPort → Option ElemAt
  | 0, _ => none
  | n + 1, p =>
    match s.feeder p with
    | none => none
    | some (a, _) => if (s.elem a).opcode = 0x2C1 then some a else s.rankSource n (a, 0)

/-- Rank tokens of one request: those that the rank.k upstream emits; with none found, those that the count token covers. -/
def State.requestGrain (s : State) (a : ElemAt) (count : Option Token) : Option Nat :=
  match s.rankSource 64 (a, 0) with
  | some r =>
    let e := s.elem r
    e.rankLen.map fun len => (e.rankCut len + 15) / 16
  | none => count.map fun t => ((posImage 1 t.pay 0).toNat + 15) / 16

/-- Gathers a rank token when the request has one to come; the request is whole when the number to gather has come and the count
token stands at input 1. -/
def State.gatherRun (s : State) (a : ElemAt) : Option (Token × State) :=
  let e := s.elem a
  let count := match e.head? 1 with
    | some t => if t.hdr.isControl || !e.calm 1 then none else some t
    | none => none
  match s.requestGrain a count with
  | none => none
  | some n =>
    let e1 := if e.run.length < n then e.gatherHead 0 else e
    match count with
    | some t => if n ≤ e1.run.length then some (t, s.setElem a e1) else none
    | none => none

/-- The same when the request is not yet whole. -/
def State.gatherOnly (s : State) (a : ElemAt) : State :=
  let e := s.elem a
  match s.requestGrain a (e.head? 1) with
  | some n => if e.run.length < n then s.setElem a (e.gatherHead 0) else s
  | none => s

/-- Live indices of a run with their ranks and lanes, in rank order. -/
def runIndices (toks : List Token) : List (Nat × Nat × Nat) :=
  (List.range toks.length).flatMap fun t =>
    match toks[t]? with
    | some k => if k.hdr.isNull then [] else
        (List.range 16).filterMap fun j => (posAt 1 k j).map fun w => (16 * t + j, j, w.toNat)
    | none => []

/-! ### rank.apply (R270) -/

/-- c0 of rank.apply. -/
structure ApplyCfg where
  w : Fin 8
  att : Fin 8
  j : Nat
  row : Nat
  n : Nat

def Elem.applyCfg (e : Elem) : ApplyCfg :=
  let c := e.const 0
  { w := ⟨bits c 0 3, by unfold bits; omega⟩, att := ⟨bits c 3 3, by unfold bits; omega⟩, j := bits c 6 2, row := bits c 8 6
    n := 16 * (bits c 14 2 + 1) }

/-- The written row of the destination: each column with its image before and after (R270). -/
def applyCells (c : ApplyCfg) (rm : RM) (idx : List (Nat × Nat × Nat)) (W att : Map Word) (d : Slot) : List Cell :=
  (List.range c.n).map fun k =>
    let old := d.value (64 * c.row + k)
    let terms := idx.map fun x => (Map.get 0 x.1 att, Map.get 0 (x.2.2 * c.n + k) W)
    { row := c.row, col := k, old, new := terms.foldl (fun y t => wFmaOp rm t.1 t.2 y) old
      nanIn := isNaN old || terms.any fun t => isNaN t.1 || isNaN t.2 }

/-- Record of a trap that rank.apply meets before it computes a result: the first element of its row, and a free value for the result
that dword 3 asks for (R333, log 116). -/
def State.applyInfo (s : State) (cause : ElemCause) (c : ApplyCfg) (d : Slot) : TrapInfo :=
  { cause, d1 := BitVec.ofNat 64 c.row, d2 := d.value (64 * c.row), d3 := Config.freeWord s.free }

/-- A whole request is applied with its count token. -/
def State.applyRun (s : State) (a : ElemAt) (count : Token) : State :=
  let e := s.elem a
  let c := e.applyCfg
  let d := s.slotAt a (accSlot c.j)
  let acc := (e.field 10).testBit 3
  let last := (e.field 10).testBit 4
  let h := { (e.run.headD count).hdr with kind := 0 }
  let e0 : Elem := { e.drop 1 1 with run := [] }
  let pred : Option Token := if e.hasPred then (if e.predIn = 1 then some count else e.run.head?) else none
  let finish (d' : Slot) : State :=
    let d1 := { d' with step := (h.seq, h.itag) }
    ((((s.setElem a e0).countFire a.die).setSlotAt a (accSlot c.j) (if last then d1.makeFull (h.seq, h.itag) else d1)).consumeSlot a
      c.w).consumeSlot a c.att
  match e.runOutcome (e.run ++ [count]) pred with
  | (some _, _) => (s.setElem a e0).countFire a.die
  | (none, .illegal) => (s.trapRun a e0 h 0 0 (s.applyInfo .illegal c d)).useFree 1
  | (none, o) =>
    let sw := s.slotAt a c.w
    let sa := s.slotAt a c.att
    if sw.tag == .full && sa.tag == .full && d.takes 0 acc then
      match o with
      | .skip | .illegal => finish d
      | .perform =>
        let idx := runIndices e.run
        match idx.find? fun x => decide (s.slotSize a c.w < (x.2.2 + 1) * c.n) with
        | some _ =>
          (s.trapRun a e0 h 0 0 (s.applyInfo .bound c d)).useFree 1
        | none =>
          let cs := applyCells c e.rm idx sw.data sa.data d
          match (cellNan e cs).or (cellGuard e cs) with
          | some t => s.trapRun a e0 h 0 0 t
          | none => finish (d.store cs)
    else s

def execRankApply (s : State) : Out :=
  .next (
    let a := s.focus
    if s.live a 0x2C2 then
      match s.gatherRun a with
      | some (t, s1) => s1.applyRun a t
      | none => s.gatherOnly a
    else s)

/-! ### rkval (R271) -/

/-- A whole request is rebuilt into a vector. A trap records the index that names the position and the count token's lane there (R333,
log 116). -/
def State.rebuildRun (s : State) (a : ElemAt) (len : Nat) (count : Token) : State :=
  let e := s.elem a
  let k : Fin 8 := ⟨bits (e.const 0) 0 3, by unfold bits; omega⟩
  let sl := s.slotAt a k
  let h := { (e.run.headD count).hdr with kind := 0 }
  let e0 : Elem := { e.drop 1 1 with run := [] }
  let n := (len + 7) / 8
  let info (c : ElemCause) (j : Nat) (index : Word) : TrapInfo := { cause := c, lane := j, d1 := index, d2 := posImage 1 count.pay j }
  match e.runOutcome (e.run ++ [count]) (if e.predIn = 1 then some count else e.run.head?) with
  | (some p, _) => s.answerRun a e0 (fillRun n 0 (poisonTok h p))
  | (none, .illegal) => s.trapRun a e0 h n 0 (illegalAt 1 h [e.run.head?, some count])
  | (none, .skip) => s.answerRun a e0 (fillRun n 0 (nullTok h))
  | (none, .perform) =>
    if sl.tag == .full then
      let idx := runIndices e.run
      match idx.find? fun x => decide (len ≤ x.2.2) || decide (s.slotSize a k ≤ x.1) with
      | some x => s.trapRun a e0 h n 0 (info .bound x.2.1 (BitVec.ofNat 64 x.2.2))
      | none =>
        let val (p : Nat) : Word := match idx.reverse.find? fun x => x.2.2 == p with
          | some x => Map.get 0 x.1 sl.data
          | none => BitVec.ofNat 64 (e.const 1)
        match firstLane len fun p => e.guards (val p) with
        | some p => s.trapRun a e0 h n 0 (info .guard (p % 8) (if idx.any fun x => x.2.2 == p then BitVec.ofNat 64 p else 0))
        | none =>
          let toks := (List.range n).map fun t =>
            ((0 : Fin 2), posToken h 0 fun p => if 8 * t + p < len then some (val (8 * t + p)) else none)
          (s.consumeSlot a k).answerRun a e0 toks
    else s

def execRkval (s : State) : Out :=
  .next (
    let a := s.focus
    let e := s.elem a
    if s.live a 0x2C3 then
      if !e.outq.isEmpty then s.pumpAll a
      else if !s.outsReady a then s
      else
        match e.rankLen with
        | none => s
        | some len =>
          match s.gatherRun a with
          | some (t, s1) => s1.rebuildRun a len t
          | none => s.gatherOnly a
    else s)

/-! ### cbdec (R272) -/

/-- Index and scale half of a lane (R193). -/
def laneIndex (w : Word) : Nat := bits w.toNat 0 16
def laneScale (w : Word) : Nat := bits w.toNat 16 10

/-- The eight weights of a live lane, with the table of the converter tile (R82). -/
def State.cbWeights (s : State) (a : ElemAt) (w : Word) : List Word :=
  let x := laneIndex w
  (List.range 8).map fun j => cb2Weight (x % 256) (laneScale w) (s.tableEntry a (x / 256)) j

/-- CBDEC: sixteen tokens for each token of indices (R272). -/
def execCbdec (s : State) : Out :=
  .next (
    let a := s.focus
    let e := s.elem a
    if !e.outq.isEmpty && s.live a 0x300 then s.pumpAll a
    else if s.live a 0x300 && e.req 0 && e.headsReady && s.outsReady a then
      let ins := e.dataIns 1
      let h := e.header ins
      let e' := e.consume
      match e.poisonHead with
      | some p => s.answerRun a e' (fillRun 16 0 (poisonTok h p))
      | none =>
        match e.outcome ins with
        | .illegal => s.trapRun a e' h 16 0 (illegalAt 1 h [e.head? 0])
        | .skip => s.answerRun a e' (fillRun 16 0 (nullTok h))
        | .perform =>
          let t := ((e.head? 0).map Token.operand).getD { hdr := h }
          let lane (j : Nat) := posAt 1 t j
          let test (f : Word → Bool) (j : Nat) : Bool := match lane j with
            | some w => f w
            | none => false
          match numTrap 16 (test fun w => e.nantrap && laneScale w / 4 == 255) (test fun w => (s.cbWeights a w).any e.guards) with
          | some (c, j) => s.trapRun a e' h 16 0 { cause := c, lane := j, d1 := (lane j).getD 0 }
          | none =>
            let tok (j : Nat) : Token := match lane j with
              | some w => let l := s.cbWeights a w; posToken h 0 fun p => some (nth l p)
              | none => posToken h 0 fun _ => none
            s.answerRun a e' ((List.range 16).map fun j => ((0 : Fin 2), tok j))
    else s)

end Sys2Proof.Machine
end

