-- ==== Sys2Proof/Machine/Routing.lean ====
section
/-!
DEFINITION. Movement of tokens and takebacks (R48 to R51, R60 to R64), alignment of control tokens (R54), and the routing opcodes
(R259 to R267).
-/
namespace Sys2Proof.Machine

/-! ### Delay nodes (R259) -/

def Elem.dlyDepth (e : Elem) : Nat := bits (e.const 0) 9 4 + 1

/-- DLY: tokens enter while there is room, and the oldest one leaves when output 0 has a credit. -/
def execDly (s : State) : Out :=
  .next (
    let a := s.focus
    let e := s.elem a
    if s.live a 0x003 then
      let n := if e.calm 0 then e.dlyDepth - e.dly.length else 0
      let e1 : Elem := { e.drop 0 n with dly := e.dly ++ (getF e.inq 0).take n }
      match e1.dly with
      | t :: rest => if 0 < s.credits a 0 then (s.setElem a { e1 with dly := rest }).send a 0 t else s.setElem a e1
      | [] => s
    else s)

/-! ### fork, join, gate and sink (R261) -/

def firstTok (l : List Token) : List Token := l.take 1

def execFork (s : State) : Out := .next (s.fire s.focus 0x280 1 fun e _ hs => .emit (firstTok (hs 0)) (firstTok (hs 0)) e)

/-- Output k carries the head of input k. -/
def execJoin (s : State) : Out :=
  .next (s.fire s.focus 0x281 4 fun e _ hs => .emit (firstTok (hs 0)) (if e.req 1 then firstTok (hs 1) else []) e)

def execGate (s : State) : Out := .next (s.fire s.focus 0x289 1 fun e _ hs => .emit (firstTok (hs 0)) [] e)

def execSink (s : State) : Out :=
  .next (
    let a := s.focus
    let e := s.elem a
    match e.head? 0 with
    | some t =>
      if s.live a 0x28A && e.calm 0 then ((s.setElem a ((e.drop 0 1).noteEnd t.hdr)).countFire a.die).endMiss a 0 t.hdr true else s
    | none => s)

/-! ### Early joins (R59, R262) -/

/-- How an ejoin settles: the input that gives seq and itag, and its token or its trap. -/
inductive Settled where
  | wait
  | emit (i : Fin 4) (t : Token)
  | illegal (i : Fin 4)

/-- A present head: one that no takeback is about to meet. -/
def Elem.present (e : Elem) (i : Fin 4) : Option Token := if e.req i.val && e.calm i then e.head? i else none

/-- seq and itag of one head on a token. -/
def withSeq (h : Header) (t : Token) : Token := { t with hdr := { t.hdr with seq := h.seq, itag := h.itag } }

/-- Required inputs in order. -/
def Elem.reqIns (e : Elem) : List (Fin 4) := (List.finRange 4).filter fun i => e.req i.val

/-- The predicate token of ejoin.and and ejoin.or. -/
def predTok (h : Header) (b : Bool) : Token :=
  { hdr := { seq := h.seq, itag := h.itag, pvalid := true, pbit := b }, pay := 0 }

/-- Settling of ejoin.and (`want` false) and ejoin.or (`want` true). -/
def Elem.settlePred (e : Elem) (all : Bool) (want : Bool) : Settled :=
  let ins := e.reqIns
  let hit := ins.find? fun i => match e.present i with
    | some t => t.hdr.isData && t.hdr.pbit == want
    | none => false
  let hdr (i : Fin 4) : Header := match e.present i with
    | some t => t.hdr
    | none => {}
  match hit, all, ins with
  | some i, false, _ => .emit i (predTok (hdr i) want)
  | some _, true, j :: _ => .emit j (predTok (hdr j) want)
  | none, true, j :: _ =>
    if ins.any fun i => match e.present i with
      | some t => t.hdr.isNull
      | none => false then .emit j (nullTok (hdr j)) else .emit j (predTok (hdr j) (!want))
  | _, _, _ => .wait

/-- Settling of ejoin.sel. A null selector settles early with the flag; without it every input is present. -/
def Elem.settleSel (e : Elem) : Settled :=
  match e.present 0 with
  | none => .wait
  | some s =>
    if s.hdr.isNull then .emit 0 (nullTok s.hdr)
    else
      match e.present (if s.hdr.pbit then 1 else 2) with
      | some c => .emit 0 (withSeq s.hdr c)
      | none => .wait

/-- Settling of an ejoin: poison first, then a head without predicate, then its opcode's condition. -/
def Elem.settleJoin (e : Elem) (all : Bool) (preds : List (Fin 4)) (own : Settled) : Settled :=
  let ins := e.reqIns
  let first (i : Fin 4) : Fin 4 := if all then ins.headD i else i
  match ins.find? fun i => match e.present i with
    | some t => t.hdr.isPoison
    | none => false with
  | some i =>
    match e.present i, e.present (first i) with
    | some t, some h => .emit (first i) (poisonTok h.hdr t.pay)
    | _, _ => .wait
  | none =>
    match ins.find? fun i => preds.contains i && (match e.present i with
      | some t => t.hdr.isData && !t.hdr.pvalid
      | none => false) with
    | some i => .illegal (first i)
    | none => own

/-- Consumes the present heads, and sends a takeback up each required input that has none (R59). -/
def Elem.joinTake (e : Elem) (itag : BitVec 8) : Elem :=
  e.reqIns.foldl (fun e' i =>
    match e.present i with
    | some _ => e'.drop i 1
    | none => { e' with tbQueue := setF e'.tbQueue i (getF e'.tbQueue i ++ [itag]) }) e

/-- A firing of an ejoin. A takeback that stands before a head of an input meets it first. -/
def State.ejoin (s : State) (op : Nat) (sel want : Bool) : State :=
  let a := s.focus
  let e := s.elem a
  let ins := e.reqIns
  let all := ins.all fun i => (e.present i).isSome
  let some' := ins.any fun i => (e.present i).isSome
  let clear := ins.all fun i => e.calm i || (e.head? i).isNone
  let plain := ins.all fun i => match e.present i with
    | some t => !t.hdr.isControl
    | none => true
  if s.live a op && some' && clear && plain && (all || (e.field 10).testBit 0) && s.outsReady a then
    match e.settleJoin all (if sel then [0] else ins) (if sel then e.settleSel else e.settlePred all want) with
    | .wait => s
    | .emit i t =>
      let h := match e.present i with
        | some k => k.hdr
        | none => {}
      if e.allCancelled h.itag [0, 1] then (if e.turnOf h.itag then (s.setElem a (e.cancelTurn h.itag)).countFire a.die else s)
      else s.emitFired a h.itag (e.joinTake h.itag) [t] [t]
    | .illegal i =>
      let h := match e.present i with
        | some k => k.hdr
        | none => {}
      let p := poisonTok h (origin a .illegal)
      (s.emitFired a h.itag (e.joinTake h.itag) [p] [p]).elemTrap a h (illegalAt 0 h ([0, 1, 2].map e.present))
  else s

def execEjoinAnd (s : State) : Out := .next (s.ejoin 0x282 false false)
def execEjoinOr (s : State) : Out := .next (s.ejoin 0x283 false true)
def execEjoinSel (s : State) : Out := .next (s.ejoin 0x284 true false)

/-! ### steer (R263) -/

def Elem.isExit (e : Elem) : Bool := e.opcode == 0x285 && e.policy == 3
def Elem.isEntry (e : Elem) : Bool := e.opcode == 0x288 && e.policy == 2

/-- itag recorded for a seq at the partner of a loop exit (R65). -/
def State.restored (s : State) (a : ElemAt) (seq : BitVec 16) (itag : BitVec 8) : BitVec 8 :=
  lookupD itag seq (s.elem { a with e := (s.elem a).partner }).restore

/-- Frees the entry of a seq. -/
def Elem.freeRestore (e : Elem) (seq : BitVec 16) : Elem :=
  { e with restore := match e.restore.find? fun r => r.1 == seq with
      | some r => e.restore.erase r
      | none => e.restore }

def State.freeAt (s : State) (a : ElemAt) (seq : BitVec 16) : State :=
  let p : ElemAt := { a with e := (s.elem a).partner }
  s.setElem p ((s.elem p).freeRestore seq)

/-- Sends a token of a loop exit, or lets it vanish with a takeback held for it (R61). -/
def State.sendHeld (s : State) (a : ElemAt) (o : Fin 2) (t : Token) : State :=
  let e := s.elem a
  if e.heldTb.contains (t.hdr.itag, o) then s.setElem a { e with heldTb := e.heldTb.erase (t.hdr.itag, o) } else s.send a o.val t

/-- The output is disabled, or has a credit, or its token will vanish. -/
def State.mayEmit (s : State) (a : ElemAt) (o : Fin 2) (itag : BitVec 8) : Bool :=
  !(s.elem a).outOn o.val || decide (0 < s.credits a o.val) || (s.elem a).heldTb.contains (itag, o)

def execSteer (s : State) : Out :=
  .next (
    let a := s.focus
    let e := s.elem a
    match e.head? 0, e.head? 1 with
    | some d, some p =>
      if s.live a 0x285 && e.calm 0 && e.calm 1 && !d.hdr.isControl && !p.hdr.isControl then
        let e' := (e.drop 0 1).drop 1 1
        let out (o : Fin 2) (t : Token) : State :=
          let s1 := (s.setElem a e').countFire a.die
          if e.isExit && o == 0 then
            let r := s.restored a t.hdr.seq t.hdr.itag
            ((s1.freeAt a t.hdr.seq).sendHeld a 0 { t with hdr := { t.hdr with itag := r } })
          else s1.sendHeld a o t
        let h : Header := { d.hdr with kind := 0 }
        let bad := if d.hdr.isPoison then some d.pay else if p.hdr.isPoison then some p.pay else none
        let exitTag := if e.isExit then s.restored a d.hdr.seq d.hdr.itag else d.hdr.itag
        match bad with
        | some o =>
          if e.isExit then (if s.mayEmit a 0 exitTag then out 0 (poisonTok h o) else s)
          else if s.oneCredit a then s.emitFired a h.itag e' [poisonTok h o] [poisonTok h o] else s
        | none =>
          if !p.hdr.pvalid then
            (if s.oneCredit a then
              let k := poisonTok h (origin a .illegal)
              (s.emitFired a h.itag e' [k] [k]).elemTrap a h (illegalAt 0 h [some d, some p])
             else s)
          else
            let o : Fin 2 := if p.hdr.pbit then 1 else 0
            let d' : Token := if p.hdr.miss = 0 then d else { d with hdr := { d.hdr with miss := p.hdr.miss } }
            if s.mayEmit a o (if o = 0 then exitTag else d.hdr.itag) then out o d' else s
      else s
    | _, _ => s)

/-! ### merge and merge.rr (R265, R266) -/

/-- Routed inputs in order. -/
def Elem.routed (e : Elem) : List (Fin 4) := (List.finRange 4).filter fun i => e.inOn i.val

/-- Distance of a seq ahead of the merge's counter, mod 2^16. -/
def Elem.ahead (e : Elem) (seq : BitVec 16) : Nat := (seq - e.mergeNext).toNat

def Elem.dup (e : Elem) : Nat := bits (e.const 0) 0 2 + 1

/-- Head of an input that is no control token. -/
def Elem.pawn (e : Elem) (i : Fin 4) : Option Token :=
  if e.calm i then (match e.head? i with
    | some t => if t.hdr.isControl then none else some t
    | none => none) else none

/-- Moves the head of an input into the window when the reservation leaves it an entry. -/
def Elem.windowTake (e : Elem) (i : Fin 4) : Elem :=
  match e.pawn i with
  | none => e
  | some t =>
    let d := e.ahead t.hdr.seq
    let own := (e.mergeWin.filter fun w => w.2.hdr.seq == e.mergeNext).length
    let free := 64 - e.mergeWin.length
    if d < 64 && decide (0 < free) && (d == 0 || decide (e.dup - own ≤ free - 1)) then
      { e.drop i 1 with mergeWin := e.mergeWin ++ [(i.val, t)] }
    else e

/-- The token that the window emits next: of seq n, lowest input, earliest arrival. -/
def Elem.windowNext (e : Elem) : Option (Nat × Token) :=
  (List.range 4).findSome? fun i => e.mergeWin.find? fun w => w.1 == i && w.2.hdr.seq == e.mergeNext

/-- Counts an emission; after dup of them n rises by 1. -/
def Elem.windowEmit (e : Elem) (w : Nat × Token) : Elem :=
  let e1 : Elem := { e with mergeWin := e.mergeWin.erase w }
  if e.mergeSent + 1 = e.dup then { e1 with mergeSent := 0, mergeNext := e.mergeNext + 1 } else { e1 with mergeSent := e.mergeSent + 1 }

/-- MERGE: one cycle of the algorithm of R265. -/
def execMerge (s : State) : Out :=
  .next (
    let a := s.focus
    let e := s.elem a
    if s.live a 0x287 then
      match e.routed.find? fun i => match e.pawn i with
        | some t => decide (32768 ≤ e.ahead t.hdr.seq)
        | none => false with
      | some i =>
        let h := ((e.head? i).getD { hdr := {} }).hdr
        if s.oneCredit a then
          (s.emitFired a h.itag (e.drop i 1) [poisonTok h (origin a .illegal)] []).elemTrap a h (illegalAt 0 h [e.head? i])
        else s
      | none =>
        let e1 := e.routed.foldl (fun e' i => e'.windowTake i) e
        match e1.windowNext with
        | some w =>
          if 0 < s.credits a 0 then
            (((s.setElem a (e1.windowEmit w)).countFire a.die).send a 0 w.2).endMiss a ⟨w.1 % 4, by omega⟩ w.2.hdr
              (decide (e1.mergeSent + 1 = e1.dup))
          else s.setElem a e1
        | none => s.setElem a e1
    else s)

/-- Inputs in the order of the round robin. -/
def Elem.rrOrder (e : Elem) : List (Fin 4) :=
  ((List.range 4).map fun k => (⟨(e.rr + 1 + k) % 4, by omega⟩ : Fin 4)).filter fun i => e.inOn i.val

/-- The input that merge.rr serves next; a full restore table holds the entry input (R66). -/
def Elem.rrNext (e : Elem) : Option (Fin 4 × Token) :=
  e.rrOrder.findSome? fun i =>
    if e.isEntry && i == 0 && decide (128 ≤ e.restore.length) then none else (e.pawn i).map fun t => (i, t)

/-- A loop-entry merge takes a token: it gets the loop's next itag, or vanishes with a takeback held for that itag (R61, R65). -/
def State.entryTake (s : State) (a : ElemAt) (i : Fin 4) (t : Token) : State :=
  let e := s.elem a
  let e1 : Elem := { e.drop i 1 with rr := i.val, loopNext := e.loopNext + 1 }
  if e.heldTb.contains (e.loopNext, 0) then
    let e2 : Elem := { e1 with heldTb := e.heldTb.erase (e.loopNext, 0) }
    (s.setElem a (if i = 1 then e2.freeRestore t.hdr.seq else e2)).countFire a.die
  else if 0 < s.credits a 0 then
    let e2 : Elem := if i = 0 then { e1 with restore := e.restore ++ [(t.hdr.seq, t.hdr.itag)] } else e1
    ((s.setElem a e2).countFire a.die).send a 0 { t with hdr := { t.hdr with itag := e.loopNext } }
  else s

def execMergeRr (s : State) : Out :=
  .next (
    let a := s.focus
    let e := s.elem a
    if s.live a 0x288 then
      match e.rrNext with
      | none => s
      | some (i, t) =>
        if e.isEntry then s.entryTake a i t
        else if 0 < s.credits a 0 then ((s.setElem a { e.drop i 1 with rr := i.val }).countFire a.die).send a 0 t
        else s
    else s)

/-! ### steer.ert (R267) -/

/-- STEER_ERT: a row sends a probe, at most 8 in flight, when its outputs have credits (R52); poison sends none and leaves in order. -/
def execSteerErt (s : State) : Out :=
  .next (
    let a := s.focus
    let e := s.elem a
    match e.pawn 0 with
    | none => s
    | some t =>
      if s.live a 0x286 then
        if t.hdr.isPoison then
          (if e.probes.isEmpty && s.oneCredit a then
            s.emitFired a t.hdr.itag (e.drop 0 1) [poisonTok t.hdr t.pay] [poisonTok t.hdr t.pay]
           else s)
        else if e.probes.length < 8 ∧ s.outsReady a = true then s.setElem a { e.drop 0 1 with probes := e.probes ++ [{ row := t }] }
        else s
      else s)

/-- The token and output of an answered probe. -/
def probeToken (ticket : Bool) (p : Probe) : Fin 2 × Token :=
  let hit := p.answer == 1
  if ticket then (0, dataTok { p.row.hdr with lanes := 0, pvalid := true, pbit := hit } 0)
  else (if hit then 0 else 1, { p.row with hdr := { p.row.hdr with pvalid := true, pbit := hit } })

/-- The element that the predicate tokens of an input come from, through forks and FIFO channels. -/
def State.ticketSource (s : State) : Nat → InPort → Option ElemAt
  | 0, _ => none
  | n + 1, p =>
    match s.feeder p with
    | none => none
    | some (b, _) =>
      let op := (s.elem b).opcode
      if op = 0x286 then some b
      else if op = 0x280 ∨ op = 0x003 ∨ (tileKind b.x b.y = .mt ∧ b.e < 8) then s.ticketSource n (b, 0)
      else none

/-- The steer.ert whose parking queue a FIFO channel is: output 1 of a direct one leads to it, or the missed arm of a steer that
takes its tickets (R267, R308). -/
def State.parkedFor (s : State) (a : ElemAt) : Option ElemAt :=
  match s.feeder (a, 0) with
  | some (b, o) =>
    if (s.elem b).opcode = 0x286 then (if o = 1 then some b else none)
    else if (s.elem b).opcode = 0x285 ∧ o = 0 then s.ticketSource 64 (b, 1)
    else none
  | none => none

/-- The parking queues of a steer.ert: one for each edge of its pawns (R267). -/
def State.parkingOf (s : State) (a : ElemAt) : List ElemAt :=
  (s.elems.map fun e => elemOfKey e.1).filter fun c =>
    decide (tileKind c.x c.y = .mt) && decide (c.e < 8) && decide (s.parkedFor c = some a)

/-- Every parking queue of a steer.ert expects one more row, of a probe that found `gen` fetches completed. -/
def State.expectRow (s : State) (a : ElemAt) (gen : Nat) : State :=
  (s.parkingOf a).foldl (fun s c => s.setElem c { s.elem c with gens := (s.elem c).gens ++ [gen] }) s

/-- What an answered probe of an element produces: its row or ticket, a row that a parking queue expects, or the trap of a key that no entry
holds (R267, R365). -/
def State.probeOut (s : State) (a : ElemAt) (p : Probe) : State :=
  let e := s.elem a
  let x := probeToken ((e.const 0).testBit 32) p
  if p.answer = 3 then
    let k := poisonTok p.row.hdr (origin a .illegal)
    (s.emitFired a p.row.hdr.itag e [k] [k]).elemTrap a p.row.hdr (illegalAt 0 p.row.hdr [some p.row])
  else
    let s1 := (s.countFire a.die).send a x.1.val x.2
    if p.answer = 2 then s1.expectRow a p.gen else s1

/-- STEER_ERT_ANSWER: the oldest probe's answer lets its row or ticket go; a key that no entry holds is a trap (R365). -/
def execSteerErtAnswer (s : State) : Out :=
  .next (
    let a := s.focus
    let e := s.elem a
    match e.probes with
    | p :: rest =>
      let o := (probeToken ((e.const 0).testBit 32) p).1.val
      let room := if p.answer = 3 then s.oneCredit a else !e.outOn o || decide (0 < s.credits a o)
      if s.live a 0x286 && p.answer != 0 && room then (s.setElem a { e with probes := rest }).probeOut a p else s
    | [] => s)

/-! ### Alignment of control tokens (R54, R257, R297, R303, R307) -/

/-- Inputs at which a control token aligns, by opcode. -/
def Elem.alignIns (e : Elem) : List (Fin 4) :=
  match e.opcode with
  | 0x002 | 0x242 | 0x287 => e.routed
  | 0x1C1 | 0x241 | 0x286 => [0]
  | 0x285 => [0, 1]
  | 0x288 => if e.isEntry then [0] else e.routed
  | 0x000 | 0x001 | 0x003 | 0x204 => []
  | _ => e.reqIns

/-- Outputs on which an aligned control token leaves. -/
def Elem.alignOuts (e : Elem) : List (Fin 2) :=
  ((List.finRange 2).filter fun o => e.outOn o.val).filter fun o => !((e.opcode == 0x241 || e.isExit) && o == 1)

/-- The control token that stands at all of `ins`. -/
def Elem.alignedAt (e : Elem) (ins : List (Fin 4)) : Option Token :=
  match ins with
  | [] => none
  | i :: _ =>
    match e.head? i with
    | none => none
    | some t =>
      if t.hdr.isControl && ins.all fun j => e.calm j && (match e.head? j with
          | some u => u.hdr.kind == t.hdr.kind
          | none => false) then some t
      else none

/-- A destination that an aligned barrier or end-of-run makes full under ACC (R257). -/
def State.accFull (s : State) (a : ElemAt) (t : Token) : Option (Fin 8) :=
  let e := s.elem a
  let open' := !(e.field 10).testBit 4
  if (e.opcode == 0x240 || e.opcode == 0x241) && e.mma.acc && open' && fullsAt e.mma.lvl t.hdr then some (accSlot e.mma.j)
  else if (e.field 10).testBit 3 && open' && e.opcode == 0x2C2 && fullsAt 0 t.hdr then some (accSlot e.applyCfg.j)
  else none

/-- tm holds a control token until the slots filled before it have been read and the drains that are due have ended (R297). An
accumulator that ACC leaves open counts as due when the same token makes it full (log 34). -/
def State.tmMayPass (s : State) (a : ElemAt) (t : Token) : Bool :=
  let e := s.elem a
  e.opcode != 0x242 ||
    (((List.finRange 8).all fun k => !(s.slotAt a k).unread) &&
     (match e.drain with
      | none => true
      | some d =>
        let sl := s.slotAt a d.slot
        sl.tag != .full && !(decide (s.accFull { a with e := 8 } t = some d.slot) && sl.tag == .opened && !sl.kept)))

/-- Conditions beyond R54 under which an aligned control token is forwarded. -/
def State.mayPass (s : State) (a : ElemAt) (t : Token) : Bool :=
  let e := s.elem a
  match e.opcode with
  | 0x002 | 0x242 => s.tmMayPass a t
  | 0x1C0 => !e.reads t.hdr && e.outq.isEmpty
  | 0x1C1 => e.outq.isEmpty
  | 0x200 | 0x201 | 0x202 | 0x203 => e.pend.isEmpty
  | 0x286 => e.probes.isEmpty
  | 0x287 => e.mergeWin.isEmpty
  | 0x288 => !e.isEntry || e.restore.isEmpty
  | 0x2C1 | 0x2C2 | 0x2C3 | 0x300 => e.run.isEmpty && !e.asked && e.reply.isNone && e.outq.isEmpty
  | _ => true

/-- The element latches a shape token that names the register of its field 2 (R54). -/
def Elem.latch (e : Elem) (t : Token) : Elem :=
  let w : Word := t.pay.truncate 64
  if t.hdr.kind == 6 && (e.field 2).testBit 3 && bits w.toNat 48 3 == bits (e.field 2) 0 3 then { e with shape := some w } else e

/-- The third case of R64. -/
def State.orderTrap (s : State) (a : ElemAt) (itag : BitVec 8) (h : Header) : State :=
  let e := s.elem a
  if e.tbTrapped then s
  else
    (s.setElem a { e with tbTrapped := true }).elemTrap a h
      { cause := .takebackOrder, d1 := itag.zeroExtend 64, d2 := BitVec.ofNat 64 h.toNat }

/-- Lowest itag of a cancel list. -/
def Elem.lowestCancel (e : Elem) : Option (BitVec 8) :=
  ((List.range 256).map (BitVec.ofNat 8)).find? fun t => e.cancels.any fun c => c.1 == t

/-- An aligned token is removed at every input and goes out on every output; an element without outputs is a sink. -/
def State.forward (s : State) (a : ElemAt) (ins : List (Fin 4)) (t : Token) : State :=
  let e := s.elem a
  let outs := e.alignOuts
  let e1 := (ins.foldl (fun e' i => e'.drop i 1) e).latch t
  let e2 := if outs.isEmpty then e1.noteEnd t.hdr else e1
  (outs.foldl (fun s o => s.send a o.val t) (s.setElem a e2)).settleCancels a

/-- A control token that may not stand there: the trap "illegal operation" at a matrix pass (R257) or at the back edge of a loop
(R266). -/
def State.controlTrap (s : State) (a : ElemAt) (ins : List (Fin 4)) (t : Token) : State :=
  let e := s.elem a
  if s.oneCredit a then
    let p := poisonTok t.hdr (origin a .illegal)
    (s.emitFired a t.hdr.itag (ins.foldl (fun e' i => e'.drop i 1) e) [p] [p]).elemTrap a t.hdr { cause := .illegal }
  else s

/-- CONTROL_TOKEN_ALIGN. A shape token that is held at an element without a shape is latched as it aligns (R54, R297). -/
def execControlTokenAlign (s : State) : Out :=
  .next (
    let a := s.focus
    let e := s.elem a
    let back : Option Token := if e.isEntry then e.alignedAt [1] else none
    if s.live a e.opcode then
      match back with
      | some t => s.controlTrap a [1] t
      | none =>
        match e.alignedAt e.alignIns with
        | none => s
        | some t =>
          match (if t.hdr.kind == 6 then none else e.lowestCancel) with
          | some k => s.orderTrap a k t.hdr
          | none =>
            if (e.opcode == 0x240 || e.opcode == 0x241) && e.pass != 0 then s.controlTrap a e.alignIns t
            else if s.mayPass a t && e.alignOuts.all fun o => decide (0 < s.places a o.val) then
              match s.accFull a t with
              | none => s.forward a e.alignIns t
              | some k =>
                let d := s.slotAt a k
                if d.tag == .full then s else (s.setSlotAt a k (d.makeFull d.step)).forward a e.alignIns t
            else if e.shape.isNone then s.setElem a (e.latch t)
            else s
    else s)

/-! ### Tokens between tiles (R48, R50, R51, R344) -/

/-- `n` tokens reach a tile that is off: they stay and are counted, and the tile reports it once (R344, R393). -/
def State.refuseTokens (s : State) (a : ElemAt) (n : Nat) : State :=
  let tl := s.tile a.die a.x a.y
  let d := s.die a.die
  let s1 := s.setDie a.die { d with refusedCnt := d.refusedCnt + BitVec.ofNat 64 n }
  if tl.refused then s1
  else
    let r := s.regionAt a.die a.x a.y
    let task := match r with
      | some r => taskNo (s.region a.die r).task
      | none => 0
    (s1.setTile a.die a.x a.y { tl with refused := true }).report
      (eventRec 7 a.die (regionNo r) 0 task 0 (s.portId { a with e := 0 }))

/-- A token that has been refused where it stands. -/
def Token.refuse (t : Token) : Token := { t with hdr := { t.hdr with refused := true } }

/-- The token that a crossing into a tile delivers: a malformed one becomes poison that names the tile's control element, address 15 on a
tile of any kind; its lanes and predicate are zero (R48, log 109). -/
def delivered (a : ElemAt) (t : Token) : Token :=
  if t.hdr.malformed then poisonTok { seq := t.hdr.seq, itag := t.hdr.itag } (origin { a with e := 15 } .malformed) else { t with hdr := { t.hdr with refused := false } }

/-- What the check of a crossing into the tile of `a` does beside the token (R48). -/
def State.checkCrossing (s : State) (a : ElemAt) (t : Token) : State :=
  if t.hdr.malformed then s.elemTrap { a with e := 15 } t.hdr { cause := .malformed } else s

/-- An input queue may take a token from its edge: there is room, and no takeback is on its way up the edge. -/
def State.mayEnter (s : State) (p : InPort) : Bool :=
  decide ((getF (s.elem p.1).inq p.2).length < s.depth p) && (getF (s.elem p.1).tbWire p.2).isEmpty

/-- Places a token at the end of an input queue. At a sink port that a queue-mapped register reads, a silent token that reaches the head
leaves at once (R180). -/
def State.enqueue (s : State) (p : InPort) (t : Token) : State :=
  let e := s.elem p.1
  let e1 : Elem := { e with inq := setF e.inq p.2 (getF e.inq p.2 ++ [t]) }
  s.setElem p.1 (if isStreamEngine p.1 && e.portVo && e.qpValid && p.2 == 0 then e1.settleHead else e1)

/-- A token of a local edge enters the queue of its input. -/
def State.arrive (s : State) (a : ElemAt) (i : Fin 4) : State :=
  let e := s.elem a
  match getF e.wire i with
  | [] => s
  | t :: rest =>
    if s.tileOn a && (getF e.tbWire i).isEmpty then
      ((s.setElem a { e with wire := setF e.wire i rest }).enqueue (a, i) t).settleCancels a
    else s

/-! ### Static links (R25, R51) -/

/-- The tile may take a token from another tile: its gate is open and its block is on (R25, R344). -/
def State.tileTakes (s : State) (d : Fin 4) (x y : Nat) : Bool := s.gateOpen d x y && decide (s.power d x y = 0)

/-- The head of channel `c` of a link crosses to the next tile: into the queue of the input that ends the channel there, or into the
stage of the link by which the tile carries it on. -/
def State.cross (s : State) (d : Fin 4) (x y : Nat) (v : Dir) (c : Nat) : Option State :=
  let k := stageKey d x y v c
  match v.go x y, s.stageAt k with
  | some (nx, ny), t :: rest =>
    let at' : ElemAt := { die := d, x := nx, y := ny, e := 15 }
    if s.tileTakes d nx ny && s.linkOpen d x y nx ny v c then
      let s1 := s.setStage k rest
      match s.staticEnd d nx ny v.opp c, s.passOut d nx ny v c with
      | some p, _ =>
        if s.mayEnter p then some (((s1.enqueue p (delivered at' t)).checkCrossing at' t).settleCancels p.1) else none
      | none, some v' =>
        let k' := stageKey d nx ny v' c
        if (s.stageAt k').length < 2 then some ((s1.setStage k' (s.stageAt k' ++ [delivered at' t])).checkCrossing at' t) else none
      | none, none => none
    else none
  | _, _ => none

/-- Number of the link that leaves a tile in a direction. -/
def linkKey (d : Fin 4) (x y : Nat) (v : Dir) : Nat := tkey d x y * 4 + v.num

/-- The tokens that stand first on a link toward a tile that is off are refused. -/
def State.refuseLink (s : State) (d : Fin 4) (x y : Nat) (v : Dir) (to' : ElemAt) : State :=
  let new := (List.range 4).filter fun c => match s.stageAt (stageKey d x y v c) with
    | t :: _ => !t.hdr.refused
    | [] => false
  if new.isEmpty then s
  else (new.foldl (fun s c =>
    let k := stageKey d x y v c
    s.setStage k (match s.stageAt k with
      | t :: rest => t.refuse :: rest
      | [] => [])) s).refuseTokens to' new.length

/-- A link grants the first channel, from the one after its last grant, whose token may cross. A token whose next tile is off is
refused (R344). -/
def State.grant (s : State) (d : Fin 4) (x y : Nat) (v : Dir) : State :=
  if s.clockOn d && s.gateOpen d x y then
    let from' := Map.get 0 (linkKey d x y v) s.granted
    match (List.range 4).findSome? fun i => (s.cross d x y v ((from' + i) % 4)).map fun t => ((from' + i) % 4, t) with
    | some (c, t) => { t with granted := Map.put 0 (linkKey d x y v) ((c + 1) % 4) t.granted }
    | none =>
      match v.go x y with
      | some (nx, ny) =>
        if s.power d nx ny = 3 then s.refuseLink d x y v { die := d, x := nx, y := ny, e := 15 } else s
      | none => s
  else s

/-! ### The dynamic network (R15, R24, log 110) -/

/-- Directions that bring a packet nearer to its tile. -/
def NetPacket.ways (k : NetPacket) : List Dir :=
  (if k.x < k.dest.x then [.e] else if k.dest.x < k.x then [.w] else [])
    ++ (if k.y < k.dest.y then [.s] else if k.dest.y < k.y then [.n] else [])

/-- The packet stands at its tile and its input may take it. -/
def State.mayEject (s : State) (k : NetPacket) : Bool :=
  k.ways.isEmpty && s.tileTakes k.dest.die k.dest.x k.dest.y && s.mayEnter (k.dest, k.input)

/-- Two packets stand at one router. -/
def NetPacket.meets (k j : NetPacket) : Bool := decide (j.x = k.x) && decide (j.y = k.y)

/-- A packet is ejected, unless an older one may be ejected there or one of its own edge is still under way; one whose tile is off is
refused (R15, R50, R344). -/
def State.eject (s : State) (n : Nat) (k : NetPacket) : State :=
  let l := s.packetsOf k.dest.die
  if s.power k.dest.die k.dest.x k.dest.y = 3 then
    (if k.tok.hdr.refused then s else (s.setPackets k.dest.die (l.set n { k with tok := k.tok.refuse })).refuseTokens k.dest 1)
  else if s.mayEject k && !((l.take n).any fun j => j.to (k.dest, k.input) || (k.meets j && s.mayEject j)) then
    (((s.setPackets k.dest.die (l.eraseIdx n)).enqueue (k.dest, k.input) (delivered k.dest k.tok)).checkCrossing k.dest k.tok).settleCancels
      k.dest
  else s

/-- Packet `n` moves one router toward its tile, unless an older packet at the router may go the same way (R15). -/
def State.hop (s : State) (d : Fin 4) (n : Nat) (v : Dir) : State :=
  let l := s.packetsOf d
  match l[n]? with
  | none => s
  | some k =>
    if !s.clockOn d then s
    else if k.ways.isEmpty then s.eject n k
    else if k.ways.contains v && !((l.take n).any fun j => k.meets j && j.ways.contains v) then
      match v.go k.x k.y with
      | some (nx, ny) => s.setPackets d (l.set n { k with x := nx, y := ny })
      | none => s
    else s

/-! ### FIFO channels (R18, R30, R308) -/

/-- The token at the output of a FIFO channel. -/
def State.channelHead (s : State) (a : ElemAt) : Option Token :=
  if tileKind a.x a.y = .mt ∧ a.e < 8 then
    (if s.tileOn a && (s.elem a).calm 0 && decide (0 < s.places a 0) then (s.elem a).head? 0 else none)
  else none

/-- Input queues of the stage that a channel feeds, with their declarations. -/
def State.stageInputs (s : State) (a : ElemAt) : List (ElemAt × Nat) :=
  match s.regionAt a.die a.x a.y, s.taskAt a with
  | some r, some t => t.queues.map fun q => ((s.region a.die r).channel a.die q, q)
  | _, _ => []

/-- The stage may fire: its input queues cover what the firings under way and this one take, and its output queues have room for what
it places (R30). -/
def State.stageReady (s : State) (a : ElemAt) : Bool :=
  ((s.stageInputs a).all fun x =>
    let e := s.elem x.1
    decide (e.stageTake + stageTakes x.2 ≤ ((getF e.inq 0).filter fun t => t.hdr.counts).length))
  && s.outputsTake a 1

/-- The stage fires: each input queue gives what it declares, and each output queue gets what it declares. -/
def State.stageFire (s : State) (a : ElemAt) : State :=
  ((s.stageInputs a).foldl (fun s x => s.setElem x.1 { s.elem x.1 with stageTake := (s.elem x.1).stageTake + stageTakes x.2 }) s).grantOutputs a

/-- The state in which a token may leave a channel: that of an inter-stage queue leaves in a firing of the stage. -/
def State.stageLet (s : State) (a : ElemAt) (t : Token) : Option State :=
  match s.stageQueue a with
  | none => some s
  | some _ =>
    let take (u : State) : State := u.setElem a { u.elem a with stageTake := (u.elem a).stageTake - 1 }
    if !t.hdr.counts then some s
    else if 0 < (s.elem a).stageTake then some (take s)
    else if s.stageReady a then some (take (s.stageFire a))
    else none

/-- A token leaves a FIFO channel; a row of a parking queue leaves by its replay (R308). -/
def State.leave (s : State) (a : ElemAt) : State :=
  match s.channelHead a with
  | none => s
  | some t =>
    if (s.parkedFor a).isSome && (t.hdr.isData || t.hdr.isNull) then s
    else if t.hdr.counts && s.credits a 0 == 0 then s
    else
      match s.stageLet a t with
      | some u => (u.setElem a ((u.elem a).drop 0 1)).send a 0 t
      | none => s

/-- TOKEN_CROSSING. -/
def execTokenCrossing (m : Crossing) (s : State) : Out :=
  .next (match m with
    | .arrive a i => s.arrive a i
    | .grant d x y v => s.grant d x y (dirOf v.val)
    | .hop d n v => s.hop d n (dirOf v.val)
    | .leave a => s.leave a)

/-! ### Takebacks (R60 to R64) -/

/-- A takeback meets a head: both vanish, or the trap "takeback order". -/
def State.meet (s : State) (a : ElemAt) (itag : BitVec 8) (t : Token) (gone : State) : State :=
  if t.hdr.isTarget && t.hdr.itag == itag then gone.settleCancels a else s.orderTrap a itag t.hdr

/-- TAKEBACK_STAGE: the oldest takeback of an input queue, or of the stages behind it, meets the head there or moves upstream. Where it
meets a wrong token in a crossing stage, in a packet or on a wire, the element of that input detects it (R64, log 139). -/
def execTakebackStage (a : ElemAt) (i : Fin 4) (s : State) : Out :=
  .next (
    if !s.tileOn a then s else
    let e := s.elem a
    match getF e.tbQueue i, getF e.tbWire i with
    | k :: rest, w =>
      let e1 : Elem := { e with tbQueue := setF e.tbQueue i rest }
      (match e.head? i with
      | some t => s.meet a k t (s.setElem a (e1.drop i 1))
      | none => s.setElem a { e1 with tbWire := setF e.tbWire i (w ++ [k]) })
    | [], k :: rest =>
      (match s.transit (a, i) with
      | t :: _ =>
        let s1 := s.dropTransit (a, i)
        s.meet a k t (s1.setElem a { s1.elem a with tbWire := setF e.tbWire i rest })
      | [] => s)
    | [], [] => s)

/-- What becomes of a takeback at an element: the new state of the element, or none when it waits on its wire (R61, R62). -/
def Elem.recordCancel (e : Elem) (itag : BitVec 8) (o : Fin 2) : Option Elem :=
  let tags := (e.cancels.map (·.1)).eraseDups
  if tags.contains itag || decide (tags.length < 8) then some { e with cancels := e.cancels ++ [(itag, o)] } else none

/-- A cancellable element drops the access of a firing that has not yet performed: a granule of it is still to come (R245). -/
def Elem.dropAccess (e : Elem) (itag : BitVec 8) : Option Elem :=
  let p (x : FabAccess) : Bool := x.hdr.itag == itag && !(x.todo.isEmpty && x.writes.isEmpty) && !x.dropped
  if e.pend.any p then some { e with pend := updateFirst p (fun x => { x with dropped := true, withheld := false }) e.pend } else none

/-- The element after a takeback of `itag` has reached it through output `o`. -/
def Elem.takebackHere (e : Elem) (itag : BitVec 8) (o : Fin 2) : Option Elem :=
  if e.must || e.isExit || e.isEntry then some { e with heldTb := e.heldTb ++ [(itag, o)] }
  else if e.cancellable then (match e.dropAccess itag with
    | some e' => some e'
    | none => e.recordCancel itag o)
  else e.recordCancel itag o

/-- A takeback at the output of a queue stage: a delay node or a FIFO channel (R60, R259). -/
def State.takebackQueue (s : State) (b : ElemAt) (i : Fin 4) (rest : List (BitVec 8)) (a : ElemAt) (k : BitVec 8) : State :=
  let eb := s.elem b
  let s1 := s.setElem b { eb with tbWire := setF eb.tbWire i rest }
  let e := s1.elem a
  if e.opcode = 0x003 then
    match e.dly with
    | t :: ts => s.meet a k t (s1.setElem a { e with dly := ts })
    | [] => s1.setElem a { e with tbQueue := setF e.tbQueue 0 (getF e.tbQueue 0 ++ [k]) }
  else
    match e.head? 0 with
    | some t => s.meet a k t (s1.setElem a (e.drop 0 1))
    | none => s1.setElem a { e with tbWire := setF e.tbWire 0 (getF e.tbWire 0 ++ [k]) }

/-- TAKEBACK_AT_ELEMENT: the oldest takeback of an edge, with no token left on the edge, reaches the element that drives it; toward a
tile that is not on it waits on its wire (R344). -/
def execTakebackAtElement (a : ElemAt) (o : Fin 2) (s : State) : Out :=
  .next (
    if !s.tileOn a then s else
    match s.dest a o.val with
    | none => s
    | some (b, i) =>
      let eb := s.elem b
      match getF eb.tbWire i, s.transit (b, i) with
      | k :: rest, [] =>
        if (s.elem a).opcode = 0x003 ∨ tileKind a.x a.y = .mt then s.takebackQueue b i rest a k
        else
          let s1 := s.setElem b { eb with tbWire := setF eb.tbWire i rest }
          (match (s1.elem a).takebackHere k o with
          | some e' => (s1.setElem a e').settleCancels a
          | none => s)
      | _, _ => s)

end Sys2Proof.Machine
end

