-- ==== Sys2Proof/Machine/Save.lean ====
section
/-!
DEFINITION. What a pre-emption saves (R339): the saved state as plain data, the context block of R341 and its place in the context
area.
-/
namespace Sys2Proof.Machine

/-! ### Sites of a placement -/

/-- The image's own coordinates of a site of a placement (R276): the virtual frame for a portable image, else the site itself. -/
def Frame.virt (f : Frame) (x y : Nat) : Option (Nat × Nat) :=
  if f.portable then
    ((List.range (5 * f.w + 2)).flatMap fun i => (List.range (4 * f.h + 2)).map fun j => (i, j)).find? fun p =>
      (decide (1 ≤ p.2) || virtualAgs.contains p.1 || p.1 == 7) && decide (f.site p.1 p.2 = (x, y))
  else some (x, y)

/-- Key of an element, or of a tile with element 0, by the image's coordinates. -/
def vkey (p : Nat × Nat) (e : Nat) : Nat := (p.1 * 32 + p.2) * 16 + e % 16

/-- Key of a die site under a placement. -/
def Frame.keyOf (f : Frame) (x y e : Nat) : Option Nat := (f.virt (x - 5 * f.bx) (y - 4 * f.by')).map fun p => vkey p e

/-- The site of a key under a placement on a die. -/
def Frame.place (f : Frame) (d : Fin 4) (k : Nat) : ElemAt :=
  let p := f.site (k / 512 % 32) (k / 16 % 32)
  { die := d, x := p.1 + 5 * f.bx, y := p.2 + 4 * f.by', e := k % 16 }

/-- An element name moved from one placement to another. -/
def moveElem (f g : Frame) (d : Fin 4) (a : ElemAt) : ElemAt :=
  match f.keyOf a.x a.y a.e with
  | some k => g.place d k
  | none => a

/-! ### The saved state as plain data -/

/-! ### Boundaries that a source has passed (R304) -/

/-- Work identifier of the last row that a load command has taken up. -/
def StreamRun.readWid (r : StreamRun) (e : Elem) : Nat := r.w + (r.row - 1) / e.seRate

/-- The latest work identifier whose boundary a load command has passed: the barrier ahead of it has left, or there is none. A command
that stands at a boundary behind the barrier that stopped it has not passed it. -/
def StreamRun.passed (r : StreamRun) (e : Elem) : Nat :=
  if r.count = 0 then r.w - 1
  else if e.se.barrierDue then r.rowWid e - 1
  else if r.finished.isSome then r.last
  else if r.todo.isEmpty then r.readWid e
  else if e.se.hold = .stopped ∧ e.eor = false then r.rowWid e - 1
  else r.rowWid e

/-- The same of an engine: between commands it is that of its last row, and the first of the range where it has run none (R196, R304). -/
def Elem.passed (e : Elem) (first : Nat) : Nat :=
  let idle := if e.se.lastWid + 1 = BitVec.ofNat 64 first then first else e.se.lastWid.toNat
  match e.se.cur with
  | some r => if r.cmd.op.isLoad && r.started && r.moves then r.passed e else idle
  | none => idle

/-! ### Feedback tokens (R259, R303 to R305) -/

/-- The input that delay node `a` feeds on its own tile, when nothing but data tokens of the node, no more than it could hold, stand there
(R305, log 141). -/
def State.fedBy (s : State) (a : ElemAt) : Option InPort :=
  if (s.elem a).opcode = 0x003 then
    match s.dest a 0 with
    | some (b, i) =>
      let l := getF (s.elem b).inq i ++ getF (s.elem b).wire i
      if b.x = a.x ∧ b.y = a.y ∧ (l.all fun t => t.hdr.isData) = true ∧ l.length + (s.elem a).dly.length ≤ (s.elem a).dlyDepth then some (b, i)
      else none
    | none => none
  else none

/-- Saved form of a slot: a fill by address starts again from its address token, one by rows from its tokens (R339). -/
def Slot.saved (sl : Slot) : Slot :=
  if sl.tag = .filling then { kind := sl.kind } else { sl with pins := [], snaps := [], withheld := [] }

/-- Tokens that the fills of a tile in progress put back at the head of input `i` of its tile memory control: the address token, or the first
rows token (R339, log 82). -/
def State.fillTokens (s : State) (a : ElemAt) (i : Fin 4) : List Token :=
  match (s.elem a).binding i.val with
  | none => []
  | some b =>
    let sl := s.slotAt a b.slot
    if sl.tag = .filling then sl.addr.toList ++ sl.rows.take 1 else []

/-- An element as it is saved: its state without its fields, without resume tokens, and without takebacks on their way to another
region. -/
def State.savedElem (s : State) (r : Fin 16) (a : ElemAt) : Elem :=
  let e := s.elem a
  let back (i : Fin 4) : List Token := if a.e = 14 ∧ tileKind a.x a.y = .ct then s.fillTokens a i else []
  { e with
    fields := [], resumes := 0, reached := none, fresh := false
    inq := Vector.ofFn fun i => back i ++ getF e.inq i
    tbWire := Vector.ofFn fun i => if s.foreign r a i then [] else getF e.tbWire i }

def State.savedElemsOf (s : State) (d : Fin 4) (r : Fin 16) (f : Frame) : List (Nat × Elem) :=
  (s.regionElems d r).filterMap fun a => (f.keyOf a.x a.y a.e).map fun k => (k, s.savedElem r a)

def State.savedTilesOf (s : State) (d : Fin 4) (r : Fin 16) (f : Frame) : List (Nat × Tile) :=
  (s.regionTiles d r).filterMap fun t => (f.keyOf t.1 t.2 0).map fun k =>
    let tl := s.tile d t.1 t.2
    (k, { tl with slots := Vector.ofFn fun i => (getF tl.slots i).saved, refused := false, woke := false, extents := [] })

/-- Tokens in crossing stages at a region's tiles: tile key, direction and channel in the image's own frame (R339, R341). -/
def State.savedStagesOf (s : State) (d : Fin 4) (r : Fin 16) (f : Frame) : List (Nat × Dir × Nat × List Token) :=
  s.stages.filterMap fun e =>
    let p := stageSite e.1
    if e.1 / 16 / 1024 = d.val ∧ (s.region d r).owns p.1 p.2 then
      (f.keyOf p.1 p.2 0).map fun k => (k, dirOf (f.dir (e.1 / 4 % 4)), e.1 % 4, e.2)
    else none

/-- Packets that a region's elements have sent and that a tile not running has yet to take: keys of sender and receiver, input, token. -/
def State.savedPacketsOf (s : State) (d : Fin 4) (r : Fin 16) (f : Frame) : List (Nat × Nat × Fin 4 × Token) :=
  (s.packetsOf d).filterMap fun k =>
    if (s.region d r).owns k.sender.x k.sender.y then
      match f.keyOf k.sender.x k.sender.y k.sender.e, f.keyOf k.dest.x k.dest.y k.dest.e with
      | some a, some b => some (a, b, k.input, k.tok)
      | _, _ => none
    else none

/-- MTs of a region in the addressed-buffer role (R18, R339). -/
def State.bufferMts (s : State) (d : Fin 4) (r : Fin 16) : List (Nat × Nat) :=
  let g := s.region d r
  (List.range (5 * g.w + 2)).flatMap fun x => (List.range (4 * g.h + 2)).filterMap fun y =>
    let ax := g.absX x
    let ay := g.absY y
    if tileKind ax ay = .mt ∧ g.owns ax ay ∧ s.mtRole { die := d, x := ax, y := ay, e := 15 } = 1 then
      some (ax, ay) else none

/-- The bytes of those MTs, by key times 2 MiB plus offset. -/
def State.savedMtOf (s : State) (d : Fin 4) (r : Fin 16) (f : Frame) : List (Nat × Byte) :=
  (s.bufferMts d r).flatMap fun m => match f.keyOf m.1 m.2 0 with
    | some k => (List.range (2 ^ 21)).map fun o => (k * 2 ^ 21 + o, s.mtByte (tkey d m.1 m.2 * 2 ^ 21 + o))
    | none => []

/-! ### The context block (R341) -/

def w64 (n : Nat) : Word := BitVec.ofNat 64 n

/-- Payload of a token as eight dwords. -/
def payWords (p : Payload) : List Word := (List.range 8).map fun i => (p >>> (64 * i)).truncate 64

/-- A token entry: identity, header, payload. -/
def tokenWords (id : Nat) (t : Token) : List Word := [w64 id, w64 t.hdr.toNat] ++ payWords t.pay

/-- Identity of an element in the layout of R216, region-relative, with a number, a kind and a payload length. -/
def Frame.identity (f : Frame) (a : ElemAt) (n kind len : Nat) : Nat :=
  n % 16 + a.e % 16 * 2 ^ 4 + (a.y - 4 * f.by') % 32 * 2 ^ 8 + (a.x - 5 * f.bx) % 32 * 2 ^ 13 + len % 2 ^ 24 * 2 ^ 32 + kind * 2 ^ 56

/-- A shape register in the five dwords of R209. -/
def ShapeReg.words (h : ShapeReg) : List Word :=
  [w64 (b2n h.valid + b2n h.pub * 2 + h.kind.toNat * 2 ^ 11 + h.ra.toNat * 2 ^ 17 + h.rb.toNat * 2 ^ 22 + h.pcw.toNat * 2 ^ 32),
   w64 (h.maxM.toNat + h.maxN.toNat * 2 ^ 16 + h.maxK.toNat * 2 ^ 32), w64 (h.grantM.toNat + h.grantN.toNat * 2 ^ 16 + h.grantK.toNat * 2 ^ 32),
   w64 h.reqK.toNat, w64 (h.reqM.toNat + h.reqN.toNat * 2 ^ 32)]

/-- An engine-queue entry: word, descriptor address, count, progress. -/
def QItem.words : QItem → List Word
  | .cmd k r _ _ => [k.word.zeroExtend 64, k.base, k.count, w64 r.moved]
  | .fence _ w => [w.zeroExtend 64, 0, 0, 0]

def padTo (n : Nat) (l : List Word) : List Word := (l ++ List.replicate n 0).take n

/-- The core section: 8,832 dwords. -/
def CoreState.section (k : CoreState) : List Word :=
  (List.finRange 32).map (fun i => if i = 0 then 0 else getF k.g i) ++ [k.pc]
    ++ [k.status, k.cause, k.trappc, k.badaddr, k.asid, k.prio, k.tags, k.wid, k.widw]
    ++ [w64 ((List.finRange 8).foldl (fun n i => n + b2n (getF k.p i) * 2 ^ i.val) 0)]
    ++ (List.range 8).map (fun j => w64 ((List.range 8).foldl (fun n i => n + k.tagCount.toList.getD (8 * j + i) 0 % 256 * 2 ^ (8 * i)) 0))
    ++ k.sh.toList.flatMap ShapeReg.words ++ List.replicate 37 0
    ++ k.queues.toList.flatMap (fun q => padTo 64 (q.flatMap QItem.words))
    ++ (List.range 8192).map k.privGranule

/-- Stream commands that wait behind the current one. -/
def StreamState.queued (se : StreamState) : List Command :=
  se.items.filterMap fun i => match i with
    | .cmd k => some k
    | .shape _ | .barrier _ => none

/-- Rows that the current command has moved. -/
def StreamState.rowsDone (se : StreamState) : Nat :=
  match se.cur with
  | some r => r.row
  | none => 0

/-- A stream engine entry: ten dwords. -/
def Frame.streamEntry (f : Frame) (a : ElemAt) (se : StreamState) : List Word :=
  let cmd (k : Option Command) : List Word := match k with
    | some k => [k.word.zeroExtend 64, k.base, k.count]
    | none => [0, 0, 0]
  let flags := match se.cur with
    | some r => b2n r.ovf + b2n r.poison * 2 + b2n r.truncated * 4
    | none => b2n se.ovf
  [w64 (f.identity a 0 0 72)] ++ cmd (se.cur.map StreamRun.cmd) ++ [w64 se.rowsDone, se.lastWid, w64 flags] ++ cmd se.queued.head?

/-- An element entry. -/
def Frame.entry (f : Frame) (a : ElemAt) (kind : Nat) (pay : List Word) : List Word :=
  w64 (f.identity a 0 kind (8 * pay.length)) :: pay

/-- The entries of one element, kinds 1 to 9 (log 46). The head of an exact-reduce chain has that of the chain, whose lanes are `lanes`. -/
def Frame.elemEntries (f : Frame) (a : ElemAt) (e : Elem) (lanes : List Elem) : List (List Word) :=
  let some' (b : Bool) (kind : Nat) (pay : List Word) : List (List Word) := if b then [f.entry a kind pay] else []
  let toks (l : List Token) : List Word := l.flatMap (tokenWords (f.identity a 0 0 72))
  (match e.shape with
    | some w => [f.entry a 1 [w]]
    | none => [])
  ++ some' (!e.dly.isEmpty) 2 (toks e.dly)
  ++ some' (e.mergeNext != 0 || !e.mergeWin.isEmpty) 3 (w64 e.mergeNext.toNat :: toks (e.mergeWin.map (·.2)))
  ++ some' (e.loopNext != 0 || !e.restore.isEmpty) 4
      (w64 e.loopNext.toNat :: e.restore.map fun x => w64 (x.1.toNat + x.2.toNat * 2 ^ 16))
  ++ some' (!e.cancels.isEmpty) 5 (e.cancels.map fun c => w64 (c.1.toNat + c.2.val * 2 ^ 8))
  ++ some' (!e.heldTb.isEmpty) 6 (e.heldTb.map fun c => w64 (c.1.toNat + c.2.val * 2 ^ 8))
  ++ some' (e.pass != 0) 7 [w64 e.pass]
  ++ some' (e.opcode == 0x1C0 && lanes.any fun l => l.acc != 0 || l.accFlags != 0) 8
      (padTo 5 (lanes.map (·.acc)) ++ [(lanes.foldl (fun (f : BitVec 5) l => f ||| l.accFlags) 0).zeroExtend 64])
  ++ (e.pend.filter (·.withheld)).map fun p => f.entry a 9 (toks p.heads)

/-- The trap record of a tile, kind 10. -/
def Frame.trapEntries (f : Frame) (a : ElemAt) (t : Tile) : List (List Word) :=
  if (getF t.trap 0).getLsbD 63 then [f.entry a 10 t.trap.toList] else []

/-- Token entries of one element: its queues with what waits to enter them, and takebacks on its wires. -/
def Frame.tokenEntries (f : Frame) (a : ElemAt) (e : Elem) (more : Fin 4 → List Token) : List (List Word) :=
  let fc := decide (tileKind a.x a.y = .mt) && decide (a.e < 8)
  let at' (n kind place : Nat) : Nat := f.identity a n kind 72 + place % 256 * 2 ^ 24
  (List.finRange 4).flatMap fun i =>
    ((getF e.inq i ++ getF e.wire i ++ more i).zipIdx.map fun t => tokenWords (at' i.val (if fc then 2 else 0) t.2) t.1)
      ++ ((getF e.tbQueue i ++ getF e.tbWire i).zipIdx.map fun t =>
          tokenWords (at' i.val 3 t.2) { hdr := { itag := t.1 } })

/-- Token entries of a crossing stage, under element 0 of its tile (log 46). -/
def Frame.stageEntries (f : Frame) (d : Fin 4) (x : Nat × Dir × Nat × List Token) : List (List Word) :=
  x.2.2.2.zipIdx.map fun t =>
    tokenWords (f.identity (f.place d x.1) (4 * f.dir x.2.1.num + x.2.2.1) 1 72 + t.2 % 256 * 2 ^ 24) t.1

/-- A slot entry: tag and kind, then 32 KiB; the packing of kinds other than w64 is the device's own (log 46). -/
def Frame.slotEntry (f : Frame) (a : ElemAt) (k : Fin 8) (sl : Slot) (free : Nat → Word) : List Word :=
  let tag := match sl.tag with
    | .empty | .filling => 0
    | .full => 1
    | .opened => 2
  [w64 (f.identity a k.val 0 (8 + 32768)), w64 (tag + sl.kind * 2 ^ 8)]
    ++ (List.range 4096).map fun i => if sl.kind = 3 then Map.get 0 i sl.data else free i

/-- Entries of a saved region in the order of the block. -/
structure CtxEntries where
  streams : List (List Word)
  elems : List (List Word)
  tokens : List (List Word)
  slots : List (List Word)
  mts : List (List Word)

def CtxEntries.all (c : CtxEntries) : List (List Word) := c.streams ++ c.elems ++ c.tokens ++ c.slots ++ c.mts

/-- Entries of the saved state of a task, under the fields that its elements hold. -/
def ctxEntries (t : Task) (f : Frame) (d : Fin 4) (fields : ElemAt → Map Nat) (free : Nat → Word) : CtxEntries :=
  let el := t.savedElems.map fun x => let a := f.place d x.1; (a, x.1, { x.2 with fields := fields a })
  let tl := t.savedTiles.map fun x => (f.place d x.1, x.2)
  let lanes (k : Nat) : List Elem := (List.range 5).filterMap fun n => (t.savedElems.find? fun y => y.1 == k + n).map (·.2)
  let more (k : Nat) (i : Fin 4) : List Token := (t.savedPackets.filter fun p => p.2.1 == k && p.2.2.1 == i).map (·.2.2.2)
  { streams := (el.filter fun x => isStreamEngine x.1 && x.2.2.opcode == 0x204).map fun x => f.streamEntry x.1 x.2.2.se
    elems := el.flatMap (fun x => f.elemEntries x.1 x.2.2 (lanes x.2.1)) ++ tl.flatMap fun x => f.trapEntries x.1 x.2
    tokens := el.flatMap (fun x => f.tokenEntries x.1 x.2.2 (more x.2.1)) ++ t.savedStages.flatMap (f.stageEntries d)
    slots := tl.flatMap fun x => (List.finRange 8).filterMap fun k =>
      let sl := getF x.2.slots k
      if sl.tag = .empty then none else some (f.slotEntry x.1 k sl free)
    mts := ((t.savedMt.map fun b => b.1 / 2 ^ 21).eraseDups).map fun k =>
      let bytes := (t.savedMt.filter fun b => b.1 / 2 ^ 21 == k).map (·.2)
      w64 (f.identity (f.place d k) 0 0 (2 ^ 21)) :: (List.range (2 ^ 18)).map fun g => dword fun i => bytes.getD (8 * g + i) 0 }

/-- Offset of the entries: header and core section (R341). -/
def ctxFirst : Nat := 256 + 70656

/-- Bytes of entries. -/
def entryBytes (l : List (List Word)) : Nat := 8 * (l.map List.length).sum

/-- The header of a context block. -/
def ctxHeader (t : Task) (f : Frame) (form level : Nat) (c : CtxEntries) : List Word :=
  let o1 := ctxFirst
  let o2 := o1 + entryBytes c.streams
  let o3 := o2 + entryBytes c.elems
  let o4 := o3 + entryBytes c.tokens
  let o5 := o4 + entryBytes c.slots
  padTo 32
    [w64 (form + 2 ^ 8 + level % 8 * 2 ^ 16), t.id.zeroExtend 64,
     w64 (f.w + f.h * 2 ^ 3 + b2n f.reflect * 2 ^ 6 + t.die.val * 2 ^ 7 + (4 * f.by' + f.bx) * 2 ^ 9), w64 (o5 + entryBytes c.mts),
     w64 o1, w64 c.streams.length, w64 o2, w64 c.elems.length, w64 o3, w64 c.tokens.length, w64 o4, w64 c.slots.length,
     w64 o5, w64 c.mts.length, w64 t.faultTime, w64 t.missTime, w64 t.runTime]

/-- A whole context block. -/
def ctxBlock (t : Task) (f : Frame) (form level : Nat) (k : CoreState) (c : CtxEntries) : List Word :=
  ctxHeader t f form level c ++ k.section ++ c.all.flatten

/-! ### The context area (R328, R341) -/

/-- Context blocks held: address and size. -/
def State.ctxBlocks (s : State) : List (Nat × Nat) := s.tasks.filterMap fun t => t.ctx.map fun c => (c.1.toNat, c.2.1)

/-- The lowest 4 KiB-aligned place of the area that holds a block, when every address of it has a home. -/
def State.ctxPlace (s : State) (d : Fin 4) (size : Nat) : Option Nat :=
  let q := s.tquOf d
  let base := bits q.ctxBase.toNat 12 40 * 4096
  let cap := bits q.ctxCap.toNat 0 24 * 2 ^ 20
  let starts := base :: s.ctxBlocks.map fun b => roundUp (b.1 + b.2) 4096
  let ok (a : Nat) : Bool :=
    decide (base ≤ a) && decide (a + size ≤ base + cap) && (s.homeOf a).isSome && (s.homeOf (a + size - 8)).isSome
      && s.ctxBlocks.all fun b => !overlap a size b.1 b.2
  (starts.filter ok).foldl (fun m a => match m with
    | some b => some (min a b)
    | none => some a) none

/-- Writes dwords at a physical address. -/
def State.writeBlock (s : State) (pa : Nat) (ws : List Word) : State :=
  let n := 8 * ws.length
  let s1 : State := { s with mem := s.mem.filter fun c => decide (c.1 < pa) || decide (pa + n ≤ c.1) }
  ws.zipIdx.foldl (fun s w => if w.1 = 0 then s else s.setHome (storeAt (pa + 8 * w.2) 8 w.1))
    { s1 with marked := s1.marked.filter fun g => decide (8 * g < pa) || decide (pa + n ≤ 8 * g) }

/-! ### Saving a region (R337 to R341) -/

/-- The core's order buffer empties into its engines and queues. -/
def State.flushOrder (s : State) (c : Fin 64) : Nat → State
  | 0 => s
  | n + 1 =>
    match (s.core c).order with
    | .cmd _ :: _ => (s.beginCore c).flushOrder c n
    | .store _ :: _ | .sbar .. :: _ | .qfence .. :: _ | .shape .. :: _ | [] => s

/-- The core of a region stands still with nothing in its order buffer. -/
def State.settleCore (s : State) (c : Fin 64) : State :=
  let s1 := (s.stopCore c).drainStores c
  (s1.flushOrder c (s1.core c).order.length).settleEngines

/-- A delay node takes back the data tokens that it has passed on to the input which it feeds and that still stand there (R305, log 141). -/
def State.refillDly (s : State) (a : ElemAt) : State :=
  match s.fedBy a with
  | some (b, i) =>
    let e := s.elem b
    let back := getF e.inq i ++ getF e.wire i
    let s1 := s.setElem b { e with inq := setF e.inq i [], wire := setF e.wire i [] }
    s1.setElem a { s1.elem a with dly := back ++ (s1.elem a).dly }
  | none => s

/-- Tokens that an element has made and that wait for credits stand on its edges (R338, R339, log 142): those of answered probes, of requests
and reads, and the rows that an engine has read. -/
def State.placeHeld (s : State) (a : ElemAt) : State :=
  let e := s.elem a
  let s1 := (e.probes.filter fun p => p.answer != 0).foldl (fun s p => s.probeOut a p)
    (s.setElem a { e with probes := e.probes.filter fun p => p.answer == 0, outq := [], se := { e.se with outq := [] } })
  let s2 := e.outq.foldl (fun s x => s.send a x.1.val x.2) s1
  e.se.outq.foldl (fun s t => s.sourceEmit a t) s2

/-- A stopped region as it is saved: the core's order buffer is empty; a drained one has its feedback tokens in their delay nodes, a frozen
one has every token on an edge. -/
def State.settleRegion (s : State) (d : Fin 4) (r : Fin 16) (c : Fin 64) (form : Nat) : State :=
  let s1 := s.settleCore c
  if form = 1 then ((s1.regionElems d r).filter fun a => (s1.elem a).opcode == 0x003).foldl State.refillDly s1
  else (s1.regionElems d r).foldl State.placeHeld s1

/-- A core as it is saved: one that had halted is saved so. -/
def CoreState.saved (k : CoreState) : CoreState :=
  { k with run := k.before, order := [], irq := [], waiting := false, amo := none, rel := none, hdrHeld := false, hdrFaulted := false
           prefetch := [], code := [], task := none }

/-- A task with the state of its region's fabric (R339). -/
def State.withFabric (s : State) (d : Fin 4) (r : Fin 16) (t : Task) : Task :=
  let f := (s.region d r).frame
  { t with
    savedElems := s.savedElemsOf d r f, savedTiles := s.savedTilesOf d r f, savedStages := s.savedStagesOf d r f
    savedPackets := s.savedPacketsOf d r f, savedMt := s.savedMtOf d r f
    savedPassed := ((s.viSources d r).map fun a => (s.elem a).passed t.first).foldl max 0 }

/-- The context block of a task gathered so, whose core is `c` (R341). -/
def State.saveWords (s : State) (d : Fin 4) (r : Fin 16) (c : Fin 64) (t : Task) (form level : Nat) : List Word :=
  let f := (s.region d r).frame
  ctxBlock t f form level (s.core c).saved
    (ctxEntries t f d (fun a => (s.elem a).fields) fun i => Config.freeWord (s.free + i))

/-- Saves a stopped region, or keeps it stopped when the context area has no room (R341); `again` says that a save has been tried
before. -/
def State.saveRegion (s0 : State) (d : Fin 4) (r : Fin 16) (form level : Nat) (again : Bool) : State :=
  match (s0.region d r).task.bind s0.task?, (s0.region d r).owner with
  | some t0, some o =>
    let c := coreOf d o
    let s1 := s0.settleRegion d r c form
    let t := s1.withFabric d r ((s1.task? t0.id).getD t0)
    let ws := s1.saveWords d r c t form level
    let size := 8 * ws.length
    match s1.ctxPlace d size with
    | none =>
      let s2 := s1.setRegion d r { s1.region d r with phase := .saveHeld form level }
      if again then s2 else s2.report (eventRec 10 d r.val 0 t.id 0 (w64 size))
    | some pa =>
      let s2 := ({ s1 with free := s1.free + 4096 } : State).writeBlock (s1.canonPa pa) ws
      let t' : Task :=
        { t with st := if form = 1 then .drained else .frozen, region := none, core := none, ctx := some (w64 pa, size, form, level)
                 savedCore := some (s1.core c).saved, savedFrame := some (s1.region d r).frame
                 needService := decide (form = 3) }
      let s3 := s2.setTask t'
      let s4 := ((s3.releaseTask t.id (.retire d r) (s3.taskParties d r c)).discard d r).returnRegion d r
      let s5 := (s4.dropCoreReleases c).setCore c { s4.core c with order := [], queues := Vector.replicate 8 [], cfg := [], irq := [] }
      let s6 := s5.report (if form = 3 then eventRec 5 d r.val 0 t.id (w64 pa) 0
        else eventRec 9 d r.val form t.id (w64 pa) (w64 level))
      if t.endAsked then s6.failTask t.id 3 0 0 else s6
  | _, _ => s0

end Sys2Proof.Machine
end

