-- ==== Sys2Proof/Machine/Context.lean ====
section
/-!
DEFINITION. Pre-emption and what the driver asks of it: drains (R337, R304), freeze-saves (R338), fault checkpoints (R336), TASKCMD and
PORTRES (R328), events that meet (R345).
-/
namespace Sys2Proof.Machine

/-! ### The task that a region is being loaded for (R322) -/

/-- The task at the head of the prefetch buffer of a region's core. -/
def State.awaiting (s : State) (d : Fin 4) (r : Fin 16) : Option (Task × Fin 64) :=
  match (s.region d r).owner with
  | none => none
  | some k =>
    match (s.core (coreOf d k)).prefetch with
    | [] => none
    | id :: _ =>
      match s.task? id with
      | some t => if t.st = .placing ∧ t.region = some r ∧ t.die = d then some (t, coreOf d k) else none
      | none => none

/-- The task that a configuration stream to a region belongs to: the one that runs there, or the next one (R394). -/
def State.loadingTask (s : State) (d : Fin 4) (r : Fin 16) : Option Task :=
  match (s.region d r).task with
  | some id => s.task? id
  | none => (s.awaiting d r).map (·.1)

/-! ### What a pre-emption costs a bounded task (R43, R323, R326) -/

def ceilDiv (a b : Nat) : Nat := (a + b - 1) / b

/-- T_load in ns, rounded up (R323). -/
def Task.loadNs (t : Task) : Nat := 1000 + ceilDiv (10 * max (4 * t.commands) t.textWords) 672

def State.drainLimit (s : State) (d : Fin 4) : Nat := bits (s.tquOf d).drainLim.toNat 0 32

/-- C of R326. -/
def State.preemptCost (s : State) (t : Task) : Nat := s.drainLimit t.die + 4000 * t.blocks + t.loadNs

/-- The slack of a bounded task covers a pre-emption; an open task may always be pre-empted (R43, R44). -/
def State.mayPreempt (s : State) (t : Task) : Bool := !t.bounded || decide (Int.ofNat (s.preemptCost t) ≤ t.slack)

/-- The slack pays for the pre-emption. -/
def State.paySlack (s : State) (t : Task) : State :=
  if t.bounded then s.setTask { t with slack := t.slack - Int.ofNat (s.preemptCost t) } else s

/-! ### Drains (R337, R304) -/

/-- Stages of a task's group that run on its die; the task alone where it has no group (R304). -/
def State.mates (s : State) (t : Task) : List Task :=
  if t.group = 0 then [t]
  else s.tasks.filter fun u => decide (u.die = t.die) && u.group == t.group && decide (u.st = .running)

/-- The work identifier behind the first boundary of a level or higher after `p`, or one past the range where none is left (R34). -/
def Task.boundaryAfter (t : Task) (level p : Nat) : Nat :=
  let n := 2 ^ (t.widths.take level).sum
  let v := (p / n + 1) * n
  if level < (t.widths.filter (· ≠ 0)).length ∧ v ≤ t.last then v else t.last + 1

/-- How the sources of a task's region stop at a drain: at their next barrier of the level, or at the common boundary of a group. -/
def State.drainHold (s : State) (t : Task) (level : Nat) : SourceHold :=
  if t.group = 0 then .draining level
  else
    let ps := (s.mates t).flatMap fun u => match u.region with
      | some r => (s.viSources u.die r).map fun a => (s.elem a).passed t.first
      | none => []
    let saved := (s.tasks.filter fun u => decide (u.die = t.die) && u.group == t.group && (decide (u.st = .drained) || decide (u.st = .frozen))).map
      Task.savedPassed
    .upTo (t.boundaryAfter level ((ps ++ saved).foldl max t.first))

/-- Sources that an earlier drain has stopped ahead of the common boundary `v` go on to it (R304, R345). -/
def State.regroup (s : State) (d : Fin 4) (r : Fin 16) (v : Nat) : State :=
  (s.viSources d r).foldl (fun s a =>
    let e := s.elem a
    if e.se.hold = .stopped ∧ e.eor = false ∧ e.passed 0 + 1 < v then s.setElem a { e with se := { e.se with hold := .upTo v } } else s) s

/-- The sources of a region stop as a drain asks. -/
def State.holdFor (s : State) (d : Fin 4) (r : Fin 16) (h : SourceHold) : State :=
  let s1 := s.holdSources d r h
  match h with
  | .upTo v => s1.regroup d r v
  | .free | .draining _ | .stopped => s1

/-- The region of one stage drains: its core gets the pre-emption notice as the drain begins (R168, R330). -/
def State.drainRegion (s : State) (d : Fin 4) (r : Fin 16) (h : SourceHold) (level : Nat) : State :=
  let drained (s : State) : State :=
    let s1 := s.holdFor d r h
    s1.setRegion d r { s1.region d r with phase := .draining level }
  match (s.region d r).phase with
  | .running => drained ((s.mapRegion d r fun _ e => { e with reached := none }).notify d r 0)
  | .draining _ => drained s
  | .idle | .checkpoint | .freezing _ | .saveHeld _ _ => s

/-- A drain is asked of a running task: of its whole group at once; a lower level than that of a drain in progress replaces it (R337,
R345). -/
def State.askDrain (s : State) (t : Task) (level : Nat) : State :=
  match t.region with
  | none => s
  | some r =>
    let h := s.drainHold t level
    let all (s : State) : State :=
      (s.mates t).foldl (fun s u => match u.region with
        | some q => s.drainRegion u.die q h level
        | none => s) s
    match (s.region t.die r).phase with
    | .running => all s
    | .draining l => if level < l then all s else s
    | .idle | .checkpoint | .freezing _ | .saveHeld _ _ => s

/-- Stages that a drain of a task pre-empts and that no pre-emption has stopped yet: they pay for it, once (R326). -/
def State.unstopped (s : State) (t : Task) : List Task :=
  (s.mates t).filter fun u => match u.region with
    | some q => decide ((s.region u.die q).phase = .running)
    | none => false

/-- A drain of a task to a level begins one, or lowers the level of the one in progress; it does nothing else (R337, R345). -/
def State.drains (s : State) (t : Task) (level : Nat) : Bool :=
  match t.region.map fun r => (s.region t.die r).phase with
  | some .running => true
  | some (.draining l) => decide (level < l)
  | some .idle | some .checkpoint | some (.freezing _) | some (.saveHeld _ _) | none => false

/-- TASKCMD op 1: needs Running; a bounded task needs the slack for it (R43, R328). -/
def execTaskcmdDrain (die : Fin 4) (task : BitVec 32) (level : Fin 8) (s : State) : Out :=
  .next (
    match s.task? task with
    | none => s
    | some t =>
      if t.home = die ∧ t.st = .running ∧ level.val ≤ 5 ∧ s.drains t level.val ∧ (s.unstopped t).all s.mayPreempt then
        ((s.unstopped t).foldl (fun s u => s.paySlack u) s).askDrain t level.val
      else s)

/-! ### Completion of a drain (R337) -/

/-- A static channel that leaves (x, y) in direction `d` leaves the region `g`. -/
def State.leavesRegion (s : State) (die : Fin 4) (g : Region) (c : Nat) : Nat → Nat → Nat → Dir → Bool
  | 0, _, _, _ => false
  | fuel + 1, x, y, d =>
    match d.go x y with
    | none => false
    | some (nx, ny) =>
      if !g.owns nx ny then true
      else if (s.staticEnd die nx ny d.opp c).isSome then false
      else
        match s.passOut die nx ny d c with
        | some v => s.leavesRegion die g c fuel nx ny v
        | none => false

/-- An output of the element leads out of its region: the run of a producing stage ends there (R39, log 54). -/
def State.crosses (s : State) (a : ElemAt) : Bool :=
  match s.regionAt a.die a.x a.y with
  | some r => (List.range 2).any fun o =>
    let f := (s.elem a).field (7 + o)
    bits f 8 2 == 2 && s.leavesRegion a.die (s.region a.die r) (bits f 4 2) 64 a.x a.y (dirOf (bits f 6 2))
  | none => false

/-- An element where tokens of the region end: a vo port, a sink, an element that forwards control tokens on no output (R261, R303), a
release input of a steer.ert (R267), or an element whose output leaves the region (R35). -/
def State.isSinkElem (s : State) (a : ElemAt) : Bool :=
  let e := s.elem a
  let op := e.opcode
  (if isStreamEngine a then op == 0x204 && e.portVo
   else op == 0x28A || (op == 0x286 && e.inOn 1) || (op != 0x1C1 && !e.alignIns.isEmpty && e.alignOuts.isEmpty)) || s.crosses a

/-- End-of-run has reached a sink: taken there, or waiting at a port (R36). -/
def Elem.ended (e : Elem) : Bool := e.eor || (e.opcode == 0x204 && (getF e.inq 0).any fun t => t.hdr.kind == 3)

def State.sinks (s : State) (d : Fin 4) (r : Fin 16) : List ElemAt := (s.regionElems d r).filter s.isSinkElem

/-- A barrier of the level, or the end-of-run, has reached a sink since the drain began. -/
def Elem.drainedTo (e : Elem) (level : Nat) : Bool :=
  e.ended || (match levelOf (getF e.inq 0) e.reached with
    | some l => decide (level ≤ l)
    | none => false)

/-- The tokens at an input are those of the delay node that feeds it: a drain counts them as its contents (R305, log 141). -/
def State.fedBack (s : State) (a : ElemAt) (i : Fin 4) : Bool :=
  (List.range 16).any fun e => decide (s.fedBy { a with e } = some (a, i))

/-- No token, takeback or access stands at an element. -/
def State.elemQuiet (s : State) (a : ElemAt) : Bool :=
  let e := s.elem a
  let port := isStreamEngine a && e.portVo
  ((List.finRange 4).all fun i =>
    (if port && i == 0 then ((dropSilent (getF e.inq i)).all fun t => t.hdr.kind == 3) && (getF e.wire i).isEmpty
     else ((getF e.inq i).isEmpty && (getF e.wire i).isEmpty) || s.fedBack a i)
      && (getF e.tbQueue i).isEmpty && (getF e.tbWire i).isEmpty)
    && e.cancels.isEmpty && e.heldTb.isEmpty && e.pend.isEmpty && e.probes.isEmpty && e.run.isEmpty && e.outq.isEmpty && !e.asked
    && e.reply.isNone

/-- A load engine that has run no row of its task, and has none to run. -/
def StreamState.unused (se : StreamState) (first : Nat) : Bool :=
  se.cur.isNone && se.items.isEmpty && se.outq.isEmpty && decide (se.lastWid + 1 = BitVec.ofNat 64 first)

/-- A stream engine holds behind the boundary or its end-of-run, or the task has not used it, and it has performed its writes (R304,
R337). -/
def State.engineQuiet (s : State) (a : ElemAt) : Bool :=
  let e := s.elem a
  let first := match s.taskAt a with
    | some t => t.first
    | none => 0
  (e.portVo || e.qpValid || decide (e.se.hold = .stopped) || e.eor || e.se.unused first)
    && (match e.se.cur with
      | some r => r.writes.isEmpty
      | none => true)

/-- No token of the region stands in a crossing stage or in the dynamic network (R337). -/
def State.edgesQuiet (s : State) (d : Fin 4) (r : Fin 16) : Bool :=
  let g := s.region d r
  (s.stages.all fun e => !(decide (e.1 / 16 / 1024 = d.val) && g.owns (stageSite e.1).1 (stageSite e.1).2))
    && (s.packetsOf d).all fun k => !g.owns k.sender.x k.sender.y

/-- A release that an flm of the core began is still open. -/
def State.flmOpen (s : State) (c : Fin 64) : Bool :=
  s.releases.any fun r => match r.who with
    | .flm k _ => decide (k = c)
    | .core _ | .retire .. => false

/-- Everything but the private cache of a draining region is at rest. -/
def State.regionDrained (s : State) (d : Fin 4) (r : Fin 16) (level : Nat) : Bool :=
  let as := s.regionElems d r
  let sk := s.sinks d r
  as.all s.elemQuiet && s.edgesQuiet d r && ((s.regionTiles d r).all fun t => (s.tile d t.1 t.2).slots.toList.all fun sl => sl.tag != .filling) && (as.filter isStreamEngine).all s.engineQuiet && sk.all (fun a => (s.elem a).drainedTo level)
    && (sk.isEmpty || !(sk.all fun a => (s.elem a).ended))
    && (match (s.region d r).owner with
      | some o => !(s.taskParties d r (coreOf d o)).any s.unlandedParty && !s.flmOpen (coreOf d o)
      | none => true)

/-- DRAIN_COMPLETE: every stage of the group is at rest; its private caches are written back, and its state is saved. -/
def execDrainComplete (die : Fin 4) (r : Fin 16) (s : State) : Out :=
  .next (s.onDie die <|
    let g := s.region die r
    match g.phase, g.task.bind s.task? with
    | .draining level, some t =>
      let rs := (s.mates t).filterMap Task.region
      if rs.all fun q => s.regionDrained die q level then
        let dirty := rs.filter fun q => !(s.region die q).cache.isEmpty
        if dirty.isEmpty then s.saveRegion die r 1 level false else dirty.foldl (fun s q => s.writeBack die q) s
      else s
    | _, _ => s)

/-- DRAIN_TIMEOUT: a drain that DRAINLIM has passed becomes a freeze-save of every stage (R337, R304). -/
def execDrainTimeout (die : Fin 4) (r : Fin 16) (s : State) : Out :=
  .next (s.onDie die <|
    let g := s.region die r
    match g.phase, g.task.bind s.task? with
    | .draining _, some t =>
      (s.mates t).foldl (fun s u => match u.region with
        | some q => (match (s.region die q).phase with
          | .draining _ => s.stopRegion die q 2
          | .idle | .running | .checkpoint | .freezing _ | .saveHeld _ _ => s)
        | none => s) s
    | _, _ => s)

/-! ### Freeze-saves (R338) -/

/-- TASKCMD op 2. A drain in progress becomes a freeze-save. -/
def execTaskcmdFreezeSave (die : Fin 4) (task : BitVec 32) (s : State) : Out :=
  .next (
    match s.task? task with
    | none => s
    | some t =>
      match t.region with
      | some r =>
        if t.home = die ∧ t.st = .running then
          match (s.region t.die r).phase with
          | .running | .checkpoint => if s.mayPreempt t then (s.paySlack t).stopRegion t.die r 2 else s
          | .draining _ => s.stopRegion t.die r 2
          | .idle | .freezing _ | .saveHeld _ _ => s
        else s
      | none => s)

/-- An access that is under way: it has granules left and is not withheld (R338). -/
def FabAccess.underWay (p : FabAccess) : Bool := !p.withheld && !p.dropped && !(p.todo.isEmpty && p.writes.isEmpty)

/-- A firing, probe, request or access in progress at an element of a stopping region, or a token on its wires (R338). -/
def State.elemBusy (s : State) (a : ElemAt) : Bool :=
  let e := s.elem a
  (e.probes.any fun p => p.answer == 0) || e.asked || (e.pend.any FabAccess.underWay)
    || (match e.se.cur with
      | some r => !r.withheld && !r.writes.isEmpty
      | none => false)
    || (decide (s.power a.die a.x a.y = 0) && (List.finRange 4).any fun i => !(getF e.wire i).isEmpty)

/-- A packet of the region is on its way to a tile that can take it. -/
def State.netBusy (s : State) (d : Fin 4) (r : Fin 16) : Bool :=
  (s.packetsOf d).any fun k => (s.region d r).owns k.sender.x k.sender.y && decide (s.power d k.dest.x k.dest.y = 0)

/-- FREEZE_SAVE_COMPLETE: everything in progress has performed or is withheld; a bank-quiesce of every MT follows, then the save. -/
def execFreezeSaveComplete (die : Fin 4) (r : Fin 16) (s : State) : Out :=
  .next (s.onDie die <|
    let g := s.region die r
    match g.phase, g.owner with
    | .freezing form, some o =>
      let as := s.regionElems die r
      if (as.any s.elemBusy) || s.netBusy die r || s.flmOpen (coreOf die o) then s
      else
        let s1 := (s.mtControls die r).foldl (fun s m => s.quiesceMt m.1 as) s
        (s1.writeBack die r).saveRegion die r form 0 false
    | _, _ => s)

/-- CONTEXT_SAVE_RETRY: a save that found no room tries again (R341). -/
def execContextSaveRetry (die : Fin 4) (r : Fin 16) (s : State) : Out :=
  .next (s.onDie die <|
    match (s.region die r).phase with
    | .saveHeld form level => s.saveRegion die r form level true
    | .idle | .running | .checkpoint | .draining _ | .freezing _ => s)

/-! ### Withheld accesses (R335, R336) -/

/-- An access at an element, or of the fills of a tile, is withheld. -/
def Elem.withholds (e : Elem) : Bool :=
  (e.pend.any (·.withheld)) || (match e.se.cur with
    | some r => r.withheld
    | none => false)
def Tile.withholds (t : Tile) : Bool := t.slots.toList.any fun sl => !sl.withheld.isEmpty

/-- The header read of an enq, the head of an engine queue, or the oldest cfg.ld, of a core is withheld. -/
def CoreState.withholds (k : CoreState) : Bool :=
  k.hdrHeld || (k.queues.toList.any fun q => match q with
    | .cmd _ _ _ w :: _ => w
    | .fence _ _ :: _ | [] => false)
  || (match k.cfg with
    | r :: _ => r.withheld
    | [] => false)

/-- An access of the task in a region is withheld, or a landed row of it refused (R118). -/
def State.withholds (s : State) (d : Fin 4) (r : Fin 16) : Bool :=
  ((s.regionElems d r).any fun a => (s.elem a).withholds || s.rowFaults.any fun x => decide (x.1.stream = a)) || ((s.regionTiles d r).any fun t => (s.tile d t.1 t.2).withholds)
    || (match (s.region d r).owner with
      | some o => (s.core (coreOf d o)).withholds
      | none => false)

/-! ### The other commands of the driver (R328, R334) -/

/-- TASKCMD op 3: applies in every state but the ended ones; during a freeze-save the save completes first (R345). -/
def execTaskcmdEnd (die : Fin 4) (task : BitVec 32) (s : State) : Out :=
  .next (
    match s.task? task with
    | none => s
    | some t =>
      if t.home = die then
        match t.region.map fun r => (s.region t.die r).phase with
        | some (.freezing _) => if t.st = .running then s.setTask { t with endAsked := true } else s.failTask task 3 0 0
        | some .idle | some .running | some .checkpoint | some (.draining _) | some (.saveHeld _ _) | none => s.failTask task 3 0 0
      else s)

/-- TASKCMD op 4: clears every trap record of the region and restarts the frozen sources (R334). -/
def execTaskcmdRelease (die : Fin 4) (task : BitVec 32) (s : State) : Out :=
  .next (
    match s.task? task with
    | none => s
    | some t =>
      match t.region with
      | some r =>
        if t.home = die ∧ t.st = .running ∧
            ((s.regionTiles t.die r).any fun x => (getF (s.tile t.die x.1 x.2).trap 0).getLsbD 63) = true then
          let s1 := s.mapTiles t.die r fun tl => { tl with trap := Vector.replicate 4 0 }
          s1.mapRegion t.die r fun _ e => { e with frozen := false }
        else s
      | none => s)

/-- TASKCMD op 5: a task frozen by a fault checkpoint may be selected again (R336). -/
def execTaskcmdFaultServiced (die : Fin 4) (task : BitVec 32) (s : State) : Out :=
  .next (
    match s.task? task with
    | none => s
    | some t => if t.home = die ∧ t.st = .frozen ∧ t.needService = true then s.setTask { t with needService := false } else s)

/-- Late status dwords of the commands that a test names may be tried once (R335). -/
def State.resumeLate (s : State) (p : Command → Bool) : State :=
  { s with late := s.late.map fun l => if p l.cmd then { l with withheld := false } else l }

/-- PORTRES with bit 63 clear: one resume token to a port or a tile memory control of a running task; the status dwords of commands that
ended at the port may be tried (R328, R335, R345). -/
def execPortresPort (die : Fin 4) (v : Word) (s : State) : Out :=
  .next (
    let p := s.portAt die v.toNat
    let g := s.region die p.2
    if v.getLsbD 63 then s
    else
      let s1 := s.resumeLate fun k => decide (k.engine = some p.1)
      if g.present && g.owns p.1.x p.1.y && (match g.task.bind s.task? with
        | some t => decide (t.st = .running)
        | none => false) then s1.sendResume p.1 else s1)

/-- What the TQU holds withheld for a core, the header of its enq and the records of tasks that it launched, may be tried once; the manual
names no port for them, and any queue of the core does (R335, log 84). -/
def State.resumeCore (s : State) (c : Fin 64) : State :=
  { s.setCore c { s.core c with hdrHeld := false } with
    tasks := s.tasks.map fun t => if t.by' = c then { t with told := false } else t }

/-- The withheld access at the head of an engine queue may be tried once. -/
def resumeHead : List QItem → List QItem
  | .cmd k r st _ :: t => .cmd k r st false :: t
  | .fence id w :: t => .fence id w :: t
  | [] => []

/-- PORTRES with bit 63 set: the withheld access of the head of an engine queue, or of a cfg.ld, may try once (R328, R335). -/
def execPortresQueue (die : Fin 4) (v : Word) (s : State) : Out :=
  .next (
    let c := coreOf die ⟨bits v.toNat 0 4, by unfold bits; omega⟩
    let n := bits v.toNat 8 4
    if !v.getLsbD 63 then s
    else
      let s1 := (s.resumeCore c).resumeLate fun k =>
        k.engine.isNone && decide (k.core = c) && (if k.op = .cfgLd then n == 8 else n == k.queue.val)
      let k := s1.core c
      if h : n < 8 then s1.setCore c { k with queues := setF k.queues ⟨n, h⟩ (resumeHead (getF k.queues ⟨n, h⟩)) }
      else if n = 8 then
        s1.setCore c { k with cfg := match k.cfg with
          | r :: t => { r with withheld := false } :: t
          | [] => [] }
      else s1)

end Sys2Proof.Machine
end

