-- ==== Sys2Proof/Machine/Ert.lean ====
section
/-!
DEFINITION. The expert residency table: image and enabling (R364 to R367), commands (R217, R218), probes and releases (R267, R308),
the spinner (R368) and the fetch engine (R369 to R373).
-/
namespace Sys2Proof.Machine

/-! ### Entries and classes -/

def Ert.entry (t : Ert) (i : Nat) : ErtEntry := Map.get {} i t.entries
def Ert.setEntry (t : Ert) (i : Nat) (e : ErtEntry) : Ert := { t with entries := Map.put {} i e t.entries }
def State.setErt (s : State) (t : Ert) : State := { s with ert := t }
def State.editEntry (s : State) (i : Nat) (f : ErtEntry → ErtEntry) : State := s.setErt (s.ert.setEntry i (f (s.ert.entry i)))

/-- The valid entry of a key, while the table is enabled (R365). -/
def Ert.find (t : Ert) (layer expert : Nat) : Option Nat :=
  if t.en then (t.entries.find? fun e => e.2.v && e.2.layer == layer && e.2.expert == expert).map (·.1) else none

/-- Numbers of the valid entries. -/
def Ert.valid (t : Ert) : List Nat := (t.entries.filter fun e => e.2.v).map (·.1)

/-- Live state of an entry (R364). -/
def ErtEntry.live (e : ErtEntry) : Word :=
  BitVec.ofNat 64 (e.state.val + b2n e.use * 4 + (if e.state = 0 then 0 else e.slot % 2 ^ 16) * 2 ^ 16 + e.refcnt % 2 ^ 16 * 2 ^ 32
    + e.parked % 2 ^ 16 * 2 ^ 48)

/-- Bytes of a slot, and replicas of a leaf entry, of a size code (R348). -/
def leafCopies (code : Nat) : Nat :=
  match code with
  | 1 => 16
  | 3 => 16
  | 4 => 128
  | 6 => 4
  | 7 => 16
  | _ => 1

def ErtClass.bytes (c : ErtClass) : Nat := 2 ^ pageBits c.size

/-- A home-copy write of the table; one that reaches no home has no effect (R367). -/
def State.ertPut (s : State) (pa : Nat) (v : Word) : State :=
  match s.homeOf pa with
  | some _ => s.setHome (storeAt (s.canonPa pa) 8 v)
  | none => s

/-- Writes or clears every leaf entry of a window (R367, R368). -/
def State.window (s : State) (i : Nat) (on : Bool) : State :=
  let e := s.ert.entry i
  let c := getF s.ert.classes e.cls
  let leaf : Word := if on then BitVec.ofNat 64 (c.size * 2 ^ 57 + (c.base + e.slot * c.bytes) + 9) else 0
  (List.range (leafCopies c.size)).foldl (fun s k => s.ertPut (e.leaf + 8 * k) leaf) s

/-! ### The image (R364 to R366) -/

/-- Class `c` of the image, and whether it is valid. -/
def State.imageClass (s : State) (c : Nat) : ErtClass × Bool :=
  let a := (s.ert.base.toNat + 2 ^ 20 + 32 * c) / 8
  let d (i : Nat) : Nat := (s.home (a + i)).toNat
  let k : ErtClass := { v := (d 0).testBit 0, base := bits (d 0) 12 40 * 4096, size := bits (d 1) 16 3, count := bits (d 1) 0 16
                        limit := bits (d 2) 0 32, hand := bits (d 3) 0 16, asid := BitVec.ofNat 13 (d 3 / 2 ^ 32)
                        all := (d 3).testBit 48 }
  (k, k.v && bits (d 0) 52 12 == 0 && bits (d 0) 1 11 == 0 && decide (d 1 < 2 ^ 19) && k.count != 0 && decide (d 2 < 2 ^ 32)
    && k.limit != 0 && bits (d 3) 16 16 == 0 && bits (d 3) 45 3 == 0 && bits (d 3) 49 15 == 0 && decide (k.hand < k.count)
    && k.base % k.bytes == 0 && decide (k.base < 2 ^ 39))

/-- The class overlaps another one whose v is set. -/
def classOverlap (l : List (ErtClass × Bool)) (c : Nat) : Bool :=
  match l[c]? with
  | none => false
  | some (k, _) => (List.range 16).any fun i => decide (i ≠ c) && (match l[i]? with
    | some (m, _) => m.v && decide (k.base < m.base + m.count * m.bytes) && decide (m.base < k.base + k.count * k.bytes)
    | none => false)

/-- A class whose v is set is invalid, or overlaps another one (R365). -/
def classesBad (l : List (ErtClass × Bool)) : Bool :=
  (List.range 16).any fun c => match l[c]? with
    | some (k, ok) => k.v && (!ok || classOverlap l c)
    | none => false

/-- Entry `i` of the image, and whether a reserved bit is set in it. -/
def State.imageEntry (s : State) (i : Nat) : ErtEntry × Bool :=
  let a := (s.ert.base.toNat + 64 * i) / 8
  let d (k : Nat) : Nat := (s.home (a + k)).toNat
  let st := d 4
  ({ v := (d 1).testBit 0, pages := bits (d 0) 32 32, layer := bits (d 0) 16 16, expert := bits (d 0) 0 16
     src := bits (d 1) 12 40 * 4096, cls := ⟨bits (d 1) 4 4, by unfold bits; omega⟩, window := bits (d 2) 12 44 * 4096
     leaf := bits (d 3) 3 49 * 8, parked := bits st 48 16, refcnt := bits st 32 16, slot := bits st 16 16, use := st.testBit 2
     state := ⟨bits st 0 2, by unfold bits; omega⟩ },
   bits (d 1) 52 12 != 0 || bits (d 1) 8 4 != 0 || bits (d 1) 1 3 != 0 || bits (d 2) 56 8 != 0 || bits (d 2) 0 12 != 0
     || bits (d 3) 52 12 != 0 || bits (d 3) 0 3 != 0 || bits st 3 13 != 0 || d 5 != 0 || d 6 != 0 || d 7 != 0)

/-- Error of a valid entry against the classes and the other valid entries, 0 for none; the lowest code that applies (R365). -/
def entryError (classes : List (ErtClass × Bool)) (others : List ErtEntry) (e : ErtEntry) (reserved : Bool) : Nat :=
  let c := classes.getD e.cls.val ({}, false)
  if others.any fun o => o.layer == e.layer && o.expert == e.expert then 1
  else if !c.2 || classOverlap classes e.cls.val then 2
  else if decide (2 ≤ e.state.val) && others.any fun o => decide (2 ≤ o.state.val) && decide (o.cls = e.cls) && o.slot == e.slot then 3
  else if reserved || decide (e.state = 1) || (decide (2 ≤ e.state.val) && (e.refcnt != 0 || e.parked != 0 || decide (c.1.count ≤ e.slot)))
      || e.pages == 0 || decide (c.1.bytes < e.pages * 4096) then 4
  else 0

/-- Reads entries in order up to the first bad one: the valid ones, or the error and its index. An entry whose v is clear is checked for a
reserved bit and for the state fetching alone (R365). -/
def State.readEntries (s : State) (classes : List (ErtClass × Bool)) : List Nat → Map ErtEntry → Except (Nat × Nat) (Map ErtEntry)
  | [], m => .ok m
  | i :: t, m =>
    let e := s.imageEntry i
    if e.1.v then
      match entryError classes (m.map (·.2)) e.1 e.2 with
      | 0 => s.readEntries classes t (m ++ [(i, e.1)])
      | c + 1 => .error (c + 1, i)
    else if e.2 || decide (e.1.state = 1) then .error (4, i)
    else s.readEntries classes t m

/-- ERT_ENABLE: the image is read and checked, and the windows of resident entries are written. Of a bad class that no valid entry names
the manual gives no entry index: it is free (R365, log 22). -/
def execErtEnable (s : State) : Out :=
  .next (
    if s.ert.en then s
    else
      let cs := (List.range 16).map s.imageClass
      match s.readEntries cs (List.range 16384) [] with
      | .error x => s.setErt { s.ert with err := x.1, errIndex := x.2 }
      | .ok m =>
        if classesBad cs then ({ s with free := s.free + 1 } : State).setErt { s.ert with err := 2, errIndex := (Config.freeWord s.free).toNat % 2 ^ 14 }
        else
        let t : Ert := { s.ert with en := true, entries := m, classes := Vector.ofFn fun i => (cs.getD i.val ({}, false)).1
                                    waits := [], wanting := [], queue := Vector.replicate 2 [], freeing := [], dropping := [] }
        (m.filter fun e => decide (2 ≤ e.2.state.val)).foldl (fun s e => s.window e.1 true) (s.setErt t))

/-- ERT_DISABLE: a write of en = 0 waits for the table to come to rest (R365). -/
def execErtDisable (s : State) : Out := .next (if s.ert.en then s.setErt { s.ert with disabling := true } else s)

/-- No fetch is in flight, and every count is 0. -/
def Ert.atRest (t : Ert) : Bool :=
  t.wanting.isEmpty && (getF t.queue 0).isEmpty && (getF t.queue 1).isEmpty && t.freeing.isEmpty
    && t.entries.all fun e => decide (e.2.state ≠ 1) && e.2.refcnt == 0 && e.2.parked == 0

/-- ERT_DISABLE_COMPLETE: live states and hands go back into the image, and en clears (R365). -/
def execErtDisableComplete (s : State) : Out :=
  .next (
    if s.ert.en && s.ert.disabling && s.ert.atRest then
      let b := s.ert.base.toNat
      let s1 := s.ert.valid.foldl (fun s i => s.ertPut (b + 64 * i + 32) (s.ert.entry i).live) s
      let s2 := (List.finRange 16).foldl (fun s c =>
        let a := b + 2 ^ 20 + 32 * c.val + 24
        let old := (s.home (a / 8)).toNat
        if (getF s.ert.classes c).v then s.ertPut a (BitVec.ofNat 64 (old - old % 2 ^ 16 + (getF s.ert.classes c).hand)) else s) s1
      s2.setErt { s2.ert with en := false, disabling := false, entries := [] }
    else s)

/-- ERTSTAT: busy, error and entry index (R365). -/
def Ert.stat (t : Ert) : Word := BitVec.ofNat 64 (b2n t.disabling + t.err % 256 * 2 ^ 8 + t.errIndex % 2 ^ 14 * 2 ^ 16)

/-- ERTSTAT_READ: the error is cleared on read (R365). -/
def execErtstatRead (s : State) : Out :=
  .next { s.setErt { s.ert with err := 0, errIndex := 0 } with hostOut := [s.ert.stat] }

/-! ### Fetches (R368, R369) -/

/-- Tier port of an entry's source (R381). -/
def State.portOf (s : State) (i : Nat) : Fin 2 :=
  match s.tierOf (s.ert.entry i).src with
  | some r => ⟨r.val / 16, by omega⟩
  | none => 0

/-- Waiting fetches of a port enter its queue while it has room, in order of request (R369). -/
def State.enterQueue (s : State) (p : Fin 2) : State :=
  match s.ert.wanting.find? fun i => decide (s.portOf i = p) with
  | none => s
  | some i =>
    if (getF s.ert.queue p).length < 64 then
      s.setErt { s.ert with wanting := s.ert.wanting.erase i, queue := setF s.ert.queue p (getF s.ert.queue p ++ [i]) }
    else s

/-- An entry is wanted: it is fetching, and its fetch enters its port's queue or waits at the table (R267, R369). -/
def State.askFetch (s : State) (i : Nat) : State :=
  let s1 := s.editEntry i fun e => { e with state := 1, hasSlot := false, steps := 0, swept := false, told := false, srcFailed := false, evicting := false, asked := s.moves }
  ({ s1.ert with wanting := s1.ert.wanting ++ [i] } |> s1.setErt).enterQueue (s1.portOf i)

/-- FETCH_QUEUE_ENTER. The table and its engine stand on die 0: they rest while its clock is stopped (R364, R392). -/
def execFetchQueueEnter (port : Fin 2) (s : State) : Out := .next (s.onDie 0 (s.enterQueue port))

/-- Fetches in flight on a port: the oldest eight of its queue (R369). -/
def State.inFlight (s : State) (i : Nat) : Bool := ((getF s.ert.queue (s.portOf i)).take 8).contains i

/-- Sweeps that found no slot of a class may run again (R368). -/
def State.unsweep (s : State) (c : Fin 16) : State :=
  s.setErt { s.ert with entries := s.ert.entries.map fun e => if e.2.cls = c then (e.1, { e.2 with swept := false }) else e }

/-- A tag completes. -/
def State.doneWait (s : State) (w : ErtWait) : State := s.tagDone w.task w.core w.tag

/-- Commands of an entry that come next: those of the given kinds at the head of its waiting list complete. -/
def State.serveWaits (s : State) (i : Nat) (p : ErtWait → Bool) : State :=
  let mine := s.ert.waits.filter fun w => w.entry == i
  let now := mine.takeWhile p
  let s1 := s.setErt { s.ert with waits := (s.ert.waits.filter fun w => w.entry != i) ++ mine.drop now.length }
  now.foldl (fun s w => s.doneWait w) s1

/-- An entry becomes absent: its window is cleared, its slot frees with the invalidation, evictions complete, and misses or pins that
came meanwhile fetch it again (R218, R368). -/
def State.evictEntry (s : State) (i : Nat) : State :=
  let e := s.ert.entry i
  let s1 := s.window i false
  let s2 := s1.editEntry i fun e => { e with state := 0, evicting := false, hasSlot := false }
  let c := getF s2.ert.classes e.cls
  let s3 := s2.setErt { s2.ert with
    freeing := s2.ert.freeing ++ [(e.cls, e.slot)]
    dropping := s2.ert.dropping ++ [(.range (if c.all then none else some c.asid) e.window (c.bytes / 4096), s.moves)] }
  let s4 := (s3.serveWaits i fun w => w.kind == 2).unsweep e.cls
  if 0 < e.parked ∨ (s4.ert.waits.any fun w => w.entry == i) then s4.askFetch i else s4

/-- An eviction that waits on an entry takes effect once the count of references is 0 (R218). -/
def State.tryEvict (s : State) (i : Nat) : State :=
  let e := s.ert.entry i
  if e.evicting && e.refcnt == 0 && decide (2 ≤ e.state.val) then s.evictEntry i else s

/-- The entry that holds a slot of a class. -/
def Ert.occupant (t : Ert) (c : Fin 16) (slot : Nat) : Option (Nat × ErtEntry) :=
  t.entries.find? fun e => e.2.v && decide (e.2.cls = c) && e.2.slot == slot && (decide (2 ≤ e.2.state.val) || (decide (e.2.state = 1) && e.2.hasSlot))

/-- One slot step of the spinner; the slot found and the entry evicted for it (R368). A slot whose invalidation runs passes untouched. -/
def Ert.spin (t : Ert) (c : Fin 16) : Ert × Option (Nat × Option Nat) :=
  let k := getF t.classes c
  let slot := k.hand
  let t1 : Ert := { t with classes := setF t.classes c { k with hand := (slot + 1) % k.count } }
  if t1.freeing.contains (c, slot) then (t1, none)
  else
    match t1.occupant c slot with
    | none => (t1, some (slot, none))
    | some (i, e) =>
      if decide (e.state = 2) && e.refcnt == 0 && e.parked == 0 && !e.use then (t1, some (slot, some i))
      else (if e.state = 2 then t1.setEntry i { e with use := false } else t1, none)

/-- A fetch in flight of a class, asked for before move `n`, has still to sweep (R373). -/
def State.olderSweep (s : State) (c : Fin 16) (n : Nat) : Bool :=
  s.ert.entries.any fun x => x.2.v && decide (x.2.cls = c) && decide (x.2.state = 1) && s.inFlight x.1 && !x.2.hasSlot && !x.2.swept
    && decide (x.2.asked < n)

/-- SPINNER: one slot step of the sweep of a fetch in flight that has no slot yet; of two of a class the older sweeps first. A sweep that
comes to its limit is reported once (R368, R373). -/
def execSpinner (entry : Fin 16384) (s : State) : Out :=
  .next (s.onDie 0 <|
    let i := entry.val
    let e := s.ert.entry i
    if s.ert.en && e.v && decide (e.state = 1) && s.inFlight i && !e.hasSlot && !e.swept && !s.olderSweep e.cls e.asked then
      let c := getF s.ert.classes e.cls
      let r := s.ert.spin e.cls
      let s1 := s.setErt r.1
      match r.2 with
      | none =>
        if e.steps + 1 < c.limit then s1.editEntry i fun e => { e with steps := e.steps + 1 }
        else
          let s2 := s1.editEntry i fun e => { e with steps := 0, swept := true, told := true }
          if e.told then s2 else s2.report (eventRec 14 0 0 e.cls.val 0 0 (BitVec.ofNat 64 i))
      | some (slot, v) =>
        let s2 := match v with
          | some j => s1.evictEntry j
          | none => s1
        s2.editEntry i fun e => { e with hasSlot := true, slot, steps := 0 }
    else s)

/-- Bytes of the home copies at a physical range, moved to another one (R369). -/
def copyCells (m : List Host.Cell) (src dst n : Nat) : List Host.Cell :=
  let kept := m.filter fun c => decide (c.1 < dst) || decide (dst + n ≤ c.1)
  let moved := (m.filter fun c => decide (src ≤ c.1) && decide (c.1 < src + n)).map fun c => (c.1 - src + dst, c.2)
  moved.foldl (fun m c => memWrite m c.1 c.2) kept

/-- A source read of an entry's fetch fails: a granule of its source is marked, or no range of a tier holds the source (R371, R394). -/
def State.sourceFails (s : State) (e : ErtEntry) : Bool :=
  (s.homeOf e.src).isNone || (s.homeOf (e.src + e.pages * 4096 - 8)).isNone
    || s.marked.any fun g => decide (e.src ≤ 8 * g + 7) && decide (8 * g < e.src + e.pages * 4096)

/-- FETCH_COMPLETE: copy, window, and the table's one step (R369, R218). A fetch whose source fails goes on being retried (R371). -/
def execFetchComplete (entry : Fin 16384) (s : State) : Out :=
  .next (s.onDie 0 <|
    let i := entry.val
    let e := s.ert.entry i
    if s.ert.en && e.v && decide (e.state = 1) && s.inFlight i && e.hasSlot && !s.ert.freeing.contains (e.cls, e.slot) && !s.sourceFails e then
      let c := getF s.ert.classes e.cls
      let p := s.portOf i
      let n := e.pages * 4096
      let dst := c.base + e.slot * c.bytes
      let s1 : State := { s with
        mem := copyCells s.mem e.src dst n
        marked := s.marked.filter fun g => decide (8 * g < dst) || decide (dst + n ≤ 8 * g) }
      let s2 := s1.window i true
      let pins := (s2.ert.waits.filter fun w => w.entry == i).takeWhile fun w => w.kind != 2
      let s3 := s2.editEntry i fun e => { e with
        state := if pins.any fun w => w.kind == 0 then 3 else 2
        use := true, refcnt := e.refcnt + e.parked, parked := 0, gen := e.gen + 1, srcFailed := false }
      let s4 := s3.setErt { s3.ert with queue := setF s3.ert.queue p ((getF s3.ert.queue p).erase i) }
      let s5 := (s4.serveWaits i fun w => w.kind != 2).enterQueue p
      let s6 := s5.editEntry i fun e => { e with evicting := s5.ert.waits.any fun w => w.entry == i }
      s6.tryEvict i
    else s)

/-- FETCH_SOURCE_ERROR: a source read fails; the fetch is retried until it succeeds, and the first failure is reported (R371). -/
def execFetchSourceError (entry : Fin 16384) (s : State) : Out :=
  .next (s.onDie 0 <|
    let i := entry.val
    let e := s.ert.entry i
    if s.ert.en && e.v && decide (e.state = 1) && s.inFlight i && e.hasSlot && !e.srcFailed then
      (s.editEntry i fun e => { e with srcFailed := true }).report
        (eventRec 13 0 0 (s.portOf i).val 0 (BitVec.ofNat 64 e.src) (BitVec.ofNat 64 i))
    else s)

/-- ERT_UPDATE: one entry is loaded again when its live and image states are both absent (R365). -/
def execErtUpdate (i : Fin 16384) (s : State) : Out :=
  .next (
    if !s.ert.en then s
    else
      let old := s.ert.entry i.val
      let img := s.imageEntry i.val
      if (old.v && decide (old.state ≠ 0)) || decide (img.1.state ≠ 0) then s.setErt { s.ert with err := 5, errIndex := i.val }
      else if !img.1.v then (s.setErt { s.ert with entries := Map.del i.val s.ert.entries }).unsweep old.cls
      else
        let cs := (List.finRange 16).map fun c => (getF s.ert.classes c, (getF s.ert.classes c).v)
        match entryError cs ((s.ert.entries.filter fun e => e.1 != i.val && e.2.v).map (·.2)) img.1 img.2 with
        | 0 => (s.setErt (s.ert.setEntry i.val { img.1 with gen := old.gen })).unsweep img.1.cls
        | c + 1 => s.setErt { s.ert with err := c + 1, errIndex := i.val })

/-! ### Commands of a core (R217, R218) -/

/-- A table command begins: earlier accesses have left the order buffer, and the tag's count has room (R103, R189). -/
def State.ertReady (s : State) (tag : Tag) : Bool := s.orderEmpty s.cur && decide (getF s.me.tagCount tag < 255)

/-- The entry of the key in a register; one with bits 63:32 set is held by no entry. -/
def State.ertKey (s : State) (k : Reg) : Option Nat :=
  let v := (s.rd k).toNat
  if v / 2 ^ 32 ≠ 0 then none else s.ert.find (bits v 16 16) (bits v 0 16)

/-- The answer with the state before the command, and the tag: issued and completed at once, or waiting (R217). A command that waits
stands in no engine queue (log 120). -/
def State.ertAnswer (s : State) (d : Reg) (i : Nat) (tag : Tag) (kind : Option Nat) : State :=
  let st : Word := BitVec.ofNat 64 ((s.ert.entry i).live.toNat % 2 ^ 32)
  let s1 := (s.setMe (s.me.takeTag tag)).wr d st
  match kind with
  | none => (s1.freeTag s.cur tag).advance
  | some n => (s1.setErt { s1.ert with waits := s1.ert.waits ++ [{ entry := i, core := s.cur, tag, task := s.me.task, kind := n }] }).advance

def State.ertNoKey (s : State) (d : Reg) : State := (s.wr d (BitVec.ofNat 64 (2 ^ 63))).advance

/-- A pin waits behind an eviction, or for the fetch. -/
def ErtEntry.settled (e : ErtEntry) : Bool := decide (2 ≤ e.state.val) && !e.evicting

def execErtPin (s' k x : Reg) (tag : Tag) (s : State) : Out :=
  .next (
    if !s.sv then s.privTrap
    else
      let s0 := s.drainStores s.cur
      if !s0.ertReady tag then s0
      else
        let keep := s0.rd x != 0
        match s0.ertKey k with
        | none => s0.ertNoKey s'
        | some i =>
          let e := s0.ert.entry i
          if e.settled then
            let s1 := s0.ertAnswer s' i tag none
            if keep then s1 else s1.editEntry i fun e => { e with state := 3 }
          else
            let s1 := s0.ertAnswer s' i tag (some (if keep then 1 else 0))
            if e.state = 0 then s1.askFetch i else s1)

def execErtProbe (s' k : Reg) (tag : Tag) (s : State) : Out :=
  .next (
    let s0 := s.drainStores s.cur
    if !s0.ertReady tag then s0
    else
      match s0.ertKey k with
      | none => s0.ertNoKey s'
      | some i => s0.ertAnswer s' i tag none)

def execErtEvict (s' k : Reg) (tag : Tag) (s : State) : Out :=
  .next (
    if !s.sv then s.privTrap
    else
      let s0 := s.drainStores s.cur
      if !s0.ertReady tag then s0
      else
        match s0.ertKey k with
        | none => s0.ertNoKey s'
        | some i =>
          let e := s0.ert.entry i
          if e.state = 0 then (s0.ertAnswer s' i tag none).unsweep e.cls
          else
            let s1 := s0.ertAnswer s' i tag (some 2)
            if e.settled then (s1.editEntry i fun e => { e with evicting := true }).tryEvict i else s1)

/-! ### Probes, releases and replay (R267, R308, R373) -/

/-- Key of a steer.ert. -/
def Elem.ertLayer (e : Elem) : Nat := bits (e.const 0) 16 16
def Elem.ertExpert (e : Elem) : Nat := bits (e.const 0) 0 16

/-- Answers the oldest probe that is on its way; its row takes the number of its miss, or the mark of a hit (R290). -/
def Elem.answerProbe (e : Elem) (n gen miss : Nat) : Elem :=
  let mark (t : Token) : Token := { t with hdr := { t.hdr with miss := max t.hdr.miss miss } }
  { e with probes := updateFirst (fun p => p.answer == 0) (fun p => { p with answer := n, gen, row := mark p.row }) e.probes }

/-- The row of a probe that missed is charged to its task (R372). -/
def State.noteMiss (s : State) (a : ElemAt) (seq : BitVec 16) (i id : Nat) : State :=
  match s.taskAt a with
  | some t => s.setTask { t with misses := t.misses ++ [{ id, rows := (s.parkingOf a).length, seq, entry := i, steer := a }] }
  | none => s

/-- STEER_PROBE: the oldest probe of a steer.ert reaches the table. -/
def execSteerProbe (s : State) : Out :=
  .next (
    let a := s.focus
    let e := s.elem a
    match e.probes.find? fun p => p.answer == 0 with
    | none => s
    | some p =>
      match s.ert.find e.ertLayer e.ertExpert with
      | none => s.setElem a (e.answerProbe 3 0 0)
      | some i =>
        let n := s.ert.entry i
        if n.settled then
          (s.setElem a (e.answerProbe 1 n.gen 1)).editEntry i fun n => { n with refcnt := n.refcnt + 1, use := true }
        else
          let id := s.nextId
          let s1 := (({ s with nextId := id + 1 } : State).setElem a (e.answerProbe 2 n.gen (id + 2))).editEntry i fun n =>
            { n with parked := n.parked + 1 }
          let s2 := if n.state = 0 then s1.askFetch i else s1
          s2.noteMiss a p.row.hdr.seq i id)

/-- A reference of an entry is returned; the count stays at 0 once there (R267, R368). -/
def State.dropRef (s : State) (i : Nat) : State :=
  let e := s.ert.entry i
  let s1 := s.editEntry i fun e => { e with refcnt := e.refcnt - 1 }
  if e.refcnt ≤ 1 then (s1.unsweep e.cls).tryEvict i else s1

/-- ERT_RELEASE: the head of a release input is consumed; a data or null token returns a reference (R267). -/
def execErtRelease (s : State) : Out :=
  .next (
    let a := s.focus
    let e := s.elem a
    match e.head? 1 with
    | none => s
    | some t =>
      if s.live a 0x286 && e.calm 1 then
        let s1 := s.setElem a ((e.drop 1 1).noteEnd t.hdr)
        if t.hdr.isData || t.hdr.isNull then
          match s.ert.find e.ertLayer e.ertExpert with
          | some i => s1.dropRef i
          | none => s1
        else s1
      else s)

/-- A row of the miss that a header names has been replayed. -/
def Task.replayed (t : Task) (h : Header) : Task :=
  { t with misses := updateFirst (fun m => decide (h.miss = m.id + 2)) (fun m => { m with replayed := true }) t.misses }

/-- PARKED_ROW_REPLAY: a row leaves its parking queue after the fetch that its probe asked for or found in progress (R308). -/
def execParkedRowReplay (s : State) : Out :=
  .next (
    let a := s.focus
    match s.channelHead a, s.parkedFor a, (s.elem a).gens with
    | some t, some b, g :: rest =>
      let eb := s.elem b
      match s.ert.find eb.ertLayer eb.ertExpert with
      | none => s
      | some i =>
        if (t.hdr.isData || t.hdr.isNull) && decide (g < (s.ert.entry i).gen) then
          let s1 := (s.setElem a { (s.elem a).drop 0 1 with gens := rest }).send a 0 t
          match s1.taskAt b with
          | some k => s1.setTask (k.replayed t.hdr)
          | none => s1
        else s
    | _, _, _ => s)

/-- MISS_BUDGET_EXCEEDED: the charged miss time of a bounded task has passed its budget (R372); one without a budget has none to pass
(R290, log 67). It names the entry of the oldest miss that was open then. -/
def execMissBudgetExceeded (task : BitVec 32) (entry : Fin 16384) (s : State) : Out :=
  .next (
    match s.task? task with
    | none => s
    | some t =>
      if t.bounded && decide (0 < t.missOver) && !t.missReported && entry.val == t.missEntry then
        (s.setTask { t with missReported := true }).report
          (eventRec 12 t.die (regionNo t.region) (t.budget / 1000) task 0 (BitVec.ofNat 64 entry.val))
      else s)

end Sys2Proof.Machine
end

