-- ==== Sys2Proof/Machine/Lanes.lean ====
section
/-!
DEFINITION. The lane opcodes (R226 to R236): W64 arithmetic, compares, special functions, integers, bits, conversions, movement,
reduction, packing. Each fires at the element in focus.
-/
namespace Sys2Proof.Machine

/-! ### W64 arithmetic (R226) -/

def execWAdd (s : State) : Out := .next (s.laneOp 0x040 2 0 true fun e l => wAddOp e.rm (nth l 0) (nth l 1))
def execWSub (s : State) : Out := .next (s.laneOp 0x041 2 0 true fun e l => wSubOp e.rm (nth l 0) (nth l 1))
def execWMul (s : State) : Out := .next (s.laneOp 0x042 2 0 true fun e l => wMulOp e.rm (nth l 0) (nth l 1))
def execWFma (s : State) : Out := .next (s.laneOp 0x043 3 0 true fun e l => wFmaOp e.rm (nth l 0) (nth l 1) (nth l 2))
def execWMin (s : State) : Out := .next (s.laneOp 0x044 2 0 true fun _ l => wMinOp (nth l 0) (nth l 1))
def execWMax (s : State) : Out := .next (s.laneOp 0x045 2 0 true fun _ l => wMaxOp (nth l 0) (nth l 1))
def execWAbs (s : State) : Out := .next (s.laneOp 0x046 1 0 true fun _ l => wAbsOp (nth l 0))
def execWNeg (s : State) : Out := .next (s.laneOp 0x047 1 0 true fun _ l => wNegOp (nth l 0))

/-! ### Compares (R227) -/

/-- Header of a compare: pvalid 1, pbit over the live positions by c15.any. -/
def cmpHdr (e : Elem) (h : Header) (res : Nat → Option Word) : Header :=
  let live := (List.range 8).filterMap res
  { h with pvalid := true, pbit := if (e.const 15).testBit 17 then live.any (· != 0) else live.all (· != 0) }

def State.cmpOp (s : State) (op : Nat) (f : Word → Word → Bool) : State :=
  s.fire s.focus op 2 (laneMap 2 0 false (fun _ l => if f (nth l 0) (nth l 1) then 0xFFFF_FFFF_FFFF_FFFF else 0) cmpHdr)

def execWCmpeq (s : State) : Out := .next (s.cmpOp 0x048 fun a b => eqVal (valOf a) (valOf b))
def execWCmplt (s : State) : Out := .next (s.cmpOp 0x049 fun a b => ltVal (valOf a) (valOf b))
def execWCmple (s : State) : Out := .next (s.cmpOp 0x04A fun a b => ltVal (valOf a) (valOf b) || eqVal (valOf a) (valOf b))
def execWCmpun (s : State) : Out := .next (s.cmpOp 0x04B fun a b => isNaN a || isNaN b)

/-! ### Special functions (R228, R229) -/

def State.sfOp (s : State) (k : Nat) : State :=
  s.laneOp (0x080 + k) 1 0 true fun e l => specialFn k e.level e.rm (bits (e.field 13) 0 2) (nth l 0)

def execSfExp2 (s : State) : Out := .next (s.sfOp 0)
def execSfLog2 (s : State) : Out := .next (s.sfOp 1)
def execSfRcp (s : State) : Out := .next (s.sfOp 2)
def execSfRsqrt (s : State) : Out := .next (s.sfOp 3)
def execSfTanh (s : State) : Out := .next (s.sfOp 4)
def execSfSigm (s : State) : Out := .next (s.sfOp 5)

/-! ### Integer lanes with carry tokens (R230, R231) -/

/-- Value of group `t` of `g` limbs, least significant first; none unless every limb is live. -/
def groupVal (f : Nat → Option Word) (g t : Nat) : Option Nat :=
  (List.range g).foldr (fun i acc =>
    match f (g * t + i), acc with
    | some v, some n => some (v.toNat + 2 ^ 32 * n)
    | _, _ => none) (some 0)

/-- Result and carry of a carry form on one group: `sub` subtracts, `k` is the carry or borrow in. -/
def carryGroup (sub : Bool) (g a b k : Nat) : Nat × Nat :=
  let m := 2 ^ (32 * g)
  if sub then ((a + m + m - b - k) % m, if a < b + k then 1 else 0) else ((a + b + k) % m, (a + b + k) / m)

/-- i.add, i.addc, i.sub and i.subb (R230). -/
def State.carryOp (s : State) (op arity : Nat) (sub : Bool) : State :=
  s.fire s.focus op arity fun e h hs =>
    let g := e.opt 11 4 + 1
    let grp (t : Nat) : Option (Nat × Nat) :=
      let k : Option Nat := if arity = 3 then
          (if e.req 2 then (e.opnd hs 1 2 t).map fun v => v.toNat % 2 else some (e.const 2 % 2))
        else some 0
      match groupVal (e.opnd hs 1 0) g t, groupVal (e.opnd hs 1 1) g t, k with
      | some a, some b, some c => some (carryGroup sub g a b c)
      | _, _, _ => none
    let res (j : Nat) : Option Word :=
      if j / g < 16 / g then (grp (j / g)).map fun r => BitVec.ofNat 64 (r.1 / 2 ^ (32 * (j % g)) % 2 ^ 32) else none
    let car (t : Nat) : Option Word := if t < 16 / g then (grp t).map fun r => BitVec.ofNat 64 r.2 else none
    .emit [posToken h 1 res] [posToken h 1 car] e

def execIAdd (s : State) : Out := .next (s.carryOp 0x0C0 2 false)
def execIAddc (s : State) : Out := .next (s.carryOp 0x0C1 3 false)
def execISub (s : State) : Out := .next (s.carryOp 0x0C2 2 true)
def execISubb (s : State) : Out := .next (s.carryOp 0x0C3 3 true)

def execIMullo (s : State) : Out := .next (s.laneOp 0x0C4 2 1 false fun _ l => nth l 0 * nth l 1)
/-- Bits 63:32 of a signed or unsigned 32-bit product. -/
def mulhi32 (sgn : Bool) (a b : Word) : Word :=
  BitVec.ofInt 64 (intOf sgn 32 (a.toNat % 2 ^ 32) * intOf sgn 32 (b.toNat % 2 ^ 32) / 2 ^ 32)
def execIMulhi (s : State) : Out :=
  .next (s.laneOp 0x0C5 2 1 false fun e l => mulhi32 ((e.const 15).testBit 15) (nth l 0) (nth l 1))

/-! ### Bit logic and shifts (R232) -/

/-- A bit opcode at the layout of c15.lay; `f` takes the width and the operands. -/
def State.bitOp (s : State) (op arity : Nat) (f : Nat → Nat → Nat → Nat) : State :=
  let lay := s.fe.lay
  let w := posWidth lay
  s.laneOp op arity lay false fun _ l => BitVec.ofNat 64 (f w ((nth l 0).toNat % 2 ^ w) ((nth l 1).toNat % 2 ^ w) % 2 ^ w)

/-- Shift right filled with the top bit of a `w`-bit image. -/
def sarNat (w a n : Nat) : Nat := a / 2 ^ n + if a.testBit (w - 1) then 2 ^ w - 2 ^ (w - n) else 0

def execBAnd (s : State) : Out := .next (s.bitOp 0x100 2 fun _ a b => a &&& b)
def execBOr (s : State) : Out := .next (s.bitOp 0x101 2 fun _ a b => a ||| b)
def execBXor (s : State) : Out := .next (s.bitOp 0x102 2 fun _ a b => a ^^^ b)
def execBNot (s : State) : Out := .next (s.bitOp 0x103 1 fun w a _ => 2 ^ w - 1 - a)
def execBShl (s : State) : Out := .next (s.bitOp 0x104 2 fun w a b => a * 2 ^ (b % w))
def execBShr (s : State) : Out := .next (s.bitOp 0x105 2 fun w a b => a / 2 ^ (b % w))
def execBSar (s : State) : Out := .next (s.bitOp 0x106 2 fun w a b => sarNat w a (b % w))
def execBRotl (s : State) : Out := .next (s.bitOp 0x107 2 fun w a b => a * 2 ^ (b % w) + a / 2 ^ (w - b % w))

/-! ### Conversions (R233) -/

/-- A 32-bit lane to W64: value j is lane 8·half + j. -/
def State.cvtIn (s : State) (op : Nat) (sgn : Bool) : State :=
  s.fire s.focus op 1 fun e h hs =>
    let src (j : Nat) := e.opnd hs 1 0 (8 * e.opt 16 1 + j)
    let res (j : Nat) : Option Word := (src j).map fun v => wOfInt (intOf sgn 32 (v.toNat % 2 ^ 32))
    let bad (j : Nat) : Bool :=
      match res j with
      | some r => e.guards r
      | none => false
    match numTrap 8 (fun _ => false) bad with
    | some (c, j) => .trap (laneTrap c j [(src j).getD 0])
    | none =>
      let t := posToken h 0 res
      .emit [t] [t] e

/-- W64 to 32-bit lanes 8·half to 8·half + 7, saturated (R86). -/
def State.cvtOut (s : State) (op : Nat) (sgn : Bool) : State :=
  s.fire s.focus op 1 fun e h hs =>
    let src (j : Nat) := e.opnd hs 0 0 j
    let lo := 8 * e.opt 16 1
    let res (j : Nat) : Option Word :=
      if lo ≤ j ∧ j < lo + 8 then (src (j - lo)).map fun v => BitVec.ofNat 64 (encodeInt sgn 32 (valOf v) e.rm).1 else none
    let bad (j : Nat) : Bool :=
      match src j with
      | some v => e.guards v
      | none => false
    match numTrap 8 (fun _ => false) bad with
    | some (c, j) => .trap (laneTrap c j [(src j).getD 0])
    | none =>
      let t := posToken h 1 res
      .emit [t] [t] e

def execCvtWS32 (s : State) : Out := .next (s.cvtIn 0x140 true)
def execCvtWU32 (s : State) : Out := .next (s.cvtIn 0x141 false)
def execCvtS32W (s : State) : Out := .next (s.cvtOut 0x142 true)
def execCvtU32W (s : State) : Out := .next (s.cvtOut 0x143 false)
def execWRint (s : State) : Out := .next (s.laneOp 0x144 1 0 true fun e l => wRintOp e.rm (nth l 0))

/-- The value that a store into a format would write (R233). -/
def qRound (f : Fmt) (e : Elem) (w : Word) : Word := roundW64 (f.decode (f.encode (valOf w) e.rm e.sat).1) .rne
def State.qOp (s : State) (op : Nat) (f : Fmt) : State := s.laneOp op 1 0 true fun e l => qRound f e (nth l 0)

def execQFp32 (s : State) : Out := .next (s.qOp 0x145 fp32)
def execQBf16 (s : State) : Out := .next (s.qOp 0x146 bf16)
def execQFp16 (s : State) : Out := .next (s.qOp 0x147 fp16)
def execQE5m2 (s : State) : Out := .next (s.qOp 0x148 e5m2)
def execQE4m3 (s : State) : Out := .next (s.qOp 0x149 e4m3)

/-! ### Lane movement (R234) -/

/-- A movement opcode: `f` takes the element, the position count, both inputs' positions and j. -/
def State.moveOp (s : State) (op arity : Nat) (f : Elem → Nat → (Nat → Option Word) → (Nat → Option Word) → Nat → Option Word) :
    State :=
  let lay := s.fe.lay
  s.fire s.focus op arity fun e h hs =>
    let a (j : Nat) := e.opnd hs lay 0 j
    let b (j : Nat) : Option Word := if e.req 1 then e.opnd hs lay 1 j else none
    let t := posToken h lay (f e (posCount lay) a b)
    .emit [t] [t] e

def execLnUp (s : State) : Out :=
  .next (s.moveOp 0x180 2 fun e p a b j => let n := e.opt 18 6; if n ≤ j then a (j - n) else b (p - n + j))
def execLnDown (s : State) : Out :=
  .next (s.moveOp 0x181 2 fun e p a b j => let n := e.opt 18 6; if j + n < p then a (j + n) else b (j + n - p))
/-- Entry e_j of the shuffle table in c5:c0. -/
def shufEntry (e : Elem) (j : Nat) : Nat :=
  ((List.range 6).foldr (fun i n => e.const i + 2 ^ 64 * n) 0) / 2 ^ (6 * j) % 64
def execLnShuf (s : State) : Out :=
  .next (s.moveOp 0x182 1 fun e _ a _ j => let k := shufEntry e j; if k = 63 then none else a k)
def execLnBcast (s : State) : Out := .next (s.moveOp 0x183 1 fun e _ a _ _ => a (e.opt 18 6))

/-! ### Reductions (R235) -/

/-- A reduction over the tree of R90; `empty` is the result when every position is masked. -/
def State.redOp (s : State) (op : Nat) (f : Elem → Word → Word → Word) (live0 : Bool) : State :=
  s.fire s.focus op 1 fun e h hs =>
    let a (j : Nat) := e.opnd hs 0 0 j
    let r := tree8 (f e) a
    let isNew : Bool :=
      match r with
      | some v => isNaN v && !((List.range 8).any fun j => match a j with
          | some x => isNaN x
          | none => false)
      | none => false
    let bad : Bool :=
      match r with
      | some v => e.guards v
      | none => false
    match numTrap 1 (fun _ => e.nantrap && isNew) (fun _ => bad) with
    | some (c, _) =>
      let j := ((List.range 8).find? fun j => (a j).isSome).getD 0
      .trap (laneTrap c j [(a j).getD 0])
    | none =>
      let t := posToken h 0 fun j => if j = 0 then (match r with
        | some v => some v
        | none => if live0 then some 0 else none) else none
      .emit [t] [t] e

def execRedAdd (s : State) : Out := .next (s.redOp 0x184 (fun e => wAddOp e.rm) true)
def execRedMin (s : State) : Out := .next (s.redOp 0x185 (fun _ => wMinOp) false)
def execRedMax (s : State) : Out := .next (s.redOp 0x186 (fun _ => wMaxOp) false)

/-! ### vpack and vunpack (R236) -/

/-- Position j is selected by the head of input 1, or by c1 when input 1 is not enabled. -/
def Elem.selects (e : Elem) (hs : Fin 4 → List Token) (lay j : Nat) : Bool :=
  if e.req 1 then
    match e.opnd hs lay 1 j with
    | some v => v != 0
    | none => false
  else (e.const 1).testBit j

def execVpack (s : State) : Out :=
  .next (
    let lay := s.fe.lay
    s.fire s.focus 0x187 2 fun e h hs =>
      let a (j : Nat) := e.opnd hs lay 0 j
      let kept := (List.range (posCount lay)).filter fun j => e.selects hs lay j && (a j).isSome
      let out (i : Nat) : Option Word :=
        match kept[i]? with
        | some j => a j
        | none => none
      let cnt := posToken h 1 fun j => if j = 0 then some (BitVec.ofNat 64 kept.length) else none
      .emit [posToken h lay out] [cnt] e)

def execVunpack (s : State) : Out :=
  .next (
    let lay := s.fe.lay
    s.fire s.focus 0x188 2 fun e h hs =>
      let a (j : Nat) := e.opnd hs lay 0 j
      let out (j : Nat) : Option Word :=
        if e.selects hs lay j then a ((List.range j).filter (e.selects hs lay)).length else none
      let t := posToken h lay out
      .emit [t] [t] e)

end Sys2Proof.Machine
end

