-- ==== Sys2Proof/Machine/Checkpoint.lean ====
section
/-!
DEFINITION. Fault checkpoints (R41, R336, R345). A region has come to rest around a withheld access when no step of its elements, edges
and sources is left that could move a token.
-/
namespace Sys2Proof.Machine

/-- The steps that the element in focus may take. -/
def elementMoves : List (State → Out) :=
  [execControlTokenAlign, execDly, execWAdd, execWSub, execWMul, execWFma, execWMin, execWMax, execWAbs, execWNeg, execWCmpeq,
   execWCmplt, execWCmple, execWCmpun, execSfExp2, execSfLog2, execSfRcp, execSfRsqrt, execSfTanh, execSfSigm, execIAdd,
   execIAddc, execISub, execISubb, execIMullo, execIMulhi, execBAnd, execBOr, execBXor, execBNot, execBShl, execBShr, execBSar,
   execBRotl, execCvtWS32, execCvtWU32, execCvtS32W, execCvtU32W, execWRint, execQFp32, execQBf16, execQFp16, execQE5m2,
   execQE4m3, execLnUp, execLnDown, execLnShuf, execLnBcast, execRedAdd, execRedMin, execRedMax, execVpack, execVunpack, execXacc,
   execXaccLimb, execXaccRead, execMemLd, execMemSt, execMemLdx, execMemStx, execMemoryElementPerformed, execTdrain, execMma,
   execMrec, execFork, execJoin, execEjoinAnd, execEjoinOr, execEjoinSel, execSteer, execSteerErt, execSteerErtAnswer, execMerge,
   execMergeRr, execGate, execSink, execCfwd, execRankK, execRankKReply, execRankApply, execRkval, execCbdec, execStreamRowEmit,
   execStoreStreamTake, execSteerProbe, execErtRelease, execParkedRowReplay]

/-- Tokens and element states of two machines agree. -/
def State.sameFabric (s t : State) : Bool :=
  decide (s.elems = t.elems) && decide (s.tiles = t.tiles) && decide (s.stages = t.stages)
    && (List.finRange 4).all fun d => decide (s.packetsOf d = t.packetsOf d)

/-- A step leaves the fabric as it is. -/
def State.idleUnder (s : State) (f : State → Out) : Bool :=
  match f s with
  | .next t => s.sameFabric { t with focus := s.focus }
  | .fault _ | .refused _ => true

/-- Every step of an element, and of the takebacks and tokens at its inputs and outputs, leaves the fabric as it is. -/
def State.stuckAt (s : State) (a : ElemAt) : Bool :=
  (elementMoves.all ({ s with focus := a } : State).idleUnder) && s.idleUnder (execTokenCrossing (.leave a))
    && ((List.finRange 4).all fun i =>
      s.idleUnder (execTokenCrossing (.arrive a i)) && s.idleUnder (execTakebackStage a i) && s.idleUnder (execTslot a i)
        && s.idleUnder (execTileFillComplete a i))
    && (List.finRange 2).all fun o => s.idleUnder (execTakebackAtElement a o)

/-- No crossing stage and no packet of a region's tokens can move. -/
def State.edgesStuck (s : State) (d : Fin 4) (r : Fin 16) : Bool :=
  let g := s.region d r
  let mine := s.stages.filter fun e => decide (e.1 / 16 / 1024 = d.val) && g.owns (stageSite e.1).1 (stageSite e.1).2
  (mine.all fun e =>
    s.idleUnder (execTokenCrossing (.grant d (stageSite e.1).1 (stageSite e.1).2 ⟨e.1 / 4 % 4, by omega⟩)))
    && (List.range (s.packetsOf d).length).all fun n => (List.finRange 4).all fun v =>
      !((s.packetsOf d)[n]?.any fun k => g.owns k.sender.x k.sender.y) || s.idleUnder (execTokenCrossing (.hop d n v))

/-- A source has neither a command to begin nor a row to read before its next boundary. -/
def StreamState.atRest (se : StreamState) (frozen : Bool) : Bool :=
  match se.cur, se.items with
  | none, .cmd _ :: _ => decide (se.hold = .stopped)
  | none, _ => true
  | some r, more =>
    if r.withheld then true
    else if !r.started then false
    else match r.finished with
      | some _ => !more.any (fun i => match i with
          | .cmd _ => true
          | .shape _ | .barrier _ => false) || !r.mayComplete frozen
      | none => !r.cmd.op.isLoad || r.todo.isEmpty || decide (se.hold = .stopped) || se.barrierDue

/-- A fill of the tile memory control at `a` has lines that are neither read nor withheld. -/
def State.fillReading (s : State) (a : ElemAt) : Bool :=
  (List.finRange 4).any fun i => match s.fillAt a i with
    | some (b, t, sl) => (tileLines b t).any fun l => !sl.withheld.contains l && !(sl.snaps.any fun x => x.1 == l)
    | none => false

/-- A row of the task in a region waits for an expert that is on its way (R308). -/
def State.fetching (s : State) (d : Fin 4) (r : Fin 16) : Bool :=
  match (s.region d r).task.bind s.task? with
  | some t => t.misses.any fun m => !m.replayed && decide ((s.ert.entry m.entry).state.val = 1)
  | none => false

/-- Step 2 of a fault checkpoint: no token of the region is left that could reach its barrier or a sink (R336). -/
def State.regionStill (s : State) (d : Fin 4) (r : Fin 16) : Bool :=
  let as := s.regionElems d r
  (as.all fun a => s.stuckAt a && !s.elemBusy a && !s.fillReading a) && s.edgesStuck d r && !s.fetching d r
    && (s.viSources d r).all fun a => (s.elem a).se.atRest (s.elem a).frozen

/-- FAULT_CHECKPOINT: its beginning, for an access withheld for FAULTLIM; then, once the tokens that are not behind it have come to rest,
the freeze-save, also when a resume has let the access go on meanwhile (log 130). A drain becomes a freeze-save, and a freeze-save of form 2, also
one that waits for room, takes form 3 (R336, R345). -/
def execFaultCheckpoint (die : Fin 4) (r : Fin 16) (s : State) : Out :=
  .next (s.onDie die <|
    match (s.region die r).phase with
    | .running =>
      if s.withholds die r then (s.holdSources die r (.draining 0)).setRegion die r { s.region die r with phase := .checkpoint } else s
    | .checkpoint => if s.regionStill die r then s.stopRegion die r 3 else s
    | .draining _ => if s.withholds die r then s.stopRegion die r 3 else s
    | .freezing 2 => if s.withholds die r then s.setRegion die r { s.region die r with phase := .freezing 3 } else s
    | .saveHeld 2 l => if s.withholds die r then s.setRegion die r { s.region die r with phase := .saveHeld 3 l } else s
    | .idle | .freezing _ | .saveHeld _ _ => s)

end Sys2Proof.Machine
end

