-- ==== Sys2Proof/Machine/CmpSel.lean ====
section
/-!
DEFINITION. Compare, select and predicates (R173).
-/
namespace Sys2Proof.Machine

def execCeq (o : Rrr) (s : State) : Out := .next (s.rrr o fun x y => boolWord (cEq x y))
def execCne (o : Rrr) (s : State) : Out := .next (s.rrr o fun x y => boolWord (cNe x y))
def execClt (o : Rrr) (s : State) : Out := .next (s.rrr o fun x y => boolWord (cLt x y))
def execCltu (o : Rrr) (s : State) : Out := .next (s.rrr o fun x y => boolWord (cLtu x y))
def execCle (o : Rrr) (s : State) : Out := .next (s.rrr o fun x y => boolWord (cLe x y))
def execCleu (o : Rrr) (s : State) : Out := .next (s.rrr o fun x y => boolWord (cLeu x y))
def execPeq (o : PCmp) (s : State) : Out := .next (s.pcmp o cEq)
def execPne (o : PCmp) (s : State) : Out := .next (s.pcmp o cNe)
def execPlt (o : PCmp) (s : State) : Out := .next (s.pcmp o cLt)
def execPltu (o : PCmp) (s : State) : Out := .next (s.pcmp o cLtu)
def execPle (o : PCmp) (s : State) : Out := .next (s.pcmp o cLe)
def execPleu (o : PCmp) (s : State) : Out := .next (s.pcmp o cLeu)
/-- Both sources are popped whichever is chosen. -/
def execSel (o : Rrr) (p : PReg) (s : State) : Out := .next (s.rrr o fun x y => if s.rdP p then x else y)
def execPand (p a b : PReg) (s : State) : Out := .next (s.wrP p (s.rdP a && s.rdP b)).advance
def execPor (p a b : PReg) (s : State) : Out := .next (s.wrP p (s.rdP a || s.rdP b)).advance
def execPxor (p a b : PReg) (s : State) : Out := .next (s.wrP p (s.rdP a != s.rdP b)).advance
def execPandn (p a b : PReg) (s : State) : Out := .next (s.wrP p (s.rdP a && !s.rdP b)).advance
def execPnot (p a : PReg) (s : State) : Out := .next (s.wrP p (!s.rdP a)).advance
def execPtst (p : PReg) (a : Reg) (qa : Bool) (s : State) : Out :=
  .next (s.pcmp { p, a, b := 0, qa, qb := false } fun x _ => x != 0)
def execPget (d : Reg) (qd : Bool) (p : PReg) (s : State) : Out :=
  .next (s.rrr { d, a := 0, b := 0, qa := false, qb := false, qd } fun _ _ => boolWord (s.rdP p))

end Sys2Proof.Machine
end

