-- ==== Sys2Proof/Machine/Xlate.lean ====
section
/-!
DEFINITION. Invalidations (R351, R355, R356) and the registers of load requests (R351).
-/
namespace Sys2Proof.Machine

def Tqu.invBusy (q : Tqu) : Bool := q.inv.isSome

/-- A write of INVCMD starts an invalidation; one that arrives while busy is ignored and noted (R351). -/
def State.invalidate (s : State) (d : Fin 4) (i : InvScope) : State :=
  let q := s.tquOf d
  if q.invBusy then s.setTqu d { q with invLost := true } else s.setTqu d { q with inv := some i, invAt := s.moves }

/-- The pages from INVADDR on, under one ASID. -/
def execInvalidateRange (die : Fin 4) (asid : Fin 8192) (pages : Nat) (s : State) : Out :=
  .next (s.invalidate die (.range (some (BitVec.ofNat 13 asid.val)) (bits (s.tquOf die).invAddr.toNat 12 44 * 4096) pages))
def execInvalidateAsid (die : Fin 4) (asid : Fin 8192) (s : State) : Out :=
  .next (s.invalidate die (.space (BitVec.ofNat 13 asid.val)))
def execInvalidateAll (die : Fin 4) (s : State) : Out := .next (s.invalidate die .all)

/-- Slots that an eviction's invalidation held are free, and waiting sweeps run again (R368). -/
def State.freeSlots (s : State) : State :=
  let cs := (s.ert.freeing.map (·.1)).eraseDups
  cs.foldl (fun s c => s.unsweep c) (s.setErt { s.ert with freeing := [], dropping := [] })

/-! ### What an invalidation waits for (R355) -/

/-- A store of an order buffer was translated through an old entry that an invalidation covers. -/
def State.oldStore (s : State) (i : InvScope) (c : Fin 64) (it : OrderItem) : Bool :=
  match it with
  | .store w => (match w.xl with
    | some x => i.meets x.asid x.va 1 && s.oldEntry (dieOf c) x.asid x.va true x.user w.granule
    | none => false)
  | .cmd _ | .sbar .. | .qfence .. | .shape .. => false

/-- A pinned line of a tile fill at `a` that has not been read was translated through an old entry that an invalidation covers. -/
def State.oldPin (s : State) (i : InvScope) (a : ElemAt) (sl : Slot) (p : Nat × Nat) : Bool :=
  sl.tag == .filling && !(sl.snaps.any fun l => l.1 == p.1) && i.meets (s.taskAsid a) (64 * p.1) 64
    && s.oldEntry a.die (s.taskAsid a) (64 * p.1) false true (8 * p.2)

/-- An access that was translated through an old entry has neither performed nor been withheld: every other access is translated in the
move in which it performs. -/
def State.oldAccess (s : State) (i : InvScope) : Bool :=
  ((List.finRange 64).any fun c => (s.core c).order.any (s.oldStore i c)) ||
  s.tiles.any fun t =>
    let a := elemOfKey (16 * t.1 + 14)
    t.2.slots.toList.any fun sl => sl.pins.any (s.oldPin i a sl)

/-- An invalidation that is in progress, since move `began`, drops what it covers from every cache and patches the extents again; it has
ended when no access translated through an old entry waits to perform and no walk that began before it goes on, and `ended` says what
follows (R355). -/
def State.endInvalidation (s : State) (i : InvScope) (began : Nat) (ended : State → State) : State :=
  let s1 := (s.dropCovered i).repatch i
  if s1.oldAccess i || s1.oldWalk i began then s1 else ended s1

/-- INVALIDATION_COMPLETE: the invalidation in progress at the die in focus ends, and at the table's own die those of its evictions
(R355, R364, R368). -/
def execInvalidationComplete (s : State) : Out :=
  .next (
    let d := s.focus.die
    let s1 := match (s.tquOf d).inv with
      | some i => s.endInvalidation i (s.tquOf d).invAt fun s => s.setTqu d { s.tquOf d with inv := none }
      | none => s
    if d = 0 then
      let s2 := s1.ert.dropping.foldl (fun s i => s.endInvalidation i.1 i.2 id) s1
      if s2.ert.dropping.any fun i => s2.oldAccess i.1 || s2.oldWalk i.1 i.2 then s2 else s2.freeSlots
    else s1)

/-- INVSTAT (R351). -/
def Tqu.invStat (q : Tqu) : Word := BitVec.ofNat 64 (b2n q.invBusy + 2 * b2n q.invLost)

def execInvstatRead (die : Fin 4) (s : State) : Out :=
  .next { s.setTqu die { s.tquOf die with invLost := false } with hostOut := [(s.tquOf die).invStat] }

/-- LOAD_REQUEST: bits 51:6 of a LOADREQ write join the queue of at most 16 (R351, R357). -/
def execLoadRequest (die : Fin 4) (v : Word) (s : State) : Out :=
  .next (
    if s.host.loads.length < 16 then
      { s with host := { s.host with loads := s.host.loads ++ [(die, v &&& 0xFFFFFFFFFFFC0#64)] } }
    else s.setTqu die { s.tquOf die with loadLost := true })

/-- LOADSTAT (R351). -/
def State.loadStat (s : State) (d : Fin 4) : Word :=
  BitVec.ofNat 64 (s.host.loads.length + 2 ^ 8 * b2n (s.tquOf d).loadLost)

def execLoadstatRead (die : Fin 4) (s : State) : Out :=
  .next { s.setTqu die { s.tquOf die with loadLost := false } with hostOut := [s.loadStat die] }

end Sys2Proof.Machine
end

