-- ==== Sys2Proof/Machine/Host.lean ====
section
/-!
DEFINITION. The host's side: management registers (R375, R376, R380, R386), the event queue (R377), reset and boot (R378, R379), tier ports
and links (R381 to R383), host accesses (R113, R374), and soft errors (R394).
-/
namespace Sys2Proof.Machine

def State.setHost (s : State) (h : HostSide) : State := { s with host := h }

/-! ### The event queue (R377) -/

def execEventEnable (s : State) : Out := .next (s.setHost { s.host with evten := true })

/-- EVENT_RECORD_WRITE: the oldest held record is written, EVTPROD advances, and MSI-X vector 0 is raised. A queue that lies at no
home leaves its records held (log 38). -/
def execEventRecordWrite (s : State) : Out :=
  .next (
    let h := s.host
    match h.held with
    | [] => s
    | e :: rest =>
      let pa := h.evtBase.toNat + 32 * (h.evtProd.toNat % h.evtSize)
      if h.evten && decide (h.evtUsed ≠ h.evtSize) && (s.homeOf pa).isSome then
        let s1 := [e.d0, e.d1, e.d2, e.d3].zipIdx.foldl (fun s x => s.setHome (storeAt (s.canonPa pa + 8 * x.2) 8 x.1)) s
        s1.setHost { h with held := rest, evtProd := h.evtProd + 1, msix := h.msix + 1 }
      else s)

/-- EVTLOST_READ: the count is returned and cleared (R375). -/
def execEvtlostRead (s : State) : Out := .next { s.setHost { s.host with evtLost := 0 } with hostOut := [s.host.evtLost] }

/-! ### Ports of the links (R383) -/

/-- What stands on path `p` goes on as path `q`, for markers, landed rows and path sets alike (R383). -/
def State.movePath (s : State) (p q : PathId) : State :=
  let ren (x : PathId) : PathId := if x = p then q else x
  let moved := s.pathItems p
  let s1 := (s.setPath p []).setPath q (s.pathItems q ++ moved)
  { s1 with
    landing := s1.landing.map fun l => (l.1, l.2.map fun r => (r.1, ren r.2.1, r.2.2))
    pathSets := s1.pathSets.map fun x => (x.1, (x.2.map ren).eraseDups)
    releases := s1.releases.map fun r => { r with waiting := r.waiting.map ren } }

/-- Paths to other modules that lead through a port. -/
def State.portPaths (s : State) (p : Fin 36) : List PathId :=
  (s.paths.map (·.1)).filter fun q => decide (q.k = p.val) && (match q.dst with
    | .module _ => true
    | .die _ | .tier _ | .host => false)

/-- An up port of the mask toward a module, lowest first. -/
def HostSide.upPort (h : HostSide) (m : Fin 64) : Option (Fin 36) :=
  (List.finRange 36).find? fun i => (getF h.ngrt m).getLsbD i.val && getF h.ngUp i

def PathItem.isMarker : PathItem → Bool
  | .marker _ => true
  | .write .. | .row .. => false

/-- Writes that wait toward a module. -/
def State.waitingWrites (s : State) (m : Fin 64) : Nat :=
  (s.paths.filter fun q => decide (q.1.dst = .module m)).foldl (fun n q => n + (q.2.filter fun i => !i.isMarker).length) 0

/-- A port goes down: its writes and markers go out on another one of the mask, or wait with event 20 (R383). -/
def State.portDown (s : State) (p : Fin 36) : State :=
  if getF s.host.ngUp p then
    let s1 := s.setHost { s.host with ngUp := setF s.host.ngUp p false }
    let s2 := (s1.portPaths p).foldl (fun s q =>
      match q.dst with
      | .module m => (match s.host.upPort m with
        | some i => s.movePath q { q with k := i.val }
        | none => s)
      | .die _ | .tier _ | .host => s) s1
    ((List.finRange 64).filter fun m =>
        decide (m.val ≠ s.moduleNo) && (getF s.host.ngrt m).getLsbD p.val && (s2.host.upPort m).isNone).foldl
      (fun s m => s.report (eventRec 20 0 0 m.val 0 0 (BitVec.ofNat 64 (s.waitingWrites m)))) s2
  else s

/-- A port trains: it joins its masks at once, and waiting writes leave on it in order (R383). -/
def State.portUp (s : State) (p : Fin 36) : State :=
  let s1 := s.setHost { s.host with ngUp := setF s.host.ngUp p true }
  let waits := (s1.paths.map (·.1)).filter fun q => match q.dst with
    | .module m => (getF s1.host.ngrt m).getLsbD p.val && !s1.pathUp q
    | .die _ | .tier _ | .host => false
  waits.foldl (fun s q => s.movePath q { q with k := p.val }) s1

/-! ### Register writes (R6, R375, R376, R380, R386) -/

/-- Ones at bits `lo` to `hi`. -/
def mask (hi lo : Nat) : Word := BitVec.ofNat 64 (2 ^ (hi + 1) - 2 ^ lo)

/-- A write of MCTL clears the enabling bits that it leaves 0; setting one is a step of its own. -/
def HostSide.clearMctl (h : HostSide) (v : Word) : HostSide :=
  { h with
    evten := h.evten && v.getLsbD 4
    tieren := h.tieren && v.getLsbD 3
    linken := h.linken && v.getLsbD 2 }

/-- Registers of the management space below the TQU blocks (R375). The field of EVTCAP keeps every value, beyond
the range of its entry too (log 122). -/
def HostSide.write (h : HostSide) (off : Nat) (v : Word) : HostSide :=
  match off with
  | 0x0008 => h.clearMctl v
  | 0x0018 => { h with bootAddr := v &&& mask 51 12 }
  | 0x0028 => if h.evten then h else { h with evtBase := v &&& mask 51 12 }
  | 0x0030 => if h.evten then h else { h with evtCap := v &&& mask 4 0 }
  | 0x0040 => { h with evtCons := v.truncate 32 }
  | 0x0050 => if h.linken then h else { h with domid := v &&& mask 5 0 }
  | 0x0058 => if h.linken then h else { h with grpBase := v &&& mask 51 20 }
  | 0x0060 => { h with dispSel := v &&& mask 19 0 }
  | off =>
    if q : 0x100 ≤ off ∧ off < 0x300 ∧ off % 8 = 0 then
      { h with ngrt := setF h.ngrt ⟨(off - 0x100) / 8, by omega⟩ (v &&& mask 35 0) }
    else h

/-- Registers of a TQU block (R317, R328, R351). -/
def Tqu.write (q : Tqu) (off : Nat) (v : Word) : Tqu :=
  match off with
  | 0x00 => { q with spillBase := v &&& mask 51 8 }
  | 0x08 => { q with spillCap := v &&& mask 20 0 }
  | 0x28 => { q with drainLim := v &&& mask 31 0 }
  | 0x30 => { q with ctxBase := v &&& mask 51 12 }
  | 0x38 => { q with ctxCap := v &&& mask 23 0 }
  | 0x40 => { q with faultLim := v &&& mask 31 0 }
  | 0x48 => { q with wakeLim := v &&& mask 31 0 }
  | 0x60 => { q with trapSel := v &&& mask 21 8 }
  | 0x88 => { q with asidBase := v &&& mask 51 16 }
  | 0x90 => { q with invAddr := v &&& mask 55 12 }
  | _ => q

/-- CORECTL bit 2: the core is stopped, or held between reset and boot (R378, R380). -/
def CoreState.isStopped (k : CoreState) : Bool := k.run == .stopped || k.run == .held

/-- Registers of a core's window, which take writes only while it is stopped (R380); reserved bits read as zero (R6). -/
def CoreState.windowWrite (k : CoreState) (off : Nat) (v : Word) : CoreState :=
  if !k.isStopped then k
  else
    match off with
    | 0x200 => { k with pc := v &&& 0x3FFFC }
    | 0x208 => { k with status := v &&& 0x11F }
    | 0x210 => { k with cause := v &&& (mask 63 32 ||| 0xFF) }
    | 0x218 => { k with trappc := v &&& 0x3FFFC }
    | 0x220 => { k with badaddr := v }
    | 0x228 => { k with asid := v &&& 0x1FFF }
    | 0x230 => { k with prio := v &&& 0xFF }
    | 0x238 => { k with tags := v }
    | 0x240 => { k with wid := v }
    | 0x248 => { k with widw := v &&& mask 41 0 }
    | off =>
      if q : 0x100 ≤ off ∧ off < 0x200 ∧ off % 8 = 0 then k.writeG ⟨(off - 0x100) / 8, by omega⟩ v else k

/-- Registers of an Ethernet port; all but PCTL take writes only while EN is 0 (R386). -/
def EthPort.write (p : EthPort) (off : Nat) (v : Word) : EthPort :=
  if p.en then p
  else
    match off with
    | 0x008 => { p with mac := v.truncate 48 }
    | 0x010 => { p with fepLo := v }
    | 0x018 => { p with fepHi := v }
    | 0x028 => { p with qbase := v &&& mask 51 12 }
    | 0x030 => { p with qcap := v &&& mask 3 0 }
    | _ => p

/-- REGISTER_WRITE: a register without behaviour of its own takes its value; every other offset ignores the write (R375). Ports that a write
of MCTL no longer enables go down (log 39). -/
def execRegisterWrite (fn : Fin 2) (off : Nat) (v : Word) (s : State) : Out :=
  .next (
    if fn = 1 then
      (if h : off < 0x10000 then
        let p : Fin 16 := ⟨off / 0x1000, by omega⟩
        { s with eth := setF s.eth p ((getF s.eth p).write (off % 0x1000) v) }
      else s)
    else if off < 0x1000 then
      let s1 := if off = 0x0008 ∧ s.host.linken = true ∧ v.getLsbD 2 = false then (List.finRange 36).foldl State.portDown s else s
      s1.setHost (s1.host.write off v)
    else if h : 0x100000 ≤ off ∧ off < 0x104000 then
      let d : Fin 4 := ⟨(off - 0x100000) / 0x1000, by omega⟩
      let r := off % 0x1000
      if r = 0xB8 then (if d = 0 then s.setErt { s.ert with base := v &&& mask 51 12 } else s)
      else s.setTqu d ((s.tquOf d).write r v)
    else if h : 0x200000 ≤ off ∧ off < 0x240000 then
      let c : Fin 64 := ⟨(off - 0x200000) / 0x1000, by omega⟩
      s.setCore c ((s.core c).windowWrite (off % 0x1000) v)
    else s)

/-! ### Reset and boot (R378, R379) -/

/-- MODULE_RESET: everything but the contents of memory returns to its reset value. The model's own agenda goes on. -/
def execModuleReset (s : State) : Out :=
  .next { State.reset with
    mem := s.mem, marked := s.marked, agenda := s.agenda, cur := s.cur, focus := s.focus, moves := s.moves, since := s.moves, free := s.free
    nextId := s.nextId, hostOut := s.hostOut }

/-- One bit of the CRC-32 of IEEE 802.3, reflected. -/
def crcBit (c : BitVec 32) : BitVec 32 := if c.getLsbD 0 then (c >>> 1) ^^^ 0xEDB88320 else c >>> 1
def crcByte (c : BitVec 32) (b : Byte) : BitVec 32 := (List.range 8).foldl (fun c _ => crcBit c) (c ^^^ b.zeroExtend 32)
def crc32 (l : List Byte) : BitVec 32 := ~~~(l.foldl crcByte 0xFFFFFFFF)

/-- Error of a firmware image in memory at `a`, or 0 (R379): 4 a read fault, 1 bad magic, 3 bad n, 2 bad CRC. -/
def State.bootCheck (s : State) (a : Nat) (fault : Bool) : Nat :=
  let n := s.homeNat (a + 4) 4
  let len := 4112 + 4 * n
  if fault || (s.homeOf a).isNone || s.marked.any fun g => decide (a ≤ 8 * g + 7) && decide (8 * g < a + len) then 4
  else if s.homeNat a 4 ≠ 0x5A4B4657 then 1
  else if n = 0 ∨ 64512 < n then 3
  else if (crc32 ((List.range (len - 16)).map fun i => s.byte (a + 16 + i))).toNat ≠ s.homeNat (a + 8) 4 then 2
  else 0

/-- The halt instruction's word (R379). -/
def haltWord : Word32 := 0xFC006000

/-- Core `c` is a dispatcher (DISPSEL, R375). -/
def HostSide.dispatcher (h : HostSide) (c : Fin 64) : Bool :=
  h.dispSel.getLsbD (16 + (dieOf c).val) && bits h.dispSel.toNat (4 * (dieOf c).val) 4 == (slotOf c).val

/-- Code memory after the boot: text or a halt at word 0, and the trap table from word 0xFC00. -/
def bootCode (text trap : List Word32) : Map Word32 :=
  (text.zipIdx.map fun x => (x.2, x.1)) ++ trap.zipIdx.map fun x => (0xFC00 + x.2, x.1)

/-- BOOT: the firmware image is read and checked, and every core starts at pc 0 in supervisor mode (R379). Blocks that the firmware
finds defective are marked out of service and reported (R394). -/
def execBoot (fault : Bool) (bad : List (Fin 4 × Fin 20)) (s : State) : Out :=
  .next (
    let a := s.host.bootAddr.toNat
    match s.bootCheck a fault with
    | e + 1 => s.setHost { s.host with bootFailed := true, bootError := e + 1 }
    | 0 =>
      let word (i : Nat) : Word32 := BitVec.ofNat 32 (s.homeNat (a + i) 4)
      let trap := (List.range 1024).map fun i => word (16 + 4 * i)
      let text := (List.range (s.homeNat (a + 4) 4)).map fun i => word (4112 + 4 * i)
      let s1 := (List.finRange 64).foldl (fun s c =>
        let k := s.core c
        s.setCore c { k with
          code := bootCode (if s.host.dispatcher c then text else [haltWord]) trap, text := none
          pc := 0, status := putBit k.status 3 true, run := .running }) s
      let s2 := s1.setHost { s1.host with booted := true, bootFailed := false, bootError := 0 }
      bad.foldl (fun s x =>
        let d := s.die x.1
        (s.setDie x.1 { d with blkstat := putBit d.blkstat (32 + x.2.val) true }).report
          (eventRec 19 x.1 0 x.2.val 0 0 (BitVec.ofNat 64 x.1.val))) s2)

/-! ### Core windows (R380) -/

/-- The reset state of R162; what the core has issued, and its code memory, stand outside it (log 40). -/
def CoreState.windowReset (k : CoreState) : CoreState :=
  { ({} : CoreState) with
    code := k.code, text := k.text, order := k.order, queues := k.queues, cfg := k.cfg, staged := k.staged, collCount := k.collCount, task := k.task
    prefetch := k.prefetch, run := match k.run with
      | .held => .held
      | .stopped | .halted | .running => .running }

/-- CORE_RESET: CORECTL bit 0. A core that is held between reset and boot stays so (R378). -/
def execCoreReset (c : Fin 64) (s : State) : Out := .next (s.setCore c (s.core c).windowReset)

/-- CORE_STOP: CORECTL bit 1 written 1; ignored while the module holds the core (R380). -/
def execCoreStop (c : Fin 64) (s : State) : Out :=
  .next (
    let s1 := s.stopCore c
    match (s1.core c).run with
    | .stopped => s1.setCore c { s1.core c with before := .stopped }
    | .held | .running | .halted => s1)

/-- CORE_RESTART: CORECTL bit 1 written 0; the core goes on at its pc. -/
def execCoreRestart (c : Fin 64) (s : State) : Out :=
  .next (
    match (s.core c).run with
    | .stopped => s.setCore c { s.core c with run := .running }
    | .held | .running | .halted => s)

/-- FAULTACK: the firmware's wait in its trap handler ends (R331, R380; log 41). -/
def execFaultack (c : Fin 64) (s : State) : Out := .next (if (s.core c).th then s.endWait c else s)

/-! ### Tier ports and links (R381 to R383) -/

/-- TIER_ENABLE: the ranges found at enumeration fill TIERRNG (R381). -/
def execTierEnable (ranges : List TierRange) (s : State) : Out :=
  .next (
    if s.host.tieren then s
    else
      let h := ranges.foldl (fun (h : HostSide) r =>
        let i : Fin 32 := ⟨16 * r.port.val + r.j.val, by omega⟩
        { h with tierRange := setF h.tierRange i ((r.base &&& mask 51 12) ||| 1, r.info &&& mask 42 0) }) s.host
      s.setHost { h with tieren := true })

/-- LINK_ENABLE: ports train and carry traffic (R375, R382). -/
def execLinkEnable (peers : List LinkPeer) (s : State) : Out :=
  .next (
    if s.host.linken then s
    else
      let h := peers.foldl (fun (h : HostSide) p => { h with ngPeer := setF h.ngPeer p.port (p.pmod, p.pport) }) s.host
      peers.foldl (fun s p => s.portUp p.port) (s.setHost { h with linken := true }))

/-- NGUVEN_PORT_DOWN. -/
def execNguvenPortDown (p : Fin 36) (s : State) : Out := .next (s.portDown p)

/-- NGUVEN_PORT_UP. -/
def execNguvenPortUp (p : Fin 36) (s : State) : Out := .next (if s.host.linken && !getF s.host.ngUp p then s.portUp p else s)

/-! ### Host accesses over CXL.mem (R113, R374) -/

/-- Path FIFO of the host port (R311: one path). -/
def hostPath : PathId := { src := 4, dst := .host, k := 0 }

/-- The bytes of a write that lie in one granule, as one write. -/
def granuleWrites (a : Nat) (bytes : List Byte) : List GWrite :=
  let first := a / 8
  let n := if bytes.isEmpty then 0 else (a + bytes.length - 1) / 8 - first + 1
  (List.range n).map fun k =>
    let g := first + k
    let at' (i : Nat) : Option Byte := if a ≤ 8 * g + i then bytes[8 * g + i - a]? else none
    { granule := g, mask := BitVec.ofNat 8 ((List.range 8).foldl (fun m i => if (at' i).isSome then m + 2 ^ i else m) 0)
      value := dword fun i => (at' i).getD 0 }

/-- HOST_CXL_WRITE: a write of the host at a physical address of module memory, in the order of the host-port path; one to the host's
own memory performs at once. -/
def execHostCxlWrite (addr : Nat) (bytes : List Byte) (s : State) : Out :=
  .next ((granuleWrites addr bytes).foldl (fun s w =>
    match s.homeOf (8 * w.granule) with
    | some (.die _) => s.setPath hostPath (s.pathItems hostPath ++ [.write .host w])
    | some .host => s.setHome w
    | some (.tier _) | some (.module _) | none => s) s)

/-- HOST_CXL_READ: the home copies of `n` bytes; a read of a marked granule fails (R394). -/
def execHostCxlRead (addr n : Nat) (s : State) : Out :=
  .next { s with hostOut :=
    if s.marked.any fun g => decide (addr ≤ 8 * g + 7) && decide (8 * g < addr + n) then []
    else (List.range n).map fun i => (s.byte (addr + i)).zeroExtend 64 }

/-! ### Soft errors (R394) -/

def execLinkCrcReplay (l : LinkId) (s : State) : Out :=
  .next (
    let h := { s.host with lreplay := s.host.lreplay + 1 }
    match l with
    | .nguven p => s.setHost { h with ngReplays := setF h.ngReplays p (getF h.ngReplays p + 1) }
    | .tier _ | .host => s.setHost h)

/-- A configuration stream is on its way to a region: under way command by command, sent and not yet committed, or the next thing that
the region does. -/
def State.sending (s : State) (d : Fin 4) (r : Fin 16) : Bool :=
  decide ((s.cursor d).region = some r) || (s.region d r).sent.isSome || ((s.region d r).task.isNone && (s.awaiting d r).isSome)

/-- Fault time of a stream that is sent again for the first time: what has passed since it was first sent (R394). -/
def Region.sendTime (g : Region) (now : Nat) : Nat :=
  match g.resent, g.sent with
  | 0, some t => now - t
  | _, _ => 0

/-- CONFIG_PARITY_RETRY: the region's stream is sent again from its begin, and reported; the time from its first send to the commit is
fault time (R394). -/
def execConfigParityRetry (die : Fin 4) (r : Fin 16) (s : State) : Out :=
  .next (
    if s.sending die r then
      let g := s.region die r
      let s1 := if (s.cursor die).region = some r then s.setCursor die { region := some r } else s
      let s2 := s1.setRegion die r { g with sent := some (g.sent.getD s.time), resent := g.resent + 1 }
      let s3 := match s.loadingTask die r with
        | some t => s2.setTask { t with faultTime := t.faultTime + g.sendTime s.time }
        | none => s2
      s3.report (eventRec 18 die r.val (g.resent + 1) (taskNo g.task) 0 (BitVec.ofNat 64 r.val))
    else s)

/-- Counts and reports an uncorrectable error. -/
def State.reportError (s : State) (d : Fin 4) (r struct : Nat) (task : BitVec 32) (addr detail : Word) : State :=
  (s.setDie d { s.die d with uecnt := (s.die d).uecnt + 1 }).report (eventRec 17 d r struct task addr detail)

/-- Die of a physical granule, 0 where it is homed on none. -/
def State.dieOfGranule (s : State) (g : Nat) : Fin 4 :=
  match s.homeOf (8 * g) with
  | some (.die d) => d
  | some .host | some (.tier _) | some (.module _) | none => 0

/-- Data of a structure is marked: a physical granule, a granule of the MTs by number, or a slot, by eight times its tile's number and its
own. Of structure 8 the manual names no granule (R394, log 144). -/
def State.markData (s : State) (st g : Nat) : State :=
  if 1 ≤ st ∧ st ≤ 3 then (if s.marked.contains g then s else { s with marked := s.marked ++ [g] })
  else if st = 4 then (if s.mtMarked.contains g then s else { s with mtMarked := s.mtMarked ++ [g] })
  else if st = 5 then
    let p := (elemOfKey (g / 8 * 16))
    let tl := s.tile p.die p.x p.y
    let k : Fin 8 := ⟨g % 8, by omega⟩
    s.setTile p.die p.x p.y { tl with slots := setF tl.slots k { getF tl.slots k with bad := true } }
  else s

/-- UNCORRECTABLE_ERROR: data marks its granule and fails a reading task; code or a field stops its core or region. -/
def execUncorrectableError (w : ErrorAt) (s : State) : Out :=
  .next (
    match w with
    | .data st g task place =>
      let memory := decide (1 ≤ st) && decide (st ≤ 3)
      let s1 := s.markData st g
      let d : Fin 4 := match task.bind s.task? with
        | some t => t.die
        | none => if memory then s.dieOfGranule g else 0
      let s2 := match task with
        | some t => s1.failTask t 6 0 0
        | none => s1
      s2.reportError d (regionNo ((task.bind s.task?).bind (·.region))) st (taskNo task)
        (if memory then BitVec.ofNat 64 (8 * g) else 0) (BitVec.ofNat 64 place)
    | .code c =>
      let k := s.core c
      let s1 := s.stopCore c
      let s2 := match k.task with
        | some t => s1.failTask t 6 0 0
        | none => s1
      s2.reportError (dieOf c) (regionNo (s.ownRegion c)) 6 (taskNo k.task) 0 (BitVec.ofNat 64 (slotOf c).val)
    | .field a =>
      let r := s.regionAt a.die a.x a.y
      let task := r.bind fun r => (s.region a.die r).task
      let s1 := match r with
        | some r => s.setRegion a.die r { s.region a.die r with committed := false, image := none }
        | none => s
      let s2 := match task with
        | some t => s1.failTask t 6 0 0
        | none => s1
      s2.reportError a.die (regionNo r) 7 (taskNo task) 0 (s.portId { a with e := 0 }))

end Sys2Proof.Machine
end

