-- ==== Sys2Proof/Machine/Eth.lean ====
section
/-!
DEFINITION. The Ethernet ports (R385 to R387): queue blocks, sends, receives, arriving packets and completions. What the network and the
peers do is an operand (log 19).
-/
namespace Sys2Proof.Machine

def State.port (s : State) (p : Fin 16) : EthPort := getF s.eth p
def State.setPort (s : State) (p : Fin 16) (v : EthPort) : State := { s with eth := setF s.eth p v }

/-! ### Queue blocks in memory (R387) -/

/-- Entries of each queue. -/
def EthPort.size (p : EthPort) : Nat :=
  let n := bits p.qcap.toNat 0 4
  2 ^ (if 6 ≤ n then n else (Config.oddSize n).toNat)
def EthPort.sendAt (p : EthPort) (n : Nat) : Nat := p.qbase.toNat + 4096 + 64 * (n % p.size)
def EthPort.recvAt (p : EthPort) (n : Nat) : Nat := p.qbase.toNat + 4096 + 64 * p.size + 64 * (n % p.size)
def EthPort.doneAt (p : EthPort) (n : Nat) : Nat := p.qbase.toNat + 4096 + 128 * p.size + 32 * (n % p.size)

/-- A dword of the queue block from its home copy, and its write by the device. -/
def State.ethRead (s : State) (a : Nat) : Word := s.home (s.canonPa a / 8)
def State.ethWrite (s : State) (a : Nat) (v : Word) : State :=
  match s.homeOf a with
  | some _ => s.setHome (storeAt (s.canonPa a) 8 v)
  | none => s

/-- Index word at an offset of the block; indexes count modulo 2^32. -/
def State.index (s : State) (p : Fin 16) (off : Nat) : Nat := (s.ethRead ((s.port p).qbase.toNat + off)).toNat % 2 ^ 32
def State.setIndex (s : State) (p : Fin 16) (off n : Nat) : State :=
  s.ethWrite ((s.port p).qbase.toNat + off) (BitVec.ofNat 64 (n % 2 ^ 32))

/-! ### Completions (R386, R387) -/

/-- A completion entry. -/
def doneEntry (kind status moved : Nat) (cookie match' src : Word) : List Word :=
  [BitVec.ofNat 64 (kind + status * 2 ^ 8 + moved % 2 ^ 32 * 2 ^ 32), cookie, match', src]

/-- Writes held completions while the completion queue has room: entry, producer word, MSI-X vector of the port. -/
def State.pumpDone (s : State) (p : Fin 16) : Nat → State
  | 0 => s
  | n + 1 =>
    let k := s.port p
    match k.held with
    | [] => s
    | e :: rest =>
      let prod := s.index p 32
      if (prod + 2 ^ 32 - s.index p 40) % 2 ^ 32 = k.size then s
      else
        let s1 := e.zipIdx.foldl (fun s x => s.ethWrite (k.doneAt prod + 8 * x.2) x.1) s
        ((s1.setIndex p 32 (prod + 1)).setPort p { k with held := rest, msix := k.msix + 1 }).pumpDone p n

/-- A completion joins those to be written. -/
def State.complete (s : State) (p : Fin 16) (e : List Word) : State :=
  let k := s.port p
  (s.setPort p { k with held := k.held ++ [e] }).pumpDone p (k.held.length + 1)

/-- COMPLETION_CONSUMER_ADVANCE: the host's word lets held completions be written. -/
def execCompletionConsumerAdvance (p : Fin 16) (v : BitVec 32) (s : State) : Out :=
  .next ((s.setIndex p 40 v.toNat).pumpDone p (s.port p).held.length)

/-! ### Registers (R386) -/

def execPortEnable (p : Fin 16) (en : Bool) (s : State) : Out := .next (s.setPort p { s.port p with en })
/-- PORT_LINK_CHANGE: lanes trained (PSTAT). -/
def execPortLinkChange (p : Fin 16) (lanes : Fin 3) (s : State) : Out := .next (s.setPort p { s.port p with lanes })

/-! ### Connections (R385, log 138) -/

/-- A connection of the packet delivery sublayer: the peer's address, whether delivery is ordered, and whether the port sends on it. -/
structure Conn where
  peer : BitVec 128
  rod : Bool
  sends : Bool
  deriving DecidableEq, Repr

def EthPost.conn (e : EthPost) : Conn :=
  { peer := (nth e.dwords 3) ++ (nth e.dwords 2), rod := !(nth e.dwords 0).getLsbD 8, sends := true }
def connOf (k : Packet) : Conn := { peer := k.src, rod := k.rod, sends := false }

/-- Connections that a port holds: those of its sends that have begun and of the messages that it receives. -/
def EthPort.conns (k : EthPort) : List Conn :=
  (((k.sends.filter fun (e : EthPost) => e.begun).map EthPost.conn) ++ k.msgs.map fun (m : EthMsg) => connOf m.pkt).eraseDups

/-- A port has a connection or may open it: it holds at most 4,096. -/
def EthPort.connects (k : EthPort) (c : Conn) : Bool := k.conns.contains c || decide (k.conns.length < 4096)

/-- Sends that wait, oldest first, begin as far as connections allow. -/
def EthPort.beginSends (k : EthPort) : EthPort :=
  (k.sends.filter fun e => !e.begun).foldl (fun k e =>
    if k.connects e.conn then { k with sends := updateFirst (fun x => x.id == e.id) (fun x => { x with begun := true }) k.sends } else k) k

def State.beginSends (s : State) (p : Fin 16) : State := s.setPort p (s.port p).beginSends

/-! ### Sends -/

/-- Data of an entry lie in class 0x0 or 0x1, at homes. -/
def State.ethRange (s : State) (a n : Nat) : Bool :=
  decide (bits a 48 16 ≤ 1) && (s.homeOf a).isSome && (s.homeOf (a + (n - 1))).isSome

/-- JobID and PIDonFEP fit their UET fields, of 24 and 12 bits (log 42). -/
def jobBad (v : Nat) : Bool := bits v 48 16 != 0 || bits v 24 8 != 0 || bits v 44 4 != 0

/-- A send entry is bad (status 4). -/
def State.sendBad (s : State) (l : List Word) : Bool :=
  let d (i : Nat) : Nat := (nth l i).toNat
  let op := bits (d 0) 0 8
  !(op == 1 || op == 2) || decide (2 ≤ bits (d 0) 8 2) || bits (d 0) 10 22 != 0 || jobBad (d 4) || (op == 1 && d 5 != 0) || d 7 != 0
    || !s.ethRange (d 1) (bits (d 0) 32 32)

/-- SEND_POSTED: the device takes the next entry of the send queue, in order; a bad one completes at once, and one that needs a further
connection waits while the port holds 4,096 (R385). -/
def execSendPosted (p : Fin 16) (s : State) : Out :=
  .next (
    let k := s.port p
    let n := s.index p 8
    if k.en && decide (s.index p 0 ≠ n) then
      let l := (List.range 8).map fun i => s.ethRead (k.sendAt n + 8 * i)
      let s1 := s.setIndex p 8 (n + 1)
      if s1.sendBad l then s1.complete p (doneEntry 1 4 0 (nth l 6) 0 0)
      else
        let e : EthPost := { dwords := l, id := s1.nextId }
        { s1.setPort p { k with sends := k.sends ++ [{ e with begun := k.connects e.conn }] } with nextId := s1.nextId + 1 }
    else s)

def EthPost.length (e : EthPost) : Nat := bits (nth e.dwords 0).toNat 32 32

/-- Packets of a message, of which each carries from 1 to 4,096 bytes of its data: the number is free within that when all of it has been
sent, and below it otherwise (R385, log 22). -/
def EthPost.packets (e : EthPost) (all : Bool) (free : Nat) : Nat :=
  let lo := if all then (e.length + 4095) / 4096 else 0
  lo + free % (max 1 e.length - lo + 1)

/-- A send leaves the list and completes, and its packets are counted; those that it has sent again are free (R386, log 22). A waiting send
may have its connection. -/
def State.endSend (s : State) (p : Fin 16) (e : EthPost) (status moved : Nat) : State :=
  let k := s.port p
  let again := Config.freeWord (s.free + 1)
  let s1 := s.setPort p { k with
    sends := k.sends.erase e
    txpkts := k.txpkts + BitVec.ofNat 64 (e.packets (status == 0) (Config.freeWord s.free).toNat) + again, retx := k.retx + again }
  ({ s1 with free := s.free + 2 }.complete p (doneEntry 1 status moved (nth e.dwords 6) 0 0)).beginSends p

/-- SEND_DONE: the peer has acknowledged every packet, or cannot be reached; bytes moved in the second case are free up to the
length. -/
def execSendDone (p : Fin 16) (id : Nat) (reached : Bool) (s : State) : Out :=
  .next (
    match (s.port p).sends.find? fun e => e.id == id && e.begun with
    | none => s
    | some e =>
      if reached then s.endSend p e 0 e.length
      else
        let moved := (Config.freeWord s.free).toNat % (e.length + 1)
        { s with free := s.free + 1 }.endSend p e 2 moved)

/-- NO_RECEIVE_TIMEOUT: no matching receive within 1 s (R385). -/
def execNoReceiveTimeout (p : Fin 16) (id : Nat) (s : State) : Out :=
  .next (
    match (s.port p).sends.find? fun e => e.id == id && e.begun with
    | none => s
    | some e => s.endSend p e 3 0)

/-! ### Receives -/

/-- A receive entry is bad (status 4). -/
def State.recvBad (s : State) (l : List Word) : Bool :=
  let d (i : Nat) : Nat := (nth l i).toNat
  let op := bits (d 0) 0 8
  !(op == 1 || op == 2) || bits (d 0) 8 24 != 0 || jobBad (d 4) || d 6 != 0 || d 7 != 0 || !s.ethRange (d 1) (bits (d 0) 32 32)

/-- RECEIVE_POSTED: the device takes the next entry of the receive queue, in order. -/
def execReceivePosted (p : Fin 16) (s : State) : Out :=
  .next (
    let k := s.port p
    let n := s.index p 24
    if k.en && decide (s.index p 16 ≠ n) then
      let l := (List.range 8).map fun i => s.ethRead (k.recvAt n + 8 * i)
      let s1 := s.setIndex p 24 (n + 1)
      if s1.recvBad l then s1.complete p (doneEntry 2 4 0 (nth l 5) 0 0)
      else { s1.setPort p { k with recvs := k.recvs ++ [{ dwords := l, id := s1.nextId }] } with nextId := s1.nextId + 1 }
    else s)

/-- A posted receive takes a message: the oldest receive of its job and process, and for a tagged one of its match bits outside the
ignore mask (R387). -/
def takes (e : EthPost) (k : Packet) : Bool :=
  let d (i : Nat) : Word := nth e.dwords i
  bits (d 0).toNat 0 8 == (if k.tagged then 2 else 1) && bits (d 4).toNat 0 32 == k.job.toNat && bits (d 4).toNat 32 16 == k.pid.toNat
    && (!k.tagged || (d 2 ^^^ k.matchBits) &&& ~~~(d 3) == 0)

/-- Bytes of a packet land at the home of the buffer, as far as it reaches (R106, R387). -/
def State.landBytes (s : State) (buf len off : Nat) (bytes : List Byte) : State :=
  (granuleWrites (buf + off) (bytes.take (len - off))).foldl (fun s w => match s.homeOf (8 * w.granule) with
    | some _ => s.setHome { w with granule := s.canonPa (8 * w.granule) / 8 }
    | none => s) s

/-- A packet of a message that is being received; one that came before has no effect. -/
def State.landPacket (s : State) (p : Fin 16) (m : EthMsg) (k : Packet) : State :=
  if m.got.contains k.offset then s
  else
    let s1 := s.landBytes (nth m.post 1).toNat (bits (nth m.post 0).toNat 32 32) k.offset k.bytes
    let q := s1.port p
    s1.setPort p { q with msgs := updateFirst (fun x => x.id == m.id) (fun x =>
      { x with got := x.got ++ [k.offset], moved := x.moved + k.bytes.length }) q.msgs }

/-- A packet of an ordered message keeps its place among those of its connection, refused or not (R387). -/
def EthPort.note (k : EthPort) (pkt : Packet) (refused : Option Nat) : EthPort :=
  if !pkt.rod then k
  else if k.ordered.any fun x => x.2.2.1 == pkt.msg then
    { k with ordered := updateFirst (fun x => x.2.2.1 == pkt.msg) (fun x => (x.1, x.2.1, x.2.2.1, refused)) k.ordered }
  else { k with ordered := k.ordered ++ [(pkt.src, pkt.srcPid, pkt.msg, refused)] }

/-- PACKET_ARRIVAL: a packet that needs transport security is dropped; the first one of a message takes a receive, and one without a
matching receive or a connection is refused and comes again (R385). A packet of a message that has completed has no effect but its
count. -/
def execPacketArrival (p : Fin 16) (pkt : Packet) (s : State) : Out :=
  .next (
    let k := s.port p
    if k.en && decide (k.lanes ≠ 0) then
      let k1 := { k with rxpkts := k.rxpkts + 1 }
      if pkt.secure then s.setPort p { k1 with drops := k.drops + 1 }
      else if k.past.contains pkt.msg then s.setPort p k1
      else
        match k.msgs.find? fun m => m.id == pkt.msg with
        | some m => (s.setPort p k1).landPacket p m pkt
        | none =>
          match (if k.connects (connOf pkt) then k.recvs.find? fun e => takes e pkt else none) with
          | none => s.setPort p (k1.note pkt (some s.time))
          | some e =>
            let m : EthMsg := { id := pkt.msg, post := e.dwords, pkt, got := [], moved := 0 }
            (s.setPort p { k1.note pkt none with recvs := k.recvs.erase e, msgs := k.msgs ++ [m] }).landPacket p m pkt
    else s)

/-- Messages of one connection over ROD complete in send order; one that has been refused for 1 s is given up by its sender (R385, R387). -/
def EthPort.firstOf (k : EthPort) (now : Nat) (m : EthMsg) : Bool :=
  !m.pkt.rod || match k.ordered.find? fun x => x.1 == m.pkt.src && x.2.1 == m.pkt.srcPid && (match x.2.2.2 with
      | none => true
      | some t => decide (now < t + 10 ^ 9)) with
    | some x => x.2.2.1 == m.id
    | none => true

/-- RECEIVE_DONE: every byte of a message has landed, and its completion is written (R385). -/
def execReceiveDone (p : Fin 16) (id : Nat) (s : State) : Out :=
  .next (
    let k := s.port p
    match k.msgs.find? fun m => m.id == id with
    | none => s
    | some m =>
      if m.moved = m.pkt.length ∧ k.firstOf s.time m then
        let len := bits (nth m.post 0).toNat 32 32
        ((s.setPort p { k with
          msgs := k.msgs.erase m, past := k.past ++ [m.id], ordered := k.ordered.filter fun x => x.2.2.1 != m.id }).beginSends p).complete p
          (doneEntry 2 (if len < m.pkt.length then 1 else 0) (min len m.pkt.length) (nth m.post 5) m.pkt.matchBits
            (BitVec.ofNat 64 (m.pkt.src.toNat % 2 ^ 32 + m.pkt.srcPid.toNat * 2 ^ 32)))
      else s)

end Sys2Proof.Machine
end

