-- ==== Sys2Proof/Machine/Tqu.lean ====
section
/-!
DEFINITION. The task queue unit: enq and its header checks (R208, R312 to R314), banks and the spill area (R316 to R318), and the
worst-case time of admission (R323, R325).
-/
namespace Sys2Proof.Machine

/-! ### Header checks (R32, R33, R313) -/

/-- The widths break R32. -/
def badWidths (ws : List Nat) (first last : Nat) : Bool :=
  let n := ws.sum
  decide (64 < n) || decide (((ws.dropWhile (· ≠ 0)).filter (· ≠ 0)).length ≠ 0)
    || decide (n < 64 ∧ (2 ^ n ≤ first ∨ 2 ^ n ≤ last))

/-- A queue declaration: its zero-marked bits, and a producer that names no other stage. -/
def badQueue (v stage count : Nat) : Bool :=
  bits v 56 7 != 0 || bits v 16 15 != 0 || bits v 0 3 != 0 ||
    (v.testBit 63 && (bits v 52 4 == stage || decide (count ≤ bits v 52 4)))

/-- A breach of R313; `own` is the ASID that a task-mode enq must name. -/
def Task.badHeader (t : Task) (own : Option (BitVec 13)) : Bool :=
  let n (i : Nat) : Nat := (t.dw i).toNat
  let slot (k : Nat) : Nat := bits (n (8 + k / 2)) (32 * (k % 2)) 32
  bits t.ctl 45 19 != 0 || bits t.ctl 0 17 != 0 || decide (4 < bits t.ctl 17 3) || decide (4 < t.npred)
    || ((List.range 4).any fun k => decide (t.npred ≤ k) && slot k != 0)
    || bits (n 1) 42 22 != 0 || bits (n 5) 32 32 != 0 || bits (n 7) 30 34 != 0 || bits (n 12) 44 20 != 0 || bits (n 13) 24 40 != 0
    || badWidths t.widths t.first t.last || decide (t.last < t.first) || decide (t.textWords ≤ t.entry)
    || decide (t.commands < 2) || decide (t.w < 1 ∨ 4 < t.w) || decide (t.h < 1 ∨ 5 < t.h)
    || (!t.bounded && n 10 != 0) || (t.bounded && t.bound == 0)
    || t.stages == 0 || (t.group == 0 && t.stages != 1) || decide (t.stages ≤ t.stageNo)
    || badQueue (n 14) t.stageNo t.stages || badQueue (n 15) t.stageNo t.stages
    || (match own with
      | some a => decide (t.asid ≠ a)
      | none => false)

/-! ### Banks and the spill area (R316 to R318) -/

def Task.bank (t : Task) : Nat := t.prio / 16

/-- Tasks that the TQU of a die holds in a bank, spilled or resident. -/
def State.inBank (s : State) (d : Fin 4) (b : Nat) (spilled : Bool) : List Task :=
  s.tasks.filter fun t => decide (t.home = d) && t.bank == b && t.spilled == spilled && !t.st.isEnd

/-- The lowest entry of the spill area that no task takes. -/
def State.spillFree (s : State) (d : Fin 4) : Option Nat :=
  (List.range (s.tquOf d).capacity).find? fun i => !(s.spilledOf d).any fun t => t.spillSlot == i

/-- A TQU accepts a task, or answers with code 2 (R318). -/
def State.acceptTask (s : State) (t : Task) : Nat × State :=
  let d := t.die
  let q := s.tquOf d
  let accepted (s : State) (t : Task) : State :=
    { s.setTqu d { s.tquOf d with accepted := (s.tquOf d).accepted + 1 } with tasks := s.tasks ++ [t], nextId := s.nextId + 1 }
  if (s.inBank d t.bank false).length < 256 ∧ (s.inBank d t.bank true).isEmpty then (0, accepted s t)
  else
    match s.spillFree d with
    | none => (2, s.tqError d 2 0)
    | some i =>
      let t' : Task := { t with spilled := true, spillSlot := i }
      match s.writeSpill t' with
      | none => (2, s.tqError d 1 (q.spillAt i))
      | some s1 => (1, accepted s1 t')

/-- The dwords of the header that the TQU reads (R312). -/
def State.readHeader (s : State) (pas : List Nat) : List Word × State :=
  pas.foldl (fun r pa => (List.range 8).foldl (fun r i =>
    let v := r.2.readFor r.2.me.task (dieOf r.2.cur) (pa / 8 + i)
    (r.1 ++ [v.1], v.2)) r) ([], s)

/-- The header goes to the TQU; the answer is written, and the tag taken when the task is queued (R208). -/
def State.sendHeader (s : State) (d : Reg) (addr : Word) (tag : Tag) (pas : List Nat) : State :=
  let h := s.readHeader pas
  let s1 := h.2
  let t0 : Task :=
    { id := 0, die := 0, hdr := h.1, hdrAddr := addr, by' := s1.cur, tag, hdrAsid := s1.me.asid.truncate 13, user := !s1.sv
      parent := s1.me.task, asid := BitVec.ofNat 13 (bits (nth h.1 0).toNat 32 13), order := s1.nextId }
  let done (code : Nat) (id : BitVec 32) (s : State) : State := (s.wr d (w64 (code + id.toNat * 2 ^ 32))).advance
  if t0.badHeader (if s1.sv then none else some (s1.me.asid.truncate 13)) then done 3 0 s1
  else if !s1.sv && decide (s1.me.prio.toNat < t0.prio) then done 4 0 s1
  else
    let sel := bits t0.ctl 17 3
    let die : Fin 4 := if h : sel < 4 then ⟨sel, h⟩ else dieOf s1.cur
    let id : BitVec 32 := BitVec.ofNat 32 (die.val * 2 ^ 30 + (s1.tquOf die).accepted.toNat)
    let r := s1.acceptTask { t0 with id, die }
    if r.1 ≤ 1 then done r.1 id (r.2.setMe (r.2.me.takeTag tag)) else done r.1 0 r.2

/-- Physical addresses of the two lines of a header as the TQU reads them, or the address of one that faults. -/
def State.headerAt (s : State) (a : Nat) : Except Nat (List Nat) :=
  let at' (v : Nat) : Option Nat := match s.translate (dieOf s.cur) (s.me.asid.truncate 13) v false (!s.sv) with
    | .ok pa => some pa
    | .error _ => none
  match at' a, at' (a + 64) with
  | some pa, some pb => .ok [pa, pb]
  | some _, none => .error (a + 64)
  | none, _ => .error a

/-- The TQU's read of a header is withheld: the enq waits for a resume at its core (R335, log 84). -/
def State.holdHeader (s : State) (va : Nat) : State :=
  (s.setMe { s.me with hdrHeld := true, hdrFaulted := true }).report
    (eventRec 4 (dieOf s.cur) (regionNo (s.ownRegion s.cur)) (s.me.asid.truncate 13 : BitVec 13).toNat (taskNo s.me.task)
      (BitVec.ofNat 64 va) (BitVec.ofNat 64 (slotOf s.cur).val))

/-- An enq whose checks have passed: the waits, the release of R115, the read of the header and the answer. -/
def State.launch (s : State) (d : Reg) (a m : Word) (tag : Tag) : State :=
  let s1 := s.drainStores s.cur
  if !s1.orderEmpty s.cur || decide (255 ≤ getF s1.me.tagCount tag) || s1.me.hdrHeld then s1
  else
    let es := s1.maskEngines m
    match s1.coreRelease (.core s1.cur :: es.map Party.stream) (es.map fun a => (a, (s1.elem a).se.rowsIssued)) with
    | .wait s2 => s2
    | .perform s2 =>
      match s2.headerAt a.toNat with
      | .ok pas => (s2.setMe { s2.me with hdrFaulted := false }).sendHeader d a tag pas
      | .error va => s1.holdHeader va

/-- ENQ (R208): the checks at issue, then the launch. One that waits in its release has passed them. -/
def execEnq (d h m : Reg) (tag : Tag) (s : State) : Out :=
  .next (
    let a := s.rd h
    if s.me.rel.isSome then s.launch d a (s.rd m) tag
    else
      match s.checkRecord a 64 false, s.checkRecord (a + 64) 8 false, s.checkRecord (a + 128) 8 true with
      | .error t, _, _ => s.trap t
      | .ok _, .error t, _ => s.trap t
      | .ok _, .ok _, .error t => s.trap t
      | .ok _, .ok _, .ok _ => s.launch d a (s.rd m) tag)

/-- A read of a spill entry fails: nothing is homed there, or one of its granules is marked uncorrectable (R318, R394). -/
def State.spillLost (s : State) (pa : Nat) : Bool :=
  (s.homeOf pa).isNone || s.marked.any fun g => decide (s.canonPa pa / 8 ≤ g) && decide (g < s.canonPa pa / 8 + 32)

/-- SPILL_REFILL: a free entry of a bank takes the oldest spilled one; a marked one fails (R316, R318, R319). -/
def execSpillRefill (die : Fin 4) (bank : Fin 16) (s : State) : Out :=
  .next (
    let q := s.tquOf die
    match s.inBank die bank.val true with
    | [] => s
    | t :: _ =>
      if q.refillHeld.contains bank.val || decide (256 ≤ (s.inBank die bank.val false).length) then s
      else
        if s.spillLost (q.spillAt t.spillSlot) then
          (s.setTqu die { q with refillHeld := q.refillHeld ++ [bank.val] }).tqError die 3 (q.spillAt t.spillSlot)
        else
          let s1 := s.setTask { t with spilled := false }
          if t.predFailed then s1.failTask t.id 2 0 0 else s1)

/-- TQ_RESUME: TQCTL bit 0 restarts the refills that an error holds (R317). -/
def execTqResume (die : Fin 4) (s : State) : Out := .next (s.setTqu die { s.tquOf die with refillHeld := [] })

/-- TQERR_READ: the register is cleared on read (R317). -/
def execTqerrRead (die : Fin 4) (s : State) : Out :=
  .next { s.setTqu die { s.tquOf die with tqErr := 0 } with hostOut := [(s.tquOf die).tqErr] }

/-! ### Worst-case time (R323, R325) -/

/-- Twenty times the clock of a state in cycles per ns: 1.05, 0.7 and 0.5 GHz (R389). -/
def clockTwenty (st : Fin 4) : Nat :=
  match st with
  | 0 => 21
  | 1 => 14
  | _ => 10

/-- Cf, Cw and ladder requests of stages placed together (R325). -/
def compFigures (ts : List Task) : Nat × Nat × Nat :=
  ((ts.map Task.cf).sum, (ts.map Task.cw).foldl max 0, (ts.map Task.ladders).sum)

/-- T_comp + T_lad over `n` work identifiers in ns, as a fraction: numerator over `clockTwenty`. -/
def compLad (cf cw lad n : Nat) : Nat × Nat := ((cf + n * cw) * 20, n * lad * 8640 * 20)

/-- T for stages placed together, with the largest T_wait, rounded up to a whole ns; none where it fits no bound (R323, R325). -/
def worstCase (ts : List Task) (wait : Nat) (st : Fin 4) : Option Nat :=
  let n := (ts.map Task.range).foldl max 0
  let sh := (ts.map Task.share).sum
  let bw := (ts.map Task.bw).sum
  let f := clockTwenty st
  let den := 672 * f * (4600 * max sh 1)
  let load := 1000 * den + 10 * ((ts.map fun t => max (4 * t.commands) t.textWords).foldl max 0) * (den / 672)
  let g := compFigures ts
  let c := compLad g.1 g.2.1 g.2.2 n
  let mem := n * bw * 256 * (den / (4600 * max sh 1))
  if sh = 0 ∧ 0 < n * bw then none
  else some (wait + (ts.map Task.budget).foldl max 0 + ceilDiv (load + max (c.1 * (den / f)) mem + c.2 * (den / f)) den)

/-- A bounded task that has been admitted and has not ended. -/
def Task.admittedNow (t : Task) : Bool :=
  t.bounded && (match t.st with
    | .placing | .running | .drained | .frozen => true
    | .queued | .ready | .retired | .refused | .failed => false)

/-- Shares of the bounded tasks admitted on a die. -/
def State.sharesOf (s : State) (d : Fin 4) : Nat :=
  ((s.tasks.filter fun t => decide (t.die = d) && t.admittedNow).map Task.share).sum

/-- Time of a task that counts against its bound so far: since its start, less the exclusions of R1. -/
def State.elapsed (s : State) (t : Task) : Int :=
  match t.st with
  | .running | .drained | .frozen =>
    Int.ofNat (s.time - t.start) - Int.ofNat (t.faultTime - t.faultPrior) - Int.ofNat t.missOver
  | .queued | .ready | .placing | .retired | .refused | .failed => 0

/-- Remaining worst-case time (R326). -/
def State.remaining (s : State) (t : Task) : Nat := (Int.ofNat t.bound - t.slack - s.elapsed t).toNat

end Sys2Proof.Machine
end

