-- ==== Sys2Proof/Machine/Select.lean ====
section
/-!
DEFINITION. Readiness (R319), candidate placements (R321, R325), selection (R320) and placing (R322).
-/
namespace Sys2Proof.Machine

/-! ### Readiness (R37, R319) -/

/-- What a predecessor says of its dependent: satisfied, not yet, or failed. -/
inductive PredState where
  | met | open' | failed
  deriving DecidableEq, Repr

def State.predState (s : State) (id : BitVec 32) : PredState :=
  match s.task? id with
  | some t =>
    match t.st with
    | .retired => if t.rels.all s.gathered then .met else .open'
    | .refused | .failed => .failed
    | .queued | .ready | .placing | .running | .drained | .frozen => .open'
  | none =>
    let d : Fin 4 := ⟨id.toNat / 2 ^ 30 % 4, by omega⟩
    match (s.tquOf d).history.reverse.find? fun h => h.1 == id with
    | some h => if h.2 then .met else .failed
    | none => .met

/-- A resident Queued task becomes Ready, or fails with a predecessor. -/
def State.readyTask (s : State) (id : BitVec 32) : State :=
  match s.task? id with
  | none => s
  | some t =>
    if decide (t.st = .queued) && !t.spilled then
      let ps := t.preds.map s.predState
      if ps.contains .failed then s.failTask id 2 0 0
      else if ps.all (· == .met) then s.setTask { t with st := .ready } else s
    else s

def State.readyTasks (s : State) (d : Fin 4) : State :=
  ((s.tasks.filter fun t => decide (t.die = d)).map (·.id)).foldl (fun s id => s.readyTask id) s

/-! ### Regions, cores and blocks of a die -/

/-- A task is on its way to a region. -/
def State.awaited (s : State) (d : Fin 4) (r : Fin 16) : Bool :=
  s.tasks.any fun t => decide (t.die = d) && decide (t.st = .placing) && decide (t.region = some r)

/-- A region that may be loaded anew, or dissolved. -/
def State.idleRegion (s : State) (d : Fin 4) (r : Fin 16) : Bool :=
  let g := s.region d r
  g.present && g.task.isNone && decide (g.phase = .idle) && !s.awaited d r

/-- A free core: no dispatcher, not held, without task, prefetched task or busy region (R23, R321). -/
def State.freeCore (s : State) (d : Fin 4) (k : Fin 16) : Bool :=
  let c := s.core (coreOf d k)
  !s.host.dispatcher (coreOf d k) && decide (c.run ≠ .held) && c.task.isNone && c.prefetch.isEmpty
    && (match ownedIndex (s.die d) k with
      | some r => s.idleRegion d r
      | none => true)

def State.freeCores (s : State) (d : Fin 4) : List (Fin 16) := (List.finRange 16).filter (s.freeCore d)

/-- A block is on and in service (R391). -/
def State.blockUsable (s : State) (d : Fin 4) (b : Nat) : Bool :=
  bits (s.die d).blkpwr.toNat (2 * b) 2 == 0 && !(s.die d).blkstat.getLsbD b && !(s.die d).blkstat.getLsbD (32 + b)

/-- Blocks of a rectangle (R11). -/
def rectBlocks (bx by' w h : Nat) : List Nat :=
  (List.range h).flatMap fun j => (List.range w).map fun i => 4 * (by' + j) + bx + i

def Frame.blocks (f : Frame) : List Nat := rectBlocks f.bx f.by' f.w f.h
def Region.blocks (g : Region) : List Nat := rectBlocks g.bx g.by' g.w g.h

/-! ### What is known of a task's image (R321, R322, R358, R361) -/

/-- What a selection reads of an image: its placement block and its commands, none where they cannot be read. -/
structure Sketch where
  task : Task
  place : Option Placement
  words : List Nat

def State.sketch (s : State) (t : Task) : Sketch :=
  { task := t, place := s.placement t.die t.asid t.imageAt, words := (s.seenWords t.die t.asid t.imageAt t.commands).getD [] }

def Sketch.portable (p : Sketch) : Bool := p.place.any (·.portable)

/-- A placement whose ring sites and sides suit the image (R22, R276, R321). An image that cannot be read asks for none; the loader
refuses it (R322). -/
def Sketch.fits (p : Sketch) (f : Frame) : Bool :=
  let inDie := decide (f.bx + f.w ≤ 4) && decide (f.by' + f.h ≤ 5)
  let touches := f.bx == 0 || f.by' == 0 || f.bx + f.w == 4 || f.by' + f.h == 5
  let shape := match p.place with
    | some q => q.shapes.all (minimumMet f.w f.h)
    | none => true
  if p.portable then inDie && f.w == 2 && f.h == 2 && (if f.reflect then f.by' + 2 == 5 else f.by' == 0) && shape
  else
    let l := cfgItems p.words
    let named := freeSites f.w f.h l
    inDie && touches && shape && l.all fun c => !c.isWrite || f.sites.kind c.x c.y == named.kind c.x c.y

/-- The frame of a task at a NW block. -/
def Sketch.frameAt (p : Sketch) (b : Nat) : Frame :=
  { bx := b % 4, by' := b / 4, w := p.task.w, h := p.task.h, portable := p.portable, reflect := p.portable && b / 4 != 0 }

/-- What the loader has read of a task: its placement block, its image and its text. -/
structure Prepared where
  place : Placement
  words : List Nat
  text : List Nat

/-- The loader reads and checks a task's image and text: their contents, or the refusal code (R322, R359, R361). -/
def State.prepare (s : State) (t : Task) : Except Nat Prepared :=
  if 64512 < t.textWords then .error 13
  else
    match s.placement t.die t.asid t.imageAt, s.seenWords t.die t.asid t.imageAt t.commands with
    | some p, some ws =>
      match imageRefusal (freeSites t.w t.h (cfgItems ws)) p.portable (declaredKinds p.shapes) ws,
          s.seenWords t.die t.asid t.textAt t.textWords with
      | some c, _ => .error c.1
      | none, some text => .ok { place := p, words := ws, text }
      | none, none => .error 18
    | _, _ => .error 18

/-- A saved task goes back: frozen only under the same transform (R340); the ring kinds are those of `fits`. -/
def Task.mayReturn (t : Task) (f : Frame) : Bool :=
  match t.st, t.savedFrame with
  | .frozen, some g => g.w == f.w && g.h == f.h && g.portable == f.portable && g.reflect == f.reflect
  | _, _ => true

/-! ### Candidates (R321) -/

structure Candidate where
  kind : Nat
  frame : Frame
  region : Option (Fin 16)
  wait : Nat
  deriving DecidableEq, Repr

/-- The text of a task, as a core's code memory keeps it (R359). -/
def Task.textKey (t : Task) : Word × Nat × BitVec 13 := (BitVec.ofNat 64 t.textAt, t.textWords, t.asid)

/-- What the loader must read when a region keeps the image: the text, unless the core keeps it (R39, R359, log 148). -/
def State.prepareKept (s : State) (t : Task) (k : CoreState) : Except Nat Prepared :=
  let text := if k.text = some t.textKey then some [] else s.seenWords t.die t.asid t.textAt t.textWords
  match text with
  | some ws => .ok { place := { portable := false, hazards := [], relocs := [], shapes := [] }, words := [], text := ws }
  | none => .error 18

/-- Key of a kept image (R39). -/
def Task.imageKey (t : Task) : Word × Nat × BitVec 13 := (t.dw 6, t.commands, t.asid)

/-- A region is the one that a frame names. -/
def Region.at' (g : Region) (f : Frame) : Bool := g.bx == f.bx && g.by' == f.by' && g.w == f.w && g.h == f.h

/-- The candidate of one kind at a NW block. -/
def State.candidate (s : State) (p : Sketch) (kind b : Nat) : Option Candidate :=
  let t := p.task
  let d := t.die
  let f := p.frameAt b
  let here := (List.finRange 16).find? fun r => (s.region d r).present && (s.region d r).at' f
  let usable := f.blocks.all (s.blockUsable d)
  let free := !(s.freeCores d).isEmpty
  let kept (r : Fin 16) : Bool := (s.region d r).image == some t.imageKey && (s.region d r).reflect == f.reflect
  let clear := (List.finRange 16).all fun r =>
    !(s.region d r).present || s.idleRegion d r || (s.region d r).blocks.all fun x => !f.blocks.contains x
  if !p.fits f || !t.mayReturn f || !usable then none
  else
    match kind with
    | 1 =>
      match here with
      | some r => if s.idleRegion d r && kept r && free then some { kind, frame := f, region := some r, wait := 0 } else none
      | none => none
    | 2 =>
      if clear && free && !(match here with
          | some r => kept r
          | none => false) then some { kind, frame := f, region := here, wait := 0 } else none
    | 3 =>
      match here with
      | some r =>
        match (s.region d r).task.bind s.task?, (s.region d r).owner with
        | some o, some k =>
          if !o.bounded && decide (o.st = .running) && decide ((s.region d r).phase = .running)
              && (s.core (coreOf d k)).prefetch.isEmpty && (t.bounded || decide (o.prio < t.prio)) then
            some { kind, frame := f, region := some r, wait := s.drainLimit d + 4000 * t.blocks }
          else none
        | _, _ => none
      | none => none
    | _ =>
      match here with
      | some r =>
        match (s.region d r).task.bind s.task?, (s.region d r).owner with
        | some o, some k =>
          let ahead := (s.core (coreOf d k)).prefetch
          if t.bounded && o.bounded && decide (o.st = .running) && decide (ahead.length < 2) then
            some { kind, frame := f, region := some r
                   wait := s.remaining o + (ahead.map fun id => match s.task? id with
                     | some u => s.remaining u
                     | none => 0).sum }
          else none
        | _, _ => none
      | none => none

/-- The list of R321. -/
def State.candidates (s : State) (p : Sketch) : List Candidate :=
  [1, 2, 3, 4].flatMap fun k => (List.range 20).filterMap fun b => s.candidate p k b

/-- Two placements share a block, a region's core or a prefetch entry (R325). -/
def Candidate.clash (a b : Candidate) : Bool := a.frame.blocks.any fun x => b.frame.blocks.contains x

/-- The first combination of one placement per stage, in lexicographic order, that shares nothing, has enough free cores, and
passes a test (R325). -/
def combine (cores : Nat) (ok : List Candidate → Bool) : List (List Candidate) → List Candidate → Option (List Candidate)
  | [], acc => if ok acc then some acc else none
  | l :: rest, acc => l.findSome? fun c =>
      if acc.any c.clash || decide (cores < ((acc ++ [c]).filter fun x => decide (x.kind ≤ 2)).length) then none
      else combine cores ok rest (acc ++ [c])

/-! ### Placing (R322) -/

/-- Dissolves idle regions: they are no regions any more. -/
def State.dissolve (s : State) (d : Fin 4) (rs : List (Fin 16)) : State :=
  rs.foldl (fun s r => (s.writeBack d r).setRegion d r {}) s

/-- Makes a region at a frame, over idle ones, with the lowest number that is left; where none is, an idle region is dissolved for
its number (R22), but none of `keep`, which stages of the same group take (R325). -/
def State.makeRegion (s : State) (d : Fin 4) (f : Frame) (keep : List (Fin 16)) : Option (Fin 16 × State) :=
  let under := (List.finRange 16).filter fun r => s.idleRegion d r && (s.region d r).blocks.any fun x => f.blocks.contains x
  let s1 := s.dissolve d under
  let spare := (List.finRange 16).find? fun r => !(s1.region d r).present
  match spare.orElse fun _ => (List.finRange 16).find? fun r => s1.idleRegion d r && !keep.contains r with
  | none => none
  | some r => some (r, (s1.dissolve d [r]).setRegion d r { present := true, bx := f.bx, by' := f.by', w := f.w, h := f.h })

/-- The region takes its core; an idle region that the core owned is dissolved, since a region has one owner and a core one region (R23);
one of `keep` stands, and gets its own core with its stage (R325). -/
def State.giveCore (s : State) (d : Fin 4) (r : Fin 16) (k : Fin 16) (keep : List (Fin 16)) : State :=
  let had := (List.finRange 16).filter fun q => decide ((s.region d q).owner = some k) && decide (q ≠ r)
  let s1 := (s.dissolve d (had.filter fun q => !keep.contains q))
  let s1 := (had.filter fun q => keep.contains q).foldl (fun s q => s.setRegion d q { s.region d q with owner := none }) s1
  s1.setRegion d r { s1.region d r with owner := some k }

/-- What an admission has settled: T, and the figures that it was computed with (R323, R325). -/
structure Admission where
  time : Nat
  comp : Nat × Nat × Nat

/-- One task takes its placement: into the prefetch buffer of the region's core (R321, R322). A bounded one that is admitted now gets its
slack (R326). Regions of `keep` are for later stages of its group. -/
def State.placeTask (s : State) (t : Task) (c : Candidate) (admitted : Option Admission) (keep : List (Fin 16) := []) : State :=
  let d := t.die
  let found : Option (Fin 16 × State) := match c.kind, c.region with
    | 2, _ => s.makeRegion d c.frame keep
    | _, some r => some (r, s)
    | _, none => none
  match found with
  | none => s
  | some (r, s1) =>
    let s2 := if c.kind ≤ 2 then (match s1.freeCores d with
      | k :: _ => s1.giveCore d r k keep
      | [] => s1) else s1
    match (s2.region d r).owner with
    | none => s2
    | some k =>
      let t0 : Task := { t with st := .placing, region := some r, core := some k, frame := some c.frame }
      let t' : Task := match admitted with
        | some n => { t0 with admitted := n.time, comp := n.comp, slack := Int.ofNat t.bound - Int.ofNat n.time }
        | none => t0
      let z := s2.core (coreOf d k)
      (s2.setTask t').setCore (coreOf d k) { z with prefetch := z.prefetch ++ [t.id] }

/-- The open occupants of the regions that placements of kind 3 take are drained (R321). -/
def State.preemptFor (s : State) (d : Fin 4) (l : List Candidate) : State :=
  l.foldl (fun s c =>
    match c.kind, c.region with
    | 3, some r =>
      (match (s.region d r).task.bind s.task? with
      | some o => s.askDrain o 0
      | none => s)
    | _, _ => s) s

/-- A queue declaration names an MT of the consumer's own region (R325). -/
def Task.queuesOwned (t : Task) (f : Frame) : Bool :=
  t.queues.all fun q =>
    let p := f.site (bits q 11 5) (bits q 6 5)
    f.sites.kind p.1 p.2 == .mt

/-! ### Selection (R320) -/

/-- A task may be selected now. -/
def Task.selectable (t : Task) : Bool :=
  !t.spilled && (match t.st with
    | .ready | .drained => true
    | .frozen => !t.needService
    | .queued | .placing | .running | .retired | .refused | .failed => false)

/-- The stages of a task's group that have not ended. -/
def State.groupOf (s : State) (t : Task) : List Task :=
  s.tasks.filter fun u => decide (u.home = t.home) && u.group == t.group && !u.st.isEnd

/-- A stage runs, and no pre-emption of it is in progress, or is on its way to its region; `d` is its die. -/
def State.steady (s : State) (d : Fin 4) (u : Task) : Bool :=
  decide (u.die = d) && (match u.st, u.region with
    | .placing, _ => true
    | .running, some r => decide ((s.region u.die r).phase = .running)
    | _, _ => false)

/-- The stages placed with a task: its whole group, Ready; or, of a saved group, every stage that does not run (R306, R320, R325,
log 53). -/
def State.stagesOf (s : State) (d : Fin 4) (t : Task) : Option (List Task) :=
  if t.group = 0 then some [t]
  else
    let l := (List.range 16).filterMap fun i => (s.groupOf t).find? fun u => u.stageNo == i
    if t.st = .ready then (if l.length = t.stages ∧ l.all (fun u => decide (u.st = .ready) && !u.spilled) then some l else none)
    else
      let back := l.filter fun u => u.selectable
      if l.all (fun u => u.selectable || s.steady d u) then some back else none

/-- Every stage fails with a cause; for cause 4 with the refusal code and, in a group, the refused stage (R315, R325). -/
def State.failStages (s : State) (ts : List Task) (cause code stage : Nat) : State :=
  ts.foldl (fun s t => s.failTask t.id cause code (if t.group = 0 then 0 else stage)) s

/-- What the loader refuses of stages that have their placements: the code and the stage (R322, R325). -/
def State.refusedStage (s : State) : List (Task × Candidate) → Option (Nat × Nat)
  | [] => none
  | (t, c) :: rest =>
    match s.prepare t with
    | .error e => some (e, t.stageNo)
    | .ok _ => if t.queuesOwned c.frame then s.refusedStage rest else some (16, t.stageNo)

/-- Regions that stages take with the image they hold. -/
def keptBy (l : List (Task × Candidate)) : List (Fin 16) := l.filterMap fun x => if x.2.kind = 1 then x.2.region else none

/-- The stages of a group take their placements in turn (R325). -/
def State.placeStages (s : State) (adm : Option Admission) : List (Task × Candidate) → State
  | [] => s
  | x :: rest => (s.placeTask x.1 x.2 adm (keptBy rest)).placeStages adm rest

/-- Stages take their placements, and the loader translates what they name; one that it refuses fails the group, else the occupants of
their regions make way (R322, R325). -/
def State.placeAll (s : State) (d : Fin 4) (ts : List Task) (l : List Candidate) (adm : Option Admission) : State :=
  let s1 := s.placeStages adm (ts.zip l)
  match s1.refusedStage (ts.zip l) with
  | some e => s1.failStages ts 4 e.1 e.2
  | none => s1.preemptFor d l

/-- What a selection of one task comes to. -/
inductive Chosen where
  /-- Placed: selection ends. -/
  | placed (s : State)
  /-- Nothing more to do for it: the next one, and whether it was skipped for want of a placement. -/
  | next (s : State) (skipped : Bool)

/-- Blocks that are not out of service (R391). -/
def State.inService (s : State) (d : Fin 4) (b : Nat) : Bool := !(s.die d).blkstat.getLsbD (32 + b)

/-- The geometry of a task has a placement on the die, free or not (R36, R320). -/
def State.placeable (s : State) (d : Fin 4) (p : Sketch) : Bool :=
  (List.range 20).any fun b => p.fits (p.frameAt b) && (p.frameAt b).blocks.all (s.inService d)

/-- The stages of a group differ in their range or field widths (R325). -/
def mixedRanges (t : Task) (ts : List Task) : Bool := ts.any fun u => decide (u.first ≠ t.first ∨ u.last ≠ t.last ∨ u.widths ≠ t.widths)

/-- A bounded task, or every stage of a bounded group, is refused (R320). -/
def State.refuseAll (s : State) (d : Fin 4) (ts : List Task) : State :=
  ts.foldl (fun s u => (s.setDie d { s.die d with refusals := (s.die d).refusals + 1 }).failTask u.id 1 0 0) s

/-- The body of R320's loop on die `d`, for a task and the stages placed with it. A saved task has been admitted before. -/
def State.choose (s : State) (d : Fin 4) (t : Task) (stages : List Task) : Chosen :=
  let ts := stages.map fun u => ({ u with die := d } : Task)
  let ps := ts.map s.sketch
  let fresh := t.st == .ready
  if fresh && (mixedRanges t ts || !ps.all (s.placeable d)) then .next (s.failStages ts 5 0 0) false
  else
    let lists := ps.map s.candidates
    let cores := (s.freeCores d).length
    match combine cores (fun _ => true) lists [] with
    | none => .next s (!t.bounded)
    | some l0 =>
      if !t.bounded || !fresh then .placed (s.placeAll d ts l0 none)
      else
        let wait (l : List Candidate) : Nat := (l.map Candidate.wait).foldl max 0
        let time (l : List Candidate) : Option Nat := worstCase ts (wait l) (s.die d).clk
        let fit (l : List Candidate) : Bool := match time l with
          | some n => ts.all fun u => decide (n ≤ u.bound)
          | none => false
        match combine cores fit lists [] with
        | none => .next (s.refuseAll d ts) false
        | some l =>
          if 256 < s.sharesOf d + (ts.map Task.share).sum then .next s false
          else .placed (s.placeAll d ts l ((time l).map fun n => { time := n, comp := compFigures ts }))

/-- The loop of R320 over resident tasks by priority, oldest first; `skipped` is the order of the earliest open task passed over. -/
def State.selectLoop (s : State) (d : Fin 4) (skipped : Option Nat) : List (BitVec 32) → State
  | [] => s
  | id :: rest =>
    match s.task? id with
    | none => s.selectLoop d skipped rest
    | some t =>
      match (if t.selectable then s.stagesOf d t else none) with
      | none => s.selectLoop d skipped rest
      | some ts =>
        let late := match skipped with
          | some n => !t.bounded && decide (n < t.order)
          | none => false
        if late then s.selectLoop d skipped rest
        else
          match s.choose d t ts with
          | .placed s' => s'
          | .next s' true => s'.selectLoop d (some (match skipped with
            | some n => min n t.order
            | none => t.order)) rest
          | .next s' false => s'.selectLoop d skipped rest

/-- A die may take a task: its own, or an open one that a pre-emption has saved on another (R306, R340, log 131). -/
def Task.eligible (t : Task) (d : Fin 4) : Bool := decide (t.die = d) || (!t.bounded && (t.st == .drained || t.st == .frozen))

/-- TQU_SELECT. -/
def execTquSelect (die : Fin 4) (s : State) : Out :=
  .next (
    if s.clockOn die then
      let s1 := (s.settleTasks die).readyTasks die
      s1.selectLoop die none ((List.range 256).reverse.flatMap fun p =>
        (s1.tasks.filter fun t => t.eligible die && t.prio == p).map (·.id))
    else s)

end Sys2Proof.Machine
end

