-- ==== Sys2Proof/Machine/Placement.lean ====
section
/-!
DEFINITION. Loading a region for a task (R36, R343, R359 to R361), task start (R162, R39), restore (R340 to R342, R213), retirement (R36,
R38, R186), and the wake watchdog (R344).
-/
namespace Sys2Proof.Machine

/-! ### Code memory (R359, R360) -/

/-- Text at word 0 upward, firmware from word 0xFC00 upward kept; what lies between reads as its default. -/
def textCode (ws : List Nat) (old : Map Word32) : Map Word32 :=
  (ws.zipIdx.map fun w => (w.2, BitVec.ofNat 32 w.1)) ++ old.filter fun c => decide (64512 ≤ c.1)

/-! ### Task start (R162, R39, R115, R116) -/

/-- Registers of a core at a task's start. -/
def CoreState.started (k : CoreState) (t : Task) (code : Map Word32) : CoreState :=
  { ({} : CoreState) with
    status := 1, asid := t.asid.zeroExtend 64, prio := w64 t.prio, wid := t.dw 2, widw := t.dw 1, pc := w64 (4 * t.entry)
    code, text := some t.textKey, run := .running, task := some t.id, prefetch := k.prefetch.filter (· ≠ t.id), collCount := k.collCount }

/-- Every element of the region back to its reset state under the configuration that it keeps (R39). -/
def State.restartRegion (s : State) (d : Fin 4) (r : Fin 16) : State :=
  let s0 := s.writeBack d r
  let s1 := ((s0.blankRegion d r fun e => { e with fresh := true }).clearEdges d r).mapTiles d r fun _ => {}
  s1.setRegion d r { s1.region d r with committed := false, oldMc := s1.mtControls d r }

/-! ### Resuming a core (R213) -/

/-- Re-grants one shape register; none where its request no longer meets its granule. -/
def ShapeReg.regrant (h : ShapeReg) (w hh : Nat) : Option ShapeReg :=
  let kind := h.kind.toNat
  match shapeGrant kind w hh h.reqM.toNat h.reqN.toNat h.reqK.toNat with
  | .error _ => none
  | .ok g =>
    let mx := shapeMax kind w hh
    some { h with
      grantM := BitVec.ofNat 16 g.1, grantN := BitVec.ofNat 16 g.2.1, grantK := BitVec.ofNat 16 g.2.2
      maxM := BitVec.ofNat 16 mx.1, maxN := BitVec.ofNat 16 mx.2.1, maxK := BitVec.ofNat 16 mx.2.2 }

/-- A grant has changed. -/
def ShapeReg.differs (a b : ShapeReg) : Bool := a.grantM != b.grantM || a.grantN != b.grantN || a.grantK != b.grantK

/-- One shape register of a resumed core. -/
def CoreState.regrantOne (k : CoreState) (w h : Nat) (i : Fin 8) : Option CoreState :=
  let old := getF k.sh i
  if !old.valid then some k
  else
    (old.regrant w h).map fun new =>
      if new.differs old then
        let kind := old.kind.toNat
        let g := (new.grantM.toNat, new.grantN.toNat, new.grantK.toNat)
        let k1 : CoreState := { k with sh := setF k.sh i { new with pub := false }, status := putBit k.status 8 true }
        let k2 := k1.writeG (Fin.ofNat 32 old.ra.toNat) (grantWord kind g)
        if isMatrixKind kind then k2.writeG (Fin.ofNat 32 old.rb.toNat) (w64 g.2.2) else k2
      else { k with sh := setF k.sh i new }

/-- The core of a drained task on its new region; none where the region is refused. -/
def CoreState.regrant (k : CoreState) (w h : Nat) : Option CoreState :=
  let all := (List.finRange 8).foldl (fun o i => o.bind fun z => z.regrantOne w h i) (some k)
  all.map fun z =>
    let changed := (List.finRange 8).filter fun i => (getF z.sh i).differs (getF k.sh i)
    match changed.foldl (fun (o : Option ShapeReg) i => match o with
      | some b => if b.ran < (getF z.sh i).ran then some (getF z.sh i) else some b
      | none => some (getF z.sh i)) none with
    | some b => { z with pc := w64 (4 * b.pcw.toNat), run := if z.run = .halted then .running else z.run }
    | none => z

/-! ### Restore (R340 to R343) -/

/-- A command under its new core and placement. -/
def Command.moved (k : Command) (c : Fin 64) (mv : ElemAt → ElemAt) : Command :=
  { k with core := c, engine := k.engine.map mv, engines := k.engines.map mv }

def StreamItem.moved (i : StreamItem) (c : Fin 64) (mv : ElemAt → ElemAt) : StreamItem :=
  match i with
  | .cmd k => .cmd (k.moved c mv)
  | .shape t => .shape t
  | .barrier id => .barrier id

/-- A stream engine under way again: the row that it was reading is read anew. -/
def StreamState.restored (se : StreamState) (c : Fin 64) (mv : ElemAt → ElemAt) : StreamState :=
  { se with
    hold := .free, items := se.items.map fun i => i.moved c mv
    cur := se.cur.map fun r =>
      let r1 : StreamRun := { r with cmd := r.cmd.moved c mv, withheld := false }
      if r1.cmd.op.isLoad && !r1.todo.isEmpty then r1.openRow else r1 }

/-- A saved element goes back over the fields that the image gives it; withheld accesses may try once (R336). -/
def Elem.restored (e cur : Elem) (c : Fin 64) (mv : ElemAt → ElemAt) : Elem :=
  { e with
    fields := cur.fields
    tbWire := Vector.ofFn fun i => getF cur.tbWire i ++ getF e.tbWire i
    pend := e.pend.map fun p => { p with withheld := false }
    se := e.se.restored c mv }

def QItem.moved (i : QItem) (c : Fin 64) (mv : ElemAt → ElemAt) : QItem :=
  match i with
  | .cmd k r st _ => .cmd (k.moved c mv) r st false
  | .fence id w => .fence id w

/-- The saved core on its new core. -/
def CoreState.restored (k cur : CoreState) (t : Task) (c : Fin 64) (mv : ElemAt → ElemAt) (code : Map Word32) : CoreState :=
  { k with
    code, text := some t.textKey, task := some t.id, prefetch := cur.prefetch.filter (· ≠ t.id), collCount := cur.collCount
    queues := Vector.ofFn fun q => (getF k.queues q).map fun i => i.moved c mv
    cfg := k.cfg.map fun r => { r with cmd := r.cmd.moved c mv, withheld := false } }

/-- Elements, slots, trap records and MTs go back to their places. -/
def State.restoreFabric (s : State) (t : Task) (c : Fin 64) (g f : Frame) : State :=
  let d := t.die
  let mv := moveElem g f d
  let s1 := t.savedElems.foldl (fun s x =>
    let a := f.place d x.1
    s.setElem a (x.2.restored (s.elem a) c mv)) s
  let s2 := t.savedTiles.foldl (fun s x =>
    let a := f.place d x.1
    s.setTile d a.x a.y x.2) s1
  let s3 := t.savedStages.foldl (fun s x =>
    let a := f.place d x.1
    s.setStage (stageKey d a.x a.y (dirOf (f.dir x.2.1.num)) x.2.2.1) x.2.2.2) s2
  let s4 := s3.setPackets d (s3.packetsOf d ++ t.savedPackets.map fun x =>
    let a := f.place d x.1
    { x := a.x, y := a.y, dest := f.place d x.2.1, input := x.2.2.1, sender := a, tok := x.2.2.2 })
  t.savedMt.foldl (fun s b =>
    let a := f.place d (b.1 / 2 ^ 21)
    s.setMtByte (tkey d a.x a.y * 2 ^ 21 + b.1 % 2 ^ 21) b.2) s4

/-- Headers of the tokens that an entry holds, as dword indexes: a token entry has one, delay, merge and withheld entries theirs. -/
def entryHeaders (l : List Word) (token : Bool) : List Nat :=
  let kind := bits (l.headD 0).toNat 56 8
  let from' := if kind = 3 then 2 else 1
  if token then [1]
  else if kind = 2 ∨ kind = 3 ∨ kind = 9 then (List.range ((l.length - from') / 10)).map fun i => from' + 10 * i + 1
  else []

/-- The first bad entry of a context block in memory (R342): an identity that is not the saved one or that does not suit the image, a count
beyond its limit, or a token that R48 rejects. -/
def State.badEntry (s : State) (pa : Nat) : Nat → List (List Word × Bool × Bool) → Option Nat
  | _, [] => none
  | off, (l, token, ok) :: rest =>
    let at' (i : Nat) : Word := s.home ((pa + off) / 8 + i)
    if at' 0 ≠ l.headD 0 ∨ !ok ∨ (entryHeaders l token).any (fun i => (Header.ofNat (at' i).toNat).malformed) = true then some off
    else s.badEntry pa (off + 8 * l.length) rest

/-- The image has an edge through channel `c` of a tile's link in direction `v`. -/
def State.onEdge (s : State) (a : ElemAt) (v : Dir) (c : Nat) : Bool :=
  s.sendsOn a.die a.x a.y v c || [Dir.n, .e, .s, .w].any fun i => s.passOut a.die a.x a.y i c == some v

/-- An element entry keeps its limit under the image: tokens of a delay node, itags of a cancel list (R62, R259, R342). -/
def entryFits (e : Elem) (l : List Word) : Bool :=
  match bits (l.headD 0).toNat 56 8 with
  | 2 => decide (l.length ≤ 1 + 10 * e.dlyDepth)
  | 5 => decide (((l.drop 1).map fun (w : Word) => bits w.toNat 0 8).eraseDups.length ≤ 8)
  | _ => true

/-- The check of a restore: offset of what is bad (R342). -/
def State.contextBad (s : State) (t : Task) (g f : Frame) : Option Nat :=
  match t.ctx with
  | none => none
  | some (addr, _, form, level) =>
    let d := t.die
    let el (a : ElemAt) : Elem := s.elem (moveElem g f d a)
    let c := ctxEntries t g d (fun a => (el a).fields) fun _ => 0
    let pa := s.canonPa addr.toNat
    let h := ctxHeader t g form level c
    let site (l : List Word) : ElemAt :=
      let v := (l.headD 0).toNat
      { die := d, x := bits v 13 5 + 5 * g.bx, y := bits v 8 5 + 4 * g.by', e := bits v 4 4 }
    let used (a : ElemAt) : Bool := !(el a).fields.isEmpty
    let tile (a : ElemAt) : Bool := (List.range 16).any fun e => used { a with e }
    let elem (l : List Word) : Bool :=
      if bits (l.headD 0).toNat 56 8 = 10 then tile (site l) else used (site l) && entryFits (el (site l)) l
    let token (l : List Word) : Bool :=
      let v := (l.headD 0).toNat
      if bits v 56 8 = 1 then s.onEdge (moveElem g f d (site l)) (dirOf (f.dir (g.dir (bits v 2 2)))) (bits v 0 2) else used (site l)
    match (List.range 10).find? fun i => decide (s.home (pa / 8 + 4 + i) ≠ nth h (4 + i)) with
    | some i => some (32 + 8 * i)
    | none =>
      s.badEntry pa ctxFirst
        (c.streams.map (fun l => (l, false, (el (site l)).opcode == 0x204)) ++ c.elems.map (fun l => (l, false, elem l))
          ++ c.tokens.map (fun l => (l, true, token l)) ++ c.slots.map (fun l => (l, false, tile (site l)))
          ++ c.mts.map fun l => (l, false, decide (s.mtRole (moveElem g f d (site l)) = 1)))

/-! ### Loading a region (R343, R359) -/

/-- The loader refuses a stage: every stage of its group fails with cause 4 (R325). -/
def State.refuseLoad (s : State) (t : Task) (code : Nat) : State :=
  let ts := if t.group = 0 then [t] else s.groupOf t
  s.failStages ts 4 code t.stageNo

/-- The region is configured for a task: steps 2 to 4 of R343, or nothing where it keeps the image (R39). -/
def State.configure (s : State) (t : Task) (r : Fin 16) (f : Frame) (p : Prepared) : Except Nat State :=
  let d := t.die
  let g := s.region d r
  if g.image = some t.imageKey ∧ g.reflect = f.reflect then .ok (s.restartRegion d r)
  else
    match f.rewriteImage p.place p.words with
    | .error c => .error c
    | .ok ws =>
      let q := (s.setRegion d r { g with portable := f.portable, reflect := f.reflect }).streamImage d r (some false) ws
      match q.1 with
      | some _ => .error 5
      | none =>
        match q.2.relocateData d r t.asid f (p.place.relocs.filter fun x => decide (p.words.length ≤ x.1)) with
        | .ok s1 => .ok (s1.setRegion d r { s1.region d r with image := some t.imageKey })
        | .error _ => .error 18

/-- The stream engines that a region owns, configured or not. -/
def Region.engines (g : Region) (d : Fin 4) : List ElemAt :=
  let ring := (List.range 22).flatMap fun n => [(n, 0), (n, 21), (0, n), (21, n)]
  (ring.filter fun p => g.owns p.1 p.2 && decide (tileKind p.1 p.2 = .ag)).flatMap fun p =>
    (List.range 4).map fun e => { die := d, x := p.1, y := p.2, e }

/-- At a task's start the last work identifier of every engine of its region is the one before the range (R39, R196). -/
def State.firstWids (s : State) (t : Task) (r : Fin 16) : State :=
  ((s.region t.die r).engines t.die).foldl (fun s a =>
    let e := s.elem a
    s.setElem a { e with se := { e.se with lastWid := BitVec.ofNat 64 t.first - 1 } }) s

/-- A task that starts: its fault time before the start is no part of its run (R1, R326). -/
def Task.started (t : Task) (now : Nat) : Task := { t with st := .running, start := now, faultPrior := t.faultTime }

/-- A saved task that goes on, with its context freed and its missed rows named by its new placement `mv` (R340, R341). -/
def Task.resumed (t : Task) (mv : ElemAt → ElemAt) : Task :=
  { t.dropSaved with st := .running, misses := t.misses.map fun m => { m with steer := mv m.steer } }

/-- The gates open and the task runs (R36, R343 step 6). -/
def State.openTask (s : State) (t : Task) (r : Fin 16) : State :=
  let d := t.die
  let s1 := s.setTask t
  let s2 := s1.setRegion d r { s1.region d r with task := some t.id, phase := .running }
  (s2.commitRegion d r).acquire d .device

/-- REGION_LOAD: an idle region takes the next task of its core. What the region and the core keep is not streamed again (R39, R359). -/
def execRegionLoad (die : Fin 4) (r : Fin 16) (s : State) : Out :=
  .next (
    let g := s.region die r
    match s.awaiting die r with
    | none => s
    | some (t, c) =>
      if !g.present || g.task.isSome || decide (g.phase ≠ .idle) || (s.core c).task.isSome || !s.clockOn die
          || !g.blocks.all (s.blockUsable die) then s
      else
        let f := t.frame.getD g.frame
        let kept := decide (g.image = some t.imageKey) && g.reflect == f.reflect
        let code (p : Prepared) : Map Word32 :=
          if kept && decide ((s.core c).text = some t.textKey) then (s.core c).code else textCode p.text (s.core c).code
        match (if kept then s.prepareKept t (s.core c) else s.prepare t) with
        | .error e => s.refuseLoad t e
        | .ok p =>
          match s.configure t r f p with
          | .error e => s.refuseLoad t e
          | .ok s1 =>
            match t.savedCore, t.savedFrame with
            | some k, some old =>
              let drained := match t.ctx with
                | some (_, _, form, _) => form == 1
                | none => false
              match s1.contextBad t old f, (if drained then k.regrant f.w f.h else some k) with
              | some off, _ =>
                (s1.refuseLoad t 17).report (eventRec 11 die r.val off t.id (match t.ctx with
                  | some x => x.1
                  | none => 0) 0)
              | none, none => s1.refuseLoad t 17
              | none, some k' =>
                let s2 := (s1.openTask (t.resumed (moveElem old f die)) r).restoreFabric t c old f
                s2.setCore c (k'.restored (s2.core c) t c (moveElem old f die) (code p))
            | _, _ =>
              let s2 := (s1.mtControls die r).foldl (fun s m => s.loseMt m.1) ((s1.openTask (t.started s.time) r).firstWids t r)
              s2.setCore c ((s2.core c).started t (code p)))

/-! ### Retirement (R36, R38, R116, R186) -/

/-- End-of-run has reached every sink; a region without a sink is done when its core has halted (log 54). -/
def State.allEnded (s : State) (d : Fin 4) (r : Fin 16) (k : CoreState) : Bool :=
  let sk := s.sinks d r
  if sk.isEmpty then k.run == .halted else sk.all fun a => (s.elem a).ended

/-- Every command that the core of a region has issued has completed, and every access of its elements has performed. -/
def State.workDone (s : State) (d : Fin 4) (r : Fin 16) (c : Fin 64) : Bool :=
  let k := s.core c
  k.order.isEmpty && k.queues.toList.all List.isEmpty && k.cfg.isEmpty && !s.flmOpen c
    && (s.regionElems d r).all fun a =>
      let e := s.elem a
      e.pend.isEmpty && e.se.cur.isNone && e.se.items.isEmpty

/-- No token that leaves the region still stands in one of its own crossing stages: the consumer beyond holds them all (R35, R39). -/
def State.edgesLeft (s : State) (d : Fin 4) (r : Fin 16) : Bool :=
  let g := s.region d r
  s.stages.all fun e =>
    let p := stageSite e.1
    !(decide (e.1 / 16 / 1024 = d.val) && g.owns p.1 p.2
      && s.leavesRegion d g (e.1 % 4) 64 p.1 p.2 (dirOf (e.1 / 4 % 4)))

/-- The core runs no instruction that goes on: it has halted or stopped, or stands at a wait that still holds (R186, R187, log 140). -/
def State.coreRests (s : State) (c : Fin 64) : Bool :=
  let k := s.core c
  let u : State := { s with cur := c }
  let stays (o : Out) : Bool := match o with
    | .next t => decide ((t.core c).pc = k.pc)
    | .fault _ | .refused _ => false
  k.run != .running || (match decode k.word with
    | .twaitAny a => stays (execTwaitAny a u)
    | .twaitAll a => stays (execTwaitAll a u)
    | .wait d a scope => stays (execWait d a scope u)
    | _ => false)

/-- TASK_RETIRE: end-of-run has reached every sink, the task's work has completed, and its core rests outside a trap handler. The core
stops, the private cache is written back, the release goes out, the region returns, and the record and tag follow. -/
def execTaskRetire (die : Fin 4) (r : Fin 16) (s : State) : Out :=
  .next (s.onDie die <|
    let g := s.region die r
    match g.task.bind s.task?, g.owner with
    | some t, some o =>
      let c := coreOf die o
      let k := s.core c
      let open' := match g.phase with
        | .running | .draining _ | .checkpoint => true
        | .idle | .freezing _ | .saveHeld _ _ => false
      if decide (t.st = .running) && open' && s.allEnded die r k && !k.th && s.coreRests c && s.edgesLeft die r && s.workDone die r c then
        let s1 := ((s.stopCore c).dropCoreReleases c).writeBack die r
        match s1.task? t.id with
        | none => s1
        | some u =>
          let s2 := s1.setTask { u with st := .retired, region := none, core := none }
          let s3 := s2.releaseTask t.id (.retire die r) (s2.taskParties die r c)
          ((s3.discard die r).returnRegion die r).settleTask t.id
      else s
    | _, _ => s)

/-! ### The wake watchdog (R344) -/

/-- Tokens that wait on their way to a tile: those on its edges, in the crossing stages of the links into it, and the packets for it that
have come to its router. -/
def State.waitingAt (s : State) (a : ElemAt) : Nat :=
  let local' := ((List.range 16).map fun e =>
    let el := s.elem { a with e }
    ((List.finRange 4).map fun i => (getF el.wire i).length).sum).sum
  let links := ([Dir.n, .e, .s, .w].map fun v => match v.go a.x a.y with
    | some (x, y) => ((List.range 4).map fun c => (s.stageAt (stageKey a.die x y v.opp c)).length).sum
    | none => 0).sum
  let packets := ((s.packetsOf a.die).filter fun k => k.x == a.x && k.y == a.y && k.dest.x == a.x && k.dest.y == a.y).length
  local' + links + packets

/-- WAKE_WATCHDOG: tokens have waited for WAKELIM at a tile that is gated, in retention or waking; reported once per wait. -/
def execWakeWatchdog (s : State) : Out :=
  .next (
    let a := s.focus
    let tl := s.tile a.die a.x a.y
    let n := s.waitingAt a
    let p := s.power a.die a.x a.y
    if (p == 1 || p == 2) && decide (0 < n) && !tl.woke && s.clockOn a.die then
      let r := s.regionAt a.die a.x a.y
      let task := match r with
        | some r => taskNo (s.region a.die r).task
        | none => 0
      (s.setTile a.die a.x a.y { tl with woke := true }).report
        (eventRec 8 a.die (regionNo r) n task 0 (s.portId { a with e := 0 }))
    else s)

end Sys2Proof.Machine
end

