-- ==== Sys2Proof/Machine/Port.lean ====
section
/-!
DEFINITION. Queue-mapped registers and accumulators (R179 to R182).
-/
namespace Sys2Proof.Machine

def execQpush (q : QReg) (a : Reg) (s : State) : Out :=
  .next (match s.sources none a none 0 (some q.val) with
    | .trap t => s.trap t
    | .wait s' => s'
    | .vals x _ s' => (s'.pushQ q.val x).advance)

def execQpop (d : Reg) (q : QReg) (s : State) : Out :=
  .next (match s.sources (some q.val) 0 none 0 none with
    | .trap t => s.trap t
    | .wait s' => s'
    | .vals x _ s' => (s'.wr d x).advance)

/-- Data and null tokens ahead of any end-of-run, and whether one stands behind them (R181). -/
def queueLevel : List Token → Nat × Bool
  | [] => (0, false)
  | t :: ts =>
    if t.hdr.kind == 3 then (0, true)
    else
      let r := queueLevel ts
      (if t.hdr.isData || t.hdr.isNull then r.1 + 1 else r.1, r.2)

/-- The value of qlvl for a bound register (R181). -/
def State.levelWord (s : State) (a : ElemAt) : Word :=
  if (s.elem a).portVo then
    let r := queueLevel (getF (s.elem a).inq 0)
    BitVec.ofNat 64 (r.1 + if r.2 then 2 ^ 63 else 0)
  else BitVec.ofNat 64 (s.credits a 0)

def execQlvl (d : Reg) (q : QReg) (s : State) : Out :=
  .next (match s.qBind s.cur q.val with
    | none => s.trap (portTrap 0 q.val)
    | some a => (s.wr d (s.levelWord a)).advance)

/-- The accumulator that an identifier names: die, tile and slot; none when it is not configured (R182). -/
def State.accOf (s : State) (id : Word) : Option (Fin 4 × Nat × Nat × Fin 8) :=
  let d := dieOf s.cur
  let v := id.toNat
  match s.ownRegion s.cur with
  | none => none
  | some r =>
    let g := s.region d r
    let x := g.absX (bits v 8 5)
    let y := g.absY (bits v 3 5)
    let j := bits v 0 2
    let tm := s.elem { die := d, x, y, e := 14 }
    if g.committed && decide (v / 2 ^ 13 = 0) && decide (bits v 2 1 = 0) && g.owns x y && decide (tileKind x y = .ct)
        && (tm.const 0).testBit j then
      some (d, x, y, ⟨4 + v % 4, by omega⟩)
    else none

def State.slot (s : State) (d : Fin 4) (x y : Nat) (k : Fin 8) : Slot := getF (s.tile d x y).slots k
def State.setSlot (s : State) (d : Fin 4) (x y : Nat) (k : Fin 8) (v : Slot) : State :=
  s.setTile d x y { s.tile d x y with slots := setF (s.tile d x y).slots k v }

/-- An identifier that names nothing, then an offset out of range, then a misaligned one, then the wait for full (R182). -/
def execAccrd (d a b : Reg) (s : State) : Out :=
  .next (
    let id := s.rd a
    let off := s.rd b
    match s.accOf id with
    | none => s.trap (portTrap 4 (bits id.toNat 0 2))
    | some (die, x, y, k) =>
      if 32760 < off.toNat then s.trap (portTrap 5 (bits id.toNat 0 2))
      else if off.toNat % 8 ≠ 0 then s.trap { cause := .alignment, bad := off }
      else
        let sl := s.slot die x y k
        if sl.tag = .full then (s.wr d (Map.get 0 (off.toNat / 8) sl.data)).advance else s)

/-- Zeroes an accumulator; during a drain its remaining tokens carry +0 and the tag ends empty (R182, R274). -/
def Slot.clear (sl : Slot) : Slot :=
  if sl.taken = 0 then { sl with data := [], tag := .empty, taken := 0 } else { sl with data := [], reset := true }

def execAccrst (a : Reg) (s : State) : Out :=
  .next (
    let id := s.rd a
    match s.accOf id with
    | none => s.trap (portTrap 4 (bits id.toNat 0 2))
    | some (die, x, y, k) => (s.setSlot die x y k (s.slot die x y k).clear).advance)

end Sys2Proof.Machine
end

