-- ==== Sys2Proof/Machine/Power.lean ====
section
/-!
DEFINITION. Die clocks (R326, R389), block power (R390, R391) and thermal protection (R392).
-/
namespace Sys2Proof.Machine

/-! ### Clock changes (R326, R389) -/

/-- Growth of T_comp and T_lad of an admitted task over its whole range from one clock to a slower one, ns rounded up, with the figures
that its T was computed with (R325, R326). -/
def Task.growth (t : Task) (old new : Fin 4) : Nat :=
  let c := compLad t.comp.1 t.comp.2.1 t.comp.2.2 t.range
  let f := clockTwenty old
  let g := clockTwenty new
  ceilDiv ((c.1 + c.2) * (f - g)) (f * g)

/-- Bounded tasks admitted on a die. -/
def State.boundedOn (s : State) (d : Fin 4) : List Task := s.tasks.filter fun t => decide (t.die = d) && t.admittedNow

/-- The state is slower than the one last in force. -/
def slower (old new : Fin 4) : Bool := new == 3 || decide (clockTwenty new < clockTwenty old)

/-- R326 allows the change: a stop while no bounded task is admitted, a slower clock where every slack covers its growth. -/
def State.clockAllowed (s : State) (d : Fin 4) (new : Fin 4) : Bool :=
  let old := (s.die d).clkLast
  if new = 3 then (s.boundedOn d).isEmpty
  else !slower old new || (s.boundedOn d).all fun t => decide (Int.ofNat (t.growth old new) ≤ t.slack)

/-- The change takes effect: the slacks pay for it. -/
def State.setClock (s : State) (d : Fin 4) (new : Fin 4) : State :=
  let old := (s.die d).clkLast
  let s1 := if new ≠ 3 ∧ slower old new = true then
      (s.boundedOn d).foldl (fun s t => s.setTask { t with slack := t.slack - Int.ofNat (t.growth old new) }) s
    else s
  s1.setDie d { s1.die d with clk := new, clkLast := if new = 3 then old else new, clkBusy := true, clkHeld := false }

/-- CLOCK_CHANGE: a write of DIECLK state, ignored while busy or held, and, under a trip, unless it is a stop (R389, R392). -/
def execClockChange (die : Fin 4) (st : Fin 4) (s : State) : Out :=
  .next (
    let d := s.die die
    if d.clkBusy || d.clkHeld || (d.trip && st != 3) || d.clk == st then s
    else
      let s1 := s.setDie die { d with clkAsked := st }
      if s1.clockAllowed die st then s1.setClock die st else s1.setDie die { s1.die die with clkHeld := true })

/-- HELD_CLOCK_CHANGE: a held state takes effect once R326 allows it. -/
def execHeldClockChange (die : Fin 4) (s : State) : Out :=
  .next (
    let d := s.die die
    if d.clkHeld && s.clockAllowed die d.clkAsked then s.setClock die d.clkAsked else s)

/-- CLOCK_CHANGE_COMPLETE: busy clears; the stop of the change, at most 2 µs, counts as fault time of every task on the die, unless the
change is itself a stop, all of which counts as it passes (R389); its length is free (log 22). No event table has a code for a clock
change: none is reported (R1, log 143). -/
def execClockChangeComplete (die : Fin 4) (s : State) : Out :=
  .next (
    let d := s.die die
    if d.clkBusy then
      let n := (Config.freeWord s.free).toNat % 2001
      let s1 : State := { s.setDie die { d with clkBusy := false } with free := s.free + 1 }
      { s1 with tasks := s1.tasks.map fun t =>
          if t.die = die ∧ t.st.isEnd = false ∧ d.clk ≠ 3 then { t with faultTime := t.faultTime + n } else t }
    else s)

/-! ### Block power (R390, R391) -/

/-- Sites of a block (R11). -/
def blockSites (b : Nat) : List (Nat × Nat) :=
  (List.range 5).flatMap fun i => (List.range 4).map fun j => (5 * (b % 4) + 1 + i, 4 * (b / 4) + 1 + j)

/-- The region's task of a block that is going off ends with cause 3. -/
def State.endBlockTask (s : State) (d : Fin 4) (b : Nat) : State :=
  let x := 5 * (b % 4) + 1
  let y := 4 * (b / 4) + 1
  match s.regionAt d x y with
  | none => s
  | some r =>
    match (s.region d r).task.bind s.task? with
    | some t => if t.st = .running then s.failTask t.id 3 0 0 else s
    | none => s

/-- Fields, queues, slots and MT contents of a block are lost; what stands in crossing stages stays, and so do takebacks on their way
(R344, R390, R391). -/
def State.loseBlock (s : State) (d : Fin 4) (b : Nat) : State :=
  let s1 := (blockSites b).foldl (fun s p =>
    let s1 := (List.range 16).foldl (fun s e =>
      let a : ElemAt := { die := d, x := p.1, y := p.2, e }
      let k := s.elem a
      s.setElem a { tbWire := k.tbWire }) s
    let s2 := s1.setTile d p.1 p.2 { refused := (s1.tile d p.1 p.2).refused, woke := (s1.tile d p.1 p.2).woke }
    if tileKind p.1 p.2 = .mt then s2.loseMt (tkey d p.1 p.2) else s2) s
  match s1.regionAt d (5 * (b % 4) + 1) (4 * (b / 4) + 1) with
  | some r => s1.setRegion d r { s1.region d r with committed := false, image := none }
  | none => s1

/-- BLOCK_POWER_CHANGE: a write of BLKPWR (R390, R391). -/
def execBlockPowerChange (die : Fin 4) (v : Word) (s : State) : Out :=
  .next (
    let old := (s.die die).blkpwr.toNat
    let new := bits v.toNat 0 40
    let st (w b : Nat) : Nat := bits w (2 * b) 2
    let off := (List.range 20).filter fun b => st new b == 3 && st old b != 3
    let wakes := (List.range 20).filter fun b => st new b == 0 && st old b != 0
    let sleeps := (List.range 20).filter fun b => st new b != 0
    let s1 := off.foldl (fun s b => s.endBlockTask die b) s
    let s2 := off.foldl (fun s b => s.loseBlock die b) s1
    let d := s2.die die
    s2.setDie die { d with
      blkpwr := BitVec.ofNat 64 new
      blkstat := sleeps.foldl (fun w b => putBit w b false) (wakes.foldl (fun w b => putBit w b true) d.blkstat) })

/-- BLOCK_POWER_COMPLETE: the block is awake, and the waits at its tiles are over (R344, R390). -/
def execBlockPowerComplete (die : Fin 4) (block : Fin 20) (s : State) : Out :=
  .next (
    let d := s.die die
    if d.blkstat.getLsbD block.val then
      let s1 := s.setDie die { d with blkstat := putBit d.blkstat block.val false }
      (blockSites block.val).foldl (fun s p => s.setTile die p.1 p.2 { s.tile die p.1 p.2 with refused := false, woke := false }) s1
    else s)

/-! ### Thermal protection (R392, R393) -/

/-- 95 and 110 °C in sixteenths of a degree. -/
def warnPoint : Nat := 1520
def tripPoint : Nat := 1760

/-- THERMAL_WARNING: the junction stands at 95 °C or above. -/
def execThermalWarning (die : Fin 4) (tj : Nat) (s : State) : Out :=
  .next (if warnPoint ≤ tj then s.report (eventRec 16 die 0 tj 0 0 (BitVec.ofNat 64 die.val)) else s)

/-- THERMAL_TRIP: the clock stops at once, whatever R326 would allow. -/
def execThermalTrip (die : Fin 4) (tj : Nat) (s : State) : Out :=
  .next (
    if tripPoint ≤ tj then
      (s.setDie die { s.die die with clk := 3, clkAsked := 3, trip := true, clkBusy := false, clkHeld := false }).report
        (eventRec 15 die 0 tj 0 0 (BitVec.ofNat 64 die.val))
    else s)

/-- TRIP_CLEAR: a write of 1 to trip clears it below 95 °C only. -/
def execTripClear (die : Fin 4) (tj : Nat) (s : State) : Out :=
  .next (if tj < warnPoint then s.setDie die { s.die die with trip := false } else s)

end Sys2Proof.Machine
end

