-- ==== Sys2Proof/Machine/Dispatch.lean ====
section
/-!
DEFINITION. One arm per step of the machine.
-/
namespace Sys2Proof.Machine

/-- What each instruction or event does. -/
def exec (i : Instr) (s : State) : Host.Outcome State Fault Refusal :=
  match i with
  | .add o => Sys2Proof.Machine.execAdd o s
  | .sub o => Sys2Proof.Machine.execSub o s
  | .and o => Sys2Proof.Machine.execAnd o s
  | .or o => Sys2Proof.Machine.execOr o s
  | .xor o => Sys2Proof.Machine.execXor o s
  | .andn o => Sys2Proof.Machine.execAndn o s
  | .shl o => Sys2Proof.Machine.execShl o s
  | .shr o => Sys2Proof.Machine.execShr o s
  | .sar o => Sys2Proof.Machine.execSar o s
  | .rotl o => Sys2Proof.Machine.execRotl o s
  | .min o => Sys2Proof.Machine.execMin o s
  | .max o => Sys2Proof.Machine.execMax o s
  | .minu o => Sys2Proof.Machine.execMinu o s
  | .maxu o => Sys2Proof.Machine.execMaxu o s
  | .clz o => Sys2Proof.Machine.execClz o s
  | .ctz o => Sys2Proof.Machine.execCtz o s
  | .popc o => Sys2Proof.Machine.execPopc o s
  | .addw o => Sys2Proof.Machine.execAddw o s
  | .subw o => Sys2Proof.Machine.execSubw o s
  | .mul o => Sys2Proof.Machine.execMul o s
  | .mulh o => Sys2Proof.Machine.execMulh o s
  | .mulhu o => Sys2Proof.Machine.execMulhu o s
  | .div o => Sys2Proof.Machine.execDiv o s
  | .divu o => Sys2Proof.Machine.execDivu o s
  | .rem o => Sys2Proof.Machine.execRem o s
  | .remu o => Sys2Proof.Machine.execRemu o s
  | .ceq o => Sys2Proof.Machine.execCeq o s
  | .cne o => Sys2Proof.Machine.execCne o s
  | .clt o => Sys2Proof.Machine.execClt o s
  | .cltu o => Sys2Proof.Machine.execCltu o s
  | .cle o => Sys2Proof.Machine.execCle o s
  | .cleu o => Sys2Proof.Machine.execCleu o s
  | .peq o => Sys2Proof.Machine.execPeq o s
  | .pne o => Sys2Proof.Machine.execPne o s
  | .plt o => Sys2Proof.Machine.execPlt o s
  | .pltu o => Sys2Proof.Machine.execPltu o s
  | .ple o => Sys2Proof.Machine.execPle o s
  | .pleu o => Sys2Proof.Machine.execPleu o s
  | .sel o p => Sys2Proof.Machine.execSel o p s
  | .pand p a b => Sys2Proof.Machine.execPand p a b s
  | .por p a b => Sys2Proof.Machine.execPor p a b s
  | .pxor p a b => Sys2Proof.Machine.execPxor p a b s
  | .pandn p a b => Sys2Proof.Machine.execPandn p a b s
  | .pnot p a => Sys2Proof.Machine.execPnot p a s
  | .ptst p a qa => Sys2Proof.Machine.execPtst p a qa s
  | .pget d qd p => Sys2Proof.Machine.execPget d qd p s
  | .qpush q a => Sys2Proof.Machine.execQpush q a s
  | .qpop d q => Sys2Proof.Machine.execQpop d q s
  | .qlvl d q => Sys2Proof.Machine.execQlvl d q s
  | .accrd d a b => Sys2Proof.Machine.execAccrd d a b s
  | .accrst a => Sys2Proof.Machine.execAccrst a s
  | .lda d a size u scope => Sys2Proof.Machine.execLda d a size u scope s
  | .stl a b size scope => Sys2Proof.Machine.execStl a b size scope s
  | .amoAdd o => Sys2Proof.Machine.execAmoAdd o s
  | .amoMin o => Sys2Proof.Machine.execAmoMin o s
  | .amoMax o => Sys2Proof.Machine.execAmoMax o s
  | .amoSwap o => Sys2Proof.Machine.execAmoSwap o s
  | .amoCas o => Sys2Proof.Machine.execAmoCas o s
  | .amoAnd o => Sys2Proof.Machine.execAmoAnd o s
  | .amoOr o => Sys2Proof.Machine.execAmoOr o s
  | .jalr d a => Sys2Proof.Machine.execJalr d a s
  | .sbar a => Sys2Proof.Machine.execSbar a s
  | .twaitAny a => Sys2Proof.Machine.execTwaitAny a s
  | .twaitAll a => Sys2Proof.Machine.execTwaitAll a s
  | .tfind d a => Sys2Proof.Machine.execTfind d a s
  | .tclr a => Sys2Proof.Machine.execTclr a s
  | .qfence a => Sys2Proof.Machine.execQfence a s
  | .shape sh a b kind => Sys2Proof.Machine.execShape sh a b kind s
  | .shpub sh a => Sys2Proof.Machine.execShpub sh a s
  | .cfgCmt => Sys2Proof.Machine.execCfgCmt s
  | .resume a => Sys2Proof.Machine.execResume a s
  | .addi d a imm => Sys2Proof.Machine.execAddi d a imm s
  | .andi d a imm => Sys2Proof.Machine.execAndi d a imm s
  | .ori d a imm => Sys2Proof.Machine.execOri d a imm s
  | .xori d a imm => Sys2Proof.Machine.execXori d a imm s
  | .slti d a imm => Sys2Proof.Machine.execSlti d a imm s
  | .sltiu d a imm => Sys2Proof.Machine.execSltiu d a imm s
  | .shli d a n => Sys2Proof.Machine.execShli d a n s
  | .shri d a n => Sys2Proof.Machine.execShri d a n s
  | .sari d a n => Sys2Proof.Machine.execSari d a n s
  | .lui d imm => Sys2Proof.Machine.execLui d imm s
  | .lih d h imm => Sys2Proof.Machine.execLih d h imm s
  | .ldb d a imm => Sys2Proof.Machine.execLdb d a imm s
  | .ldbu d a imm => Sys2Proof.Machine.execLdbu d a imm s
  | .ldh d a imm => Sys2Proof.Machine.execLdh d a imm s
  | .ldhu d a imm => Sys2Proof.Machine.execLdhu d a imm s
  | .ldw d a imm => Sys2Proof.Machine.execLdw d a imm s
  | .ldwu d a imm => Sys2Proof.Machine.execLdwu d a imm s
  | .ldd d a imm => Sys2Proof.Machine.execLdd d a imm s
  | .stb d a imm => Sys2Proof.Machine.execStb d a imm s
  | .sth d a imm => Sys2Proof.Machine.execSth d a imm s
  | .stw d a imm => Sys2Proof.Machine.execStw d a imm s
  | .std d a imm => Sys2Proof.Machine.execStd d a imm s
  | .beq a b off => Sys2Proof.Machine.execBeq a b off s
  | .bne a b off => Sys2Proof.Machine.execBne a b off s
  | .blt a b off => Sys2Proof.Machine.execBlt a b off s
  | .bge a b off => Sys2Proof.Machine.execBge a b off s
  | .bltu a b off => Sys2Proof.Machine.execBltu a b off s
  | .bgeu a b off => Sys2Proof.Machine.execBgeu a b off s
  | .bpt p off => Sys2Proof.Machine.execBpt p off s
  | .bpf p off => Sys2Proof.Machine.execBpf p off s
  | .j off => Sys2Proof.Machine.execJ off s
  | .jal off => Sys2Proof.Machine.execJal off s
  | .strmLd o => Sys2Proof.Machine.execStrmLd o s
  | .strmSt o => Sys2Proof.Machine.execStrmSt o s
  | .strmGth o => Sys2Proof.Machine.execStrmGth o s
  | .strmSct o => Sys2Proof.Machine.execStrmSct o s
  | .cpy q base count tag => Sys2Proof.Machine.execCpy q base count tag s
  | .cpy2d q base count tag => Sys2Proof.Machine.execCpy2d q base count tag s
  | .collAr q base count tag mode => Sys2Proof.Machine.execCollAr q base count tag mode s
  | .collAg q base count tag mode => Sys2Proof.Machine.execCollAg q base count tag mode s
  | .collRs q base count tag mode => Sys2Proof.Machine.execCollRs q base count tag mode s
  | .collBc q base count tag mode => Sys2Proof.Machine.execCollBc q base count tag mode s
  | .collA2a q base count tag mode => Sys2Proof.Machine.execCollA2a q base count tag mode s
  | .flm scope m tag => Sys2Proof.Machine.execFlm scope m tag s
  | .enq d h m tag => Sys2Proof.Machine.execEnq d h m tag s
  | .cfgLd base count tag part => Sys2Proof.Machine.execCfgLd base count tag part s
  | .ertPin d k x tag => Sys2Proof.Machine.execErtPin d k x tag s
  | .ertProbe d k tag => Sys2Proof.Machine.execErtProbe d k tag s
  | .ertEvict d k tag => Sys2Proof.Machine.execErtEvict d k tag s
  | .trap code => Sys2Proof.Machine.execTrap code s
  | .eret => Sys2Proof.Machine.execEret s
  | .mfsr d r => Sys2Proof.Machine.execMfsr d r s
  | .mtsr r a => Sys2Proof.Machine.execMtsr r a s
  | .fence scope => Sys2Proof.Machine.execFence scope s
  | .wait d a scope => Sys2Proof.Machine.execWait d a scope s
  | .halt => Sys2Proof.Machine.execHalt s
  | .waitTimeout c => Sys2Proof.Machine.execWaitTimeout c s
  | .asyncTrap c => Sys2Proof.Machine.execAsyncTrap c s
  | .configWrite x y e f v => Sys2Proof.Machine.execConfigWrite x y e f v s
  | .configExtend v => Sys2Proof.Machine.execConfigExtend v s
  | .beginCmd part w h => Sys2Proof.Machine.execBeginCmd part w h s
  | .commit => Sys2Proof.Machine.execCommit s
  | .selectRegion r => Sys2Proof.Machine.execSelectRegion r s
  | .bankQuiesce x y all => Sys2Proof.Machine.execBankQuiesce x y all s
  | .tokenCrossing m => Sys2Proof.Machine.execTokenCrossing m s
  | .takebackStage a n => Sys2Proof.Machine.execTakebackStage a n s
  | .takebackAtElement a o => Sys2Proof.Machine.execTakebackAtElement a o s
  | .tslot a n => Sys2Proof.Machine.execTslot a n s
  | .tileFillComplete a n => Sys2Proof.Machine.execTileFillComplete a n s
  | .ladderServe die l => Sys2Proof.Machine.execLadderServe die l s
  | .commandBegin w => Sys2Proof.Machine.execCommandBegin w s
  | .commandCompletion w => Sys2Proof.Machine.execCommandCompletion w s
  | .collectiveMatch group remote => Sys2Proof.Machine.execCollectiveMatch group remote s
  | .readPerform r => Sys2Proof.Machine.execReadPerform r s
  | .writePerform w path => Sys2Proof.Machine.execWritePerform w path s
  | .pathHead p => Sys2Proof.Machine.execPathHead p s
  | .landingPortLand port granule => Sys2Proof.Machine.execLandingPortLand port granule s
  | .rdcDrop die granule => Sys2Proof.Machine.execRdcDrop die granule s
  | .releasePerform id => Sys2Proof.Machine.execReleasePerform id s
  | .atomicPerform c => Sys2Proof.Machine.execAtomicPerform c s
  | .tfuPin a n line => Sys2Proof.Machine.execTfuPin a n line s
  | .tfuSnapshot a n line => Sys2Proof.Machine.execTfuSnapshot a n line s
  | .faultCheckpoint die r => Sys2Proof.Machine.execFaultCheckpoint die r s
  | .spillRefill die bank => Sys2Proof.Machine.execSpillRefill die bank s
  | .tquSelect die => Sys2Proof.Machine.execTquSelect die s
  | .regionLoad die r => Sys2Proof.Machine.execRegionLoad die r s
  | .taskRetire die r => Sys2Proof.Machine.execTaskRetire die r s
  | .taskcmdDrain die task level => Sys2Proof.Machine.execTaskcmdDrain die task level s
  | .taskcmdFreezeSave die task => Sys2Proof.Machine.execTaskcmdFreezeSave die task s
  | .taskcmdEnd die task => Sys2Proof.Machine.execTaskcmdEnd die task s
  | .taskcmdRelease die task => Sys2Proof.Machine.execTaskcmdRelease die task s
  | .taskcmdFaultServiced die task => Sys2Proof.Machine.execTaskcmdFaultServiced die task s
  | .drainComplete die r => Sys2Proof.Machine.execDrainComplete die r s
  | .drainTimeout die r => Sys2Proof.Machine.execDrainTimeout die r s
  | .freezeSaveComplete die r => Sys2Proof.Machine.execFreezeSaveComplete die r s
  | .contextSaveRetry die r => Sys2Proof.Machine.execContextSaveRetry die r s
  | .portresPort die v => Sys2Proof.Machine.execPortresPort die v s
  | .portresQueue die v => Sys2Proof.Machine.execPortresQueue die v s
  | .tqResume die => Sys2Proof.Machine.execTqResume die s
  | .tqerrRead die => Sys2Proof.Machine.execTqerrRead die s
  | .invalidateRange die asid pages => Sys2Proof.Machine.execInvalidateRange die asid pages s
  | .invalidateAsid die asid => Sys2Proof.Machine.execInvalidateAsid die asid s
  | .invalidateAll die => Sys2Proof.Machine.execInvalidateAll die s
  | .invalidationComplete => Sys2Proof.Machine.execInvalidationComplete s
  | .invstatRead die => Sys2Proof.Machine.execInvstatRead die s
  | .loadRequest die v => Sys2Proof.Machine.execLoadRequest die v s
  | .loadstatRead die => Sys2Proof.Machine.execLoadstatRead die s
  | .objectLoad => Sys2Proof.Machine.execObjectLoad s
  | .ertEnable => Sys2Proof.Machine.execErtEnable s
  | .ertDisable => Sys2Proof.Machine.execErtDisable s
  | .ertDisableComplete => Sys2Proof.Machine.execErtDisableComplete s
  | .ertstatRead => Sys2Proof.Machine.execErtstatRead s
  | .ertUpdate n => Sys2Proof.Machine.execErtUpdate n s
  | .spinner entry => Sys2Proof.Machine.execSpinner entry s
  | .fetchQueueEnter port => Sys2Proof.Machine.execFetchQueueEnter port s
  | .fetchComplete entry => Sys2Proof.Machine.execFetchComplete entry s
  | .fetchSourceError entry => Sys2Proof.Machine.execFetchSourceError entry s
  | .missBudgetExceeded task entry => Sys2Proof.Machine.execMissBudgetExceeded task entry s
  | .eventEnable => Sys2Proof.Machine.execEventEnable s
  | .eventRecordWrite => Sys2Proof.Machine.execEventRecordWrite s
  | .evtlostRead => Sys2Proof.Machine.execEvtlostRead s
  | .tierEnable ranges => Sys2Proof.Machine.execTierEnable ranges s
  | .linkEnable peers => Sys2Proof.Machine.execLinkEnable peers s
  | .boot fault bad => Sys2Proof.Machine.execBoot fault bad s
  | .moduleReset => Sys2Proof.Machine.execModuleReset s
  | .coreReset c => Sys2Proof.Machine.execCoreReset c s
  | .coreStop c => Sys2Proof.Machine.execCoreStop c s
  | .coreRestart c => Sys2Proof.Machine.execCoreRestart c s
  | .faultack c => Sys2Proof.Machine.execFaultack c s
  | .clockChange die st => Sys2Proof.Machine.execClockChange die st s
  | .heldClockChange die => Sys2Proof.Machine.execHeldClockChange die s
  | .clockChangeComplete die => Sys2Proof.Machine.execClockChangeComplete die s
  | .tripClear die tj => Sys2Proof.Machine.execTripClear die tj s
  | .blockPowerChange die v => Sys2Proof.Machine.execBlockPowerChange die v s
  | .blockPowerComplete die block => Sys2Proof.Machine.execBlockPowerComplete die block s
  | .portEnable p en => Sys2Proof.Machine.execPortEnable p en s
  | .registerWrite fn off v => Sys2Proof.Machine.execRegisterWrite fn off v s
  | .hostCxlWrite addr bytes => Sys2Proof.Machine.execHostCxlWrite addr bytes s
  | .hostCxlRead addr n => Sys2Proof.Machine.execHostCxlRead addr n s
  | .nguvenPortDown p => Sys2Proof.Machine.execNguvenPortDown p s
  | .nguvenPortUp p => Sys2Proof.Machine.execNguvenPortUp p s
  | .thermalWarning die tj => Sys2Proof.Machine.execThermalWarning die tj s
  | .thermalTrip die tj => Sys2Proof.Machine.execThermalTrip die tj s
  | .linkCrcReplay l => Sys2Proof.Machine.execLinkCrcReplay l s
  | .configParityRetry die r => Sys2Proof.Machine.execConfigParityRetry die r s
  | .uncorrectableError w => Sys2Proof.Machine.execUncorrectableError w s
  | .sendPosted p => Sys2Proof.Machine.execSendPosted p s
  | .receivePosted p => Sys2Proof.Machine.execReceivePosted p s
  | .packetArrival p pkt => Sys2Proof.Machine.execPacketArrival p pkt s
  | .receiveDone p id => Sys2Proof.Machine.execReceiveDone p id s
  | .sendDone p id reached => Sys2Proof.Machine.execSendDone p id reached s
  | .noReceiveTimeout p id => Sys2Proof.Machine.execNoReceiveTimeout p id s
  | .illegalInstruction w => Sys2Proof.Machine.execIllegalInstruction w s
  | .completionConsumerAdvance p v => Sys2Proof.Machine.execCompletionConsumerAdvance p v s
  | .portLinkChange p lanes => Sys2Proof.Machine.execPortLinkChange p lanes s
  | .controlTokenAlign => Sys2Proof.Machine.execControlTokenAlign s
  | .dly => Sys2Proof.Machine.execDly s
  | .wAdd => Sys2Proof.Machine.execWAdd s
  | .wSub => Sys2Proof.Machine.execWSub s
  | .wMul => Sys2Proof.Machine.execWMul s
  | .wFma => Sys2Proof.Machine.execWFma s
  | .wMin => Sys2Proof.Machine.execWMin s
  | .wMax => Sys2Proof.Machine.execWMax s
  | .wAbs => Sys2Proof.Machine.execWAbs s
  | .wNeg => Sys2Proof.Machine.execWNeg s
  | .wCmpeq => Sys2Proof.Machine.execWCmpeq s
  | .wCmplt => Sys2Proof.Machine.execWCmplt s
  | .wCmple => Sys2Proof.Machine.execWCmple s
  | .wCmpun => Sys2Proof.Machine.execWCmpun s
  | .sfExp2 => Sys2Proof.Machine.execSfExp2 s
  | .sfLog2 => Sys2Proof.Machine.execSfLog2 s
  | .sfRcp => Sys2Proof.Machine.execSfRcp s
  | .sfRsqrt => Sys2Proof.Machine.execSfRsqrt s
  | .sfTanh => Sys2Proof.Machine.execSfTanh s
  | .sfSigm => Sys2Proof.Machine.execSfSigm s
  | .iAdd => Sys2Proof.Machine.execIAdd s
  | .iAddc => Sys2Proof.Machine.execIAddc s
  | .iSub => Sys2Proof.Machine.execISub s
  | .iSubb => Sys2Proof.Machine.execISubb s
  | .iMullo => Sys2Proof.Machine.execIMullo s
  | .iMulhi => Sys2Proof.Machine.execIMulhi s
  | .bAnd => Sys2Proof.Machine.execBAnd s
  | .bOr => Sys2Proof.Machine.execBOr s
  | .bXor => Sys2Proof.Machine.execBXor s
  | .bNot => Sys2Proof.Machine.execBNot s
  | .bShl => Sys2Proof.Machine.execBShl s
  | .bShr => Sys2Proof.Machine.execBShr s
  | .bSar => Sys2Proof.Machine.execBSar s
  | .bRotl => Sys2Proof.Machine.execBRotl s
  | .cvtWS32 => Sys2Proof.Machine.execCvtWS32 s
  | .cvtWU32 => Sys2Proof.Machine.execCvtWU32 s
  | .cvtS32W => Sys2Proof.Machine.execCvtS32W s
  | .cvtU32W => Sys2Proof.Machine.execCvtU32W s
  | .wRint => Sys2Proof.Machine.execWRint s
  | .qFp32 => Sys2Proof.Machine.execQFp32 s
  | .qBf16 => Sys2Proof.Machine.execQBf16 s
  | .qFp16 => Sys2Proof.Machine.execQFp16 s
  | .qE5m2 => Sys2Proof.Machine.execQE5m2 s
  | .qE4m3 => Sys2Proof.Machine.execQE4m3 s
  | .lnUp => Sys2Proof.Machine.execLnUp s
  | .lnDown => Sys2Proof.Machine.execLnDown s
  | .lnShuf => Sys2Proof.Machine.execLnShuf s
  | .lnBcast => Sys2Proof.Machine.execLnBcast s
  | .redAdd => Sys2Proof.Machine.execRedAdd s
  | .redMin => Sys2Proof.Machine.execRedMin s
  | .redMax => Sys2Proof.Machine.execRedMax s
  | .vpack => Sys2Proof.Machine.execVpack s
  | .vunpack => Sys2Proof.Machine.execVunpack s
  | .xacc => Sys2Proof.Machine.execXacc s
  | .xaccLimb => Sys2Proof.Machine.execXaccLimb s
  | .xaccRead => Sys2Proof.Machine.execXaccRead s
  | .memLd => Sys2Proof.Machine.execMemLd s
  | .memSt => Sys2Proof.Machine.execMemSt s
  | .memLdx => Sys2Proof.Machine.execMemLdx s
  | .memStx => Sys2Proof.Machine.execMemStx s
  | .memoryElementPerformed => Sys2Proof.Machine.execMemoryElementPerformed s
  | .tdrain => Sys2Proof.Machine.execTdrain s
  | .mma => Sys2Proof.Machine.execMma s
  | .mrec => Sys2Proof.Machine.execMrec s
  | .fork => Sys2Proof.Machine.execFork s
  | .join => Sys2Proof.Machine.execJoin s
  | .ejoinAnd => Sys2Proof.Machine.execEjoinAnd s
  | .ejoinOr => Sys2Proof.Machine.execEjoinOr s
  | .ejoinSel => Sys2Proof.Machine.execEjoinSel s
  | .steer => Sys2Proof.Machine.execSteer s
  | .steerErt => Sys2Proof.Machine.execSteerErt s
  | .steerErtAnswer => Sys2Proof.Machine.execSteerErtAnswer s
  | .merge => Sys2Proof.Machine.execMerge s
  | .mergeRr => Sys2Proof.Machine.execMergeRr s
  | .gate => Sys2Proof.Machine.execGate s
  | .sink => Sys2Proof.Machine.execSink s
  | .cfwd => Sys2Proof.Machine.execCfwd s
  | .rankK => Sys2Proof.Machine.execRankK s
  | .rankKReply => Sys2Proof.Machine.execRankKReply s
  | .rankApply => Sys2Proof.Machine.execRankApply s
  | .rkval => Sys2Proof.Machine.execRkval s
  | .cbdec => Sys2Proof.Machine.execCbdec s
  | .streamRowEmit => Sys2Proof.Machine.execStreamRowEmit s
  | .storeStreamTake => Sys2Proof.Machine.execStoreStreamTake s
  | .resumeToken => Sys2Proof.Machine.execResumeToken s
  | .wakeWatchdog => Sys2Proof.Machine.execWakeWatchdog s
  | .steerProbe => Sys2Proof.Machine.execSteerProbe s
  | .ertRelease => Sys2Proof.Machine.execErtRelease s
  | .parkedRowReplay => Sys2Proof.Machine.execParkedRowReplay s

end Sys2Proof.Machine
end

