-- ==== Sys2Proof/Machine/Step.lean ====
section
/-!
DEFINITION. One step: the next move of the agenda, or the next instruction of the current core (log 1).
-/
namespace Sys2Proof.Machine

/-- A command or access of a core or of the region's elements has been withheld and has not performed since (R335). -/
def CoreState.faulted (k : CoreState) : Bool :=
  k.hdrHeld || k.hdrFaulted || (k.queues.toList.any fun q => match q with
    | .cmd _ _ st w :: _ => w || st.faulted
    | .fence _ _ :: _ | [] => false)
  || (match k.cfg with
    | r :: _ => r.withheld || r.faulted
    | [] => false)
def Elem.faulted (e : Elem) : Bool :=
  (e.pend.any fun p => p.withheld || p.faulted) || (match e.se.cur with
    | some r => r.withheld || r.faulted
    | none => false)
def Tile.faulted (t : Tile) : Bool := t.slots.toList.any fun sl => !sl.withheld.isEmpty || !sl.faulted.isEmpty

/-- An access of the task in a region is withheld, or waits to perform after a resume (R335). -/
def State.accessFaulted (s : State) (d : Fin 4) (r : Fin 16) : Bool :=
  ((s.regionElems d r).any fun a => (s.elem a).faulted || s.rowFaults.any fun x => decide (x.1.stream = a))
    || ((s.regionTiles d r).any fun t => (s.tile d t.1 t.2).faulted)
    || (match (s.region d r).owner with
      | some o => (s.core (coreOf d o)).faulted
      | none => false)

/-- The same of a saved task, whose withheld accesses perform once it is restored (R336). -/
def Task.savedFaulted (t : Task) : Bool :=
  (t.savedElems.any fun x => x.2.faulted) || (t.savedTiles.any fun x => x.2.faulted) || (t.savedCore.any CoreState.faulted)

/-- Tokens or takebacks of a region wait for a tile that is not on (R344). -/
def State.wakeWaits (s : State) (d : Fin 4) (r : Fin 16) : Bool :=
  (s.regionElems d r).any fun a =>
    s.power a.die a.x a.y != 0 && (decide (0 < s.waitingAt a) || (s.elem a).tbWire.toList.any fun l => !l.isEmpty)

/-- A configuration stream of the region is being sent again (R394). -/
def State.resending (s : State) (d : Fin 4) (r : Fin 16) : Bool := decide (0 < (s.region d r).resent)

/-- A translation fault of the region's core is with the firmware (R331). -/
def CoreState.serviced (k : CoreState) : Bool := k.th && bits k.cause.toNat 0 32 == Cause.translation.code

/-- The time that passes now is host-serviced fault time of a task (R1, R335, R336, R344, R371, R392, R394): a withheld access until it
performs, a stopped clock, tokens that wait at a tile that is not on, a fetch held by its source, a stream that is sent again, a
translation fault of the core with the firmware, or a write of its end that is withheld. -/
def State.faultNow (s : State) (t : Task) : Bool :=
  let late := s.late.any fun l => l.task == t.id
  if t.st.isEnd then late || (t.recordFaulted && !t.recorded)
  else
    !s.clockOn t.die || t.needService || t.savedFaulted
      || (t.misses.any fun m => !m.replayed && (s.ert.entry m.entry).srcFailed)
      || (s.ert.waits.any fun w => decide (w.task = some t.id) && (s.ert.entry w.entry).srcFailed)
      || (match t.st, t.region with
        | .running, some r =>
          s.accessFaulted t.die r || s.wakeWaits t.die r || s.resending t.die r
            || (match t.coreAt with
              | some c => (s.core c).serviced
              | none => false)
        | .placing, some r => s.resending t.die r && ((s.awaiting t.die r).any fun x => x.1.id == t.id)
        | _, _ => false)

/-- Charges `n` ns to a task (R1, R326, R372). Time in which a missed row waits for a fetch that its source holds is both fault time and
miss time: the manual does not say that it counts once (log 123). -/
def State.charge (s : State) (n : Nat) (t : Task) : Task :=
  { t with
    runTime := if t.st = .running then t.runTime + n else t.runTime
    faultTime := if s.faultNow t then t.faultTime + n else t.faultTime
    missTime := if t.bounded && t.st.isStarted && !t.misses.isEmpty then t.missTime + n else t.missTime
    missEntry := match t.misses with
      | m :: _ => if t.missOver = 0 then m.entry else t.missEntry
      | [] => t.missEntry }

/-- Time passes after a move (log 4), and tasks that met uncorrectable data fail (R394). -/
def State.tick (s : State) : State :=
  let n := Config.elapsedNs s.moves
  let s1 := s.afterMove
  { s1 with moves := s1.moves + 1, time := s1.time + n, tasks := s1.tasks.map (s1.charge n) }

def tickOut : Out → Out
  | .next s => .next s.tick
  | .fault r => .fault r
  | .refused r => .refused r

/-- The current core runs the instruction at its pc, when it is running and its die's clock runs (R162, R185, R378, R389). -/
def runCore (s : State) : Out :=
  match s.me.run with
  | .running => if s.clockOn (dieOf s.cur) then tickOut (exec (decode s.fetchWord) s) else .next s.tick
  | .held | .stopped | .halted => .next s.tick

/-- One step. An instruction word of the core runs only by fetch: a move that names one as an event does nothing. -/
def step (s : State) : Host.Outcome State Fault Refusal :=
  match s.agenda with
  | [] => runCore s
  | .core c :: t => runCore { s with agenda := t, cur := c }
  | .tlbFill w asid va :: t => .next (({ s with agenda := t } : State).fillTlb w asid va).tick
  | .tlbDrop w n :: t => .next (({ s with agenda := t } : State).dropTlb w n).tick
  | .walkStart w asid va :: t => .next (({ s with agenda := t } : State).startWalk w asid va).tick
  | .walkStep n :: t => .next (({ s with agenda := t } : State).stepWalk n).tick
  | .patch a n :: t => .next (({ s with agenda := t } : State).patchExtent a n).tick
  | .event i a :: t =>
    if i.ofCore then .next { s with agenda := t }.tick else tickOut (exec i { s with agenda := t, focus := a })

/-- The state in which the next step fetches and runs the instruction word `w` on the current core (log 12). -/
def State.withFetchWord (s : State) (nbits w : Nat) : State :=
  let k := s.me
  { (s.setMe { k with code := Map.set (k.pc.toNat / 4) (BitVec.ofNat 32 (w % 2 ^ nbits)) k.code, run := .running }) with
    agenda := [] }

end Sys2Proof.Machine
end

