-- ==== Sys2Proof/Machine/Registers.lean ====
section
/-!
DEFINITION. What a read of a management register returns (R317, R328, R351, R365, R375, R380, R386, R389, R390, R393). The registers that a
read clears have a step of their own; here stands the value that such a read sees.
-/
namespace Sys2Proof.Machine

/-- Bits of a register that a flag sets. -/
def flagAt (b : Bool) (n : Nat) : Nat := b2n b * 2 ^ n

/-- MCTL: RESET and BOOT read 0. -/
def HostSide.mctl (h : HostSide) : Word := BitVec.ofNat 64 (flagAt h.linken 2 + flagAt h.tieren 3 + flagAt h.evten 4)

def HostSide.mstat (h : HostSide) : Word := BitVec.ofNat 64 (flagAt h.booted 0 + flagAt h.bootFailed 1 + h.bootError % 256 * 2 ^ 8)

/-- NGPORT(p). -/
def HostSide.ngPort (h : HostSide) (p : Fin 36) : Word :=
  BitVec.ofNat 64 (flagAt (getF h.ngUp p) 0 + (getF h.ngPeer p).1.val * 2 ^ 8 + (getF h.ngPeer p).2.val * 2 ^ 16
    + (getF h.ngReplays p).toNat * 2 ^ 32)

/-- A value that the device samples from outside, or that counts what this model does not hold: free at each move (R393, log 20). -/
def State.sampled (s : State) (k : Nat) : Word := Config.gauge (64 * s.moves + k)

/-- A counter of what this model does not hold: what each move since the module reset has added is free (R393, log 20). -/
def State.counted (s : State) (k : Nat) : Word :=
  ((List.range s.moves).drop s.since).foldl (fun n i => n + Config.gauge (64 * i + k)) 0

/-- Registers below 0x1000 (R375). -/
def State.readMain (s : State) (off : Nat) : Word :=
  let h := s.host
  match off with
  | 0x0000 => BitVec.ofNat 64 (0x0F90 + Config.stepping.toNat * 2 ^ 16)
  | 0x0008 => h.mctl
  | 0x0010 => h.mstat
  | 0x0018 => h.bootAddr
  | 0x0020 => BitVec.ofNat 64 s.time
  | 0x0028 => h.evtBase
  | 0x0030 => h.evtCap
  | 0x0038 => h.evtProd.zeroExtend 64
  | 0x0040 => h.evtCons.zeroExtend 64
  | 0x0048 => h.evtLost
  | 0x0050 => h.domid
  | 0x0058 => h.grpBase
  | 0x0060 => h.dispSel
  | off =>
    if q : 0x100 ≤ off ∧ off < 0x300 ∧ off % 8 = 0 then getF h.ngrt ⟨(off - 0x100) / 8, by omega⟩
    else if q : 0x400 ≤ off ∧ off < 0x520 ∧ off % 8 = 0 then h.ngPort ⟨(off - 0x400) / 8, by omega⟩
    else if q : 0x800 ≤ off ∧ off < 0xA00 ∧ off % 8 = 0 then
      let r := getF h.tierRange ⟨(off - 0x800) / 16, by omega⟩
      if off % 16 = 0 then r.1 else r.2
    else 0

/-- DIECLK(d). -/
def Die.clkReg (d : Die) : Word :=
  let st := if d.clkBusy || d.clkHeld then d.clkAsked else d.clk
  BitVec.ofNat 64 (st.val + flagAt d.clkBusy 8 + flagAt d.clkHeld 9 + flagAt d.trip 10)

/-- Telemetry of a die. -/
def State.readTelemetry (s : State) (d : Fin 4) (off : Nat) : Word :=
  match off with
  | 0x00 => s.sampled (8 * d.val)
  | 0x08 => s.sampled (8 * d.val + 1)
  | 0x10 => (s.die d).fires
  | 0x18 => s.counted (8 * d.val + 2)
  | 0x20 => s.counted (8 * d.val + 3)
  | 0x28 => (s.die d).uecnt
  | 0x30 => (s.die d).refusedCnt
  | 0x38 => (s.die d).refusals
  | _ => 0

/-- The trap record of the tile that TRAPSEL names (R328, R333). -/
def State.trapRec (s : State) (d : Fin 4) (n : Fin 4) : Word :=
  let v := (s.tquOf d).trapSel.toNat
  let g := s.region d ⟨bits v 18 4, by unfold bits; omega⟩
  getF (s.tile d (g.absX (bits v 13 5)) (g.absY (bits v 8 5))).trap n

/-- A TQU block; registers that are write only read 0 (R317, R328, R351, R365). -/
def State.readTqu (s : State) (d : Fin 4) (off : Nat) : Word :=
  let q := s.tquOf d
  match off with
  | 0x00 => q.spillBase
  | 0x08 => q.spillCap
  | 0x10 => BitVec.ofNat 64 (s.spillCount d)
  | 0x18 => q.tqErr
  | 0x28 => q.drainLim
  | 0x30 => q.ctxBase
  | 0x38 => q.ctxCap
  | 0x40 => q.faultLim
  | 0x48 => q.wakeLim
  | 0x60 => q.trapSel
  | 0x68 => s.trapRec d 0
  | 0x70 => s.trapRec d 1
  | 0x78 => s.trapRec d 2
  | 0x80 => s.trapRec d 3
  | 0x88 => q.asidBase
  | 0x90 => q.invAddr
  | 0xA0 => q.invStat
  | 0xB0 => s.loadStat d
  | 0xB8 => if d = 0 then s.ert.base else 0
  | 0xC0 => if d = 0 then BitVec.ofNat 64 (b2n s.ert.en) else 0
  | 0xC8 => if d = 0 then s.ert.stat else 0
  | _ => 0

/-- A core's window (R380). -/
def CoreState.windowRead (k : CoreState) (off : Nat) : Word :=
  match off with
  | 0x000 => BitVec.ofNat 64 (flagAt k.isStopped 1 + flagAt k.isStopped 2)
  | 0x200 => k.pc
  | 0x208 => k.status
  | 0x210 => k.cause
  | 0x218 => k.trappc
  | 0x220 => k.badaddr
  | 0x228 => k.asid
  | 0x230 => k.prio
  | 0x238 => k.tags
  | 0x240 => k.wid
  | 0x248 => k.widw
  | off => if q : 0x100 ≤ off ∧ off < 0x200 ∧ off % 8 = 0 then k.readG ⟨(off - 0x100) / 8, by omega⟩ else 0

/-- An Ethernet port's block (R386). -/
def EthPort.read (p : EthPort) (off : Nat) : Word :=
  match off with
  | 0x000 => BitVec.ofNat 64 (b2n p.en)
  | 0x008 => p.mac.zeroExtend 64
  | 0x010 => p.fepLo
  | 0x018 => p.fepHi
  | 0x020 => BitVec.ofNat 64 (b2n (p.lanes != 0) + p.lanes.val * 2 ^ 8)
  | 0x028 => p.qbase
  | 0x030 => p.qcap
  | 0x038 => p.txpkts
  | 0x040 => p.rxpkts
  | 0x048 => p.drops
  | 0x050 => p.retx
  | _ => 0

/-- The value that a read of BAR0 of a function sees; offsets that no table lists read 0. -/
def State.readReg (s : State) (fn : Fin 2) (off : Nat) : Word :=
  if fn = 1 then (if h : off < 0x10000 then (getF s.eth ⟨off / 0x1000, by omega⟩).read (off % 0x1000) else 0)
  else if off < 0x1000 then s.readMain off
  else if h : off < 0x1020 ∧ off % 8 = 0 then (s.die ⟨(off - 0x1000) / 8 % 4, by omega⟩).clkReg
  else if h : 0x1040 ≤ off ∧ off < 0x1060 ∧ off % 8 = 0 then (s.die ⟨(off - 0x1040) / 8, by omega⟩).blkpwr
  else if h : 0x1080 ≤ off ∧ off < 0x10A0 ∧ off % 8 = 0 then (s.die ⟨(off - 0x1080) / 8, by omega⟩).blkstat
  else if h : 0x2000 ≤ off ∧ off < 0x2400 then s.readTelemetry ⟨(off - 0x2000) / 0x100, by omega⟩ (off % 0x100)
  else if off = 0x2400 then s.sampled 32
  else if off = 0x2408 then s.sampled 33
  else if off = 0x2410 then s.host.lreplay
  else if h : 0x100000 ≤ off ∧ off < 0x104000 then s.readTqu ⟨(off - 0x100000) / 0x1000, by omega⟩ (off % 0x1000)
  else if h : 0x200000 ≤ off ∧ off < 0x240000 then (s.core ⟨(off - 0x200000) / 0x1000, by omega⟩).windowRead (off % 0x1000)
  else 0

end Sys2Proof.Machine
end

