-- ==== Sys2Proof/Safety.lean ====
section
/-!
DEFINITION. What a safe run of a core instruction leaves alone, and the spec's own tables of results, in the terms that the
statements use: the result functions here are written from the tables of spec/06 and not from the model's operations.
-/
namespace Sys2Proof.Safety
open Sys2Proof.Machine

/-- Everything of the module but its cores is as before: memory, fabric, board, tasks, table, host side. -/
def RestSame (s t : State) : Prop := { t with cores := s.cores } = s

/-- Every core but the running one is as before. -/
def OthersSame (s t : State) : Prop := ∀ c, c ≠ s.cur → t.core c = s.core c

/-- Every byte of every memory reads as before: home copies, memory tiles, private data memory of each core. -/
def MemorySame (s t : State) : Prop :=
  (∀ a, t.byte a = s.byte a) ∧ (∀ a, t.mtByte a = s.mtByte a)
    ∧ ∀ c a, Map.get (0 : Byte) a (t.core c).priv = Map.get (0 : Byte) a (s.core c).priv

/-- The instruction wrote `v` into general register `d` (nothing when it is g0) and went on at `pc`: every other register,
predicate, shape register, system register and tag of the core, and everything else of the module, is as before. -/
def WroteReg (s t : State) (d : Reg) (v pc : Word) : Prop :=
  t.rd d = (if d = 0 then 0 else v) ∧ (∀ r, r ≠ d → t.rd r = s.rd r) ∧ t.me.pc = pc
    ∧ { t.me with g := s.me.g, pc := s.me.pc } = s.me ∧ OthersSame s t ∧ RestSame s t ∧ MemorySame s t

/-- The instruction wrote `b` into predicate `p` and went on at `pc`; nothing else changed. -/
def WrotePred (s t : State) (p : PReg) (b : Bool) (pc : Word) : Prop :=
  t.rdP p = b ∧ (∀ q, q ≠ p → t.rdP q = s.rdP q) ∧ t.me.pc = pc
    ∧ { t.me with p := s.me.p, pc := s.me.pc } = s.me ∧ OthersSame s t ∧ RestSame s t ∧ MemorySame s t

/-- The instruction wrote no register and went on at `pc`; nothing else changed. -/
def OnlyPc (s t : State) (pc : Word) : Prop :=
  t.me.pc = pc ∧ { t.me with pc := s.me.pc } = s.me ∧ OthersSame s t ∧ RestSame s t ∧ MemorySame s t

/-- The next word: pc + 4 within the 256 KiB of code memory. -/
def nextWord (s : State) : Word := BitVec.ofNat 64 ((s.me.pc.toNat + 4) % 2 ^ 18)

/-! ### Result tables -/

/-- The two-operand rows of R170. -/
def aluRows : List ((Rrr → Instr) × (Word → Word → Word)) :=
  [(.add, fun x y => x + y), (.sub, fun x y => x - y), (.and, fun x y => x &&& y), (.or, fun x y => x ||| y),
   (.xor, fun x y => x ^^^ y), (.andn, fun x y => x &&& ~~~y),
   (.shl, fun x y => BitVec.ofNat 64 (x.toNat * 2 ^ (y.toNat % 64))),
   (.shr, fun x y => BitVec.ofNat 64 (x.toNat / 2 ^ (y.toNat % 64))),
   (.sar, fun x y => BitVec.ofInt 64 (x.toInt / 2 ^ (y.toNat % 64))),
   (.rotl, fun x y => (x <<< (y.toNat % 64)) ||| (x >>> (64 - y.toNat % 64))),
   (.min, fun x y => BitVec.ofInt 64 (min x.toInt y.toInt)), (.max, fun x y => BitVec.ofInt 64 (max x.toInt y.toInt)),
   (.minu, fun x y => BitVec.ofNat 64 (min x.toNat y.toNat)), (.maxu, fun x y => BitVec.ofNat 64 (max x.toNat y.toNat)),
   (.addw, fun x y => (BitVec.setWidth 32 (x + y)).signExtend 64), (.subw, fun x y => (BitVec.setWidth 32 (x - y)).signExtend 64)]

/-- The rows of R171 with their borderline results. -/
def mulDivRows : List ((Rrr → Instr) × (Word → Word → Word)) :=
  [(.mul, fun x y => BitVec.ofNat 64 (x.toNat * y.toNat)),
   (.mulh, fun x y => BitVec.setWidth 64 ((x.signExtend 128 * y.signExtend 128) >>> 64)),
   (.mulhu, fun x y => BitVec.setWidth 64 ((x.setWidth 128 * y.setWidth 128) >>> 64)),
   (.div, fun x y => if y = 0 then BitVec.allOnes 64 else x.sdiv y),
   (.divu, fun x y => if y = 0 then BitVec.allOnes 64 else x / y),
   (.rem, fun x y => if y = 0 then x else x - y * x.sdiv y),
   (.remu, fun x y => if y = 0 then x else x - y * (x / y))]

/-- The conditions of R173 in the order of its table. -/
def conditions : List (Word → Word → Bool) :=
  [fun x y => decide (x = y), fun x y => decide (x ≠ y), fun x y => decide (x.toInt < y.toInt), fun x y => decide (x.toNat < y.toNat),
   fun x y => decide (x.toInt ≤ y.toInt), fun x y => decide (x.toNat ≤ y.toNat)]

def compareRows : List ((Rrr → Instr) × (Word → Word → Bool)) :=
  [Instr.ceq, .cne, .clt, .cltu, .cle, .cleu].zip conditions
def predicateRows : List ((PCmp → Instr) × (Word → Word → Bool)) :=
  [Instr.peq, .pne, .plt, .pltu, .ple, .pleu].zip conditions

/-- One result of the counts of R170: `n` leading zeros of a 64-bit value. -/
def IsClz (x : Word) (n : Nat) : Prop := n ≤ 64 ∧ (∀ i, 64 - n ≤ i → x.getLsbD i = false) ∧ (n < 64 → x.getLsbD (63 - n) = true)
def IsCtz (x : Word) (n : Nat) : Prop := n ≤ 64 ∧ (∀ i, i < n → x.getLsbD i = false) ∧ (n < 64 → x.getLsbD n = true)
def countOnes (x : Word) : Nat := ((List.range 64).filter fun i => x.getLsbD i).length

/-- The rows of R172, as functions of ga and the 16-bit immediate. -/
def immediateRows : List ((Reg → Reg → BitVec 16 → Instr) × (Word → BitVec 16 → Word)) :=
  [(.addi, fun x i => x + BitVec.ofInt 64 i.toInt), (.andi, fun x i => x &&& BitVec.ofNat 64 i.toNat),
   (.ori, fun x i => x ||| BitVec.ofNat 64 i.toNat), (.xori, fun x i => x ^^^ BitVec.ofNat 64 i.toNat),
   (.slti, fun x i => if x.toInt < i.toInt then 1 else 0),
   (.sltiu, fun x i => if x.toNat < (BitVec.ofInt 64 i.toInt).toNat then 1 else 0)]
def shiftRows : List ((Reg → Reg → Fin 64 → Instr) × (Word → Nat → Word)) :=
  [(.shli, fun x n => BitVec.ofNat 64 (x.toNat * 2 ^ n)), (.shri, fun x n => BitVec.ofNat 64 (x.toNat / 2 ^ n)),
   (.sari, fun x n => BitVec.ofInt 64 (x.toInt / 2 ^ n))]

/-! ### Queue-mapped operands (R130) -/

/-- A token that leaves a sink port without effect at its head: barrier, completion or shape (R180). -/
def Silent (t : Token) : Prop := t.hdr.kind = 2 ∨ t.hdr.kind = 5 ∨ t.hdr.kind = 6

/-- `left` is what stands of `l` once the silent tokens at its head have left. -/
def SilentGone (l left : List Token) : Prop := ∃ gone, l = gone ++ left ∧ (∀ t ∈ gone, Silent t) ∧ ∀ t, left.head? = some t → ¬ Silent t

/-- Source `q` (a queue-mapped register, or none for general register `r`) can be read now and gives `x`: the register is bound to a
sink port and its head, once control tokens are gone, is a data or null token with that value. -/
def SourceGives (s : State) (q : Option Nat) (r : Reg) (x : Word) : Prop :=
  match q with
  | none => x = s.rd r
  | some n => ∃ a, s.qBind s.cur n = some a ∧ (s.elem a).portVo = true ∧ (s.elem a).qHead = .value x

/-- The head of source `q` is poison or an end-of-run, or no value stands there. -/
def SourceBound (s : State) (q : Option Nat) : Prop :=
  match q with
  | none => True
  | some n => ∃ a, s.qBind s.cur n = some a ∧ (s.elem a).portVo = true

/-- Register `q` is unbound (reason 0) or bound to a port of the wrong direction (reason 1): `vo` says that a sink port is wanted (R130). -/
def WrongWay (s : State) (q reason : Nat) (vo : Bool) : Prop :=
  match s.qBind s.cur q with
  | none => reason = 0
  | some a => reason = 1 ∧ (s.elem a).portVo = !vo

/-- Identifier `id` names accumulator j of the CT at (x, y) of the core's region r, whose committed configuration holds it (R182). -/
def AccNamed (s : State) (id : Word) (r : Fin 16) (x y : Nat) (j : Fin 4) : Prop :=
  let g := s.region (dieOf s.cur) r
  s.ownRegion s.cur = some r ∧ g.committed = true ∧ id = BitVec.ofNat 64 (x * 256 + y * 8 + j.val) ∧ x < 32 ∧ y < 32
    ∧ g.owns (x + 5 * g.bx) (y + 4 * g.by') = true ∧ tileKind (x + 5 * g.bx) (y + 4 * g.by') = .ct
    ∧ ((s.elem { die := dieOf s.cur, x := x + 5 * g.bx, y := y + 4 * g.by', e := 14 }).field 16).testBit j.val = true

/-- The destination can take a result: bound to a source port of the region with a credit, whose element is not stopped. -/
def DestTakes (s : State) (q : Option Nat) : Prop :=
  match q with
  | none => True
  | some n => ∃ a, s.qBind s.cur n = some a ∧ (s.elem a).portVo = false ∧ 0 < s.credits a 0 ∧ (s.elem a).frozen = false

/-- The state after each distinct source register is popped once (R130 step 3). -/
def popped (s : State) (qa qb : Option Nat) : State := if qa = qb then s.popQ qa else (s.popQ qa).popQ qb

/-- Every two-source row with q bits, its result as a word. -/
def queueRows : List ((Rrr → Instr) × (Word → Word → Word)) :=
  aluRows ++ mulDivRows ++ compareRows.map fun r => (r.1, fun x y => if r.2 x y then 1 else 0)

/-! ### Memory accesses of the core (R108, R163, R174 to R176) -/

/-- The unsigned number that `n` bytes from `a` on make up, little-endian (R5). -/
def leBytes (f : Nat → Byte) (a : Nat) : Nat → Nat
  | 0 => 0
  | n + 1 => leBytes f a n + (f (a + n)).toNat * 256 ^ n

/-- A byte of the running core's private data memory. -/
def privByte (s : State) (a : Nat) : Byte := Map.get (0 : Byte) a s.me.priv

/-- Byte `i` of a register's value. -/
def valueByte (v : Word) (i : Nat) : Byte := BitVec.ofNat 8 (v.toNat / 256 ^ i)

/-- Sign-extension of the low `8 * n` bits of a number. -/
def signExt (n v : Nat) : Word := if 2 ^ (8 * n - 1) ≤ v then BitVec.ofInt 64 (Int.ofNat v - 2 ^ (8 * n)) else BitVec.ofNat 64 v

/-- The load rows of R174: size in bytes and how the value is extended. -/
def loadRows : List ((Reg → Reg → BitVec 16 → Instr) × Nat × (Nat → Word)) :=
  [(.ldb, 1, signExt 1), (.ldbu, 1, BitVec.ofNat 64), (.ldh, 2, signExt 2), (.ldhu, 2, BitVec.ofNat 64), (.ldw, 4, signExt 4),
   (.ldwu, 4, BitVec.ofNat 64), (.ldd, 8, BitVec.ofNat 64)]
def storeRows : List ((Reg → Reg → BitVec 16 → Instr) × Nat) := [(.stb, 1), (.sth, 2), (.stw, 4), (.std, 8)]
def sizeBytes : Size → Nat
  | .b => 1
  | .h => 2
  | .w => 4
  | .d => 8

/-- The data address is in the private window, at an offset, and aligned (R163, R174). -/
def InWindow (addr : Word) (n off : Nat) : Prop := addr.toNat = 0x00FF_FFFF_FFFF_0000 + off ∧ off < 65536 ∧ addr.toNat % n = 0

/-- The data address is a virtual address outside the window, aligned, and translates to `pa` under ASID for this access. -/
def OnBoard (s : State) (addr : Word) (n : Nat) (write : Bool) (pa : Nat) : Prop :=
  addr.toNat < 0x00FF_FFFF_FFFF_0000 ∧ addr.toNat % n = 0
    ∧ s.translateBy (.core s.cur) (s.me.asid.truncate 13) addr.toNat write (!s.sv) = .ok pa

/-- A data address as the die's own units translate it for the running core (R314, R353). -/
def ReadByDie (s : State) (addr : Word) (pa : Nat) : Prop :=
  s.translate (dieOf s.cur) (s.me.asid.truncate 13) addr.toNat false (!s.sv) = .ok pa

/-- What a read of `n` bytes at `pa` by a party of die `d` gives, and the state that it leaves (R104): the home copy where the granule is
read at its home; else the die's RDC copy, or the home copy with the line filled into the RDC. -/
def ReadsAs (s : State) (d : Fin 4) (pa n v : Nat) (u : State) : Prop :=
  if s.isLocal d (pa / 8) then v = leBytes s.byte pa n ∧ u = s
  else match s.rdcOf d (pa / 8) with
    | some w => v = w.toNat / 256 ^ (pa % 8) % 256 ^ n ∧ u = s
    | none => v = leBytes s.byte pa n ∧ u = s.fillLine d (pa / 8)

/-- A granule write covers exactly the `n` bytes from `pa` on with the low bytes of `v`. -/
def WritesBytes (w : GWrite) (pa n : Nat) (v : Word) : Prop :=
  w.granule = pa / 8 ∧ (∀ i, i < 8 → w.mask.getLsbD i = decide (pa % 8 ≤ i ∧ i < pa % 8 + n))
    ∧ ∀ i, i < n → valueByte w.value (pa % 8 + i) = valueByte v i

/-- The order buffer begins with a store or a command, or is empty: entries that wait for nothing have left it (R199, R206, R212). -/
def OrderSettled (k : CoreState) : Prop :=
  match k.order with
  | .sbar .. :: _ | .qfence .. :: _ | .shape .. :: _ => False
  | .store _ :: _ | .cmd _ :: _ | [] => True

/-- The core has no write under way, so that a release of its own accesses needs no marker. -/
def NoPaths (s : State) : Prop := s.partyPaths (.core s.cur) = []

/-- Bytes `pa` to `pa + n - 1` of the home copies hold the low bytes of `v`; every other byte of memory reads as before. -/
def HomeBytesSet (s t : State) (pa n : Nat) (v : Word) : Prop :=
  ∀ a, t.byte a = if pa ≤ a ∧ a < pa + n then valueByte v (a - pa) else s.byte a

/-- Bytes `off` to `off + n - 1` of the running core's private memory hold the low bytes of `v`, the others read as before; the core's
other state but its pc, and all else of the module, is as before. -/
def PrivBytesSet (s t : State) (off n : Nat) (v : Word) : Prop :=
  (∀ a, privByte t a = if off ≤ a ∧ a < off + n then valueByte v (a - off) else privByte s a)
    ∧ { t.me with priv := s.me.priv, pc := s.me.pc } = s.me ∧ OthersSame s t ∧ RestSame s t

/-- The value that an atomic of R176 writes, from the old value, gb and gd, all of `n` bytes; none for a failed compare. -/
def amoRows : List ((Amo → Instr) × (Nat → Nat → Nat → Nat → Option Nat)) :=
  [(.amoAdd, fun n old y _ => some ((old + y) % 256 ^ n)),
   (.amoMin, fun n old y _ => some (if (signExt n y).toInt < (signExt n old).toInt then y else old)),
   (.amoMax, fun n old y _ => some (if (signExt n old).toInt < (signExt n y).toInt then y else old)),
   (.amoSwap, fun _ _ y _ => some y), (.amoCas, fun _ old y d => if old = d then some y else none),
   (.amoAnd, fun _ old y _ => some (old &&& y)), (.amoOr, fun _ old y _ => some (old ||| y))]
def amoBytes (o : Amo) : Nat := if o.dbl then 8 else 4

/-- Instruction `i` makes one data access of `n` bytes at `addr`, which writes or not (R174 to R176, R184). -/
def DataAccess (s : State) (i : Instr) (addr : Word) (n : Nat) (write : Bool) : Prop :=
  (∃ row ∈ loadRows, ∃ d a imm, i = row.1 d a imm ∧ addr = s.rd a + BitVec.ofInt 64 imm.toInt ∧ n = row.2.1 ∧ write = false) ∨
  (∃ row ∈ storeRows, ∃ d a imm, i = row.1 d a imm ∧ addr = s.rd a + BitVec.ofInt 64 imm.toInt ∧ n = row.2 ∧ write = true) ∨
  (∃ d a size u scope, i = .lda d a size u scope ∧ addr = s.rd a ∧ n = sizeBytes size ∧ write = false) ∨
  (∃ a b size scope, i = .stl a b size scope ∧ addr = s.rd a ∧ n = sizeBytes size ∧ write = true) ∨
  (∃ row ∈ amoRows, ∃ o, i = row.1 o ∧ addr = s.rd o.a ∧ n = amoBytes o ∧ write = true) ∨
  (∃ d a scope, i = .wait d a scope ∧ addr = s.rd a ∧ n = 8 ∧ write = false)

/-- A virtual address lies in a region-private range: the committed configuration of the core's region has an MT whose mc is in the
cache role, with the base in field 17 and the count of pages in field 18 (R97, R155). -/
def InPrivateRange (s : State) (va : Nat) : Prop :=
  ∃ r, s.ownRegion s.cur = some r ∧ (s.region (dieOf s.cur) r).committed = true ∧
    ∃ a ∈ s.regionElems (dieOf s.cur) r, tileKind a.x a.y = .mt ∧ a.e = 15 ∧ (s.elem a).field 16 % 4 = 3 ∧
      let base := (s.elem a).field 17 / 2 ^ 12 % 2 ^ 44 * 4096
      base ≤ va ∧ va < base + (s.elem a).field 18 % 2 ^ 44 * 4096

/-- The branch rows of R177. -/
def branchRows : List ((Reg → Reg → BitVec 16 → Instr) × (Word → Word → Bool)) :=
  [(.beq, fun x y => decide (x = y)), (.bne, fun x y => decide (x ≠ y)), (.blt, fun x y => decide (x.toInt < y.toInt)),
   (.bge, fun x y => decide (y.toInt ≤ x.toInt)), (.bltu, fun x y => decide (x.toNat < y.toNat)),
   (.bgeu, fun x y => decide (y.toNat ≤ x.toNat))]

/-- The pc of a running core is a multiple of 4 inside code memory (R127). -/
def PcOk (s : State) : Prop := s.me.pc.toNat % 4 = 0 ∧ s.me.pc.toNat < 2 ^ 18

/-- A taken branch or jump to `target` with nothing linked (R131): it goes there, or raises the fetch-range trap. -/
def GoesTo (s : State) (target : Int) (t : State) : Prop :=
  if 0 ≤ target ∧ target ≤ 0x3FFFC ∧ target % 4 = 0 then OnlyPc s t (BitVec.ofInt 64 target)
  else t = s.trap { cause := .fetchRange, bad := BitVec.ofInt 64 target }

/-- The same with pc + 4 linked into `d`. -/
def LinksAndGoes (s : State) (d : Reg) (target : Int) (t : State) : Prop :=
  if 0 ≤ target ∧ target ≤ 0x3FFFC ∧ target % 4 = 0 then WroteReg s t d (s.me.pc + 4) (BitVec.ofInt 64 target)
  else t = s.trap { cause := .fetchRange, bad := BitVec.ofInt 64 target }

/-- Trap entry of a core (R168, R169, R330): the saved registers, STATUS and the pc. -/
def EntersTrap (k k' : CoreState) (code info : Nat) (ret bad : Word) : Prop :=
  k'.cause = BitVec.ofNat 64 (info * 2 ^ 32 + code) ∧ k'.trappc = ret ∧ k'.badaddr = bad
    ∧ k'.pc = BitVec.ofNat 64 (0x3F000 + 16 * code)
    ∧ (∀ i, k'.status.getLsbD i = match i with
        | 0 => false
        | 1 => k.status.getLsbD 0
        | 2 => k.status.getLsbD 3
        | 3 | 4 => true
        | i => k.status.getLsbD i)
    ∧ k'.g = k.g ∧ k'.p = k.p ∧ k'.sh = k.sh ∧ k'.tags = k.tags ∧ k'.priv = k.priv ∧ k'.order = k.order ∧ k'.wid = k.wid
    ∧ k'.asid = k.asid

/-- Instruction `i` meets a synchronous cause, with its code (R167, R330). -/
def RaisesSync (s : State) (i : Instr) (code : Nat) : Prop :=
  (∃ w, i = .illegalInstruction w ∧ code = 0x01) ∨
  (s.sv = false ∧ (i = .eret ∨ ∃ a, i = .mtsr .trappc a ∨ i = .mtsr .asid a) ∧ code = 0x02) ∨
  (∃ d q reason, ((i = .qlvl d q ∨ i = .qpop d q ∨ i = .qpush q d) ∧ s.qBind s.cur q.val = none ∨
    (i = .qpop d q ∧ WrongWay s q.val reason true) ∨ (i = .qpush q d ∧ WrongWay s q.val reason false)) ∧ code = 0x03) ∨
  (∃ d a, i = .jalr d a ∧ ¬ ((s.rd a).toNat ≤ 0x3FFFC ∧ (s.rd a).toNat % 4 = 0) ∧ code = 0x04) ∨
  (∃ addr n write, DataAccess s i addr n write ∧
    ((2 ^ 56 ≤ addr.toNat ∧ code = 0x05) ∨ (addr.toNat < 2 ^ 56 ∧ addr.toNat % n ≠ 0 ∧ code = 0x06) ∨
     (addr.toNat < 0x00FF_FFFF_FFFF_0000 ∧ addr.toNat % n = 0 ∧ ∃ f,
       s.translateBy (.core s.cur) (s.me.asid.truncate 13) addr.toNat write (!s.sv) = .error f ∧
       code = if f = .translation then 0x07 else 0x08))) ∨
  (∃ row ∈ amoRows, ∃ o pa, i = row.1 o ∧ OnBoard s (s.rd o.a) (amoBytes o) true pa ∧ InPrivateRange s (s.rd o.a).toNat ∧ code = 0x09) ∨
  (∃ sh a b kind, i = .shape sh a b kind ∧ s.ownRegion s.cur = none ∧ code = 0x0A) ∨
  (∃ n, i = .trap n ∧ code = 0x0B)

/-! ### Tagged commands (R189, R194, R202, R204) -/

/-- Tokens that stand where output `o` of an element puts them on its edge to input `p`: in the crossing stage of its static channel, in
the network of the die, or on the wire of a local edge (R51). -/
def sendPlace (s : State) (a : ElemAt) (o : Nat) (p : InPort) : List Token :=
  let f := (s.elem a).field (7 + o)
  match f / 2 ^ 8 % 4 with
  | 2 => s.stageAt (stageKey a.die a.x a.y (dirOf (f / 2 ^ 6 % 4)) (f / 2 ^ 4 % 4))
  | 3 => ((s.packetsOf a.die).filter fun k => decide (k.sender = a) && k.to p).map (·.tok)
  | _ => getF (s.elem p.1).wire p.2

/-- An element address that lies in the fabric of a die. -/
def InFabric (a : ElemAt) : Prop := a.x < 22 ∧ a.y < 22 ∧ a.e < 16

/-- What a command holds from its issue: operation, core, address space, mode, operands, tag and work identifier (R166, R189). -/
def CommandOf (s : State) (k : Command) (op : CmdOp) (base count : Word) (tag : Tag) : Prop :=
  k.op = op ∧ k.core = s.cur ∧ k.asid = s.me.asid.truncate 13 ∧ k.user = (s.me.task.isSome || !s.sv) ∧ k.base = base ∧ k.count = count ∧ k.tag = tag
    ∧ k.wid = s.me.wid

/-- R189 step 3 and R99: the tag's bit is cleared, its count rises by 1, the command stands last in the order buffer, and the core goes
on; nothing else changes. -/
def Issued (s t : State) (k : Command) : Prop :=
  t.me.order = s.me.order ++ [.cmd k] ∧ (∀ i, t.me.tags.getLsbD i = (s.me.tags.getLsbD i && decide (i ≠ k.tag.val)))
    ∧ (∀ j : Tag, getF t.me.tagCount j = getF s.me.tagCount j + if j = k.tag then 1 else 0)
    ∧ OnlyPc s { t with cores := setF t.cores s.cur { t.me with order := s.me.order, tags := s.me.tags, tagCount := s.me.tagCount } }
        (nextWord s)

/-- The tag's outstanding count is below 255 (R99). -/
def TagRoom (s : State) (tag : Tag) : Prop := getF s.me.tagCount tag < 255

/-- The rows of R194: operation and direction of the port. -/
def streamRows : List ((Strm → Instr) × CmdOp × Bool) :=
  [(.strmLd, .strmLd, false), (.strmSt, .strmSt, true), (.strmGth, .strmGth, false), (.strmSct, .strmSct, true)]

/-- The rows of R202 and R204; a copy has no mode. -/
def queueCommandRows : List ((QReg → Reg → Reg → Tag → CollMode → Instr) × CmdOp) :=
  [(fun q b c t _ => .cpy q b c t, .cpy), (fun q b c t _ => .cpy2d q b c t, .cpy2d), (.collAr, .collAr), (.collAg, .collAg),
   (.collRs, .collRs), (.collBc, .collBc), (.collA2a, .collA2a)]

/-- The port of bit `i` of a mask in the layout of R142: bits 31:0 vi, bits 63:32 vo. -/
def maskPort (s : State) (i : Nat) : Option ElemAt := s.portElem s.cur (decide (32 ≤ i)) (i % 32)

/-- Engine `e` is mapped to a port that mask `m` names. -/
def MaskNames (s : State) (m : Word) (e : ElemAt) : Prop := ∃ i, i < 64 ∧ m.getLsbD i = true ∧ maskPort s i = some e

/-- An instruction that only changed the core's TAGS, and went on. -/
def WroteTags (s t : State) : Prop :=
  OnlyPc s { t with cores := setF t.cores s.cur { t.me with tags := s.me.tags } } (nextWord s)

/-! ### Shapes (R209 to R212) -/

/-- Maxima of m or the length, of n and of k on a region of `w` by `h` blocks, and the granule of k or of the length (R210). -/
def shapeLimits (kind : ShapeKind) (w h : Nat) : Nat × Nat × Nat × Nat :=
  match kind with
  | .vec => (2048 * w * h, 0, 0, 8)
  | .fp8 => (64 * h, 64 * w, 1024, 32)
  | .e2m1 => (64 * h, 64 * w, 2048, 64)
  | .bf16 => (64 * h, 64 * w, 512, 16)
  | .rank => (4096, 0, 0, 8)

/-- The grant of a request is the largest multiple of the granule that is neither above the request nor above the maximum (R211). -/
def Granted (req max gran g : Nat) : Prop := gran ≤ req ∧ g % gran = 0 ∧ g ≤ Nat.min req max ∧ Nat.min req max < g + gran

/-- Register `sh` was granted: requests, grants, maxima, kind, the following word and the registers named (R209, R211). -/
def HoldsGrant (r : ShapeReg) (req grant max : Nat × Nat × Nat) (kind next : Nat) (a b : Reg) : Prop :=
  r.reqM.toNat = req.1 ∧ r.reqN.toNat = req.2.1 ∧ r.reqK.toNat = req.2.2
    ∧ r.grantM = BitVec.ofNat 16 grant.1 ∧ r.grantN = BitVec.ofNat 16 grant.2.1 ∧ r.grantK = BitVec.ofNat 16 grant.2.2
    ∧ r.maxM = BitVec.ofNat 16 max.1 ∧ r.maxN = BitVec.ofNat 16 max.2.1 ∧ r.maxK = BitVec.ofNat 16 max.2.2
    ∧ r.kind.toNat = kind ∧ r.pcw = BitVec.ofNat 16 next ∧ r.ra.toNat = a.val ∧ r.rb.toNat = b.val ∧ r.pub = false ∧ r.valid = true

/-- shape left its register, wrote `x` into ga and, for a matrix kind, `y` into gb after it, and went on. -/
def ShapeWrote (s t : State) (sh : ShReg) (a b : Reg) (x : Word) (y : Option Word) : Prop :=
  (∀ g, t.rd g = if g = 0 then 0 else match y with
    | some y => if g = b then y else if g = a then x else s.rd g
    | none => if g = a then x else s.rd g)
    ∧ (∀ o, o ≠ sh → getF t.me.sh o = getF s.me.sh o)
    ∧ OnlyPc s { t with cores := setF t.cores s.cur { t.me with g := s.me.g, sh := s.me.sh } } (nextWord s)

/-- The shape token of R212. -/
def IsShapeToken (t : Token) (sh : ShReg) (r : ShapeReg) : Prop :=
  t.hdr = { kind := 6 } ∧ t.pay.toNat = r.grantM.toNat + r.grantN.toNat * 2 ^ 16 + r.grantK.toNat * 2 ^ 32 + sh.val * 2 ^ 48 + r.kind.toNat * 2 ^ 51

/-! ### Expert-table commands (R217, R218) -/

/-- The status of R217: state, use bit, and the slot unless the entry is absent. -/
def ertStatus (e : ErtEntry) : Word :=
  BitVec.ofNat 64 (e.state.val + (if e.use then 4 else 0) + if e.state.val = 0 then 0 else e.slot % 2 ^ 16 * 2 ^ 16)

/-- A table command may begin at once: nothing of the core is under way and the tag has room. -/
def ErtReady (s : State) (tag : Tag) : Prop := s.me.order = [] ∧ TagRoom s tag

/-- The command answered `v`, and its tag: taken (`wait`) or completed at once; the core went on, and of its registers only gs changed. -/
def ErtAnswered (s t : State) (d : Reg) (tag : Tag) (v : Word) (wait : Bool) : Prop :=
  t.rd d = (if d = 0 then 0 else v) ∧ (∀ r, r ≠ d → t.rd r = s.rd r) ∧ t.me.pc = nextWord s
    ∧ (∀ j : Tag, getF t.me.tagCount j = getF s.me.tagCount j + if j = tag ∧ wait = true then 1 else 0)
    ∧ (∀ i, t.me.tags.getLsbD i = if i = tag.val then (!wait && decide (getF s.me.tagCount tag = 0)) else s.me.tags.getLsbD i)

/-! ### The configuration network (R145 to R151) -/

/-- The stream of commands to a die stands at a region, and no command of it was bad. -/
def StreamAt (s : State) (d : Fin 4) (r : Fin 16) (began : Bool) : Prop :=
  (s.die d).cursor.region = some r ∧ (s.die d).cursor.began = began ∧ (s.die d).cursor.bad = none

/-- Region-relative (x, y) is the site of an MT that the region owns (R149). -/
def MtSite (s : State) (d : Fin 4) (r : Fin 16) (x y : Nat) : Prop :=
  let g := s.region d r
  x ≤ 5 * g.w + 1 ∧ y ≤ 4 * g.h + 1 ∧ tileKind (g.absX x) (g.absY y) = .mt ∧ g.owns (g.absX x) (g.absY y) = true

/-- A store of granule `g` with a mask of bits and a value stands queued at the bank ports of the MT of number `m` (R106, R147). -/
def QueuedAt (s : State) (d : Fin 4) (r : Fin 16) (m g : Nat) (mask v : Word) : Prop :=
  ∃ a ∈ s.regionElems d r, ∃ p ∈ (s.elem a).pend, p.store = true ∧ p.mt = true ∧ p.bank = m ∧ p.withheld = false ∧ p.dropped = false
    ∧ (g, mask, v) ∈ p.writes

/-- Every store queued at the MTs whose numbers meet `M` has performed: none stands there, a granule that one store alone names holds its
bits, and a granule that none names reads as before (R147). -/
def BanksPerformed (s t : State) (d : Fin 4) (r : Fin 16) (M : Nat → Prop) : Prop :=
  (∀ m g mask v, M m → ¬ QueuedAt t d r m g mask v) ∧
  (∀ k, (∀ m g mask v, M m → QueuedAt s d r m g mask v → k ≠ mtFirst m + g) → t.mtGranule k = s.mtGranule k) ∧
  ∀ m g mask v, M m → QueuedAt s d r m g mask v →
    (∀ m' g' mask' v', M m' → QueuedAt s d r m' g' mask' v' → mtFirst m' + g' = mtFirst m + g →
      m' = m ∧ g' = g ∧ mask' = mask ∧ v' = v) →
    ∀ i, (t.mtGranule (mtFirst m + g)).getLsbD i = if mask.getLsbD i then v.getLsbD i else (s.mtGranule (mtFirst m + g)).getLsbD i

/-- The command is the first bad one of its stream: its index is kept (R148). -/
def FirstBad (s t : State) (d : Fin 4) : Prop :=
  (t.die d).cursor.bad = some (s.die d).cursor.index ∧ t.elems = s.elems ∧ t.tiles = s.tiles ∧ t.mem = s.mem ∧ t.mt = s.mt
    ∧ ∀ r, t.region d r = s.region d r

/-! ### Begin and end of commands, moves of the board (R99, R103 to R110, R190) -/

/-- The clock of the die runs, so that its parties move (R389). -/
def Clocked (s : State) (d : Fin 4) : Prop := (s.die d).clk ≠ 3

/-- A command of core `c` on `tag` has completed: its count falls by 1, and its bit is set when the count reaches 0 (R99). -/
def TagFalls (s t : State) (c : Fin 64) (tag : Tag) : Prop :=
  (∀ j : Tag, getF (t.core c).tagCount j = getF (s.core c).tagCount j - if j = tag then 1 else 0)
    ∧ ∀ i, (t.core c).tags.getLsbD i = ((s.core c).tags.getLsbD i || decide (i = tag.val ∧ getF (s.core c).tagCount tag ≤ 1))

/-- The status dword of R190. -/
def statusWord (code : Nat) (ovf poison : Bool) (flags : BitVec 5) (info : Nat) : Word :=
  BitVec.ofNat 64 (code + (if ovf then 2 ^ 8 else 0) + (if poison then 2 ^ 9 else 0) + flags.toNat * 2 ^ 10
    + Nat.min info (2 ^ 32 - 1) * 2 ^ 32)

/-- A write sets exactly its bytes of its home copy (R98, R105). -/
def HomeWritten (s t : State) (w : GWrite) : Prop :=
  ∀ a, t.byte a = if a / 8 = w.granule ∧ w.mask.getLsbD (a % 8) = true then valueByte w.value (a % 8) else s.byte a

/-- A write performs (R105): at a home on the writer's die or the host it lands at once; else the die's RDC copy takes its bytes and the
write stands last in one path toward the home, which joins the party's path set. -/
def WritePerforms (s t : State) (p : Party) (d : Fin 4) (w : GWrite) (it : PathItem) : Prop :=
  match s.pathDest d w.granule with
  | none => HomeWritten s t w ∧ t.paths = s.paths
  | some dst => ∃ q : PathId, q.src.val = d.val ∧ q.dst = dst ∧ t.pathItems q = s.pathItems q ++ [it] ∧ q ∈ t.partyPaths p
      ∧ (∀ r, r ≠ q → t.pathItems r = s.pathItems r) ∧ (∀ a, t.byte a = s.byte a)
      ∧ ∃ v, t.rdcOf d w.granule = some v ∧ ∀ i, i < 8 →
          valueByte v i = if w.mask.getLsbD i then valueByte w.value i else valueByte ((s.rdcOf d w.granule).getD (s.home w.granule)) i

/-- No engine holds a barrier or shape entry that waits for nothing, and no queue of the core a fence that does. -/
def EnginesSettled (s : State) : Prop := s.settleEngines = s
def QueuesSettled (s : State) (c : Fin 64) : Prop := s.settleQueues c = s

/-- A collective that its rank's next match on its group lets move (R205). -/
def matchedRun (s : State) (c : Fin 64) (r : CollRun) (remote : List RemoteRank) : CollRun :=
  { r with matched := true, index := Map.get 0 r.group (s.core c).collCount, use := s.moves, remote }

/-- The next collective of core `c` on a group, in the order of issue, is unmatched at the head of queue `q` (R205). -/
def NextCollective (s : State) (c : Fin 64) (group : Nat) (q : QReg) (k : Command) (r : CollRun) (st : CmdStatus) (rest : List QItem) : Prop :=
  getF (s.core c).queues q = .cmd k (.coll r) st false :: rest ∧ r.group = group ∧ r.matched = false ∧ (s.core c).collPending k.seq = false
    ∧ ∀ p k' r', p ≠ q → headColl (getF (s.core c).queues p) = some (k', r') → r'.group = group → r'.matched = false → k.seq < k'.seq

/-- An element's access to virtual granule `g`, its page patched first where the access is direct, goes to `pa` (R353, R354). -/
def Reaches (s : State) (a : ElemAt) (asid : BitVec 13) (g : Nat) (write user : Bool) (pa : Nat) : Prop :=
  (s.reach a asid (8 * g) write user).placeOf a asid (8 * g) write user = .ok pa

/-- The access goes nowhere: a faulting extent, or a fault of the tile's TLB. -/
def NotReached (s : State) (a : ElemAt) (asid : BitVec 13) (g : Nat) (write user : Bool) : Prop :=
  ∃ f, (s.reach a asid (8 * g) write user).placeOf a asid (8 * g) write user = .error f

/-- The engine of a command is idle and the command is its next one. -/
def NextCommand (s : State) (a : ElemAt) (k : Command) (rest : List StreamItem) : Prop :=
  (s.elem a).se.cur = none ∧ (s.elem a).se.items = .cmd k :: rest ∧ EnginesSettled s

/-! ### Firings (R46 to R58, R220 to R225) -/

/-- The header of a firing under R53, before its kind: of the first head of the lowest required data input, with the AND of the
lanemasks; a null counts as all masked. -/
def HeaderOf (e : Elem) (ins : List (Fin 4)) (h : Header) : Prop :=
  ∃ i rest t, ins = i :: rest ∧ (getF e.inq i).head? = some t ∧ h.seq = t.hdr.seq ∧ h.itag = t.hdr.itag ∧ h.pvalid = t.hdr.pvalid
    ∧ h.pbit = t.hdr.pbit ∧ h.reserved = 0 ∧ h.kind = 0
    ∧ ∀ k, k < 16 → (h.lanes.getLsbD k = true ↔ ∀ j ∈ ins, ∀ u ∈ (getF e.inq j).take (e.inRate j.val), u.hdr.kind ≠ 1 ∧ u.hdr.lanes.getLsbD k = true)

/-- A null stands among the data heads of the firing. -/
def NullHead (e : Elem) (ar : Nat) : Prop := ∃ i ∈ e.dataIns ar, ∃ t ∈ e.taken i, t.hdr.kind = 1

/-- The firing is performed under R55. -/
def PredicateHolds (e : Elem) (ar : Nat) : Prop :=
  e.code = 0 ∨ (e.code = 3 ∧ ¬ NullHead e ar) ∨
    ((e.code = 1 ∨ e.code = 2) ∧ ¬ NullHead e ar ∧ ∃ t, e.head? e.predFin = some t ∧ t.hdr.pvalid = true ∧ t.hdr.pbit = decide (e.code = 1))

/-- The firing is skipped under R55. -/
def PredicateSkips (e : Elem) (ar : Nat) : Prop :=
  (e.code = 3 ∧ NullHead e ar) ∨
    ((e.code = 1 ∨ e.code = 2) ∧ ∃ t, e.head? e.predFin = some t ∧ t.hdr.pvalid = true ∧ (NullHead e ar ∨ t.hdr.pbit = decide (e.code = 2)))

/-- The element in focus fires as opcode `op` and performs: R52 holds, no output is cancelled, no head is poison, the predicate holds. -/
def Performs (s : State) (op ar : Nat) : Prop :=
  s.canFire s.focus op = true ∧ s.fe.cancels = [] ∧ s.fe.poisonHead = none ∧ PredicateHolds s.fe ar

/-- Cancels that stand for an itag at an output (R58, R61). -/
def CancelsAt (e : Elem) (itag : BitVec 8) (o : Fin 2) : Nat := e.cancels.count (itag, o)

/-- The header of a firing of the element in focus. -/
def firingHeader (s : State) (ar : Nat) : Header := s.fe.header (s.fe.dataIns ar)

/-- What a firing of the element in focus leaves when it emits these tokens. -/
def emits (s : State) (ar : Nat) (o0 o1 : List Token) : State := s.emitFired s.focus (firingHeader s ar).itag s.fe.consume o0 o1

/-- An element trap of the firing (R224): poison with the trap's cause in place of each token, then the record and its consequences. -/
def trapsElement (s : State) (ar : Nat) (t : TrapInfo) : State :=
  let p := poisonTok (firingHeader s ar) (origin s.focus t.cause)
  (emits s ar (copies (s.fe.outRate 0) p) (copies (s.fe.outRate 1) p)).elemTrap s.focus (firingHeader s ar) t

/-- Operand `i` at position `j` (R220): the head of a required input, masked when it is null, else the constant broadcast. -/
def laneOperand (e : Elem) (lay : Nat) (i : Fin 4) (j : Nat) : Option Word :=
  if e.req i.val then (getF e.inq i).head?.bind fun t => if t.hdr.kind = 1 then none else posAt lay t j
  else some (BitVec.ofNat 64 (e.const i.val % 2 ^ posWidth lay))

/-- The operands of a position when all are live. -/
def laneOperands (e : Elem) (lay ar j : Nat) : Option (List Word) :=
  match ar with
  | 1 => (laneOperand e lay 0 j).map fun x => [x]
  | 2 => (laneOperand e lay 0 j).bind fun x => (laneOperand e lay 1 j).map fun y => [x, y]
  | _ => (laneOperand e lay 0 j).bind fun x => (laneOperand e lay 1 j).bind fun y => (laneOperand e lay 2 j).map fun z => [x, y, z]

/-- Images of a payload: `f` gives each position, masked ones hold zero bits (R221). -/
def HoldsImages (t : Token) (lay : Nat) (f : Nat → Option Word) : Prop :=
  ∀ j, j < posCount lay → posImage lay t.pay j = BitVec.ofNat 64 (((f j).getD 0).toNat % 2 ^ posWidth lay)

/-- The position rule of R221: a position of the token is live where `f` gives a value; a byte group when one of its four is (R396). -/
def HoldsPositions (t : Token) (h : Header) (lay : Nat) (f : Nat → Option Word) : Prop :=
  t.hdr = { h with kind := 0, lanes := t.hdr.lanes } ∧ HoldsImages t lay f ∧
    ∀ j, j < posCount lay → posLive lay t.hdr.lanes j =
      if lay = 2 then (f (j / 4 * 4)).isSome || (f (j / 4 * 4 + 1)).isSome || (f (j / 4 * 4 + 2)).isSome || (f (j / 4 * 4 + 3)).isSome
      else (f j).isSome

def opX (l : List Word) : Word := l.getD 0 0
def opY (l : List Word) : Word := l.getD 1 0

/-- The numeric opcodes of R226, R228 and R233 that map W64 operands to a W64 result: code, operands and result. -/
def floatRows : List (Instr × Nat × Nat × (Elem → List Word → Word)) :=
  [(.wAdd, 0x040, 2, fun e l => roundW64 (addVal (valOf (opX l)) (valOf (opY l)) e.rm) e.rm),
   (.wSub, 0x041, 2, fun e l => roundW64 (addVal (valOf (opX l)) (negVal (valOf (opY l))) e.rm) e.rm),
   (.wMul, 0x042, 2, fun e l => roundW64 (mulVal (valOf (opX l)) (valOf (opY l))) e.rm),
   (.wFma, 0x043, 3, fun e l => roundW64 (addVal (mulVal (valOf (opX l)) (valOf (opY l))) (valOf (l.getD 2 0)) e.rm) e.rm),
   (.wMin, 0x044, 2, fun _ l => wMinOp (opX l) (opY l)), (.wMax, 0x045, 2, fun _ l => wMaxOp (opX l) (opY l)),
   (.wAbs, 0x046, 1, fun _ l => if isNaN (opX l) then canonicalNaN else opX l &&& 0x7FFF_FFFF_FFFF_FFFF),
   (.wNeg, 0x047, 1, fun _ l => if isNaN (opX l) then canonicalNaN else opX l ^^^ 0x8000_0000_0000_0000),
   (.sfExp2, 0x080, 1, fun e l => specialFn 0 e.level e.rm (e.field 13 % 4) (opX l)),
   (.sfLog2, 0x081, 1, fun e l => specialFn 1 e.level e.rm (e.field 13 % 4) (opX l)),
   (.sfRcp, 0x082, 1, fun e l => specialFn 2 e.level e.rm (e.field 13 % 4) (opX l)),
   (.sfRsqrt, 0x083, 1, fun e l => specialFn 3 e.level e.rm (e.field 13 % 4) (opX l)),
   (.sfTanh, 0x084, 1, fun e l => specialFn 4 e.level e.rm (e.field 13 % 4) (opX l)),
   (.sfSigm, 0x085, 1, fun e l => specialFn 5 e.level e.rm (e.field 13 % 4) (opX l)),
   (.wRint, 0x144, 1, fun e l => wRintOp e.rm (opX l)),
   (.qFp32, 0x145, 1, fun e l => roundW64 (fp32.decode (fp32.encode (valOf (opX l)) e.rm e.sat).1) .rne),
   (.qBf16, 0x146, 1, fun e l => roundW64 (bf16.decode (bf16.encode (valOf (opX l)) e.rm e.sat).1) .rne),
   (.qFp16, 0x147, 1, fun e l => roundW64 (fp16.decode (fp16.encode (valOf (opX l)) e.rm e.sat).1) .rne),
   (.qE5m2, 0x148, 1, fun e l => roundW64 (e5m2.decode (e5m2.encode (valOf (opX l)) e.rm e.sat).1) .rne),
   (.qE4m3, 0x149, 1, fun e l => roundW64 (e4m3.decode (e4m3.encode (valOf (opX l)) e.rm e.sat).1) .rne)]

/-- The NaN trap applies at position `j`: a NaN result from operands that are none (R74, R224). -/
def NanAt (e : Elem) (ar : Nat) (f : Elem → List Word → Word) (j : Nat) : Prop :=
  e.nantrap = true ∧ ∃ l, laneOperands e 0 ar j = some l ∧ isNaN (f e l) = true ∧ ∀ x ∈ l, isNaN x = false

/-- The range guard traps on the result at position `j` (R225). -/
def GuardAt (e : Elem) (ar : Nat) (f : Elem → List Word → Word) (j : Nat) : Prop :=
  ∃ l, laneOperands e 0 ar j = some l ∧ e.guards (f e l) = true

/-- The compares of R227: code and condition. -/
def laneCompareRows : List (Instr × Nat × (Word → Word → Bool)) :=
  [(.wCmpeq, 0x048, fun x y => eqVal (valOf x) (valOf y)), (.wCmplt, 0x049, fun x y => ltVal (valOf x) (valOf y)),
   (.wCmple, 0x04A, fun x y => ltVal (valOf x) (valOf y) || eqVal (valOf x) (valOf y)), (.wCmpun, 0x04B, fun x y => isNaN x || isNaN y)]

/-- The exact results of R229 at infinities and zeros: function number, operand image, result image. -/
def specialRows : List (Nat × Word × Word) :=
  [(0, wInf true, wZero false), (0, wInf false, wInf false), (0, wZero true, wOne false), (0, wZero false, wOne false),
   (1, wInf true, canonicalNaN), (1, wInf false, wInf false), (1, wZero true, wInf true), (1, wZero false, wInf true),
   (2, wInf true, wZero true), (2, wInf false, wZero false), (2, wZero true, wInf true), (2, wZero false, wInf false),
   (3, wInf true, canonicalNaN), (3, wInf false, wZero false), (3, wZero true, wInf true), (3, wZero false, wInf false),
   (4, wInf true, wOne true), (4, wInf false, wOne false), (4, wZero true, wZero true), (4, wZero false, wZero false),
   (5, wInf true, wZero false), (5, wInf false, wOne false), (5, wZero true, 0x3FFA_0000_0000_0000), (5, wZero false, 0x3FFA_0000_0000_0000)]

/-- The bit opcodes of R232 as functions of the width and the images. -/
def bitRows : List (Instr × Nat × Nat × (Nat → Nat → Nat → Nat)) :=
  [(.bAnd, 0x100, 2, fun _ x y => x &&& y), (.bOr, 0x101, 2, fun _ x y => x ||| y), (.bXor, 0x102, 2, fun _ x y => x ^^^ y),
   (.bNot, 0x103, 1, fun w x _ => 2 ^ w - 1 - x), (.bShl, 0x104, 2, fun w x y => x * 2 ^ (y % w) % 2 ^ w),
   (.bShr, 0x105, 2, fun w x y => x / 2 ^ (y % w)),
   (.bSar, 0x106, 2, fun w x y => (((if 2 ^ (w - 1) ≤ x then (x : Int) - 2 ^ w else x) / 2 ^ (y % w)) % 2 ^ w).toNat),
   (.bRotl, 0x107, 2, fun w x y => (x * 2 ^ (y % w) + x / 2 ^ (w - y % w)) % 2 ^ w)]

/-- A 32-bit image as a number, signed or not. -/
def int32 (sgn : Bool) (x : Nat) : Int := if sgn = true ∧ 2 ^ 31 ≤ x then (x : Int) - 2 ^ 32 else x

/-- Value of a group of `g` limbs from lane `lo` on, least significant first, when all are live (R230). -/
def groupValue (e : Elem) (i : Fin 4) (lo : Nat) : Nat → Option Nat
  | 0 => some 0
  | g + 1 => (groupValue e i lo g).bind fun n => (laneOperand e 1 i (lo + g)).map fun v => n + v.toNat * 2 ^ (32 * g)

/-- The carry forms of R230: operands, and whether they subtract. -/
def carryRows : List (Instr × Nat × Nat × Bool) :=
  [(.iAdd, 0x0C0, 2, false), (.iAddc, 0x0C1, 3, false), (.iSub, 0x0C2, 2, true), (.iSubb, 0x0C3, 3, true)]

/-- Carry or borrow into group `t`: none for two operands, else bit 0 of operand 2, a token's lane or the constant c2. -/
def carryIn (e : Elem) (ar t : Nat) : Option Nat :=
  if ar = 2 then some 0
  else if e.req 2 then (laneOperand e 1 2 t).map fun v => v.toNat % 2 else some (e.const 2 % 2)

/-- Output 0 and output 1 of a carry form: limbs of each live group, and its carry or borrow (R230). -/
def carryResult (e : Elem) (ar : Nat) (sub : Bool) (t : Nat) : Option (Nat × Nat) :=
  let g := e.const 15 / 2 ^ 11 % 16 + 1
  match groupValue e 0 (g * t) g, groupValue e 1 (g * t) g, carryIn e ar t with
  | some x, some y, some k =>
    some (if sub then (((x : Int) - y - k) % 2 ^ (32 * g) |>.toNat, if (x : Int) - y - k < 0 then 1 else 0)
      else ((x + y + k) % 2 ^ (32 * g), (x + y + k) / 2 ^ (32 * g)))
  | _, _, _ => none

/-- The movement opcodes of R234: source positions of both inputs. -/
def moveRows : List (Instr × Nat × Nat × (Elem → Nat → (Nat → Option Word) → (Nat → Option Word) → Nat → Option Word)) :=
  [(.lnUp, 0x180, 2, fun e p x y j => let n := e.const 15 / 2 ^ 18 % 64; if n ≤ j then x (j - n) else y (p + j - n)),
   (.lnDown, 0x181, 2, fun e p x y j => let n := e.const 15 / 2 ^ 18 % 64; if j + n < p then x (j + n) else y (j + n - p)),
   (.lnShuf, 0x182, 1, fun e _ x _ j =>
     let k := (e.const (6 * j / 64) + 2 ^ 64 * e.const (6 * j / 64 + 1)) / 2 ^ (6 * j % 64) % 64; if k = 63 then none else x k),
   (.lnBcast, 0x183, 1, fun e _ x _ _ => x (e.const 15 / 2 ^ 18 % 64))]

/-- Position `j` of input 1 of a movement opcode: zero and masked unless the input is required. -/
def secondInput (e : Elem) (lay j : Nat) : Option Word := if e.req 1 then laneOperand e lay 1 j else none

/-- The reductions of R235: operation, and the value of an all-masked payload. -/
def reduceRows : List (Instr × Nat × (Elem → Word → Word → Word) × Option Word) :=
  [(.redAdd, 0x184, fun e x y => roundW64 (addVal (valOf x) (valOf y) e.rm) e.rm, some 0),
   (.redMin, 0x185, fun _ => wMinOp, none), (.redMax, 0x186, fun _ => wMaxOp, none)]

/-- One node of the tree of R90: masked operands are passed over. -/
def treeNode (f : Word → Word → Word) : Option Word → Option Word → Option Word
  | some x, some y => some (f x y)
  | some x, none => some x
  | none, y => y
def treeOf (f : Word → Word → Word) (v : Nat → Option Word) : Option Word :=
  treeNode f (treeNode f (treeNode f (v 0) (v 1)) (treeNode f (v 2) (v 3))) (treeNode f (treeNode f (v 4) (v 5)) (treeNode f (v 6) (v 7)))

/-- Position `j` is selected (R236). -/
def selected (e : Elem) (lay j : Nat) : Bool :=
  if e.req 1 then (match laneOperand e lay 1 j with
    | some v => v != 0
    | none => false)
  else (e.const 1).testBit j

/-- Opcodes that fire under R52 to R57 with no rule of their own: instruction, code and arity. -/
def fireRows : List (Instr × Nat × Nat) :=
  floatRows.map (fun r => (r.1, r.2.1, r.2.2.1)) ++ laneCompareRows.map (fun r => (r.1, r.2.1, 2)) ++
  carryRows.map (fun r => (r.1, r.2.1, r.2.2.1)) ++ [(.iMullo, 0x0C4, 2), (.iMulhi, 0x0C5, 2)] ++
  bitRows.map (fun r => (r.1, r.2.1, r.2.2.1)) ++ [(.cvtWS32, 0x140, 1), (.cvtWU32, 0x141, 1), (.cvtS32W, 0x142, 1), (.cvtU32W, 0x143, 1)] ++
  moveRows.map (fun r => (r.1, r.2.1, r.2.2.1)) ++ reduceRows.map (fun r => (r.1, r.2.1, 1)) ++
  [(.vpack, 0x187, 2), (.vunpack, 0x188, 2), (.fork, 0x280, 1), (.join, 0x281, 4), (.gate, 0x289, 1)]

/-! ### Exact accumulation (R92, R237 to R239) -/

/-- `n` is the integer nearest to m × 2^j, ties to even. -/
def NearestEven (m : Nat) (j : Int) (n : Nat) : Prop :=
  if 0 ≤ j then n = m * 2 ^ j.toNat
  else
    let d := 2 ^ (-j).toNat
    2 * (n * d) ≤ 2 * m + d ∧ 2 * m ≤ 2 * (n * d) + d ∧ (2 * (n * d) = 2 * m + d ∨ 2 * m = 2 * (n * d) + d → n % 2 = 0)

/-- xacc_add of R92 takes `k` to `k'` for one live value. -/
def XaccAdds (k : Acc) (w : Word) (k' : Acc) : Prop :=
  match valOf w with
  | .nan => k' = { k with f := k.f ||| 0b01001 }
  | .inf neg => k' = { k with f := k.f ||| if neg then 0b01100 else 0b01010 }
  | .zero _ => k' = k
  | .fin neg m ex =>
    if ltVal (.fin false m ex) (.fin false 1 128) then
      ∃ n, NearestEven m (ex + 149) n ∧
        (let i : Int := if neg then -(n : Int) else n
         k'.a = k.a + BitVec.ofInt 320 i ∧
         k'.f = k.f ||| (if ex + 149 < 0 ∧ n * 2 ^ (-(ex + 149)).toNat ≠ m then 0b10000 else 0)
           ||| if k.a.toInt + i < -(2 ^ 319) ∨ 2 ^ 319 ≤ k.a.toInt + i then 0b01001 else 0)
    else k' = { k with f := k.f ||| 0b01001 }

/-- Values added one after another. -/
def XaccAddsAll : Acc → List Word → Acc → Prop
  | k, [], k' => k' = k
  | k, w :: ws, k' => ∃ m, XaccAdds k w m ∧ XaccAddsAll m ws k'

/-- A control token that makes a head with level `lvl` read (R239). -/
def ReadsAt (lvl : Nat) (h : Header) : Prop := h.kind = 3 ∨ (h.kind = 2 ∧ lvl ≤ 5 ∧ lvl ≤ h.seq.toNat % 8)

/-- The accumulator that five limbs hold, 64 bits each (R237). -/
def fiveLimbs (l0 l1 l2 l3 l4 : Word) : BitVec 320 := l4 ++ l3 ++ l2 ++ l1 ++ l0

/-- Tokens sent on an output when it is enabled. -/
def sentOn (s : State) (a : ElemAt) (o : Nat) (ts : List Token) : State := if (s.elem a).outOn o then s.sendAll a o ts else s

/-! ### Memory elements (R241 to R245) -/

/-- The memory opcodes: instruction, code, whether it stores, and whether its heads are indices. -/
def memRows : List (Instr × Nat × Bool × Bool) :=
  [(.memLd, 0x200, false, false), (.memSt, 0x201, true, false), (.memLdx, 0x202, false, true), (.memStx, 0x203, true, true)]

/-- The memory element in focus can start an access: its heads stand and none is withheld, each output has its rate's credits for it and for
those in flight, and R55 lets the firing perform with no null head. -/
def MemoryReady (s : State) (op ar : Nat) : Prop :=
  let e := s.fe
  s.live s.focus op = true ∧ e.req 0 = true ∧ (ar = 2 → e.req 1 = true) ∧ e.headsReady = true ∧
    (∀ o, o < 2 → e.outOn o = true → (e.pend.length + 1) * e.outRate o ≤ s.credits s.focus o) ∧
    (∀ p ∈ e.pend, p.withheld = true → p.dropped = true) ∧ e.cancels = [] ∧ e.poisonHead = none ∧ PredicateHolds e ar ∧ ¬ NullHead e ar

/-- Element index of position `j`, where the firing accesses one (R243). -/
def elementIndex (e : Elem) (store indexed : Bool) (j : Nat) : Option Int :=
  if store = true ∧ laneOperand e e.mLay 1 j = none then none
  else if indexed then (laneOperand e e.mLay 0 j).map fun w => intOf true (posWidth e.mLay) w.toNat
  else (laneOperand e 0 0 0).map fun w => Int.ofNat (w.toNat + j)

/-- Position `j` breaks the bound c1 (R243): a live index outside it, or live store data beyond it. -/
def BreaksBound (e : Elem) (store indexed : Bool) (j : Nat) : Prop :=
  if indexed then ∃ w, laneOperand e e.mLay 0 j = some w ∧
    (intOf true (posWidth e.mLay) w.toNat < 0 ∨ Int.ofNat (e.const 1) ≤ intOf true (posWidth e.mLay) w.toNat)
  else store = true ∧ (laneOperand e e.mLay 1 j).isSome = true ∧ ∃ x, laneOperand e 0 0 0 = some x ∧ e.const 1 ≤ x.toNat + j ∧
    ¬ (e.mLay = 2 ∧ x.toNat + j / 4 * 4 < e.const 1)

/-- The range guard holds an integer value that a load gives (R225, R244). -/
def GuardsInteger (e : Elem) (v : Nat) : Prop :=
  (e.field 14 % 4 = 1 ∨ e.field 14 % 4 = 3) ∧
    2 ^ (e.field 14 / 4 % 256) < (intOf e.mSgn (posWidth e.mLay) v).natAbs * 2 ^ 128

/-! ### Tiles and the matrix array (R250 to R258) -/

/-- Bits `lo` and up of a shape record, 16 of them (R212). -/
def shapePart (w : Word) (lo : Nat) : Nat := w.toNat / 2 ^ lo % 2 ^ 16

/-- Image of one output of a matrix firing: groups of 32 products in ascending k, each rounded once, then added in turn (R89, R256). -/
def matrixSum (rm : RM) (start : Word) (ps : List (Word × Word)) : Nat → Word
  | 0 => start
  | fuel + 1 =>
    match ps with
    | [] => start
    | _ :: _ => matrixSum rm (roundW64 (addVal (valOf start) (valOf (groupSum rm (ps.take 32))) rm) rm) (ps.drop 32) fuel

/-- A slot that a firing has read (R252). -/
def Consumed (s t : State) (a : ElemAt) (k : Fin 8) : Prop :=
  (∃ b, s.slotBinding a k = some b ∧ b.keep = true ∧ t.slotAt a k = { s.slotAt a k with pins := [], unread := false }) ∨
    ((∀ b, s.slotBinding a k = some b → b.keep = false) ∧ t.slotAt a k = { kind := (s.slotAt a k).kind })

/-- No numeric trap is enabled. -/
def NoTraps (e : Elem) : Prop := e.nantrap = false ∧ e.field 14 % 4 = 0

/-! ### Routing (R59, R261 to R266) -/

/-- A queue-mapped register reads the input: a silent token leaves it at once (R180). -/
def CoreReads (s : State) (p : InPort) : Prop := isStreamEngine p.1 = true ∧ (s.elem p.1).portVo = true ∧ (s.elem p.1).qpValid = true ∧ p.2 = 0

/-- A token may enter the queue of an input: there is room, and no takeback or cancel that it could meet. -/
def Enters (s : State) (p : InPort) : Prop :=
  (getF (s.elem p.1).inq p.2).length < s.depth p ∧ getF (s.elem p.1).tbWire p.2 = [] ∧ (s.elem p.1).cancels = [] ∧ ¬ CoreReads s p

/-- A token has entered the queue of an input by a crossing into a tile with control element `at'`: it stands last there, a malformed one
as poison with its seq and itag and a trap of cause malformed (R48). -/
def Entered (s u : State) (p : InPort) (t : Token) (at' : ElemAt) : Prop :=
  ∃ k, getF (u.elem p.1).inq p.2 = getF (s.elem p.1).inq p.2 ++ [k] ∧
    (t.hdr.kind ≠ 7 ∧ t.hdr.reserved = 0 → k = { t with hdr := { t.hdr with refused := false } }) ∧
    (t.hdr.kind = 7 ∨ t.hdr.reserved ≠ 0 → k.hdr.kind = 4 ∧ k.hdr.seq = t.hdr.seq ∧ k.hdr.itag = t.hdr.itag ∧ k.pay = origin at' .malformed)

/-- An early join can settle: some head is present, none of the present ones is a control token, poison, or data without a predicate. -/
def JoinReady (s : State) (op : Nat) (preds : List (Fin 4)) : Prop :=
  let e := s.fe
  s.live s.focus op = true ∧ s.outsReady s.focus = true ∧ e.cancels = [] ∧ (∀ i, e.calm i = true) ∧
    (∃ i ∈ e.reqIns, (e.head? i).isSome = true) ∧
    ((e.field 10).testBit 0 = true ∨ ∀ i ∈ e.reqIns, (e.head? i).isSome = true) ∧
    ∀ i ∈ e.reqIns, ∀ t, e.head? i = some t → t.hdr.isControl = false ∧ t.hdr.kind ≠ 4 ∧ (i ∈ preds → t.hdr.kind = 0 → t.hdr.pvalid = true)

/-- The head of input `i` is a data token whose predicate is `b`. -/
def HeadIs (e : Elem) (i : Fin 4) (b : Bool) : Prop := ∃ t, e.head? i = some t ∧ t.hdr.kind = 0 ∧ t.hdr.pbit = b

/-- Present heads are taken, and a takeback goes up each required input that has none (R59). -/
def JoinTaken (e e' : Elem) (itag : BitVec 8) : Prop :=
  (∀ i, getF e'.inq i = if e.req i.val then (getF e.inq i).drop 1 else getF e.inq i) ∧
    ∀ i, getF e'.tbQueue i = getF e.tbQueue i ++ if e.req i.val = true ∧ e.head? i = none then [itag] else []

/-- Token of a predicate join. -/
def IsPredicate (t : Token) (h : Header) (b : Bool) : Prop :=
  t.hdr.kind = 0 ∧ t.hdr.seq = h.seq ∧ t.hdr.itag = h.itag ∧ t.hdr.pvalid = true ∧ t.hdr.pbit = b ∧ t.hdr.lanes = 0 ∧ t.pay = 0

/-! ### Ranking (R269 to R271) -/

/-- `ks` ranks the values `v` of indices below `len`: the largest first, equal ones by rising index, `cut` of them at most. -/
def IsRanking (len cut : Nat) (v : Nat → Option Word) (ks : List Nat) : Prop :=
  let ok (i : Nat) : Prop := i < len ∧ ∃ w, v i = some w ∧ isNaN w = false
  let before (i j : Nat) : Prop :=
    ltVal (valOf ((v j).getD 0)) (valOf ((v i).getD 0)) = true ∨
      (ltVal (valOf ((v i).getD 0)) (valOf ((v j).getD 0)) = false ∧ i < j)
  (∀ i ∈ ks, ok i) ∧ ks.Nodup ∧ ks.Pairwise before ∧ ks.length ≤ cut ∧
    ∀ i, ok i → i ∈ ks ∨ (ks.length = cut ∧ ∀ j ∈ ks, before j i)

/-- A request of a ranked operation is whole at the element in focus: its rank tokens are gathered and its count token stands at input 1,
none of them poison, and the opcode's firing is unconditional. -/
def RequestWhole (s : State) (op : Nat) (count : Token) : Prop :=
  let e := s.fe
  s.live s.focus op = true ∧ e.calm 1 = true ∧ e.head? 1 = some count ∧ count.hdr.isControl = false ∧ e.code = 0 ∧
    s.requestGrain s.focus (some count) = some e.run.length ∧ ∀ t, t ∈ count :: e.run → t.hdr.kind ≠ 4

/-! ### The expert table's own moves (R308, R364 to R373) -/

/-- Entry `i` is the only valid one that the image holds, its class is the only valid class, and no error of R365 applies to it. -/
def ImageHolds (s : State) (i : Nat) (e : ErtEntry) : Prop :=
  i < 16384 ∧ s.imageEntry i = (e, false) ∧ e.v = true ∧ e.pages ≠ 0
    ∧ (∀ j, j < 16384 → j ≠ i → (s.imageEntry j).1.v = false ∧ (s.imageEntry j).1.state ≠ 1 ∧ (s.imageEntry j).2 = false)
    ∧ (s.imageClass e.cls.val).2 = true ∧ (∀ c, c < 16 → c ≠ e.cls.val → (s.imageClass c).1.v = false)

/-- A dword at `pa` on this module's dies holds `v` and every other byte of the home copies reads as before. -/
def DwordSet (s t : State) (pa : Nat) (v : Word) : Prop :=
  ∀ a, t.byte a = if pa ≤ a ∧ a < pa + 8 then valueByte v (a - pa) else s.byte a

/-- Fetch `i` has its table entry in state fetching and stands among the oldest eight of its port (R369). -/
def Fetching (s : State) (i : Fin 16384) : Prop :=
  Clocked s 0 ∧ s.ert.en = true ∧ (s.ert.entry i.val).v = true ∧ (s.ert.entry i.val).state = 1 ∧ s.inFlight i.val = true

/-- Every leaf of a window holds its page's leaf, the slot holds the source's bytes, and every other byte reads as before (R367, R369). -/
def FetchLanded (s t : State) (c : ErtClass) (e : ErtEntry) : Prop :=
  let dst := c.base + e.slot * c.bytes
  ∀ a, t.byte a =
    if e.leaf ≤ a ∧ a < e.leaf + 8 * leafCopies c.size then valueByte (BitVec.ofNat 64 (c.size * 2 ^ 57 + dst + 9)) ((a - e.leaf) % 8)
    else if dst ≤ a ∧ a < dst + e.pages * 4096 then s.byte (a - dst + e.src) else s.byte a

/-! ### Streams and the task queue unit (R196, R197, R316 to R322) -/

/-- The engine in focus runs store command `r` and may take the head `t` of its port. -/
def StoreTakes (s : State) (r : StreamRun) (t : Token) : Prop :=
  s.fe.se.cur = some r ∧ s.fe.head? 0 = some t ∧ s.live s.focus 0x204 = true ∧ s.fe.calm 0 = true ∧ r.started = true ∧ r.finished = none ∧
    r.cmd.op.isLoad = false ∧ r.withheld = false ∧ r.todo = []

/-- The engine in focus runs `r'` after it, with its head taken. -/
def StoreTook (s u : State) (r' : StreamRun) : Prop :=
  (u.elem s.focus).se.cur = some r' ∧ getF (u.elem s.focus).inq 0 = (getF s.fe.inq 0).drop 1 ∧ u.mem = s.mem

/-- A task of die `d` is ready, resident, and consumes no queue. -/
def ReadyOn (d : Fin 4) (t : Task) : Prop := t.die = d ∧ t.home = d ∧ t.st = .ready ∧ t.spilled = false ∧ t.queues = []

/-- The task is the one that the TQU of die `d` may select: it is ready and alone in its group, and every other task has its region. -/
def OneToSelect (s : State) (d : Fin 4) (t : Task) : Prop :=
  s.clockOn d = true ∧ (s.tasks.map (·.id)).Nodup ∧ t ∈ s.tasks ∧ ReadyOn d t ∧ t.group = 0 ∧
    ∀ u ∈ s.tasks, u ≠ t → u.st = .running ∨ u.st = .placing

/-- Two ready tasks, each alone in its group, of which the selection takes `f` first: the one of higher priority, or the one that stands
first among equals (R320). -/
def TwoToSelect (s : State) (d : Fin 4) (f g : Task) : Prop :=
  s.clockOn d = true ∧ f.id ≠ g.id ∧ ReadyOn d f ∧ ReadyOn d g ∧ f.group = 0 ∧ g.group = 0 ∧
    ((s.tasks = [f, g] ∧ g.prio ≤ f.prio) ∨ (s.tasks = [g, f] ∧ g.prio < f.prio))

/-- An open task takes the first of its placements, one that needs no pre-emption, and the loader refuses nothing of it (R320, R322). -/
def PlacesOpen (s : State) (d : Fin 4) (t : Task) (u : State) : Prop :=
  ∃ c cs p, s.placeable d (s.sketch t) = true ∧ s.candidates (s.sketch t) = c :: cs ∧ c.kind ≠ 3 ∧
    (s.placeTask t c none).prepare t = .ok p ∧ u = s.placeTask t c none

/-- The group of two open stages, of which the first is ready, is all that the module holds (R325). -/
def TwoStages (s : State) (d : Fin 4) (a b : Task) : Prop :=
  s.clockOn d = true ∧ a.id ≠ b.id ∧ s.tasks = [a, b] ∧ ReadyOn d a ∧ b.die = d ∧ b.home = d ∧ b.spilled = false ∧ b.queues = [] ∧
    (b.st = .ready ∨ b.st = .running) ∧ a.group = b.group ∧ a.group ≠ 0 ∧ a.stages = 2 ∧ b.stages = 2 ∧ a.stageNo = 0 ∧ b.stageNo = 1 ∧
    a.bounded = false ∧ b.bounded = false ∧ a.prio = b.prio

/-- `n` is T of R323 rounded up to a whole ns, for one task with a wait of `wait` ns, at a clock of `f` / 20 GHz; the share that divides the
memory time is 1 where it is 0 and no bytes are moved. -/
def IsWorstCase (t : Task) (wait : Nat) (clk : Fin 4) (n : Nat) : Prop :=
  let f := if clk = 0 then 21 else if clk = 1 then 14 else 10
  let sh := if t.share = 0 then 1 else t.share
  let load := 10 * max (4 * t.commands) t.textWords
  let d := 672 * f * 4600 * sh
  let x := 1000 * d + load * (f * 4600 * sh) + max ((t.cf + t.range * t.cw) * 20 * (672 * 4600 * sh)) (t.range * t.bw * 256 * (672 * f))
    + t.range * t.ladders * 8640 * 20 * (672 * 4600 * sh)
  (t.share = 0 → t.range * t.bw = 0) ∧ ∃ k, n = wait + t.budget + k ∧ x ≤ d * k ∧ d * k < x + d

/-- A read of a spill entry of 256 bytes fails: nothing is homed there, or one of its granules is marked uncorrectable (R318, R394). -/
def EntryLost (s : State) (pa : Nat) : Prop :=
  s.homeOf pa = none ∨ ∃ g ∈ s.marked, s.canonPa pa ≤ 8 * g ∧ 8 * g < s.canonPa pa + 256

/-- Nothing of a region's core or elements is under way. -/
def RegionQuiet (s : State) (d : Fin 4) (r : Fin 16) (c : Fin 64) : Prop :=
  (s.core c).order = [] ∧ (∀ q, getF (s.core c).queues q = []) ∧ (s.core c).cfg = [] ∧ s.flmOpen c = false ∧
    (∀ a, (s.elem a).se.items = []) ∧ ∀ a ∈ s.regionElems d r, (s.elem a).pend = [] ∧ (s.elem a).se.cur = none

/-! ### What the driver and the host ask (R328, R336 to R345, R351, R374 to R394) -/

/-- The task runs in region `r` of die `d`, whose core is `k`, and no end is asked of it. -/
def RunsIn (s : State) (d : Fin 4) (r k : Fin 16) (t : Task) : Prop :=
  s.task? t.id = some t ∧ t.die = d ∧ t.st = .running ∧ t.region = some r ∧ t.endAsked = false ∧ (s.region d r).task = some t.id ∧
    (s.region d r).owner = some k

/-- `w` is a running stage of the group of `t` on its die. -/
def Stage (s : State) (t w : Task) : Prop := w ∈ s.tasks ∧ w.die = t.die ∧ w.group = t.group ∧ w.st = .running

/-- C of R326 in ns: the drain limit, the freeze-save of the region's blocks, and T_load rounded up. -/
def PreemptionCost (s : State) (t : Task) : Nat :=
  (s.tquOf t.die).drainLim.toNat % 2 ^ 32 + 4000 * (t.w * t.h) + (1000 + (10 * max (4 * t.commands) t.textWords + 671) / 672)

/-- A pre-emption of the task is allowed: it is open, or its slack covers the cost (R43, R326). -/
def Affords (s : State) (t : Task) : Prop := t.bounded = true → Int.ofNat (PreemptionCost s t) ≤ t.slack

/-- The place that the context area has for the block of a save of region `r`, and the block's size (R341). -/
def contextPlace (s : State) (d : Fin 4) (r k : Fin 16) (t : Task) (form level : Nat) : Option Nat × Nat :=
  let s1 := s.settleRegion d r (coreOf d k) form
  let n := 8 * (s1.saveWords d r (coreOf d k) (s1.withFabric d r ((s1.task? t.id).getD t)) form level).length
  (s1.ctxPlace d n, n)

/-- The save of region `r` from `s`: with room, the task is left in state `st` with its context block and its region and core are free;
without, the region stays stopped with the task (R341). -/
def Saves (s u : State) (d : Fin 4) (r k : Fin 16) (t : Task) (st : TaskState) (form level : Nat) : Prop :=
  (∀ pa, (contextPlace s d r k t form level).1 = some pa →
    (u.region d r).task = none ∧ (u.region d r).phase = .idle ∧ (u.core (coreOf d k)).task = none ∧
      ∃ t', u.task? t.id = some t' ∧ t'.st = st ∧ t'.region = none ∧ t'.core = none ∧ t'.needService = decide (form = 3) ∧
        t'.ctx = some (BitVec.ofNat 64 pa, (contextPlace s d r k t form level).2, form, level)) ∧
    ((contextPlace s d r k t form level).1 = none →
      (u.region d r).phase = .saveHeld form level ∧ (u.region d r).task = some t.id)

/-- The region has begun to stop for a freeze-save of a form: its sources hold and its core is stopped (R338). -/
def FreezesRegion (s u : State) (d : Fin 4) (r k : Fin 16) (form : Nat) : Prop :=
  (u.region d r).phase = .freezing form ∧ (∀ a ∈ s.viSources d r, (u.elem a).se.hold = .stopped) ∧ (u.core (coreOf d k)).run ≠ .running

/-- Bits `hi` to `lo` of a word. -/
def fieldBits (v : Word) (hi lo : Nat) : Word := v &&& BitVec.ofNat 64 (2 ^ (hi + 1) - 2 ^ lo)

/-- Dword `i` of memory at `pa`, by its bytes. -/
def DwordIs (u : State) (pa : Nat) (v : Word) : Prop := ∀ i, i < 8 → u.byte (pa + i) = valueByte v i

/-- Only the state of die `d` differs, and it is `k`. -/
def DieBecomes (s u : State) (d : Fin 4) (k : Die) : Prop := u.die d = k ∧ { u with dies := s.dies } = s ∧ ∀ e, e ≠ d → u.die e = s.die e

/-- Only the state of core `c` differs, and it is `k`. -/
def CoreBecomes (s u : State) (c : Fin 64) (k : CoreState) : Prop := u.core c = k ∧ RestSame s u ∧ ∀ e, e ≠ c → u.core e = s.core e

/-- An invalidation covers a cached translation (R351, R368): it is of an ASID that the invalidation names, and of a page in its range. -/
def Covers (c : InvScope) (e : TlbEntry) : Prop :=
  match c with
  | .range a base n => (a = none ∨ a = some e.asid) ∧ e.base < base + 4096 * n ∧ base < e.base + 2 ^ e.bits
  | .space a => e.asid = a
  | .all => True

/-- The tables of a die give an access another granule than the one it took, or none (R349, R350, R355). -/
def TookOldEntry (s : State) (d : Fin 4) (x : Taken) (write : Bool) (g : Nat) : Prop :=
  ∀ pa, s.permit (s.tables d x.asid x.va) write x.user = .ok pa → pa / 8 ≠ g

/-- An access that an invalidation covers was translated through an old entry and has neither performed nor been withheld (R355): a store
in an order buffer, or a line that a tile fill has pinned and not read. -/
def OldAccessWaits (s : State) (c : InvScope) : Prop :=
  (∃ (k : Fin 64) (w : GWrite) (x : Taken), .store w ∈ (s.core k).order ∧ w.xl = some x ∧ c.meets x.asid x.va 1 = true ∧
    TookOldEntry s (dieOf k) x true w.granule) ∨
  ∃ (t : Nat × Tile) (sl : Slot) (p : Nat × Nat), t ∈ s.tiles ∧ sl ∈ t.2.slots.toList ∧ p ∈ sl.pins ∧ sl.tag = .filling ∧
    (∀ l ∈ sl.snaps, l.1 ≠ p.1) ∧
    let a := elemOfKey (16 * t.1 + 14)
    c.meets (s.taskAsid a) (64 * p.1) 64 = true ∧ TookOldEntry s a.die { asid := s.taskAsid a, va := 64 * p.1, user := true } false (8 * p.2)

/-- A walk of an address that an invalidation covers, begun before it, has not ended (R355). -/
def OldWalkGoesOn (s : State) (c : InvScope) (began : Nat) : Prop :=
  ∃ w ∈ s.walks, w.failed = none ∧ w.began < began ∧ c.meets w.asid w.va 1 = true

/-- What an invalidation waits for (R355). -/
def OldUseWaits (s : State) (c : InvScope) (began : Nat) : Prop := OldAccessWaits s c ∨ OldWalkGoesOn s c began

/-- Extents whose first page an invalidation covers say what the tables say now, or are faulting (R355). -/
def ExtentsRenewed (u : State) (c : InvScope) : Prop :=
  ∀ (a : ElemAt) (x : Extent), InFabric a → x ∈ u.extents a → 0 < x.pages → c.meets x.asid (4096 * x.page) 1 = true → x.bad = false →
    ∃ p, u.tables a.die x.asid (4096 * x.page) = some p ∧ x.pa = p.pa ∧ x.w = p.w ∧ x.u = p.u

/-- A load of die `d` is served from `s`, with status dword `v` for `pa`: the dword is written once no output of the die's loads is on its
way, and is to be written until then (R357). -/
def ServesLoad (s u : State) (d : Fin 4) (pa : Nat) (v : Word) : Prop :=
  (s.unlandedParty (.device d) = false → DwordSet s u pa v ∧ u.host = { s.host with loadEnd := none }) ∧
  (s.unlandedParty (.device d) = true → (∀ a, u.byte a = s.byte a) ∧ u.host = { s.host with loadEnd := some (d, pa, v) })

/-- No other fetch in flight of an entry's class that was asked for earlier has still to sweep (R373). -/
def SweepsFirst (s : State) (i : Fin 16384) : Prop :=
  ∀ x ∈ s.ert.entries, x.2.v = true → x.2.cls = (s.ert.entry i.val).cls → x.2.state = 1 → s.inFlight x.1 = true → x.2.hasSlot = false →
    x.2.swept = false → (s.ert.entry i.val).asked ≤ x.2.asked

/-- A range holds an entry's source, and no granule of it is marked uncorrectable (R371, R394). -/
def SourceReads (s : State) (e : ErtEntry) : Prop :=
  s.homeOf e.src ≠ none ∧ s.homeOf (e.src + e.pages * 4096 - 8) ≠ none ∧ ∀ g ∈ s.marked, 8 * g + 7 < e.src ∨ e.src + e.pages * 4096 ≤ 8 * g

/-- Power state that a BLKPWR value gives a block. -/
def blockState (v b : Nat) : Nat := v / 2 ^ (2 * b) % 4

end Sys2Proof.Safety
end

