-- ==== Sys2Proof/Certificates/Slice0/Obligations.lean ====
section
/-!
DEFINITION. The statements for the provers, in the order of spec/: core instructions, commands, fabric, board, tasks, loading,
expert table, host side, and the machine as a whole. Each docstring names the rule it follows.
-/
open Sys2Proof Sys2Proof.Machine Sys2Proof.Safety

/-! ### Core instructions (spec/06) -/

/-- R170, R171. With general registers as operands, every two-operand ALU function, multiply and divide completes: it writes the table's
value into gd, the fixed borderline results of R171 included, goes on to the next word and changes nothing else. -/
def Obligations.TwoOperandFunctionWritesTableValue : Prop :=
  ∀ row ∈ aluRows ++ mulDivRows, ∀ (o : Rrr) (s : State), o.qa = false → o.qb = false → o.qd = false →
    ∃ t, exec (row.1 o) s = .next t ∧ WroteReg s t o.d (row.2 (s.rd o.a) (s.rd o.b)) (nextWord s)

/-- R170, R172. clz, ctz and popc complete with the counts of the table, 64 for a value of zero; every immediate form completes with the
table's value. Nothing else changes. -/
def Obligations.CountsAndImmediatesWriteTableValue : Prop :=
  (∀ (o : Unary) (s : State), o.qa = false → o.qd = false →
    (∃ t n, exec (.clz o) s = .next t ∧ IsClz (s.rd o.a) n ∧ WroteReg s t o.d (BitVec.ofNat 64 n) (nextWord s)) ∧
    (∃ t n, exec (.ctz o) s = .next t ∧ IsCtz (s.rd o.a) n ∧ WroteReg s t o.d (BitVec.ofNat 64 n) (nextWord s)) ∧
    (∃ t, exec (.popc o) s = .next t ∧ WroteReg s t o.d (BitVec.ofNat 64 (countOnes (s.rd o.a))) (nextWord s))) ∧
  (∀ row ∈ immediateRows, ∀ (d a : Reg) (imm : BitVec 16) (s : State),
    ∃ t, exec (row.1 d a imm) s = .next t ∧ WroteReg s t d (row.2 (s.rd a) imm) (nextWord s)) ∧
  (∀ row ∈ shiftRows, ∀ (d a : Reg) (n : Fin 64) (s : State),
    ∃ t, exec (row.1 d a n) s = .next t ∧ WroteReg s t d (row.2 (s.rd a) n.val) (nextWord s)) ∧
  (∀ (d : Reg) (imm : BitVec 16) (s : State),
    ∃ t, exec (.lui d imm) s = .next t ∧ WroteReg s t d (BitVec.ofInt 64 (imm.toInt * 2 ^ 16)) (nextWord s)) ∧
  (∀ (d : Reg) (h : Fin 4) (imm : BitVec 16) (s : State),
    ∃ t v, exec (.lih d h imm) s = .next t ∧ WroteReg s t d v (nextWord s) ∧
      ∀ i : Nat, i < 64 → v.getLsbD i = if i / 16 = h.val then imm.getLsbD (i % 16) else (s.rd d).getLsbD i)

/-- R173. The value compares write 1 or 0 into gd, the predicate compares the condition into p(N). sel writes the operand that the
predicate chooses; the predicate instructions write one predicate; ptst tests gb for nonzero; pget writes the predicate as 0 or 1.
Each completes and changes nothing else. -/
def Obligations.CompareSelectAndPredicateResults : Prop :=
  (∀ row ∈ compareRows, ∀ (o : Rrr) (s : State), o.qa = false → o.qb = false → o.qd = false →
    ∃ t, exec (row.1 o) s = .next t ∧ WroteReg s t o.d (if row.2 (s.rd o.a) (s.rd o.b) then 1 else 0) (nextWord s)) ∧
  (∀ row ∈ predicateRows, ∀ (o : PCmp) (s : State), o.qa = false → o.qb = false →
    ∃ t, exec (row.1 o) s = .next t ∧ WrotePred s t o.p (row.2 (s.rd o.a) (s.rd o.b)) (nextWord s)) ∧
  (∀ (o : Rrr) (p : PReg) (s : State), o.qa = false → o.qb = false → o.qd = false →
    ∃ t, exec (.sel o p) s = .next t ∧ WroteReg s t o.d (if s.rdP p then s.rd o.a else s.rd o.b) (nextWord s)) ∧
  (∀ (p a b : PReg) (s : State),
    (∃ t, exec (.pand p a b) s = .next t ∧ WrotePred s t p (s.rdP a && s.rdP b) (nextWord s)) ∧
    (∃ t, exec (.por p a b) s = .next t ∧ WrotePred s t p (s.rdP a || s.rdP b) (nextWord s)) ∧
    (∃ t, exec (.pxor p a b) s = .next t ∧ WrotePred s t p (xor (s.rdP a) (s.rdP b)) (nextWord s)) ∧
    (∃ t, exec (.pandn p a b) s = .next t ∧ WrotePred s t p (s.rdP a && !s.rdP b) (nextWord s)) ∧
    (∃ t, exec (.pnot p a) s = .next t ∧ WrotePred s t p (!s.rdP a) (nextWord s))) ∧
  (∀ (p : PReg) (a : Reg) (s : State),
    ∃ t, exec (.ptst p a false) s = .next t ∧ WrotePred s t p (decide (s.rd a ≠ 0)) (nextWord s)) ∧
  (∀ (d : Reg) (p : PReg) (s : State),
    ∃ t, exec (.pget d false p) s = .next t ∧ WroteReg s t d (if s.rdP p then 1 else 0) (nextWord s))

/-- R130 steps 2 to 4, R170, R173. When every named source gives a value and the destination can take the result, an instruction with q
bits pops each distinct source register once, puts its result and goes on; a register named twice is popped once and both operands
take its value. So do the two-operand functions, compares, multiply and divide, the predicate compares, ptst, sel, pget and counts. -/
def Obligations.QueueOperandsPopOnceAndPush : Prop :=
  (∀ row ∈ queueRows, ∀ (o : Rrr) (s : State) (x y : Word),
    SourceGives s (qReg o.qa o.a) o.a x → SourceGives s (qReg o.qb o.b) o.b y → DestTakes s (qReg o.qd o.d) →
    exec (row.1 o) s =
      .next (((popped s (qReg o.qa o.a) (qReg o.qb o.b)).putD (qReg o.qd o.d) o.d (row.2 x y)).advance)) ∧
  (∀ row ∈ predicateRows, ∀ (o : PCmp) (s : State) (x y : Word),
    SourceGives s (qReg o.qa o.a) o.a x → SourceGives s (qReg o.qb o.b) o.b y →
    exec (row.1 o) s = .next (((popped s (qReg o.qa o.a) (qReg o.qb o.b)).wrP o.p (row.2 x y)).advance)) ∧
  (∀ (p : PReg) (a : Reg) (qa : Bool) (s : State) (x : Word), SourceGives s (qReg qa a) a x →
    exec (.ptst p a qa) s = .next (((s.popQ (qReg qa a)).wrP p (decide (x ≠ 0))).advance)) ∧
  (∀ (o : Rrr) (p : PReg) (s : State) (x y : Word),
    SourceGives s (qReg o.qa o.a) o.a x → SourceGives s (qReg o.qb o.b) o.b y → DestTakes s (qReg o.qd o.d) →
    exec (.sel o p) s =
      .next (((popped s (qReg o.qa o.a) (qReg o.qb o.b)).putD (qReg o.qd o.d) o.d (if s.rdP p then x else y)).advance)) ∧
  (∀ (d : Reg) (qd : Bool) (p : PReg) (s : State), DestTakes s (qReg qd d) →
    exec (.pget d qd p) s = .next ((s.putD (qReg qd d) d (if s.rdP p then 1 else 0)).advance)) ∧
  (∀ (o : Unary) (s : State) (x : Word), SourceGives s (qReg o.qa o.a) o.a x → DestTakes s (qReg o.qd o.d) →
    (∃ n, IsClz x n ∧ exec (.clz o) s = .next (((s.popQ (qReg o.qa o.a)).putD (qReg o.qd o.d) o.d (BitVec.ofNat 64 n)).advance)) ∧
    (∃ n, IsCtz x n ∧ exec (.ctz o) s = .next (((s.popQ (qReg o.qa o.a)).putD (qReg o.qd o.d) o.d (BitVec.ofNat 64 n)).advance)) ∧
    exec (.popc o) s =
      .next (((s.popQ (qReg o.qa o.a)).putD (qReg o.qd o.d) o.d (BitVec.ofNat 64 (countOnes x))).advance))

/-- R130 step 1, R169, R179, R180. A source that is unbound or bound to a source port, or a destination that is unbound or bound to a sink
port, raises the port trap before any other effect: the first of a, b, d that is wrong, reason 0 unbound or 1 wrong direction. So do
the two-operand functions, compares, sel, predicate compares, ptst, pget, the counts, qpush and qpop. -/
def Obligations.QueueDirectionTrapsFirst : Prop :=
  ∀ (s : State) (q reason : Nat),
    let traps (i : Instr) : Prop := exec i s = .next (s.trap { cause := .port, info := reason * 256 + q })
    (∀ (o : Rrr) (vo : Bool), WrongWay s q reason vo →
      ((vo = true ∧ qReg o.qa o.a = some q) ∨
       (vo = true ∧ SourceBound s (qReg o.qa o.a) ∧ qReg o.qb o.b = some q) ∨
       (vo = false ∧ SourceBound s (qReg o.qa o.a) ∧ SourceBound s (qReg o.qb o.b) ∧ qReg o.qd o.d = some q)) →
      (∀ row ∈ queueRows, traps (row.1 o)) ∧ ∀ p, traps (.sel o p)) ∧
    (∀ o : PCmp, WrongWay s q reason true →
      qReg o.qa o.a = some q ∨ (SourceBound s (qReg o.qa o.a) ∧ qReg o.qb o.b = some q) →
      ∀ row ∈ predicateRows, traps (row.1 o)) ∧
    (∀ (p : PReg) (a : Reg), WrongWay s q reason true → a.val = q → traps (.ptst p a true)) ∧
    (∀ (d : Reg) (p : PReg), WrongWay s q reason false → d.val = q → traps (.pget d true p)) ∧
    (∀ (o : Unary) (vo : Bool), WrongWay s q reason vo →
      (vo = true ∧ qReg o.qa o.a = some q) ∨ (vo = false ∧ SourceBound s (qReg o.qa o.a) ∧ qReg o.qd o.d = some q) →
      traps (.clz o) ∧ traps (.ctz o) ∧ traps (.popc o)) ∧
    (∀ (r : QReg) (a : Reg), r.val = q → (WrongWay s q reason false → traps (.qpush r a)) ∧
      (WrongWay s q reason true → traps (.qpop a r)))

/-- R179, R181. qpush sends the one token of R179 into its source port: data, the value in payload bits 63:0 and zeros above, lanemask
0x0003, seq from WID, itag the low byte of seq, no predicate. -/
def Obligations.QpushSendsTheToken : Prop :=
  ∀ (q : QReg) (a : Reg) (s : State) (e : ElemAt),
    s.qBind s.cur q.val = some e → (s.elem e).portVo = false → 0 < s.credits e 0 → (s.elem e).frozen = false →
    (s.elem e).cancelled (BitVec.ofNat 8 s.me.wid.toNat) 0 = false →
    exec (.qpush q a) s =
      .next ((s.send e 0
        { hdr := { kind := 0, lanes := 0x0003, seq := BitVec.ofNat 16 s.me.wid.toNat, itag := BitVec.ofNat 8 s.me.wid.toNat
                   pvalid := false, pbit := false, reserved := 0 }
          pay := BitVec.ofNat 512 (s.rd a).toNat }).advance)

/-- R180, R181. A qpop finds the first token that is no barrier, shape or completion token. Data gives payload bits 63:0 with a masked
32-bit lane as zero, a null gives 0, and the token leaves the queue, with the control tokens that then stand at its head; poison and end-of-run raise the port trap, reasons 2 and 3, and
stay. qlvl writes, for a sink binding, the count of data and null tokens ahead of any end-of-run, with bit 63 set when one stands
behind them, and for a source binding the port's credits; it pops nothing. Unbound, it raises the port trap, reason 0. -/
def Obligations.QpopAndQlvlReadTheQueue : Prop :=
  (∀ (d : Reg) (q : QReg) (s : State) (e : ElemAt) (skipped rest : List Token) (h : Token),
    s.qBind s.cur q.val = some e → (s.elem e).portVo = true → getF (s.elem e).inq 0 = skipped ++ h :: rest →
    (∀ c ∈ skipped, Silent c) →
    (h.hdr.kind = 0 ∨ h.hdr.kind = 1 → ∃ t, exec (.qpop d q) s = .next t ∧ SilentGone rest (getF (t.elem e).inq 0) ∧ t.me.pc = nextWord s ∧
      (∀ r, r ≠ d → t.rd r = s.rd r) ∧
      t.rd d = if d = 0 ∨ h.hdr.kind = 1 then 0 else
        BitVec.ofNat 64 ((if h.hdr.lanes.getLsbD 0 then h.pay.toNat % 2 ^ 32 else 0)
          + if h.hdr.lanes.getLsbD 1 then h.pay.toNat / 2 ^ 32 % 2 ^ 32 * 2 ^ 32 else 0)) ∧
    (h.hdr.kind = 4 → exec (.qpop d q) s = .next (s.trap { cause := .port, info := 2 * 256 + q.val })) ∧
    (h.hdr.kind = 3 → exec (.qpop d q) s = .next (s.trap { cause := .port, info := 3 * 256 + q.val }))) ∧
  (∀ (d : Reg) (q : QReg) (s : State),
    (∀ e front back, s.qBind s.cur q.val = some e → (s.elem e).portVo = true → getF (s.elem e).inq 0 = front ++ back →
      (∀ t ∈ front, t.hdr.kind ≠ 3) → (back = [] ∨ ∃ t l, back = t :: l ∧ t.hdr.kind = 3) →
      ∃ t, exec (.qlvl d q) s = .next t ∧
        WroteReg s t d (BitVec.ofNat 64 ((front.filter fun t => t.hdr.kind == 0 || t.hdr.kind == 1).length
          + if back = [] then 0 else 2 ^ 63)) (nextWord s)) ∧
    (∀ e, s.qBind s.cur q.val = some e → (s.elem e).portVo = false →
      ∃ t, exec (.qlvl d q) s = .next t ∧ WroteReg s t d (BitVec.ofNat 64 (s.credits e 0)) (nextWord s)) ∧
    (s.qBind s.cur q.val = none → exec (.qlvl d q) s = .next (s.trap { cause := .port, info := q.val })))

/-- R182. For an accumulator that the identifier in ga names and the configuration holds, accrd at an aligned offset in range writes the
64 bits there into gd once the tag is full, waits while it is not, and accrst empties the accumulator; a bad offset traps as stated.
For an identifier that names none, both raise the port trap with reason 4 and the identifier's j. -/
def Obligations.AccumulatorReadAndReset : Prop :=
  (∀ (d a b : Reg) (s : State) (r : Fin 16) (x y : Nat) (j : Fin 4), AccNamed s (s.rd a) r x y j →
    let slot (t : State) : Slot := getF (t.tile (dieOf s.cur) (x + 5 * (s.region (dieOf s.cur) r).bx)
      (y + 4 * (s.region (dieOf s.cur) r).by')).slots ⟨4 + j.val, by omega⟩
    ((s.rd b).toNat ≤ 32760 → (s.rd b).toNat % 8 = 0 → (slot s).tag = .full →
      ∃ t, exec (.accrd d a b) s = .next t ∧ WroteReg s t d (Map.get 0 ((s.rd b).toNat / 8) (slot s).data) (nextWord s)) ∧
    ((s.rd b).toNat ≤ 32760 → (s.rd b).toNat % 8 = 0 → (slot s).tag ≠ .full → exec (.accrd d a b) s = .next s) ∧
    (32760 < (s.rd b).toNat → exec (.accrd d a b) s = .next (s.trap { cause := .port, info := 5 * 256 + j.val })) ∧
    ((s.rd b).toNat ≤ 32760 → (s.rd b).toNat % 8 ≠ 0 →
      exec (.accrd d a b) s = .next (s.trap { cause := .alignment, bad := s.rd b })) ∧
    ((slot s).taken = 0 → ∃ t, exec (.accrst a) s = .next t ∧ (slot t).data = [] ∧ (slot t).tag = .empty ∧ t.me.pc = nextWord s ∧
      ∀ g, t.rd g = s.rd g)) ∧
  (∀ (d a b : Reg) (s : State), (∀ r x y j, ¬ AccNamed s (s.rd a) r x y j) →
    exec (.accrd d a b) s = .next (s.trap { cause := .port, info := 4 * 256 + (s.rd a).toNat % 4 }) ∧
    exec (.accrst a) s = .next (s.trap { cause := .port, info := 4 * 256 + (s.rd a).toNat % 4 }))

/-- R174, R108, R5. A plain load of an aligned address completes. In the private window it reads private memory; elsewhere it reads the
board where translation puts it, after the stores still in the order buffer have performed. The value is little-endian, extended as
the table says. -/
def Obligations.PlainLoadWritesExtendedValue : Prop :=
  ∀ row ∈ loadRows, ∀ (d a : Reg) (imm : BitVec 16) (s : State),
    (∀ off, InWindow (s.rd a + BitVec.ofInt 64 imm.toInt) row.2.1 off →
      ∃ t, exec (row.1 d a imm) s = .next t ∧ WroteReg s t d (row.2.2 (leBytes (privByte s) off row.2.1)) (nextWord s)) ∧
    (∀ pa, OnBoard s (s.rd a + BitVec.ofInt 64 imm.toInt) row.2.1 false pa →
      (s.drainStores s.cur).marked.contains (pa / 8) = false →
      ∃ t u v, ReadsAs (s.drainStores s.cur) (dieOf s.cur) pa row.2.1 v u ∧
        exec (row.1 d a imm) s = .next t ∧ WroteReg u t d (row.2.2 v) (nextWord s))

/-- R174, R103. A plain store of an aligned address completes. In the private window it writes exactly its bytes; elsewhere it enters the
order buffer with exactly its bytes and changes no memory yet. -/
def Obligations.PlainStoreStoresItsBytes : Prop :=
  ∀ row ∈ storeRows, ∀ (d a : Reg) (imm : BitVec 16) (s : State),
    (∀ off, InWindow (s.rd a + BitVec.ofInt 64 imm.toInt) row.2 off →
      ∃ t, exec (row.1 d a imm) s = .next t ∧ PrivBytesSet s t off row.2 (s.rd d) ∧ t.me.pc = nextWord s) ∧
    (∀ pa, OnBoard s (s.rd a + BitVec.ofInt 64 imm.toInt) row.2 true pa → OrderSettled s.me →
      ∃ t w, exec (row.1 d a imm) s = .next t ∧ t.me.order = s.me.order ++ [.store w] ∧ WritesBytes w pa row.2 (s.rd d) ∧
        t.me.pc = nextWord s ∧ { t.me with order := s.me.order, pc := s.me.pc } = s.me ∧ OthersSame s t ∧ RestSame s t ∧
        MemorySame s t)

/-- R175. lda completes with the extended value and, for device scope and wider, the acquire that drops the die's RDC copies. -/
def Obligations.AcquireLoadReadsAndAcquires : Prop :=
  ∀ (d a : Reg) (size : Size) (u : Bool) (scope : Scope) (s : State),
    (∀ off, InWindow (s.rd a) (sizeBytes size) off →
      ∃ t, exec (.lda d a size u scope) s = .next t ∧
        WroteReg (if scope = .region ∨ scope = .die then s else s.dropRdc (dieOf s.cur)) t d ((if u ∨ size = .d then BitVec.ofNat 64 else signExt (sizeBytes size))
          (leBytes (privByte s) off (sizeBytes size))) (nextWord s)) ∧
    (∀ pa, OnBoard s (s.rd a) (sizeBytes size) false pa → (s.drainStores s.cur).marked.contains (pa / 8) = false →
      ∃ t w v, ReadsAs (s.drainStores s.cur) (dieOf s.cur) pa (sizeBytes size) v w ∧ exec (.lda d a size u scope) s = .next t ∧
        WroteReg (if scope = .region ∨ scope = .die then w else w.dropRdc (dieOf s.cur)) t d
          ((if u ∨ size = .d then BitVec.ofNat 64 else signExt (sizeBytes size)) v) (nextWord s))

/-- R175, R109. stl of a core with no earlier write under way performs its store in the move of its release: private bytes, home bytes
where the address is homed on the core's die, else the write enters a path FIFO. -/
def Obligations.ReleaseStorePerformsAfterRelease : Prop :=
  ∀ (a b : Reg) (size : Size) (scope : Scope) (s : State), s.me.rel = none → s.me.order = [] → NoPaths s →
    (∀ off, InWindow (s.rd a) (sizeBytes size) off →
      ∃ t, exec (.stl a b size scope) s = .next t ∧ t.me.pc = nextWord s ∧ (∀ r, t.rd r = s.rd r) ∧
        ∀ x, privByte t x = if off ≤ x ∧ x < off + sizeBytes size then valueByte (s.rd b) (x - off) else privByte s x) ∧
    (∀ pa, OnBoard s (s.rd a) (sizeBytes size) true pa → s.isLocal (dieOf s.cur) (pa / 8) = true →
      ∃ t, exec (.stl a b size scope) s = .next t ∧ t.me.pc = nextWord s ∧ (∀ r, t.rd r = s.rd r) ∧
        HomeBytesSet s t pa (sizeBytes size) (s.rd b)) ∧
    (∀ pa, OnBoard s (s.rd a) (sizeBytes size) true pa → s.isLocal (dieOf s.cur) (pa / 8) = false →
      ∃ t p w, exec (.stl a b size scope) s = .next t ∧ t.me.pc = nextWord s ∧ (∀ r, t.rd r = s.rd r) ∧
        t.pathItems p = s.pathItems p ++ [.write (.core s.cur) w] ∧ WritesBytes w pa (sizeBytes size) (s.rd b) ∧
        ∀ x, t.byte x = s.byte x)

/-- R97, R176, R111. An atomic of a core with no write under way performs in one move: gd takes the old value sign-extended, the home (or
the private bytes) the table's new value, and a failed compare writes nothing. For a remote granule the die's RDC copy becomes the new
value, unless the acquire of device scope or wider that it is drops it. An address in a region-private range raises the
atomic-target trap. -/
def Obligations.AtomicReadsModifiesWrites : Prop :=
  ∀ row ∈ amoRows, ∀ (o : Amo) (s : State),
    (∀ pa, OnBoard s (s.rd o.a) (amoBytes o) true pa → InPrivateRange s (s.rd o.a).toNat →
      exec (row.1 o) s = .next (s.trap { cause := .atomicTarget, bad := s.rd o.a })) ∧
    (s.me.rel = none → s.me.amo = none → s.me.order = [] → NoPaths s →
      (∀ off, InWindow (s.rd o.a) (amoBytes o) off →
        let old := leBytes (privByte s) off (amoBytes o)
        ∃ t, exec (row.1 o) s = .next t ∧ t.rd o.d = (if o.d = 0 then 0 else signExt (amoBytes o) old) ∧
          (∀ r, r ≠ o.d → t.rd r = s.rd r) ∧ t.me.pc = nextWord s ∧
          ∀ x, privByte t x = match row.2 (amoBytes o) old ((s.rd o.b).toNat % 256 ^ amoBytes o) ((s.rd o.d).toNat % 256 ^ amoBytes o) with
            | some v => if off ≤ x ∧ x < off + amoBytes o then valueByte (BitVec.ofNat 64 v) (x - off) else privByte s x
            | none => privByte s x) ∧
      (∀ pa, OnBoard s (s.rd o.a) (amoBytes o) true pa →
        s.marked.contains (pa / 8) = false → ¬ InPrivateRange s (s.rd o.a).toNat →
        s.unlandedLine (.core s.cur) (pa / 64) = false →
        let old := leBytes s.byte pa (amoBytes o)
        ∃ t, exec (row.1 o) s = .next t ∧ t.rd o.d = (if o.d = 0 then 0 else signExt (amoBytes o) old) ∧
          (∀ r, r ≠ o.d → t.rd r = s.rd r) ∧ t.me.pc = nextWord s ∧
          match row.2 (amoBytes o) old ((s.rd o.b).toNat % 256 ^ amoBytes o) ((s.rd o.d).toNat % 256 ^ amoBytes o) with
            | some v => HomeBytesSet s t pa (amoBytes o) (BitVec.ofNat 64 v) ∧
                (s.isLocal (dieOf s.cur) (pa / 8) = false → o.acq = false ∨ o.scope = .region ∨ o.scope = .die →
                  t.rdcOf (dieOf s.cur) (pa / 8) = some (t.home (pa / 8)))
            | none => ∀ x, t.byte x = s.byte x))

/-- R163, R167, R174. The data address checks of loads, stores and atomics in their order: bits 63:56, then alignment, then translation and
protection outside the window; each raises its trap with the data address in BADADDR before any effect. -/
def Obligations.DataAddressChecksInOrder : Prop :=
  ∀ (i : Instr) (addr : Word) (n : Nat) (write : Bool) (s : State), DataAccess s i addr n write →
    (2 ^ 56 ≤ addr.toNat → exec i s = .next (s.trap { cause := .addressRange, bad := addr })) ∧
    (addr.toNat < 2 ^ 56 → addr.toNat % n ≠ 0 → exec i s = .next (s.trap { cause := .alignment, bad := addr })) ∧
    (addr.toNat < 0x00FF_FFFF_FFFF_0000 → addr.toNat % n = 0 →
      s.translateBy (.core s.cur) (s.me.asid.truncate 13) addr.toNat write (!s.sv) = .error .translation →
      exec i s = .next (s.trap { cause := .translation, bad := addr })) ∧
    (addr.toNat < 0x00FF_FFFF_FFFF_0000 → addr.toNat % n = 0 →
      s.translateBy (.core s.cur) (s.me.asid.truncate 13) addr.toNat write (!s.sv) = .error .protection →
      exec i s = .next (s.trap { cause := .protection, bad := addr }))

/-- R131, R177, R178. A taken branch goes to pc + 4 × sext(off16), one not taken to pc + 4, checking no target; j goes to its target, jal
also writes pc + 4 into g31, jalr goes to ga and writes pc + 4 into gd, the target read first. A taken target outside code memory, or
one of jalr that is not a multiple of 4, raises the fetch-range trap at the instruction and writes nothing. -/
def Obligations.BranchesAndJumpsReachTheirTargets : Prop :=
  ∀ s : State, PcOk s →
    (∀ row ∈ branchRows, ∀ (a b : Reg) (off : BitVec 16), ∃ t, exec (row.1 a b off) s = .next t ∧
      if row.2 (s.rd a) (s.rd b) then GoesTo s (s.me.pc.toNat + 4 * off.toInt) t else OnlyPc s t (nextWord s)) ∧
    (∀ (p : PReg) (off : BitVec 16),
      (∃ t, exec (.bpt p off) s = .next t ∧
        if s.rdP p then GoesTo s (s.me.pc.toNat + 4 * off.toInt) t else OnlyPc s t (nextWord s)) ∧
      (∃ t, exec (.bpf p off) s = .next t ∧
        if s.rdP p then OnlyPc s t (nextWord s) else GoesTo s (s.me.pc.toNat + 4 * off.toInt) t)) ∧
    (∀ off : BitVec 26, ∃ t, exec (.j off) s = .next t ∧ GoesTo s (s.me.pc.toNat + 4 * off.toInt) t) ∧
    (∀ off : BitVec 26, ∃ t, exec (.jal off) s = .next t ∧ LinksAndGoes s 31 (s.me.pc.toNat + 4 * off.toInt) t) ∧
    (∀ d a : Reg, ∃ t, exec (.jalr d a) s = .next t ∧ LinksAndGoes s d (s.rd a).toNat t)

/-- R144, R168, R169, R183. trap saves the following word, enters supervisor mode with IE clear and TH set, stores its code in CAUSE.info
and goes to the entry of cause 0x0B; a word that is no instruction takes the illegal-instruction trap, TRAPPC holding its address and
BADADDR the word. The entry address 0x3_F000 + 16 × code is the model's reading of R330 as a byte offset (log 24). -/
def Obligations.SoftwareAndIllegalTrapsEnterHandler : Prop :=
  (∀ (code : Fin 4096) (s : State), s.me.th = false →
    ∃ t, exec (.trap code) s = .next t ∧ EntersTrap s.me t.me 0x0B code.val (nextWord s) 0 ∧ OthersSame s t ∧ RestSame s t ∧
      MemorySame s t) ∧
  (∀ (w : Word32) (s : State), s.me.th = false →
    ∃ t, exec (.illegalInstruction w) s = .next t ∧ EntersTrap s.me t.me 0x01 0 s.me.pc (BitVec.ofNat 64 w.toNat) ∧ OthersSame s t ∧
      RestSame s t ∧ MemorySame s t)

/-- R167, R168. A synchronous trap inside a handler, of any cause, stops the core: STATUS, CAUSE, TRAPPC and BADADDR keep the values of the
trap being handled, the pc stays, and event 3 carries the second cause's code and the address of the instruction that raised it. -/
def Obligations.DoubleTrapStopsTheCore : Prop :=
  ∀ (i : Instr) (code : Nat) (s : State), RaisesSync s i code → s.me.th = true → s.host.held.length < 256 →
    ∃ t e, exec i s = .next t ∧ t.me.run = .stopped ∧ t.me.status = s.me.status ∧ t.me.cause = s.me.cause ∧
      t.me.trappc = s.me.trappc ∧ t.me.badaddr = s.me.badaddr ∧ t.me.pc = s.me.pc ∧ t.me.g = s.me.g ∧
      t.host.held = s.host.held ++ [e] ∧ e.d0.toNat % 256 = 3 ∧ e.d0.toNat / 2 ^ 32 = code ∧ e.d2 = s.me.pc ∧ OthersSame s t ∧
      MemorySame s t

/-- R183, R166. eret in supervisor mode restores pc, SV and IE from TRAPPC, PSV and PIE and clears TH; in task mode it takes the privilege
trap. -/
def Obligations.EretRestores : Prop :=
  ∀ (s : State),
    (s.sv = true → ∃ t, exec .eret s = .next t ∧ t.me.pc = s.me.trappc ∧
      (∀ i, t.me.status.getLsbD i = match i with
        | 0 => s.me.status.getLsbD 1
        | 3 => s.me.status.getLsbD 2
        | 4 => false
        | i => s.me.status.getLsbD i) ∧
      { t.me with pc := s.me.pc, status := s.me.status } = s.me ∧ OthersSame s t ∧ RestSame s t ∧ MemorySame s t) ∧
    (s.sv = false → exec .eret s = .next (s.trap { cause := .privilege, bad := BitVec.ofNat 64 s.fetchWord.toNat }))

/-- R165, R166, R6. mfsr reads every system register in either mode. mtsr writes STATUS (SHAPECHG alone in task mode; SHAPECHG, SV, PSV, PIE
and IE in supervisor mode), TRAPPC and ASID (supervisor mode; else the privilege trap) and WID; reserved bits are not kept. -/
def Obligations.SystemRegisterAccess : Prop :=
  (∀ (d : Reg) (s : State) (r : SysReg), ∃ t, exec (.mfsr d r) s = .next t ∧
    WroteReg s t d (match r with
      | .status => s.me.status | .cause => s.me.cause | .trappc => s.me.trappc | .badaddr => s.me.badaddr | .asid => s.me.asid
      | .prio => s.me.prio | .tags => s.me.tags | .wid => s.me.wid | .widw => s.me.widw) (nextWord s)) ∧
  (∀ (a : Reg) (s : State),
    (∃ t, exec (.mtsr .status a) s = .next t ∧
      (∀ i, t.me.status.getLsbD i = if i = 8 ∨ (s.sv = true ∧ i < 4) then (s.rd a).getLsbD i else s.me.status.getLsbD i) ∧
      OnlyPc s { t with cores := setF t.cores s.cur { t.me with status := s.me.status } } (nextWord s)) ∧
    (∃ t, exec (.mtsr .wid a) s = .next t ∧ t.me.wid = s.rd a ∧
      OnlyPc s { t with cores := setF t.cores s.cur { t.me with wid := s.me.wid } } (nextWord s)) ∧
    (s.sv = true → ∃ t, exec (.mtsr .trappc a) s = .next t ∧
      (∀ i, t.me.trappc.getLsbD i = if 2 ≤ i ∧ i < 18 then (s.rd a).getLsbD i else false) ∧
      OnlyPc s { t with cores := setF t.cores s.cur { t.me with trappc := s.me.trappc } } (nextWord s)) ∧
    (s.sv = true → ∃ t, exec (.mtsr .asid a) s = .next t ∧
      (∀ i, t.me.asid.getLsbD i = if i < 13 then (s.rd a).getLsbD i else false) ∧
      OnlyPc s { t with cores := setF t.cores s.cur { t.me with asid := s.me.asid } } (nextWord s)) ∧
    (s.sv = false →
      exec (.mtsr .trappc a) s = .next (s.trap { cause := .privilege, bad := BitVec.ofNat 64 s.fetchWord.toNat }) ∧
      exec (.mtsr .asid a) s = .next (s.trap { cause := .privilege, bad := BitVec.ofNat 64 s.fetchWord.toNat })))

/-- R110, R112, R184, R185. With nothing of the core under way: fence performs its acquire and goes on; wait goes on with a home value that
differs from gd, waits while it is equal, and returns at its limit with the value it then reads; halt stops the core at the following
word. -/
def Obligations.FenceWaitHaltComplete : Prop :=
  ∀ (s : State), s.me.rel = none → s.me.order = [] → NoPaths s →
    (∀ scope, ∃ t, exec (.fence scope) s = .next t ∧
      OnlyPc (if scope = .region ∨ scope = .die then s.emptyPathSets [.core s.cur]
        else (s.emptyPathSets [.core s.cur]).dropRdc (dieOf s.cur)) t (nextWord s)) ∧
    (∀ (d a : Reg) (scope : Scope) (pa : Nat), OnBoard s (s.rd a) 8 false pa →
      (s.home (pa / 8) ≠ s.rd d → ∃ t, exec (.wait d a scope) s = .next t ∧
        t.rd d = (if d = 0 then 0 else s.home (pa / 8)) ∧ (∀ r, r ≠ d → t.rd r = s.rd r) ∧ t.me.pc = nextWord s ∧
        t.me.waiting = false) ∧
      (s.home (pa / 8) = s.rd d → ∃ t, exec (.wait d a scope) s = .next t ∧ t.me.waiting = true ∧
        OnlyPc s { t with cores := setF t.cores s.cur { t.me with waiting := s.me.waiting } } s.me.pc) ∧
      (s.me.waiting = true → s.me.run = .running → decode s.fetchWord = .wait d a scope → s.clockOn (dieOf s.cur) = true →
        ∃ t, exec (.waitTimeout s.cur) s = .next t ∧ t.rd d = (if d = 0 then 0 else s.home (pa / 8)) ∧
          (∀ r, r ≠ d → t.rd r = s.rd r) ∧ t.me.pc = nextWord s ∧ t.me.waiting = false)) ∧
    (∃ t, exec .halt s = .next t ∧ t.me.run = .halted ∧
      OnlyPc s { t with cores := setF t.cores s.cur { t.me with run := s.me.run } } (nextWord s))

/-- R168, R169, R185, R330. An asynchronous trap is taken when IE = 1, between instructions or from halt: the source goes into CAUSE.info,
TRAPPC holds the next instruction not yet done. With IE = 0 it stays pending. The entry address rests on log 24. -/
def Obligations.AsynchronousTrapTaken : Prop :=
  ∀ (c : Fin 64) (s : State) (src : BitVec 32) (rest : List (BitVec 32)), (s.core c).irq = src :: rest →
    s.clockOn (dieOf c) = true → (s.core c).amo = none → (s.core c).rel = none →
    ((s.core c).ie = true → (s.core c).run = .running ∨ (s.core c).run = .halted →
      ∃ t, exec (.asyncTrap c) s = .next t ∧ EntersTrap (s.core c) (t.core c) 0x10 src.toNat (s.core c).pc 0 ∧
        (t.core c).irq = rest ∧ (t.core c).run = .running ∧ (∀ d, d ≠ c → t.core d = s.core d) ∧ RestSame s t) ∧
    ((s.core c).ie = false → exec (.asyncTrap c) s = .next s)

/-! ### Commands to engines, queues, table and configuration (spec/05, spec/07) -/

/-- R189, R194, R202, R204, R207, R214. A tagged command whose checks pass and that has room is issued: its tag bit is cleared, its count
rises by 1, and it stands last in the order buffer with its operands, ASID, mode and WID. With no room or a full tag the core waits.
Stream ports are checked first: unmapped is reason 0, bound to a queue-mapped register reason 1, info holding the port. -/
def Obligations.TaggedCommandsIssue : Prop :=
  (∀ row ∈ streamRows, ∀ (o : Strm) (s : State),
    (s.portElem s.cur row.2.2 o.port.val = none → exec (row.1 o) s = .next (s.trap { cause := .port, info := o.port.val })) ∧
    (∀ a, s.portElem s.cur row.2.2 o.port.val = some a →
      ((s.elem a).qpValid = true → exec (row.1 o) s = .next (s.trap { cause := .port, info := 256 + o.port.val })) ∧
      (∀ pa, (s.elem a).qpValid = false → OnBoard s (s.rd o.base) 64 false pa →
        (TagRoom s o.tag → s.engineLoad s.cur a < 2 → OrderSettled s.me →
          ∃ t k, exec (row.1 o) s = .next t ∧ CommandOf s k row.2.1 (s.rd o.base) (s.rd o.count) o.tag ∧ k.port = o.port.val ∧
            k.engine = some a ∧ k.append = o.append ∧ Issued s t k) ∧
        (¬ TagRoom s o.tag ∨ 2 ≤ s.engineLoad s.cur a → exec (row.1 o) s = .next s)))) ∧
  (∀ row ∈ queueCommandRows, ∀ (q : QReg) (base count : Reg) (tag : Tag) (mode : CollMode) (s : State) (pa : Nat),
    OnBoard s (s.rd base) 64 false pa →
    (TagRoom s tag → s.me.queueLoad q < 16 → OrderSettled s.me →
      ∃ t k, exec (row.1 q base count tag mode) s = .next t ∧ CommandOf s k row.2 (s.rd base) (s.rd count) tag ∧ k.queue = q ∧
        (row.2 ≠ .cpy → row.2 ≠ .cpy2d → k.mode = mode) ∧ Issued s t k) ∧
    (¬ TagRoom s tag ∨ 16 ≤ s.me.queueLoad q → exec (row.1 q base count tag mode) s = .next s)) ∧
  (∀ (scope : Scope) (m : Reg) (tag : Tag) (s : State), TagRoom s tag → OrderSettled s.me →
    ∃ t k, exec (.flm scope m tag) s = .next t ∧ CommandOf s k .flm (s.rd m) 0 tag ∧ k.scope = scope ∧
      (∀ e, e ∈ k.engines ↔ MaskNames s (s.rd m) e) ∧ Issued s t k) ∧
  (∀ (base count : Reg) (tag : Tag) (part : Bool) (s : State) (pa : Nat), OnBoard s (s.rd base) 8 false pa → TagRoom s tag →
    OrderSettled s.me →
    ∃ t k, exec (.cfgLd base count tag part) s = .next t ∧ CommandOf s k .cfgLd (s.rd base) (s.rd count) tag ∧ k.part = part ∧
      Issued s t k)

/-- R199, R206. sbar places one barrier entry at the tail of each engine that its mask maps, qfence one fence entry in each queue named,
through the order buffer; unmapped bits and an empty mask do nothing. A qfence waits for room in a named queue. -/
def Obligations.BarriersAndFencesArePlaced : Prop :=
  (∀ (a : Reg) (s : State),
    ((∀ e, ¬ MaskNames s (s.rd a) e) → ∃ t, exec (.sbar a) s = .next t ∧ OnlyPc s t (nextWord s)) ∧
    (∀ e0, MaskNames s (s.rd a) e0 → s.me.order = [] →
      ∃ t, exec (.sbar a) s = .next t ∧ t.me.pc = nextWord s ∧ t.me.order = [] ∧ t.nextId = s.nextId + 1 ∧ MemorySame s t ∧
        (∀ r, t.rd r = s.rd r) ∧
        ∀ e, InFabric e → (MaskNames s (s.rd a) e → (t.elem e).se.items = (s.elem e).se.items ++ [.barrier s.nextId]) ∧
          (¬ MaskNames s (s.rd a) e → t.elem e = s.elem e)) ∧
    (∀ e0, MaskNames s (s.rd a) e0 → OrderSettled s.me → s.me.order ≠ [] →
      ∃ t es, exec (.sbar a) s = .next t ∧ t.me.pc = nextWord s ∧ t.me.order = s.me.order ++ [.sbar es s.nextId] ∧
        (∀ e, e ∈ es ↔ MaskNames s (s.rd a) e) ∧ t.elems = s.elems)) ∧
  (∀ (a : Reg) (s : State),
    ((∀ q : QReg, (s.rd a).getLsbD q.val = false) → ∃ t, exec (.qfence a) s = .next t ∧ OnlyPc s t (nextWord s)) ∧
    (∀ q : QReg, (s.rd a).getLsbD q.val = true → 16 ≤ s.me.queueLoad q → exec (.qfence a) s = .next s) ∧
    (∀ q0 : QReg, (s.rd a).getLsbD q0.val = true → (∀ q : QReg, (s.rd a).getLsbD q.val = true → s.me.queueLoad q < 16) →
      s.me.order = [] →
      ∃ t, exec (.qfence a) s = .next t ∧ t.me.pc = nextWord s ∧ t.nextId = s.nextId + 1 ∧ MemorySame s t ∧ (∀ r, t.rd r = s.rd r) ∧
        ∀ q : QReg, getF t.me.queues q = getF s.me.queues q ++ if (s.rd a).getLsbD q.val then [.fence s.nextId (BitVec.ofNat 32 (encodeNat (.qfence a)))] else []))

/-- R200. twait.any and twait.all return when a named tag, or every one, is set, with an acquire of device scope; they wait otherwise and
return at once for an empty mask. tfind writes the lowest set bit named or 64 and acquires when it finds one; tclr clears bits. -/
def Obligations.TagInstructionsWaitFindClear : Prop :=
  ∀ (a : Reg) (s : State),
    (s.rd a = 0 → (∃ t, exec (.twaitAny a) s = .next t ∧ OnlyPc s t (nextWord s)) ∧
      ∃ t, exec (.twaitAll a) s = .next t ∧ OnlyPc s t (nextWord s)) ∧
    (∀ i, (s.rd a).getLsbD i = true → s.me.tags.getLsbD i = true →
      ∃ t, exec (.twaitAny a) s = .next t ∧ OnlyPc (s.dropRdc (dieOf s.cur)) t (nextWord s)) ∧
    (s.rd a ≠ 0 → (∀ i, (s.rd a).getLsbD i = true → s.me.tags.getLsbD i = false) → exec (.twaitAny a) s = .next s) ∧
    (s.rd a ≠ 0 → (∀ i, (s.rd a).getLsbD i = true → s.me.tags.getLsbD i = true) →
      ∃ t, exec (.twaitAll a) s = .next t ∧ OnlyPc (s.dropRdc (dieOf s.cur)) t (nextWord s)) ∧
    (∀ i, (s.rd a).getLsbD i = true → s.me.tags.getLsbD i = false → exec (.twaitAll a) s = .next s) ∧
    (∀ d : Reg, (∀ i, (s.rd a).getLsbD i = true → s.me.tags.getLsbD i = false) →
      ∃ t, exec (.tfind d a) s = .next t ∧ WroteReg s t d 64 (nextWord s)) ∧
    (∀ (d : Reg) (i : Nat), (s.rd a).getLsbD i = true → s.me.tags.getLsbD i = true →
      (∀ j, j < i → (s.rd a).getLsbD j = true → s.me.tags.getLsbD j = false) →
      ∃ t, exec (.tfind d a) s = .next t ∧ WroteReg (s.dropRdc (dieOf s.cur)) t d (BitVec.ofNat 64 i) (nextWord s)) ∧
    (∃ t, exec (.tclr a) s = .next t ∧ (∀ i, t.me.tags.getLsbD i = (s.me.tags.getLsbD i && !(s.rd a).getLsbD i)) ∧ WroteTags s t)

/-- R209 to R211. shape grants the largest multiples of the granules within the region's maxima, fills the register and writes the grants
back, gb after ga; a request below its granule, a nonzero upper half or a core without region raises the shape-request trap with its
info and changes nothing else. -/
def Obligations.ShapeGrantsAndWritesBack : Prop :=
  ∀ (sh : ShReg) (a b : Reg) (s : State),
    let x := (s.rd a).toNat
    let y := (s.rd b).toNat
    (∀ kind, s.ownRegion s.cur = none → exec (.shape sh a b kind) s = .next (s.trap { cause := .shapeRequest, info := 6 })) ∧
    (∀ r, s.ownRegion s.cur = some r →
      let w := (s.region (dieOf s.cur) r).w
      let h := (s.region (dieOf s.cur) r).h
      (∀ kind, kind = .fp8 ∨ kind = .e2m1 ∨ kind = .bf16 →
        let lim := shapeLimits kind w h
        let trap (i : Nat) : Prop := exec (.shape sh a b kind) s = .next (s.trap { cause := .shapeRequest, info := i })
        (2 ^ 32 ≤ y → trap 5) ∧
        (y < 2 ^ 32 → x % 2 ^ 32 < 16 → trap 0) ∧
        (y < 2 ^ 32 → 16 ≤ x % 2 ^ 32 → x / 2 ^ 32 < 16 → trap 1) ∧
        (y < 2 ^ 32 → 16 ≤ x % 2 ^ 32 → 16 ≤ x / 2 ^ 32 → y < lim.2.2.2 → trap 2) ∧
        (∀ m n k, y < 2 ^ 32 → Granted (x % 2 ^ 32) lim.1 16 m → Granted (x / 2 ^ 32) lim.2.1 16 n → Granted y lim.2.2.1 lim.2.2.2 k →
          ∃ t, exec (.shape sh a b kind) s = .next t ∧
            HoldsGrant (getF t.me.sh sh) (x % 2 ^ 32, x / 2 ^ 32, y) (m, n, k) (lim.1, lim.2.1, lim.2.2.1)
              (match kind with
                | .vec => 0 | .fp8 => 1 | .e2m1 => 2 | .bf16 => 3 | .rank => 4) ((nextWord s).toNat / 4) a b ∧
            ShapeWrote s t sh a b (BitVec.ofNat 64 (m + n * 2 ^ 32)) (some (BitVec.ofNat 64 k)))) ∧
      (∀ kind, kind = .vec ∨ kind = .rank →
        let lim := shapeLimits kind w h
        let trap (i : Nat) : Prop := exec (.shape sh a b kind) s = .next (s.trap { cause := .shapeRequest, info := i })
        (2 ^ 32 ≤ x → trap 5) ∧ (x < 8 → trap 3) ∧
        (∀ m, x < 2 ^ 32 → Granted x lim.1 8 m →
          ∃ t, exec (.shape sh a b kind) s = .next t ∧
            HoldsGrant (getF t.me.sh sh) (x, 0, 0) (m, 0, 0) (lim.1, 0, 0) (if kind = .vec then 0 else 4) ((nextWord s).toNat / 4) a b ∧
            ShapeWrote s t sh a b (BitVec.ofNat 64 m) none)))

/-- R212. shpub sends one shape token into each named port: at once through a queue-mapped binding, else behind the commands of the port's
stream engine; it sets pub. A mask beyond vi, an unmapped port and an invalid register trap as stated, and a bound port without
credit makes it wait. -/
def Obligations.ShpubPublishesTheGrant : Prop :=
  ∀ (sh : ShReg) (a : Reg) (s : State),
    let m := s.rd a
    let r := getF s.me.sh sh
    (2 ^ 32 ≤ m.toNat → exec (.shpub sh a) s = .next (s.trap { cause := .port, info := 256 })) ∧
    (∀ i, m.toNat < 2 ^ 32 → m.getLsbD i = true → maskPort s i = none → (∀ j, j < i → m.getLsbD j = true → (maskPort s j).isSome = true) →
      exec (.shpub sh a) s = .next (s.trap { cause := .port, info := i })) ∧
    (m.toNat < 2 ^ 32 → (∀ i, m.getLsbD i = true → (maskPort s i).isSome = true) →
      (r.valid = false → exec (.shpub sh a) s = .next (s.trap { cause := .shapeRequest, info := 4 })) ∧
      (∀ e, r.valid = true → MaskNames s m e → (s.elem e).qpValid = true → s.credits e 0 = 0 → exec (.shpub sh a) s = .next s) ∧
      (r.valid = true → (∀ e, MaskNames s m e → (s.elem e).qpValid = true → 0 < s.credits e 0 ∧ (s.elem e).frozen = false) →
        s.me.order = [] →
        ∃ t tok, exec (.shpub sh a) s = .next t ∧ IsShapeToken tok sh r ∧ getF t.me.sh sh = { r with pub := true } ∧
          t.me.pc = nextWord s ∧ (∀ g, t.rd g = s.rd g) ∧ MemorySame s t ∧
          (∀ e, InFabric e →
            (MaskNames s m e ∧ (s.elem e).qpValid = false → (t.elem e).se.items = (s.elem e).se.items ++ [.shape tok]) ∧
            (¬ (MaskNames s m e ∧ (s.elem e).qpValid = false) → (t.elem e).se.items = (s.elem e).se.items)) ∧
          (∀ e p, MaskNames s m e → (s.elem e).qpValid = true → s.dest e 0 = some p → tok ∈ sendPlace t e 0 p)))

/-- R208, R314, R318. enq whose three checks pass, with nothing of the core and the named streams under way, sends the header. A good
header of a priority that PRIO allows, for a bank with room and no spilled task, is queued: gs takes the identifier with code 0, the
tag is taken, and the task stands in the TQU. A bad header answers code 3 and one above PRIO in task mode code 4, the tag unchanged.
That the header is read in the move of the enq, on the die of the core, and that identifiers count from 0 are the model's choices (logs
84 and 85). -/
def Obligations.EnqQueuesTheTask : Prop :=
  ∀ (d h m : Reg) (tag : Tag) (s : State) (qa qb qc pa pb : Nat), s.me.rel = none → s.me.order = [] → s.me.hdrHeld = false →
    s.me.hdrFaulted = false → NoPaths s → TagRoom s tag →
    OnBoard s (s.rd h) 64 false qa → OnBoard s (s.rd h + 64) 8 false qb → OnBoard s (s.rd h + 128) 8 true qc →
    ReadByDie s (s.rd h) pa → ReadByDie s (s.rd h + 64) pb →
    (∀ e, MaskNames s (s.rd m) e → s.partyPaths (.stream e) = [] ∧ (s.elem e).se.cur = none) →
    let u := s.emptyPathSets (.core s.cur :: (s.maskEngines (s.rd m)).map Party.stream)
    let hdr := (u.readHeader [pa, pb]).1
    let v := (u.readHeader [pa, pb]).2
    let head : Task :=
      { id := 0, die := 0, hdr, hdrAddr := s.rd h, by' := s.cur, tag, hdrAsid := s.me.asid.truncate 13, user := !s.sv
        parent := s.me.task, asid := BitVec.ofNat 13 ((hdr.getD 0 0).toNat / 2 ^ 32), order := v.nextId }
    let own : Option (BitVec 13) := if s.sv then none else some (s.me.asid.truncate 13)
    (head.badHeader own = true → ∃ t, exec (.enq d h m tag) s = .next t ∧ WroteReg v t d 3 (nextWord s)) ∧
    (head.badHeader own = false → s.sv = false → s.me.prio.toNat < head.prio →
      ∃ t, exec (.enq d h m tag) s = .next t ∧ WroteReg v t d 4 (nextWord s)) ∧
    (∀ die : Fin 4, head.badHeader own = false → s.sv = true ∨ head.prio ≤ s.me.prio.toNat →
      ((hdr.getD 0 0).toNat / 2 ^ 17 % 8 = die.val ∨ (4 ≤ (hdr.getD 0 0).toNat / 2 ^ 17 % 8 ∧ die = dieOf s.cur)) →
      (v.inBank die head.bank false).length < 256 → v.inBank die head.bank true = [] →
      ∃ t k, exec (.enq d h m tag) s = .next t ∧ t.tasks = v.tasks ++ [k] ∧
        k = { head with id := BitVec.ofNat 32 (die.val * 2 ^ 30 + (v.die die).tqu.accepted.toNat), die } ∧
        t.rd d = (if d = 0 then 0 else BitVec.ofNat 64 (k.id.toNat * 2 ^ 32)) ∧ (∀ r, r ≠ d → t.rd r = s.rd r) ∧
        t.me.pc = nextWord s ∧ (∀ i, t.me.tags.getLsbD i = (s.me.tags.getLsbD i && decide (i ≠ tag.val))) ∧
        (∀ j : Tag, getF t.me.tagCount j = getF s.me.tagCount j + if j = tag then 1 else 0))

/-- R217, R218. ert.pin, ert.probe and ert.evict answer with the state before the command. A pin of a settled entry pins it (gx = 0) or
leaves it, and completes at once; of an absent one, it asks for the fetch and waits. A probe only reads. An evict of an absent entry
completes at once, so that fetches of its class may sweep again (R368); of one in use, it waits with the entry marked. Without an entry nokey is answered and the tag unchanged; pin and
evict in task mode raise the privilege trap. -/
def Obligations.ExpertTableCommandsAnswer : Prop :=
  (∀ (d k x : Reg) (tag : Tag) (s : State), s.sv = false →
    exec (.ertPin d k x tag) s = .next (s.trap { cause := .privilege, bad := BitVec.ofNat 64 s.fetchWord.toNat }) ∧
    exec (.ertEvict d k tag) s = .next (s.trap { cause := .privilege, bad := BitVec.ofNat 64 s.fetchWord.toNat })) ∧
  (∀ (d k x : Reg) (tag : Tag) (s : State), ErtReady s tag → (s.rd k).toNat < 2 ^ 32 → s.rd x = 0 ∨ s.rd x = 1 →
    (s.ert.find ((s.rd k).toNat / 2 ^ 16) ((s.rd k).toNat % 2 ^ 16) = none →
      (∃ t, exec (.ertProbe d k tag) s = .next t ∧ WroteReg s t d (BitVec.ofNat 64 (2 ^ 63)) (nextWord s)) ∧
      (s.sv = true → (∃ t, exec (.ertPin d k x tag) s = .next t ∧ WroteReg s t d (BitVec.ofNat 64 (2 ^ 63)) (nextWord s)) ∧
        ∃ t, exec (.ertEvict d k tag) s = .next t ∧ WroteReg s t d (BitVec.ofNat 64 (2 ^ 63)) (nextWord s))) ∧
    (∀ i, s.ert.find ((s.rd k).toNat / 2 ^ 16) ((s.rd k).toNat % 2 ^ 16) = some i →
      let e := s.ert.entry i
      (∃ t, exec (.ertProbe d k tag) s = .next t ∧ ErtAnswered s t d tag (ertStatus e) false ∧ t.ert = s.ert) ∧
      (s.sv = true →
        (2 ≤ e.state.val → e.evicting = false →
          ∃ t, exec (.ertPin d k x tag) s = .next t ∧ ErtAnswered s t d tag (ertStatus e) false ∧
            t.ert.entry i = (if s.rd x = 0 then { e with state := 3 } else e) ∧ ∀ j, j ≠ i → t.ert.entry j = s.ert.entry j) ∧
        (e.state = 1 → ∃ t, exec (.ertPin d k x tag) s = .next t ∧ ErtAnswered s t d tag (ertStatus e) true ∧
          t.ert = { s.ert with waits := s.ert.waits ++
            [{ entry := i, core := s.cur, tag, task := s.me.task, kind := if s.rd x = 0 then 0 else 1 }] }) ∧
        (e.state = 0 → ∃ t, exec (.ertPin d k x tag) s = .next t ∧ ErtAnswered s t d tag (ertStatus e) true ∧
          (t.ert.entry i).state = 1 ∧ (i ∈ t.ert.wanting ∨ ∃ p, i ∈ getF t.ert.queue p)) ∧
        (e.state = 0 → ∃ t, exec (.ertEvict d k tag) s = .next t ∧ ErtAnswered s t d tag (ertStatus e) false ∧
          t.ert.waits = s.ert.waits ∧ ∀ j, t.ert.entry j =
            if (s.ert.entry j).cls = e.cls then { s.ert.entry j with swept := false } else s.ert.entry j) ∧
        (2 ≤ e.state.val → e.evicting = false → e.refcnt ≠ 0 →
          ∃ t, exec (.ertEvict d k tag) s = .next t ∧ ErtAnswered s t d tag (ertStatus e) true ∧
            t.ert.entry i = { e with evicting := true } ∧
            t.ert.waits = s.ert.waits ++ [{ entry := i, core := s.cur, tag, task := s.me.task, kind := 2 }]))))

/-- R215, R216. cfg.cmt commits a staged image: the gates of the core's region open and its trap records clear; it waits for a load and
does nothing when none is staged. resume sends one resume token to the memory element or stream engine that its identifier names;
another region in task mode raises the privilege trap, an identifier that names no such port the port trap.
PORTRES (R328) with bit 63 clear sends one resume token to a port of a running task; with bit 63 set it lets the head of an engine queue, or
the oldest cfg.ld, of a core try once, with the header that the task queue unit reads for it (log 84). -/
def Obligations.CommitAndResume : Prop :=
  (∀ s : State,
    (s.me.loading = true → exec .cfgCmt s = .next s) ∧
    (s.me.loading = false → s.me.staged = false → ∃ t, exec .cfgCmt s = .next t ∧ OnlyPc s t (nextWord s)) ∧
    (∀ r, s.me.loading = false → s.me.staged = true → s.ownRegion s.cur = some r →
      ∃ t, exec .cfgCmt s = .next t ∧ (t.region (dieOf s.cur) r).committed = true ∧ t.me.staged = false ∧ t.me.pc = nextWord s ∧
        (∀ g, t.rd g = s.rd g) ∧ (∀ a, t.byte a = s.byte a) ∧
        ∀ x y, x < 22 → y < 22 → (s.region (dieOf s.cur) r).owns x y = true →
          (t.tile (dieOf s.cur) x y).trap = Vector.replicate 4 0 ∧ (t.tile (dieOf s.cur) x y).slots = (s.tile (dieOf s.cur) x y).slots)) ∧
  (∀ (a : Reg) (s : State) (r : Fin 16) (x y : Fin 32) (e : Fin 16),
    (s.rd a).toNat = r.val * 2 ^ 18 + x.val * 2 ^ 13 + y.val * 2 ^ 8 + e.val * 2 ^ 4 →
    let g := s.region (dieOf s.cur) r
    let p : ElemAt := { die := dieOf s.cur, x := x.val + 5 * g.bx, y := y.val + 4 * g.by', e := e.val }
    (s.sv = false → s.ownRegion s.cur ≠ some r →
      exec (.resume a) s = .next (s.trap { cause := .privilege, bad := BitVec.ofNat 64 s.fetchWord.toNat })) ∧
    (s.sv = true ∨ s.ownRegion s.cur = some r →
      (g.present = false ∨ g.owns p.x p.y = false ∨ s.isPort p = false →
        exec (.resume a) s = .next (s.trap { cause := .port })) ∧
      (g.present = true → g.owns p.x p.y = true → s.isPort p = true →
        ∃ t, exec (.resume a) s = .next t ∧ t.elem p = { s.elem p with resumes := (s.elem p).resumes + 1 } ∧ t.me.pc = nextWord s ∧
          { t.me with pc := s.me.pc } = s.me ∧ OthersSame s t ∧ MemorySame s t))) ∧
  (∀ (d : Fin 4) (v : Word) (s : State),
    let r : Fin 16 := (s.portAt d v.toNat).2
    let a : ElemAt := (s.portAt d v.toNat).1
    (v.getLsbD 63 = false → (s.region d r).present = true → (s.region d r).owns a.x a.y = true →
      (∃ t, (s.region d r).task.bind s.task? = some t ∧ t.st = .running) →
      ∃ u, exec (.portresPort d v) s = .next u ∧ u.elem a = { s.elem a with resumes := (s.elem a).resumes + 1 } ∧
        (∀ b, ekey b ≠ ekey a → u.elem b = s.elem b) ∧ u.cores = s.cores ∧ u.tasks = s.tasks ∧ u.mem = s.mem ∧
        ∀ l ∈ u.late, l.cmd.engine = some a → l.withheld = false) ∧
    (v.getLsbD 63 = false → (s.region d r).task = none → ∃ u, exec (.portresPort d v) s = .next u ∧ { u with late := s.late } = s) ∧
    (v.getLsbD 63 = true → exec (.portresPort d v) s = .next s)) ∧
  (∀ (d : Fin 4) (v : Word) (s : State),
    let c : Fin 64 := coreOf d ⟨v.toNat % 16, by omega⟩
    (v.getLsbD 63 = true →
      ∃ u, exec (.portresQueue d v) s = .next u ∧ u.elems = s.elems ∧ u.mem = s.mem ∧ (∀ e, e ≠ c → u.core e = s.core e) ∧
        (u.core c).hdrHeld = false ∧ (∀ t ∈ u.tasks, t.by' = c → t.told = false) ∧
        (∀ n : QReg, (∀ k run st w rest, v.toNat / 2 ^ 8 % 16 = n.val → getF (s.core c).queues n = .cmd k run st w :: rest →
            getF (u.core c).queues n = .cmd k run st false :: rest) ∧
          (v.toNat / 2 ^ 8 % 16 ≠ n.val → getF (u.core c).queues n = getF (s.core c).queues n)) ∧
        (∀ q rest, v.toNat / 2 ^ 8 % 16 = 8 → (s.core c).cfg = q :: rest → (u.core c).cfg = { q with withheld := false } :: rest) ∧
        (v.toNat / 2 ^ 8 % 16 ≠ 8 → (u.core c).cfg = (s.core c).cfg)) ∧
    (v.getLsbD 63 = false → exec (.portresQueue d v) s = .next s))

/-- R146 to R151, R25, R26. Commands of a configuration stream at the region that its select-region named. A begin of the region's
geometry closes the gates, a full one with every field at its default; a write sets bits 9:0 of its field and clears the rest, and an
extend the next 30; a bank-quiesce performs every store queued at the bank ports of its MT, or of every MT of the region; a commit of a good stream opens the gates, of a bad one leaves every field
at 0 with the gates closed. A command that breaks a rule is bad, and the first such index is kept. -/
def Obligations.ConfigurationCommandsTakeEffect : Prop :=
  ∀ (s : State),
    let d := s.focus.die
    (∀ r, ∃ t, exec (.selectRegion r) s = .next t ∧
      (t.die d).cursor = { region := if (s.region d r).present = true then some r else none } ∧ t.elems = s.elems ∧ t.tiles = s.tiles ∧
      ∀ q, t.region d q = s.region d q) ∧
    (∀ r part (w h : Fin 8), StreamAt s d r false →
      ((s.region d r).w = w.val → (s.region d r).h = h.val →
        ∃ t, exec (.beginCmd part w h) s = .next t ∧ StreamAt t d r true ∧ (t.region d r).committed = false ∧
          (part = false → ∀ a, InFabric a → a.die = d → (s.region d r).owns a.x a.y = true → ∀ f, t.cfgField a f = defaultField a f) ∧
          (part = true → ∀ a f, t.cfgField a f = s.cfgField a f)) ∧
      ((s.region d r).w ≠ w.val ∨ (s.region d r).h ≠ h.val → ∃ t, exec (.beginCmd part w h) s = .next t ∧ FirstBad s t d)) ∧
    (∀ r (x y : Fin 32) (e : Fin 16) (f : Fin 64) (v : BitVec 10), StreamAt s d r true →
      (∀ a, s.cfgTarget d r x.val y.val e.val f.val v.toNat = some a →
        ∃ t, exec (.configWrite x y e f v) s = .next t ∧ t.cfgField a f.val = v.toNat ∧ StreamAt t d r true ∧
          (∀ g, g ≠ f.val → t.cfgField a g = s.cfgField a g) ∧ (∀ b, InFabric b → b ≠ a → InFabric a → t.elem b = s.elem b) ∧
          t.mem = s.mem) ∧
      (s.cfgTarget d r x.val y.val e.val f.val v.toNat = none →
        ∃ t, exec (.configWrite x y e f v) s = .next t ∧ FirstBad s t d)) ∧
    (∀ r a f n (v : BitVec 30), StreamAt s d r true → (s.die d).cursor.last = some (a, f, n) →
      (n < fieldWidth f → v.toNat < 2 ^ (fieldWidth f - n) →
        ∃ t, exec (.configExtend v) s = .next t ∧ (t.die d).cursor.last = some (a, f, n + 30) ∧
          t.cfgField a f = s.cfgField a f + v.toNat * 2 ^ n ∧ ∀ g, g ≠ f → t.cfgField a g = s.cfgField a g) ∧
      (fieldWidth f ≤ n ∨ 2 ^ (fieldWidth f - n) ≤ v.toNat → ∃ t, exec (.configExtend v) s = .next t ∧ FirstBad s t d)) ∧
    (∀ r (v : BitVec 30), StreamAt s d r true → (s.die d).cursor.last = none →
      ∃ t, exec (.configExtend v) s = .next t ∧ FirstBad s t d) ∧
    (∀ r (x y : Fin 32), StreamAt s d r true →
      (MtSite s d r x.val y.val →
        ∃ t, exec (.bankQuiesce x y false) s = .next t ∧ (t.die d).cursor.just = some (x.val, y.val) ∧ StreamAt t d r true ∧
          BanksPerformed s t d r (fun m => m = tkey d ((s.region d r).absX x.val) ((s.region d r).absY y.val)) ∧
          t.mem = s.mem ∧ ∀ a f, t.cfgField a f = s.cfgField a f) ∧
      (¬ MtSite s d r x.val y.val → ∃ t, exec (.bankQuiesce x y false) s = .next t ∧ FirstBad s t d) ∧
      (x ≠ 0 ∨ y ≠ 0 → ∃ t, exec (.bankQuiesce x y true) s = .next t ∧ FirstBad s t d)) ∧
    (∀ r, StreamAt s d r true → ∃ t, exec (.bankQuiesce 0 0 true) s = .next t ∧ StreamAt t d r true ∧
      BanksPerformed s t d r (fun m => ∃ x y, MtSite s d r x y ∧ m = tkey d ((s.region d r).absX x) ((s.region d r).absY y)) ∧
      t.mem = s.mem ∧ ∀ a f, t.cfgField a f = s.cfgField a f) ∧
    (∀ r, StreamAt s d r true → ∃ t, exec .commit s = .next t ∧ (t.region d r).committed = true ∧ (t.die d).cursor = {} ∧
      ∀ a f, t.cfgField a f = s.cfgField a f) ∧
    (∀ r i, (s.die d).cursor.region = some r → (s.die d).cursor.bad = some i →
      ∃ t, exec .commit s = .next t ∧ (t.region d r).committed = false ∧ (t.die d).cursor = {} ∧
        ∀ a, InFabric a → a.die = d → (s.region d r).owns a.x a.y = true → ∀ f, t.cfgField a f = 0)

/-! ### Begin and end of commands, and the board (spec/04, spec/07) -/

/-- R103, R189, R194 to R197, R201, R202, R214. A command that heads its core's order buffer leaves it for its engine, queue, release or
configuration path. An engine reads its record once: a bad one ends with code 3 and the offset of its first bad field, a load takes
its work identifiers from WID or the last one, and a shape bound clamps the count with event 6; a command that it leaves no row ends
with code 1 and the requested count, or code 0. A copy takes its run from its
descriptor. A cfg.ld of a placement that is not portable stages a good image with code 0 and its count.
The order of a copy's checks is the model's reading (log 102), and so is that a placement which is not portable relocates nothing
(log 133). -/
def Obligations.CommandsBegin : Prop :=
  (∀ (c : Fin 64) (s : State) (k : Command) (rest : List OrderItem), Clocked s (dieOf c) → k.core = c →
    (s.core c).order = .cmd k :: rest → OrderSettled { s.core c with order := rest } →
    ∃ t, exec (.commandBegin (.core c)) s = .next t ∧ (t.core c).order = rest ∧ MemorySame s t ∧
      (∀ a, (k.op = .strmLd ∨ k.op = .strmSt ∨ k.op = .strmGth ∨ k.op = .strmSct) → k.engine = some a →
        (t.elem a).se.items = (s.elem a).se.items ++ [.cmd k]) ∧
      (k.op.onQueue = true → getF (t.core c).queues k.queue = getF (s.core c).queues k.queue ++ [.cmd k .waiting {} false]) ∧
      (k.op = .cfgLd → (t.core c).cfg = (s.core c).cfg ++ [{ cmd := k }]) ∧
      (k.op = .flm → ∃ r, t.releases = s.releases ++ [r] ∧ r.who = .flm c k.tag ∧ r.id = s.nextId ∧
        r.parties = .core c :: k.engines.map Party.stream ∧ r.rows = k.engines.map fun a => (a, (s.elem a).se.rowsIssued))) ∧
  (∀ (a : ElemAt) (s u : State) (k : Command) (rest : List StreamItem) (l : List Word), Clocked s a.die → NextCommand s a k rest →
    (s.elem a).se.hold ≠ .stopped →
    (s.setElem a { s.elem a with se := { (s.elem a).se with items := rest, ovf := false } }).cmdDwords k.core k.asid k.user (k.base.toNat / 8) 16
      = .ok (l, u) →
    let run : StreamRun := { cmd := k, record := l, count := 0, requested := 0 }
    let shv := (run.dw 0).testBit 31
    let sh := getF (s.core k.core).sh ⟨run.dw 0 / 2 ^ 28 % 8, by omega⟩
    let rate := (s.elem a).outRate 0
    let first := if k.append then ((s.elem a).se.lastWid + 1).toNat else k.wid.toNat
    (∀ o, run.bad k.op = some o → ∃ t r, exec (.commandBegin (.engine a)) s = .next t ∧ (t.elem a).se.cur = some r ∧
      r.finished = some { code := 3, info := o }) ∧
    (run.bad k.op = none → shv = true → sh.valid = false →
      ∃ t r, exec (.commandBegin (.engine a)) s = .next t ∧ (t.elem a).se.cur = some r ∧ r.finished = some { code := 3, info := 0 }) ∧
    (∀ n, run.bad k.op = none → (shv = true → sh.valid = true) →
      n = (let b := run.bound (grantDim sh (run.dw 0 / 2 ^ 26 % 4))
           if shv then (if k.count = 0 then b else Nat.min k.count.toNat b)
           else if k.count = 0 ∧ k.op.isLoad = true then run.allRows else k.count.toNat) →
      (∀ t', s.taskAt a = some t' → k.op.isLoad = true → (n % rate = 0 ∧ first ≤ t'.last ∧ first + n / rate - 1 ≤ t'.last)) →
      (s.taskAt a = none → k.op.isLoad = true → n % rate = 0 ∧ first + n / rate - 1 < 2 ^ 64) →
      let cut := shv && decide (run.bound (grantDim sh (run.dw 0 / 2 ^ 26 % 4)) < k.count.toNat)
      (n = 0 → k.op.isLoad = true ∨ shv = true → ∃ t r, exec (.commandBegin (.engine a)) s = .next t ∧ (t.elem a).se.cur = some r ∧
        r.finished = some { code := if cut then 1 else 0, info := if cut then k.count.toNat else 0 }) ∧
      ((k.op.isLoad = true ∨ shv = true → n ≠ 0) → ∃ t r, exec (.commandBegin (.engine a)) s = .next t ∧ (t.elem a).se.cur = some r ∧ (t.elem a).se.items = rest ∧
        r.finished = none ∧ r.started = true ∧ r.record = l ∧ r.count = n ∧ r.requested = k.count.toNat ∧ r.row = 0 ∧
        (k.op.isLoad = true → r.w = first ∧ r.last = first + n / rate - 1) ∧
        r.truncated = cut ∧
        (r.truncated = true → ∀ q, s.regionAt a.die a.x a.y = some q → s.host.held.length < 256 →
          ∃ e, t.host.held = s.host.held ++ [e] ∧ e.d0.toNat % 256 = 6 ∧ e.d0.toNat / 2 ^ 32 = k.count.toNat % 2 ^ 32 ∧ e.d2 = k.base)))) ∧
  (∀ (c : Fin 64) (q : QReg) (s u : State) (k : Command) (st : CmdStatus) (rest : List QItem) (l : List Word), Clocked s (dieOf c) →
    QueuesSettled s c → getF (s.core c).queues q = .cmd k .waiting st false :: rest → k.op = .cpy ∨ k.op = .cpy2d →
    s.cmdDwords c k.asid k.user (k.base.toNat / 8) 6 = .ok (l, u) →
    let two := decide (k.op = .cpy2d)
    let dw (i : Nat) : Nat := (l.getD i 0).toNat
    let ends (code : Nat) (info : Option Nat) : Prop := ∃ t e, exec (.commandBegin (.queue c q)) s = .next t ∧
      getF (t.core c).queues q = .cmd k .ended e false :: rest ∧ e.code = code ∧ ∀ i, info = some i → e.info = i ∧ e.openInfo = false
    ((if two then 2 ^ 32 else 2 ^ 40) < k.count.toNat → ends 4 none) ∧
    (k.count.toNat ≤ (if two then 2 ^ 32 else 2 ^ 40) →
      (0x00FF_FFFF_FFFF_0000 ≤ dw 0 → ends 3 (some 0)) ∧
      (dw 0 < 0x00FF_FFFF_FFFF_0000 → 0x00FF_FFFF_FFFF_0000 ≤ dw 1 → ends 3 (some 8)) ∧
      (dw 0 < 0x00FF_FFFF_FFFF_0000 → dw 1 < 0x00FF_FFFF_FFFF_0000 →
        (two = true → 2 ^ 32 < dw 3 → ends 3 (some 24)) ∧
        ((two = true → dw 3 ≤ 2 ^ 32) → k.count = 0 ∨ (two = true ∧ dw 3 = 0) → ends 0 (some 0)) ∧
        ((two = true → dw 3 ≤ 2 ^ 32) → k.count ≠ 0 → (two = true → dw 3 ≠ 0) →
          ∃ t r, exec (.commandBegin (.queue c q)) s = .next t ∧ getF (t.core c).queues q = .cmd k (.copy r) st false :: rest ∧
            r.src = dw 0 ∧ r.dst = dw 1 ∧ r.rowBytes = (if two then dw 3 else k.count.toNat) ∧ r.rows = (if two then k.count.toNat else 1) ∧
            r.srcPitch = (if two then (l.getD 4 0).toInt else 0) ∧ r.dstPitch = (if two then (l.getD 5 0).toInt else 0) ∧
            r.got = [] ∧ r.done = [])))) ∧
  (∀ (c : Fin 64) (s u : State) (k : Command) (r : Fin 16) (rest : List CfgRun) (l : List Word), Clocked s (dieOf c) →
    (s.core c).cfg = { cmd := k } :: rest → s.ownRegion c = some r → 2 ≤ k.count.toNat → k.count.toNat ≤ 2 ^ 24 →
    s.regionQuiet (dieOf c) r = true → (s.region (dieOf c) r).portable = false →
    s.cmdDwords c k.asid k.user (k.base.toNat / 8) ((k.count.toNat + 1) / 2) = .ok (l, u) →
    let q := u.streamImage (dieOf c) r (some k.part) ((s.region (dieOf c) r).frame.rewriteLoaded (u.heldOpcode (dieOf c) r) []
      (imageWords l k.count.toNat))
    ∃ t run, exec (.commandBegin (.config c)) s = .next t ∧ (t.core c).cfg = run :: rest ∧
      (q.1 = none → (t.core c).staged = true ∧ run.ended = some { code := 0, info := k.count.toNat }) ∧
      (∀ i, q.1 = some i → (t.core c).staged = false ∧ run.ended = some { code := 5, info := Nat.min i (k.count.toNat - 1) }))

/-- R99, R189, R190, R202, R205, R214. A command with nothing left but its status writes the dword of R190 at its place, and once no
write of its party is on its way its tag falls. A collective is matched when every rank of its group has begun its next one, in the
order of issue: it takes the rank's count of its group as its index, and equal parameters let its data move, others end every rank
with code 6. -/
def Obligations.CommandsCompleteAndMatch : Prop :=
  (∀ (a : ElemAt) (s : State) (r : StreamRun) (st : CmdStatus) (pa : Nat), Clocked s a.die → (s.elem a).se.cur = some r →
    r.finished = some st → st.written = false → st.openInfo = false → r.withheld = false → r.writes = [] →
    (r.cmd.op.isLoad = true → (s.elem a).frozen = false) →
    s.translate (dieOf r.cmd.core) r.cmd.asid (r.cmd.base.toNat + 16) true r.cmd.user = .ok pa → pa % 8 = 0 →
    s.isLocal (dieOf r.cmd.core) (pa / 8) = true → s.unlandedParty (.stream a) = false →
    ∃ t, exec (.commandCompletion (.engine a)) s = .next t ∧ (t.elem a).se.cur = none ∧ TagFalls s t r.cmd.core r.cmd.tag ∧
      ∀ x, t.byte x = if pa ≤ x ∧ x < pa + 8 then valueByte (statusWord st.code r.ovf r.poison st.flags st.info) (x - pa) else s.byte x) ∧
  (∀ (c : Fin 64) (q : QReg) (s : State) (k : Command) (run : QueueRun) (st : CmdStatus) (rest : List QItem) (pa code info : Nat),
    Clocked s (dieOf c) → getF (s.core c).queues q = .cmd k run st false :: rest → st.written = false → st.openInfo = false →
    (run = .ended ∧ code = st.code ∧ info = st.info) ∨
      (∃ r, run = .copy r ∧ r.done.length = r.granules.length ∧ code = 0 ∧ info = if k.op = .cpy2d then r.rows else r.rowBytes) →
    s.translate (dieOf c) k.asid (k.base.toNat + 16) true k.user = .ok pa → pa % 8 = 0 → s.isLocal (dieOf c) (pa / 8) = true →
    s.unlandedParty (.queue c q) = false →
    ∃ t, exec (.commandCompletion (.queue c q)) s = .next t ∧ (∀ it ∈ getF (t.core c).queues q, it ∈ rest) ∧ TagFalls s t c k.tag ∧
      ∀ x, t.byte x = if pa ≤ x ∧ x < pa + 8 then valueByte (statusWord code st.ovf st.poison st.flags info) (x - pa) else s.byte x) ∧
  (∀ (c : Fin 64) (s : State) (run : CfgRun) (rest : List CfgRun) (st : CmdStatus) (pa : Nat), Clocked s (dieOf c) →
    (s.core c).cfg = run :: rest → run.ended = some st → st.written = false → st.openInfo = false → run.withheld = false →
    s.translate (dieOf c) run.cmd.asid (run.cmd.base - 8).toNat true run.cmd.user = .ok pa → pa % 8 = 0 →
    s.isLocal (dieOf c) (pa / 8) = true → s.unlandedParty (.config c) = false →
    ∃ t, exec (.commandCompletion (.config c)) s = .next t ∧ (t.core c).cfg = rest ∧ TagFalls s t c run.cmd.tag ∧
      ∀ x, t.byte x = if pa ≤ x ∧ x < pa + 8 then valueByte (statusWord st.code st.ovf st.poison st.flags st.info) (x - pa) else s.byte x) ∧
  (∀ (group : Nat) (remote : List RemoteRank) (s : State) (q : Fin 64 → QReg) (k : Fin 64 → Command) (r : Fin 64 → CollRun)
    (st : Fin 64 → CmdStatus) (rest : Fin 64 → List QItem), s.localRanks group ≠ [] → ((s.localRanks group).map (·.2)).Nodup →
    (∀ x ∈ s.localRanks group, NextCollective s x.2 group (q x.2) (k x.2) (r x.2) (st x.2) (rest x.2)) →
    (∀ n, n < s.groupSize group → (∀ x ∈ s.localRanks group, x.1 ≠ n) → ∃ y ∈ remote, y.rank = n) →
    let params (x : Nat × Fin 64) : Nat := collParams (k x.2) (r x.2)
    let agree : Prop := (∀ x ∈ s.localRanks group, ∀ y ∈ s.localRanks group, params x = params y) ∧
      ∀ y ∈ remote, y.rank < s.groupSize group → (∀ x ∈ s.localRanks group, x.1 ≠ y.rank) →
        ∀ x ∈ s.localRanks group, y.params = params x + 2 ^ 54 * s.groupDigest group
    ∃ t, exec (.collectiveMatch group remote) s = .next t ∧ MemorySame s t ∧
      (∀ c, (∀ x ∈ s.localRanks group, x.2 ≠ c) → t.core c = s.core c) ∧
      ∀ x ∈ s.localRanks group, let c := x.2
        Map.get 0 group (t.core c).collCount = Map.get 0 group (s.core c).collCount + 1 ∧
        (∀ p, p ≠ q c → getF (t.core c).queues p = getF (s.core c).queues p) ∧
        (agree → getF (t.core c).queues (q c) = .cmd (k c) (.coll (matchedRun s c (r c) remote)) (st c) false :: rest c) ∧
        (¬ agree → ∃ e, getF (t.core c).queues (q c) = .cmd (k c) .ended e false :: rest c ∧ e.code = 6)) ∧
  (∀ (group : Nat) (remote : List RemoteRank) (s : State) (x : Nat × Fin 64), x ∈ s.localRanks group →
    (∀ p k r, headColl (getF (s.core x.2).queues p) = some (k, r) → r.group = group → r.matched = true) →
    exec (.collectiveMatch group remote) s = .next s)

/-- R104 to R107, R109, R111. Moves of the board. A read of a stream's row, of a copy or of a fabric element takes the granule that R104
gives. A store performs under R105. The head of a path lands, joins its landing port, or is gathered once no row of the path waits
in a port; a port lands its lowest row, and keeps one whose page is not present; a release performs when every marker is gathered and
leaves its parties only paths of writes that have not landed (log 114); a pending atomic performs once no write of its core to the line is under way, with
the effect that the instruction would have.
That the bytes which a partial write leaves out of a remote granule come from its home copy (log 28), and that a refused landing row is
kept and marked (log 127), are the model's readings. -/
def Obligations.BoardMovesTakeEffect : Prop :=
  (∀ (a : ElemAt) (g pa : Nat) (s : State) (r : StreamRun), Clocked s a.die → (s.elem a).se.cur = some r → r.withheld = false →
    g ∈ r.todo → r.cmd.op.isLoad = true → (s.elem a).se.hold ≠ .stopped → (∀ x ∈ (s.elem a).se.outq, x.hdr.kind ≠ 2) →
    Reaches s a r.cmd.asid g false r.cmd.user pa → s.isLocal a.die (pa / 8) = true → s.marked.contains (pa / 8) = false →
    let r' : StreamRun := { r with got := r.got ++ [(g, s.home (pa / 8))] }
    ∃ t, exec (.readPerform (.stream a g)) s = .next t ∧ MemorySame s t ∧
      (r'.needs true ≠ [] → ∃ x, (t.elem a).se.cur = some x ∧ x.got = r'.got ∧ x.todo = r'.needs true ∧ (t.elem a).se.outq = (s.elem a).se.outq) ∧
      (r'.needs true = [] → (t.elem a).se.outq = (s.elem a).se.outq ++ { r' with todo := [] }.rowTokens (s.elem a) (s.taskAt a) ∧
        (t.elem a).se.issued = (s.elem a).se.issued + 1)) ∧
  (∀ (a : ElemAt) (n g pa : Nat) (s : State) (p : FabAccess), Clocked s a.die → (s.elem a).pend[n]? = some p → p.withheld = false →
    p.dropped = false → g ∈ p.todo →
    (p.mt = false → Reaches s a p.asid g false true pa → s.cachedRange a g = none → s.isLocal a.die (pa / 8) = true →
      s.marked.contains (pa / 8) = false → ∃ t, exec (.readPerform (.fabric a n g)) s = .next t ∧ MemorySame s t ∧
        (t.elem a).pend = (s.elem a).pend.set n { p with todo := p.todo.filter (· ≠ g), got := p.got ++ [(g, s.home (pa / 8))], faulted := false }) ∧
    (p.mt = true → s.mtMarked.contains (mtFirst p.bank + g) = false → ∃ t, exec (.readPerform (.fabric a n g)) s = .next t ∧
      MemorySame s t ∧ (t.elem a).pend = (s.elem a).pend.set n
        { p with todo := p.todo.filter (· ≠ g), got := p.got ++ [(g, s.mtGranule (mtFirst p.bank + g))], faulted := false }) ∧
    (p.mt = false → NotReached s a p.asid g false true → ∃ t, exec (.readPerform (.fabric a n g)) s = .next t ∧ MemorySame s t ∧
      (t.elem a).pend = (s.elem a).pend.set n { p with withheld := true, faulted := true })) ∧
  (∀ (c : Fin 64) (q : QReg) (row g pa : Nat) (s : State) (k : Command) (r : CopyRun) (st : CmdStatus) (rest : List QItem),
    Clocked s (dieOf c) → getF (s.core c).queues q = .cmd k (.copy r) st false :: rest → row < r.rows →
    inSpan (spanOf (r.srcRow row) r.rowBytes) g = true → (∀ v, (row, g, v) ∉ r.got) →
    s.translate (dieOf c) k.asid (8 * g) false k.user = .ok pa → s.isLocal (dieOf c) (pa / 8) = true → s.marked.contains (pa / 8) = false →
    ∃ t, exec (.readPerform (.queue c q row g)) s = .next t ∧ MemorySame s t ∧
      getF (t.core c).queues q = .cmd k (.copy { r with got := r.got ++ [(row, g, s.home (pa / 8))] }) { st with faulted := false } false :: rest) ∧
  (∀ (c : Fin 64) (path : Nat) (s : State) (w : GWrite) (rest : List OrderItem), Clocked s (dieOf c) →
    (s.core c).order = .store w :: rest → OrderSettled { s.core c with order := rest } →
    s.unlandedLine (.core c) (w.granule / 8) = false →
    ∃ t, exec (.writePerform (.core c) path) s = .next t ∧ (t.core c).order = rest ∧
      WritePerforms s t (.core c) (dieOf c) w (.write (.core c) w)) ∧
  (∀ (p : PathId) (s : State), s.pathUp p = true →
    (∀ by' w rest, s.pathItems p = .write by' w :: rest →
      ∃ t, exec (.pathHead p) s = .next t ∧ t.pathItems p = rest ∧ HomeWritten s t w ∧ t.landing = s.landing) ∧
    (∀ a n w rest, s.pathItems p = .row a n w :: rest →
      ∃ t, exec (.pathHead p) s = .next t ∧ t.pathItems p = rest ∧ (∀ x, t.byte x = s.byte x) ∧
        t.landingAt { dst := p.dst, stream := a } = s.landingAt { dst := p.dst, stream := a } ++ [(n, p, w)]) ∧
    (∀ id rest, s.pathItems p = .marker id :: rest →
      (s.rowsOnPort p = true → exec (.pathHead p) s = .next s) ∧
      (s.rowsOnPort p = false → ∃ t, exec (.pathHead p) s = .next t ∧ t.pathItems p = rest ∧
        ∀ r, s.release? id = some r → t.release? id = some { r with waiting := r.waiting.erase p }))) ∧
  (∀ (l : LandingId) (n : Nat) (q : PathId) (w : GWrite) (s : State), s.landingAt l = [(n, q, w)] → s.rowDue l n = true →
    (l, n) ∉ s.rowFaults →
    ((s.homeOf (8 * w.granule)).isSome = true →
      ∃ t, exec (.landingPortLand l ⟨w.granule, false⟩) s = .next t ∧ t.landingAt l = [] ∧ HomeWritten s t w) ∧
    ((s.homeOf (8 * w.granule)).isNone = true ∨ (∃ m, l.dst = .module m) → ∃ t, exec (.landingPortLand l ⟨w.granule, true⟩) s = .next t ∧
      t.landingAt l = [(n, q, w)] ∧ (l, n) ∈ t.rowFaults ∧ ∀ a, t.byte a = s.byte a)) ∧
  (∀ (id : Nat) (s : State) (r : Release) (c : Fin 64) (tag : Tag), s.release? id = some r → r.who = .flm c tag →
    (r.sent = true → r.waiting = [] → ∃ t, exec (.releasePerform id) s = .next t ∧ t.release? id = none ∧ TagFalls s t c tag ∧
      ∀ p ∈ r.parties, ∀ q ∈ t.partyPaths p, s.unlandedOn p q = true) ∧
    (r.sent = false → s.rowsPerformed r = true → ∀ p q, p ∈ r.parties → q ∈ s.partyPaths p →
      ∃ t, exec (.releasePerform id) s = .next t ∧ .marker id ∈ t.pathItems q ∧
        ∀ x, t.release? id = some x → x.sent = true ∧ q ∈ x.waiting)) ∧
  (∀ row ∈ amoRows, ∀ (o : Amo) (c : Fin 64) (s : State) (pa : Nat), Clocked s (dieOf c) →
    (s.core c).amo = some { op := row.1 o, ready := true } → (s.core c).run = .running → (s.core c).order = [] →
    let u : State := { s with cur := c }
    let old := leBytes s.byte pa (amoBytes o)
    OnBoard u (u.rd o.a) (amoBytes o) true pa → s.marked.contains (pa / 8) = false → u.atomicTarget (u.rd o.a).toNat = false →
    s.unlandedLine (.core c) (pa / 64) = false →
    ∃ t, exec (row.1 o) u = .next t ∧ exec (.atomicPerform c) s = .next { t with cur := s.cur } ∧ t.me.amo = none ∧
      t.rd o.d = (if o.d = 0 then 0 else signExt (amoBytes o) old) ∧ (∀ r, r ≠ o.d → t.rd r = u.rd r) ∧ t.me.pc = nextWord u ∧
      match row.2 (amoBytes o) old ((u.rd o.b).toNat % 256 ^ amoBytes o) ((u.rd o.d).toNat % 256 ^ amoBytes o) with
        | some v => HomeBytesSet s t pa (amoBytes o) (BitVec.ofNat 64 v)
        | none => ∀ x, t.byte x = s.byte x)

/-- R104, R107. A read of a granule that is homed on the reader's die or on the host returns the home copy; of a remote granule with an RDC
copy, that copy; without one, the home copy, and every granule of the 64-byte line whose copy is absent takes its home copy while
the others keep theirs. A copy with no unlanded write from its die may be dropped; one with such a write stays. -/
def Obligations.RdcFillsAbsentCopiesAndDropsLandedOnes : Prop :=
  ∀ (d : Fin 4) (g : Nat) (s : State),
    (s.isLocal d g = true → s.readGranule d g = (s.home g, s)) ∧
    (∀ v, s.isLocal d g = false → s.rdcOf d g = some v → s.readGranule d g = (v, s)) ∧
    (s.isLocal d g = false → s.rdcOf d g = none → ∃ u, s.readGranule d g = (s.home g, u) ∧ MemorySame s u ∧
      (∀ e, e ≠ d → u.die e = s.die e) ∧
      ((s.die d).rdc.length + 8 ≤ rdcCap → ∀ h, u.rdcOf d h = if h / 8 = g / 8 then some ((s.rdcOf d h).getD (s.home h)) else s.rdcOf d h)) ∧
    (s.unlanded d g = true → exec (.rdcDrop d g) s = .next s) ∧
    (s.unlanded d g = false → ∃ t, exec (.rdcDrop d g) s = .next t ∧ t.rdcOf d g = none ∧ (∀ h, h ≠ g → t.rdcOf d h = s.rdcOf d h) ∧
      (∀ e, e ≠ d → t.die e = s.die e) ∧ MemorySame s t)

/-! ### Firings and lane elements (spec/02, spec/08) -/

/-- R52 to R57. An element that may not fire stays as it is. One that fires takes the header of R53; poison at a required head goes to
every output with its origin record; a predicate head without predicate traps, recording the operands of the lowest live position; a
skipped firing puts a null on every output. The heads are consumed at their rates in each case.
What the record of an illegal operation holds is the model's choice (log 116). -/
def Obligations.FiringRule : Prop :=
  ∀ row ∈ fireRows, ∀ (s : State),
    let e := s.fe
    let h := firingHeader s row.2.2
    (s.canFire s.focus row.2.1 = false → exec row.1 s = .next s) ∧
    (s.canFire s.focus row.2.1 = true → e.cancels = [] →
      HeaderOf e (e.dataIns row.2.2) h ∧
      (∀ p, e.poisonHead = some p → exec row.1 s =
        .next (emits s row.2.2 (copies (e.outRate 0) (poisonTok h p)) (copies (e.outRate 1) (poisonTok h p)))) ∧
      (∀ t, e.poisonHead = none → e.code = 1 ∨ e.code = 2 → e.head? e.predFin = some t → t.hdr.pvalid = false →
        exec row.1 s = .next (trapsElement s row.2.2 (e.illegalInfo h row.2.2))) ∧
      (e.poisonHead = none → PredicateSkips e row.2.2 → exec row.1 s =
        .next (emits s row.2.2 (copies (e.outRate 0) (nullTok h)) (copies (e.outRate 1) (nullTok h)))))

/-- R50, R51, R57, R58, R61, R393. The tokens that a firing emits stand last where its enabled outputs put them (the wire of a local edge,
the crossing stage of a static one, the network for a dynamic one), but for the first ones of an output, one for each cancel that stands
there for the itag; the element takes its new state and the die counts the firing. -/
def Obligations.FiringEmitsOnItsEdges : Prop :=
  ∀ (s : State) (a : ElemAt) (itag : BitVec 8) (e' : Elem) (o0 o1 : List Token), e'.cancels = [] →
    e'.fields = (s.elem a).fields →
    let u := s.setElem a e'
    let t := s.emitFired a itag e' o0 o1
    (t.die a.die).fires = (s.die a.die).fires + 1 ∧ t.cores = s.cores ∧ MemorySame s t ∧
    (t.elem a).inq = e'.inq ∧ (t.elem a).cancels = [] ∧
    (∀ o : Fin 2, ∀ b i, (s.elem a).outOn o.val = true → s.dest a o.val = some (b, i) →
      (∀ p : Fin 2, p ≠ o → (s.elem a).outOn p.val = false ∨ s.dest a p.val ≠ some (b, i)) → InFabric b →
      (∀ c j, s.dest a 0 = some (c, j) ∨ s.dest a 1 = some (c, j) → InFabric c) → InFabric a →
      sendPlace t a o.val (b, i) = sendPlace u a o.val (b, i) ++ (if o = 0 then o0 else o1).drop (CancelsAt (s.elem a) itag o)) ∧
    ((∀ o : Fin 2, (s.elem a).outOn o.val = false ∨ (if o = 0 then o0 else o1).length ≤ CancelsAt (s.elem a) itag o) →
      t.elems = u.elems ∧ t.stages = u.stages ∧ ∀ d, (t.die d).packets = (u.die d).packets)

/-- R74, R220, R221, R224 to R229, R233. The W64 opcodes, special functions and W64 conversions complete: the result of every live
position is the table's, masked positions are zero, and the header is R53's. A NaN result from operands that are none traps with
nantrap at its lowest position; else the range guard traps at its lowest.
That an opcode of one result sends the same token on each enabled output is the model's choice (log 29). -/
def Obligations.FloatLanesComplete : Prop :=
  (∀ row ∈ floatRows, ∀ (s : State), Performs s row.2.1 row.2.2.1 →
    let e := s.fe
    let h := firingHeader s row.2.2.1
    let ops (j : Nat) := laneOperands e 0 row.2.2.1 j
    let info (c : ElemCause) (j : Nat) : TrapInfo :=
      { cause := c, lane := j, d1 := ((ops j).getD []).getD 0 0, d2 := ((ops j).getD []).getD 1 0, d3 := ((ops j).getD []).getD 2 0 }
    ((∀ j, j < 8 → ¬ NanAt e row.2.2.1 row.2.2.2 j ∧ ¬ GuardAt e row.2.2.1 row.2.2.2 j) →
      ∃ t, exec row.1 s = .next (emits s row.2.2.1 [t] [t]) ∧ t.hdr = h ∧ HoldsImages t 0 fun j => (ops j).map (row.2.2.2 e)) ∧
    (∀ j, j < 8 → NanAt e row.2.2.1 row.2.2.2 j → (∀ k, k < j → ¬ NanAt e row.2.2.1 row.2.2.2 k) →
      exec row.1 s = .next (trapsElement s row.2.2.1 (info .nan j))) ∧
    (∀ j, j < 8 → (∀ k, k < 8 → ¬ NanAt e row.2.2.1 row.2.2.2 k) → GuardAt e row.2.2.1 row.2.2.2 j →
      (∀ k, k < j → ¬ GuardAt e row.2.2.1 row.2.2.2 k) → exec row.1 s = .next (trapsElement s row.2.2.1 (info .guard j)))) ∧
  (∀ row ∈ laneCompareRows, ∀ (s : State), Performs s row.2.1 2 →
    let e := s.fe
    let res (j : Nat) : Option Bool := (laneOperands e 0 2 j).map fun l => row.2.2 (opX l) (opY l)
    ∃ t, exec row.1 s = .next (emits s 2 [t] [t]) ∧
      t.hdr = { firingHeader s 2 with pvalid := true, pbit := t.hdr.pbit } ∧
      (t.hdr.pbit = true ↔ if (e.const 15).testBit 17 then (∃ j, j < 8 ∧ res j = some true) else ∀ j, j < 8 → res j ≠ some false) ∧
      HoldsImages t 0 fun j => (res j).map fun b => if b then BitVec.allOnes 64 else 0)

/-- R229. The exact results of the special functions at infinities and zeros, for NaNs, and at the powers of two that the table names, at
every level and in every rounding mode. -/
def Obligations.SpecialFunctionsExactResults : Prop :=
  (∀ row ∈ specialRows, ∀ (level : Nat) (rm : RM) (n : Nat), specialFn row.1 level rm n row.2.1 = row.2.2) ∧
  (∀ (k level : Nat) (rm : RM) (n : Nat) (w : Word), isNaN w = true → specialFn k level rm n w = canonicalNaN) ∧
  (∀ (i : Int) (level : Nat) (rm : RM) (n : Nat),
    (i ≠ 0 → -4094 ≤ i → i ≤ 4095 → specialFn 0 level rm n (wOfInt i) = wImage false (i + 4095).toNat (2 ^ 49)) ∧
    (-4094 ≤ i → i ≤ 4095 → specialFn 1 level rm n (wImage false (i + 4095).toNat (2 ^ 49)) = wOfInt i) ∧
    (∀ b, -4094 ≤ i → i ≤ 4094 → specialFn 2 level rm n (wImage b (i + 4095).toNat (2 ^ 49)) = wImage b (4095 - i).toNat (2 ^ 49)) ∧
    (-2047 ≤ i → i ≤ 2047 → specialFn 3 level rm n (wImage false (2 * i + 4095).toNat (2 ^ 49)) = wImage false (4095 - i).toNat (2 ^ 49)) ∧
    (18 ≤ i → i ≤ 2 ^ 40 → specialFn 4 level rm n (wOfInt i) = wOne false ∧ specialFn 4 level rm n (wOfInt (-i)) = wOne true) ∧
    (40 ≤ i → i ≤ 2 ^ 40 → specialFn 5 level rm n (wOfInt i) = wOne false) ∧
    (2838 < i → i ≤ 2 ^ 40 → specialFn 5 level rm n (wOfInt (-i)) = 0))

/-- R230 to R233, R86. Integer, bit and conversion lanes complete with the table's results: carry forms over groups of limbs with their
carry tokens on output 1, products, bit logic and shifts at the layout of c15, and conversions between 32-bit lanes and W64.
That an opcode of one result sends the same token on each enabled output is the model's choice (log 29). -/
def Obligations.IntegerBitAndConversionLanesComplete : Prop :=
  (∀ row ∈ carryRows, ∀ (s : State), Performs s row.2.1 row.2.2.1 →
    let e := s.fe
    let h := firingHeader s row.2.2.1
    let g := e.const 15 / 2 ^ 11 % 16 + 1
    ∃ r c, exec row.1 s = .next (emits s row.2.2.1 [r] [c]) ∧
      HoldsPositions r h 1 (fun j => if j < g * (16 / g) then
        (carryResult e row.2.2.1 row.2.2.2 (j / g)).map fun x => BitVec.ofNat 64 (x.1 / 2 ^ (32 * (j % g)) % 2 ^ 32) else none) ∧
      HoldsPositions c h 1 (fun t => if t < 16 / g then (carryResult e row.2.2.1 row.2.2.2 t).map fun x => BitVec.ofNat 64 x.2 else none)) ∧
  (∀ (s : State), Performs s 0x0C4 2 → ∃ t, exec .iMullo s = .next (emits s 2 [t] [t]) ∧ t.hdr = firingHeader s 2 ∧
    HoldsImages t 1 fun j => (laneOperands s.fe 1 2 j).map fun l => BitVec.ofNat 64 ((opX l).toNat * (opY l).toNat % 2 ^ 32)) ∧
  (∀ (s : State), Performs s 0x0C5 2 → ∃ t, exec .iMulhi s = .next (emits s 2 [t] [t]) ∧ t.hdr = firingHeader s 2 ∧
    let sgn := (s.fe.const 15).testBit 15
    HoldsImages t 1 fun j => (laneOperands s.fe 1 2 j).map fun l =>
      BitVec.ofInt 64 (int32 sgn (opX l).toNat * int32 sgn (opY l).toNat / 2 ^ 32)) ∧
  (∀ row ∈ bitRows, ∀ (s : State) (lay : Nat), s.fe.const 15 / 2 ^ 6 % 4 = lay → lay < 3 → Performs s row.2.1 row.2.2.1 →
    ∃ t, exec row.1 s = .next (emits s row.2.2.1 [t] [t]) ∧ t.hdr = firingHeader s row.2.2.1 ∧
      HoldsImages t lay fun j => (laneOperands s.fe lay row.2.2.1 j).map fun l =>
        BitVec.ofNat 64 (row.2.2.2 (posWidth lay) (opX l).toNat (opY l).toNat)) ∧
  (∀ row ∈ [(Instr.cvtWS32, 0x140, true), (.cvtWU32, 0x141, false)], ∀ (s : State), Performs s row.2.1 1 →
    let e := s.fe
    let res (j : Nat) : Option Word :=
      (laneOperand e 1 0 (8 * (e.const 15 / 2 ^ 16 % 2) + j)).map fun v => wOfInt (int32 row.2.2 v.toNat)
    (∀ j, j < 8 → ∀ v, res j = some v → e.guards v = false) →
    ∃ t, exec row.1 s = .next (emits s 1 [t] [t]) ∧ HoldsPositions t (firingHeader s 1) 0 res) ∧
  (∀ row ∈ [(Instr.cvtS32W, 0x142, true), (.cvtU32W, 0x143, false)], ∀ (s : State), Performs s row.2.1 1 →
    let e := s.fe
    let lo := 8 * (e.const 15 / 2 ^ 16 % 2)
    (∀ j, j < 8 → ∀ v, laneOperand e 0 0 j = some v → e.guards v = false) →
    ∃ t, exec row.1 s = .next (emits s 1 [t] [t]) ∧
      HoldsPositions t (firingHeader s 1) 1 fun j => if lo ≤ j ∧ j < lo + 8 then
        (laneOperand e 0 0 (j - lo)).map fun v => BitVec.ofNat 64 (encodeInt row.2.2 32 (valOf v) e.rm).1 else none)

/-- R90, R234 to R236. Lane movement, reduction and packing complete: each output position carries its source with its live bit; a
reduction follows the tree over its live values; vpack closes up the selected live positions and counts them; vunpack spreads
positions over the selected ones.
That an opcode of one result sends the same token on each enabled output is the model's choice (log 29). -/
def Obligations.MovementReductionPackingComplete : Prop :=
  (∀ row ∈ moveRows, ∀ (s : State) (lay : Nat), s.fe.const 15 / 2 ^ 6 % 4 = lay → lay < 3 → Performs s row.2.1 row.2.2.1 →
    s.fe.const 15 / 2 ^ 18 % 64 < posCount lay → (∀ i, i < 7 → s.fe.const i < 2 ^ 64) →
    ∃ t, exec row.1 s = .next (emits s row.2.2.1 [t] [t]) ∧
      HoldsPositions t (firingHeader s row.2.2.1) lay (row.2.2.2 s.fe (posCount lay) (laneOperand s.fe lay 0) (secondInput s.fe lay))) ∧
  (∀ row ∈ reduceRows, ∀ (s : State), Performs s row.2.1 1 →
    let e := s.fe
    let res := treeOf (row.2.2.1 e) (laneOperand e 0 0)
    (e.nantrap = false ∨ ∀ v, res = some v → isNaN v = true → ∃ j x, j < 8 ∧ laneOperand e 0 0 j = some x ∧ isNaN x = true) →
    (∀ v, res = some v → e.guards v = false) →
    ∃ t, exec row.1 s = .next (emits s 1 [t] [t]) ∧
      HoldsPositions t (firingHeader s 1) 0 fun j => if j = 0 then (match res with
        | some v => some v
        | none => row.2.2.2) else none) ∧
  (∀ (s : State) (lay : Nat), s.fe.const 15 / 2 ^ 6 % 4 = lay → lay < 3 →
    let e := s.fe
    let x (j : Nat) := laneOperand e lay 0 j
    (Performs s 0x187 2 →
      let kept := (List.range (posCount lay)).filter fun j => selected e lay j && (x j).isSome
      ∃ t c, exec .vpack s = .next (emits s 2 [t] [c]) ∧
        HoldsPositions t (firingHeader s 2) lay (fun i => (kept[i]?).bind x) ∧
        HoldsPositions c (firingHeader s 2) 1 fun j => if j = 0 then some (BitVec.ofNat 64 kept.length) else none) ∧
    (Performs s 0x188 2 →
      ∃ t, exec .vunpack s = .next (emits s 2 [t] [t]) ∧
        HoldsPositions t (firingHeader s 2) lay fun j =>
          if selected e lay j then x ((List.range j).filter (selected e lay)).length else none))

/-! ### Accumulation, memory elements, tiles, routing and ranking (spec/08, spec/09) -/

/-- R92, R237 to R239. The five lanes of an exact-reduce chain hold A, 64 bits each. A head firing turns each live value into a piece of its
carry token and adds its 64 bits of it; a skipped one sends zero pieces; each limb adds its own bits with the carries and sends the token on; over
the whole chain A and its flags become those of R92, position 0 first. A control token that reads leaves the rounded sum at the head and
the flags at limb 4 to be sent, at the head with the token behind on every enabled output, and resets A and the flags; what is left is
sent as credits stand. Limb 4 sends the control token on when it has come down the chain. The layout of a carry token is the model's
choice (log 31), and so are the ways of the control token and the wait for credits (log 43). -/
def Obligations.ExactAccumulatorChain : Prop :=
  (∀ (s : State),
    let e := s.fe
    let h := firingHeader s 1
    s.live s.focus 0x1C0 = true → e.req 0 = true → e.headsReady = true → e.cancels = [] → e.poisonHead = none →
    s.outsReady s.focus = true → e.outq = [] →
    (∀ x, PredicateHolds e 1 → e.head? 0 = some x → exec .xacc s = .next (s.emitFired s.focus h.itag
        { e.consume with
          acc := (limbStep 0 e.acc (headPieces x.operand).1).limb, accFlags := e.accFlags ||| (headPieces x.operand).2
          accHdr := some (h.seq, h.itag) } [] [carryTok h (limbStep 0 e.acc (headPieces x.operand).1).pay])) ∧
    (PredicateSkips e 1 →
      exec .xacc s = .next (s.emitFired s.focus h.itag { e.consume with accHdr := some (h.seq, h.itag) } [] [carryTok h 0]))) ∧
  (∀ (s : State) (t : Token), s.live s.focus 0x1C1 = true → s.fe.head? 0 = some t → s.fe.calm 0 = true → t.hdr.isControl = false →
    t.hdr.kind ≠ 4 → s.outsReady s.focus = true → s.fe.outq = [] →
    let r := limbStep (s.limbNo s.focus) s.fe.acc t.pay
    exec .xaccLimb s = .next (s.emitFired s.focus t.hdr.itag
      { s.fe.drop 0 1 with acc := r.limb, accFlags := if r.wraps then s.fe.accFlags ||| 0b01001 else s.fe.accFlags } [] [carryTok t.hdr r.pay])) ∧
  (∀ (x : Token) (v : Nat → Option Word) (l0 l1 l2 l3 l4 : Word) (f f' : BitVec 5),
    (∀ j, v j = if x.hdr.kind = 1 then none else posAt 0 x j) →
    let p := headPieces x.operand
    let r0 := limbStep 0 l0 p.1
    let r1 := limbStep 1 l1 (BitVec.ofNat 512 r0.pay)
    let r2 := limbStep 2 l2 (BitVec.ofNat 512 r1.pay)
    let r3 := limbStep 3 l3 (BitVec.ofNat 512 r2.pay)
    let r4 := limbStep 4 l4 (BitVec.ofNat 512 r3.pay)
    ∃ k, XaccAddsAll { a := fiveLimbs l0 l1 l2 l3 l4, f := f ||| f' } ((List.range 8).filterMap v) k ∧
      k.a = fiveLimbs r0.limb r1.limb r2.limb r3.limb r4.limb ∧ k.f = f ||| p.2 ||| (if r4.wraps then f' ||| 0b01001 else f')) ∧
  (∀ (s : State) (t : Token),
    let e := s.fe
    let lane (k : Nat) : ElemAt := { s.focus with e := s.focus.e + k }
    s.live s.focus 0x1C0 = true → e.req 0 = true → e.head? 0 = some t → ReadsAt (e.const 15 / 2 ^ 8 % 8) t.hdr →
    (∀ i : Fin 4, e.req i.val = true → e.calm i = true ∧ ∃ u, e.head? i = some u ∧ u.hdr.kind = t.hdr.kind) → e.cancels = [] →
    e.outq = [] → (∀ k, 1 ≤ k → k ≤ 4 → s.load (lane k, 0) = 0 ∧ (s.elem (lane k)).outq = []) →
    let hd := e.accHdr.getD (0, 0)
    let a := fiveLimbs e.acc (s.elem (lane 1)).acc (s.elem (lane 2)).acc (s.elem (lane 3)).acc (s.elem (lane 4)).acc
    let fl := e.accFlags ||| (s.elem (lane 4)).accFlags
    let value : Word :=
      if fl.getLsbD 0 = true ∨ (fl.getLsbD 1 = true ∧ fl.getLsbD 2 = true) then canonicalNaN
      else if fl.getLsbD 1 then wInf false else if fl.getLsbD 2 then wInf true else roundW64 (valOfInt a.toInt (-149) false) e.rm
    let sum : Token := { hdr := { seq := hd.1, itag := hd.2, lanes := 3 }, pay := BitVec.ofNat 512 value.toNat }
    let flags : Token := { hdr := { seq := hd.1, itag := hd.2, lanes := 1 }, pay := BitVec.ofNat 512 fl.toNat }
    ∃ u e', exec .xaccRead s = .next u ∧ u.elem s.focus = e' ∧ e'.acc = 0 ∧ e'.accFlags = 0 ∧ e'.accHdr = none ∧ e'.fields = e.fields ∧
      (∀ i, getF e'.inq i = if e.req i.val then (getF e.inq i).drop 1 else getF e.inq i) ∧
      e'.outq = (if e.outOn 0 then [(0, sum), (0, t)] else []) ++ (if e.outOn 1 then [(1, t)] else []) ∧
      ∀ k, 1 ≤ k → k ≤ 4 → u.elem (lane k) = { s.elem (lane k) with
        acc := 0, accFlags := 0, accHdr := none, outq := if k = 4 ∧ (s.elem (lane k)).outOn 0 = true then [(0, flags)] else [] }) ∧
  (∀ (s : State) (o : Fin 2) (x : Token) (rest : List (Fin 2 × Token)), s.live s.focus 0x1C1 = true ∨ s.live s.focus 0x1C0 = true →
    s.fe.outq = (o, x) :: rest → (∀ y ∈ rest, y.1 = o) →
    (0 < s.credits s.focus o.val →
      exec .xaccRead s = .next ((s.setElem s.focus { s.fe with outq := rest }).send s.focus o.val x)) ∧
    (s.credits s.focus o.val = 0 → exec .xaccRead s = .next s)) ∧
  (∀ (s : State) (t : Token),
    let e := s.fe
    s.live s.focus 0x1C1 = true → e.opcode = 0x1C1 → e.req 0 = true → (∀ i : Fin 4, i ≠ 0 → e.req i.val = false) → e.head? 0 = some t →
    e.calm 0 = true → t.hdr.kind = 2 ∨ t.hdr.kind = 3 → e.cancels = [] → (∀ o, o < 2 → e.outOn o = true → 0 < s.places s.focus o) →
    (∃ o, o < 2 ∧ e.outOn o = true) →
    ∃ e', exec .controlTokenAlign s = .next (sentOn (sentOn (s.setElem s.focus e') s.focus 0 [t]) s.focus 1 [t]) ∧
      getF e'.inq 0 = (getF e.inq 0).drop 1 ∧ e'.acc = e.acc)

/-- R57, R103, R225, R241 to R245. A memory element's firing consumes its heads and adds one access, the youngest of its pending set: the places of
its live positions, the granules to read, or the granules to write with the encoded data. A position that breaks the bound traps, the
lowest first, and no access is made. The oldest access that has performed sends its row and completion token. -/
def Obligations.MemoryElementsAccessAndPerform : Prop :=
  (∀ row ∈ memRows, ∀ (s : State), MemoryReady s row.2.1 (if row.2.2.1 then 2 else 1) →
    let e := s.fe
    let a := s.focus
    let store := row.2.2.1
    let indexed := row.2.2.2
    let h := firingHeader s (if store then 2 else 1)
    (indexed = false → e.mFmt = 5 → ∀ x, laneOperand e 0 0 0 = some x → x.toNat % 8 = 0) →
    ((∀ j, j < posCount e.mLay → ¬ BreaksBound e store indexed j) →
      (store = true → e.mLay = 0 → ∀ j w, laneOperand e 0 1 j = some w → e.guards w = false) →
      ∃ p, exec row.1 s = .next (s.setElem a { e.consume with pend := e.pend ++ [p] }) ∧ p.store = store ∧ p.mt = isSq a ∧ p.hdr = h ∧
        p.heads = (e.dataIns (if store then 2 else 1)).flatMap (fun i => (getF e.inq i).take (e.inRate i.val)) ∧
        p.asid = s.taskAsid a ∧ p.bank = s.mtOf a ∧ p.dropped = false ∧ p.withheld = false ∧
        (∀ j bit, (j, bit) ∈ p.places ↔ j < posCount e.mLay ∧
          ∃ i, elementIndex e store indexed j = some i ∧ i < e.const 1 ∧ bit = e.mBit (isSq a) i.toNat) ∧
        (store = false → p.writes = [] ∧ (e.mFmt ≠ 5 → ∀ g, g ∈ p.todo ↔
          ∃ j bit, (j, bit) ∈ p.places ∧ bit / 64 ≤ g ∧ 64 * g < bit + fmtWidth e.mFmt)) ∧
        (store = true → p.todo = [] ∧ p.writes = spread (fmtWidth e.mFmt) (p.places.map fun x =>
          (x.2, (encodeImage e.mFmt e.mLay e.mSgn e.rm e.sat ((laneOperand e e.mLay 1 x.1).getD 0)).1)))) ∧
    (∀ j, j < posCount e.mLay → BreaksBound e store indexed j → (∀ k, k < j → ¬ BreaksBound e store indexed k) → e.pend = [] →
      ∃ t, t.cause = .bound ∧ t.lane = j ∧ exec row.1 s = .next
        ((s.memEmit a h.itag e.consume [poisonTok h (origin a .bound)] (poisonTok h (origin a .bound))).elemTrap a h t))) ∧
  (∀ (s : State) (p : FabAccess) (rest : List FabAccess), s.fe.pend = p :: rest → p.dropped = false → p.todo = [] → p.writes = [] →
    s.tileOn s.focus = true → (∀ o, o < 2 → s.fe.outOn o = true → s.fe.outRate o ≤ s.credits s.focus o) →
    let e := s.fe
    let e' : Elem := { e with pend := rest }
    (∀ d, p.store = true → p.heads[e.inRate 0]? = some d → exec .memoryElementPerformed s = .next (s.memEmit s.focus p.hdr.itag e'
      [{ hdr := { p.hdr with kind := 0, lanes := d.hdr.lanes }, pay := d.pay }] (completionTok p.hdr))) ∧
    (p.store = false → (∀ j w, loadPos e p j = some w →
        if e.mLay = 0 then (e.nantrap = false ∨ isNaN w = false) ∧ e.guards w = false else ¬ GuardsInteger e w.toNat) →
      ∃ t, exec .memoryElementPerformed s = .next (s.memEmit s.focus p.hdr.itag e' [t] (completionTok p.hdr)) ∧
        (e.mLay < 3 → HoldsPositions t p.hdr e.mLay (loadPos e p))))

/-- R250 to R253, R114. Tile memory. A rows token stores its eight values and fills the slot with its last row; an address token starts a
fill. The fill pins each line of the tile within its slice's room, reads it whole in one move, and makes the slot full with the
decoded elements once every line is read. A drain sends row by row, live within the grants, and ends the slot empty or open. -/
def Obligations.TilesFillAndDrain : Prop :=
  (∀ (a : ElemAt) (i : Fin 4) (s : State) (b : Binding) (t : Token) (rest : List Token), s.isTm a = true →
    (s.elem a).binding i.val = some b → getF (s.elem a).inq i = t :: rest → (s.elem a).calm i = true →
    t.hdr.kind = 0 ∨ t.hdr.kind = 1 →
    let old := s.slotAt a b.slot
    let v (p : Nat) : Option Word := if t.hdr.kind = 1 then none else posAt 0 t p
    (b.rows = true → old.tag = .filling ∨ old.tag = .empty ∨ (old.tag = .full ∧ b.keep = true) →
      (∀ p w, v p = some w → fitsKind b.kind w = true) →
      let n := if old.tag = .filling then old.taken else 0
      ∃ u, exec (.tslot a i) s = .next u ∧ getF (u.elem a).inq i = rest ∧
        (u.slotAt a b.slot).tag = (if b.m * b.n / 8 ≤ n + 1 then .full else .filling) ∧
        ∀ k, Map.get 0 k (u.slotAt a b.slot).data =
          if k / 8 = n then (v (k % 8)).getD 0 else if old.tag = .filling then Map.get 0 k old.data else 0) ∧
    (b.rows = false → old.tag = .empty ∨ (old.tag = .full ∧ b.keep = true) → (v 0).isSome = true → (v 1).isSome = true →
      ∃ u, exec (.tslot a i) s = .next u ∧ getF (u.elem a).inq i = rest ∧ (u.slotAt a b.slot).tag = .filling ∧
        (u.slotAt a b.slot).addr = some t)) ∧
  (∀ (a : ElemAt) (i : Fin 4) (s : State) (b : Binding) (t : Token), s.isTm a = true → (s.elem a).binding i.val = some b →
    (s.slotAt a b.slot).tag = .filling → (s.slotAt a b.slot).addr = some t →
    let sl := s.slotAt a b.slot
    (∀ line, line ∈ tileLines b t → (∀ l, (line, l) ∉ sl.pins) → line ∉ sl.withheld →
      (∀ pa, s.translateBy (.tile a.die a.x a.y) (s.taskAsid a) (64 * line) false true = .ok pa →
        s.pinnedIn a.die (Config.sliceOf (pa / 64)) * 64 < 2 ^ 20 →
        exec (.tfuPin a i line) s = .next (s.setSlotAt a b.slot { sl with pins := sl.pins ++ [(line, pa / 64)] })) ∧
      (∀ pa, s.translateBy (.tile a.die a.x a.y) (s.taskAsid a) (64 * line) false true = .ok pa →
        2 ^ 20 ≤ s.pinnedIn a.die (Config.sliceOf (pa / 64)) * 64 → exec (.tfuPin a i line) s = .next s)) ∧
    (∀ line l, sl.pins = [(line, l)] → sl.snaps = [] →
      (∀ k, k < 8 → s.isLocal a.die (8 * l + k) = true ∧ s.marked.contains (8 * l + k) = false) →
      exec (.tfuSnapshot a i line) s =
        .next (s.setSlotAt a b.slot { sl with snaps := [(line, (List.range 8).map fun k => s.home (8 * l + k))] })) ∧
    ((∀ line, line ∈ tileLines b t → ∃ l, (line, l) ∈ sl.snaps) →
      ∃ u, exec (.tileFillComplete a i) s = .next u ∧ (u.slotAt a b.slot).tag = .full ∧ (u.slotAt a b.slot).addr = none ∧
        let got := sl.snaps.flatMap fun l => (List.range 8).map fun k => (8 * l.1 + k, l.2.getD k 0)
        ∀ r c, r < b.m → c < b.n → Map.get 0 (r * b.n + c) (u.slotAt a b.slot).data =
          decodeImage b.fmt 0 true (if b.fmt = 5 then gatherBits 8 got (tileScale t r c) else 127)
            (gatherBits (fmtWidth b.fmt) got (tileBit b t r c)))) ∧
  (∀ (s : State) (d : Drain) (w : Word), s.live s.focus 0x242 = true → s.fe.drain = some d → s.fe.shape = some w →
    (s.slotAt s.focus d.slot).tag = .full → (s.slotAt s.focus d.slot).bad = false → s.fe.outOn 0 = true → 0 < s.credits s.focus 0 →
    let sl := s.slotAt s.focus d.slot
    let r := sl.taken / (d.cols / 8)
    let c := sl.taken % (d.cols / 8)
    ∃ t sl', exec .tdrain s = .next ((s.setSlotAt s.focus d.slot sl').send s.focus 0 t) ∧
      HoldsPositions t { seq := sl.step.1, itag := sl.step.2 } 0 (fun p =>
        if d.mo + r < shapePart w 0 ∧ d.no + 8 * c + p < shapePart w 16 then some (Map.get 0 (64 * r + 8 * c + p) sl.data) else none) ∧
      (sl.taken + 1 ≠ d.rows * d.cols / 8 → sl' = { sl with taken := sl.taken + 1 }) ∧
      (sl.taken + 1 = d.rows * d.cols / 8 → sl'.taken = 0 ∧ sl'.tag = if d.keep = true ∧ sl.reset = false then .opened else .empty))

/-- R255 to R258, R252, R89. A firing of a pass adds, to each live output of its destination, the group sums of its k range, and mrec
multiplies the state by γ first at the pass's first firing. It consumes its slots, sends one token whose pbit says that the destination
became full, and counts itself; the last firing of a pass with LAST makes the destination full.
That positions of the tail of k which the lane mask leaves out add nothing is the model's reading (log 117). -/
def Obligations.MatrixPassAccumulates : Prop :=
  ∀ row ∈ [(Instr.mma, 0x240, false), (.mrec, 0x241, true)], ∀ (s : State) (w : Word),
    let e := s.fe
    let a := s.focus
    let c := e.mma
    let ar := if row.2.2 then 2 else 1
    let k := shapePart w 32
    let dst : Fin 8 := ⟨4 + c.j % 4, by omega⟩
    let kind := w.toNat / 2 ^ 51 % 8
    Performs s row.2.1 ar → NoTraps e → e.shape = some w → 1 ≤ kind → kind ≤ 3 →
    (s.slotAt a c.a).tag = .full → (s.slotAt a c.b).tag = .full → (s.slotAt a c.a).kind + 1 = kind → (s.slotAt a c.b).kind + 1 = kind →
    (s.slotAt a c.a).bad = false → (s.slotAt a c.b).bad = false → (s.slotAt a dst).bad = false → (s.slotAt a dst).taken = 0 →
    (s.slotAt a dst).tag = .empty ∨ ((s.slotAt a dst).tag = .opened ∧ (0 < e.pass ∨ c.acc = true ∨ (s.slotAt a dst).kept = true)) →
    c.a ≠ c.b → c.a ≠ dst → c.b ≠ dst → e.req 0 = true →
    let h := firingHeader s ar
    let n := Nat.min ((e.pass + 1) * c.kt) k - e.pass * c.kt
    let final := decide ((k + c.kt - 1) / c.kt ≤ e.pass + 1)
    let old (x : Nat) : Word := if (s.slotAt a dst).tag = .empty then 0 else Map.get 0 x (s.slotAt a dst).data
    let gamma : Word := (laneOperand e 0 0 0).getD 0x3FFE_0000_0000_0000
    let start (x : Nat) : Word := if row.2.2 = true ∧ e.pass = 0 then roundW64 (mulVal (valOf gamma) (valOf (old x))) e.rm else old x
    ∃ t o1, exec row.1 s = .next (t.emitFired a h.itag { e.consume with pass := if final then 0 else e.pass + 1 }
        [{ hdr := { h with kind := 0, lanes := 0, pvalid := true, pbit := final && c.last }, pay := 0 }] o1) ∧
      { t with tiles := s.tiles } = s ∧ (row.2.2 = false → o1 = []) ∧
      (∀ f, row.2.2 = true → e.head? 1 = some f → f.hdr.kind = 0 → ∃ x, o1 = [x] ∧ x.hdr = f.hdr ∧ ∀ j, j < 8 →
        posImage 0 x.pay j = if j = 0 ∧ e.pass = 0 ∧ posAt 0 f 0 ≠ none then
          roundW64 (mulVal (valOf (posImage 0 f.pay 0)) (valOf gamma)) e.rm else posImage 0 f.pay j) ∧
      Consumed s t a c.a ∧ Consumed s t a c.b ∧ (t.slotAt a dst).tag = (if final = true ∧ c.last = true then .full else .opened) ∧
      (t.slotAt a dst).step = (h.seq, h.itag) ∧
      ∀ i j, i < c.mt → j < c.nt → Map.get 0 (64 * i + j) (t.slotAt a dst).data =
        if c.mo + i < shapePart w 0 ∧ c.no + j < shapePart w 16 then
          matrixSum e.rm (start (64 * i + j)) ((List.range n).map fun x =>
            (Map.get 0 (i * s.slotCols a c.a + x) (s.slotAt a c.a).data, Map.get 0 (j * s.slotCols a c.b + x) (s.slotAt a c.b).data)) n
        else old (64 * i + j)

/-- R59, R261 to R266, R268. Routing opcodes: fork, join and gate pass heads on; a sink takes any token; steer follows the predicate, and
a loop exit restores the itag; merge emits in order of seq; merge.rr serves its inputs in turn, and at a loop entry gives the next
itag; early joins settle as their opcode says and take back the inputs that have no head; cfwd keeps the best candidates.
The same token on both outputs of an opcode of one result (log 29), the settling of early joins (log 52) and the records of illegal
operations (log 116) are the model's choices. -/
def Obligations.RoutingOpcodesComplete : Prop :=
  (∀ (s : State),
    (∀ l x, Performs s 0x280 1 → s.fe.req 0 = true → getF s.fe.inq 0 = x :: l → x.hdr.kind ≠ 1 → exec .fork s = .next (emits s 1 [x] [x])) ∧
    (∀ l x l' y, Performs s 0x281 4 → s.fe.req 0 = true → s.fe.req 1 = true → getF s.fe.inq 0 = x :: l → getF s.fe.inq 1 = y :: l' →
      x.hdr.kind ≠ 1 → y.hdr.kind ≠ 1 → exec .join s = .next (emits s 4 [x] [y])) ∧
    (∀ l x, Performs s 0x289 1 → s.fe.req 0 = true → getF s.fe.inq 0 = x :: l → x.hdr.kind ≠ 1 → exec .gate s = .next (emits s 1 [x] [])) ∧
    (∀ t, s.live s.focus 0x28A = true → s.fe.calm 0 = true → s.fe.head? 0 = some t → t.hdr.kind ≠ 2 → t.hdr.kind ≠ 3 →
      exec .sink s = .next (((s.setElem s.focus (s.fe.drop 0 1)).countFire s.focus.die).endMiss s.focus 0 t.hdr true))) ∧
  (∀ (s : State) (d p : Token), s.live s.focus 0x285 = true → s.fe.calm 0 = true → s.fe.calm 1 = true → s.fe.head? 0 = some d →
    s.fe.head? 1 = some p → d.hdr.isControl = false → p.hdr.isControl = false → d.hdr.kind ≠ 4 → p.hdr.kind ≠ 4 → s.fe.heldTb = [] →
    let a := s.focus
    let taken := (s.setElem a ((s.fe.drop 0 1).drop 1 1)).countFire a.die
    let d' : Token := if p.hdr.miss = 0 then d else { d with hdr := { d.hdr with miss := p.hdr.miss } }
    (p.hdr.pvalid = true → ∀ o : Fin 2, o.val = (if p.hdr.pbit then 1 else 0) → (s.fe.outOn o.val = false ∨ 0 < s.credits a o.val) →
      (s.fe.policy ≠ 3 ∨ o = 1 → exec .steer s = .next (taken.send a o.val d')) ∧
      (s.fe.opcode = 0x285 → s.fe.policy = 3 → o = 0 → exec .steer s = .next ((taken.freeAt a d.hdr.seq).send a 0
        { d' with hdr := { d.hdr with miss := d'.hdr.miss, itag := lookupD d.hdr.itag d.hdr.seq (s.elem { a with e := s.fe.partner }).restore } }))) ∧
    (p.hdr.pvalid = false → s.oneCredit a = true → let k := poisonTok { d.hdr with kind := 0 } (origin a .illegal)
      exec .steer s = .next ((s.emitFired a d.hdr.itag ((s.fe.drop 0 1).drop 1 1) [k] [k]).elemTrap a { d.hdr with kind := 0 }
        (illegalAt 0 { d.hdr with kind := 0 } [some d, some p])))) ∧
  (∀ (s : State), s.live s.focus 0x287 = true →
    (∀ i ∈ s.fe.routed, ∀ t, s.fe.pawn i = some t → (t.hdr.seq - s.fe.mergeNext).toNat < 32768) →
    let a := s.focus
    let e1 := s.fe.routed.foldl (fun x i => x.windowTake i) s.fe
    (∀ i t, (i, t) ∈ e1.mergeWin → i < 4 → t.hdr.seq = s.fe.mergeNext → 0 < s.credits a 0 →
      ∃ j u, (j, u) ∈ e1.mergeWin ∧ u.hdr.seq = s.fe.mergeNext ∧ j ≤ i ∧ exec .merge s =
        .next ((((s.setElem a (e1.windowEmit (j, u))).countFire a.die).send a 0 u).endMiss a ⟨j % 4, by omega⟩ u.hdr
          (decide (e1.mergeSent + 1 = e1.dup)))) ∧
    ((∀ i t, (i, t) ∈ e1.mergeWin → t.hdr.seq ≠ s.fe.mergeNext) → exec .merge s = .next (s.setElem a e1))) ∧
  (∀ (s : State) (i : Fin 4) (t : Token), s.live s.focus 0x288 = true → s.fe.inOn i.val = true → s.fe.pawn i = some t →
    (∀ j : Fin 4, s.fe.inOn j.val = true → (j.val + 7 - s.fe.rr % 4) % 4 < (i.val + 7 - s.fe.rr % 4) % 4 → s.fe.pawn j = none) →
    0 < s.credits s.focus 0 →
    (s.fe.isEntry = false → exec .mergeRr s =
      .next (((s.setElem s.focus { s.fe.drop i 1 with rr := i.val }).countFire s.focus.die).send s.focus 0 t)) ∧
    (s.fe.isEntry = true → s.fe.heldTb = [] → s.fe.restore.length < 128 → ∃ e', exec .mergeRr s =
      .next (((s.setElem s.focus e').countFire s.focus.die).send s.focus 0 { t with hdr := { t.hdr with itag := s.fe.loopNext } }) ∧
      e'.loopNext = s.fe.loopNext + 1 ∧ e'.rr = i.val ∧ e'.restore = s.fe.restore ++ if i = 0 then [(t.hdr.seq, t.hdr.itag)] else [])) ∧
  (∀ row ∈ [(Instr.ejoinAnd, 0x282, false), (.ejoinOr, 0x283, true)], ∀ (s : State), JoinReady s row.2.1 s.fe.reqIns →
    (∀ i h, i ∈ s.fe.reqIns → HeadIs s.fe i row.2.2 → (∀ j ∈ s.fe.reqIns, j < i → ¬ HeadIs s.fe j row.2.2) →
      (∃ j ∈ s.fe.reqIns, s.fe.head? j = none) → s.fe.head? i = some h →
      ∃ t e', exec row.1 s = .next (s.emitFired s.focus h.hdr.itag e' [t] [t]) ∧ IsPredicate t h.hdr row.2.2 ∧ JoinTaken s.fe e' h.hdr.itag) ∧
    (∀ j l h, s.fe.reqIns = j :: l → (∀ i ∈ s.fe.reqIns, (s.fe.head? i).isSome = true) → s.fe.head? j = some h →
      ∃ t e', exec row.1 s = .next (s.emitFired s.focus h.hdr.itag e' [t] [t]) ∧ JoinTaken s.fe e' h.hdr.itag ∧
        ((∃ i ∈ s.fe.reqIns, HeadIs s.fe i row.2.2) → IsPredicate t h.hdr row.2.2) ∧
        ((∀ i ∈ s.fe.reqIns, ¬ HeadIs s.fe i row.2.2) →
          (∀ i ∈ s.fe.reqIns, ∀ u, s.fe.head? i = some u → u.hdr.kind ≠ 1) → IsPredicate t h.hdr (!row.2.2)))) ∧
  (∀ (s : State) (h c : Token), JoinReady s 0x284 [0] → s.fe.req 0 = true → s.fe.head? 0 = some h → h.hdr.kind = 0 →
    let i : Fin 4 := if h.hdr.pbit then 1 else 2
    s.fe.req i.val = true → s.fe.head? i = some c →
    ∃ e', exec .ejoinSel s = .next (s.emitFired s.focus h.hdr.itag e' [{ c with hdr := { c.hdr with seq := h.hdr.seq, itag := h.hdr.itag } }]
        [{ c with hdr := { c.hdr with seq := h.hdr.seq, itag := h.hdr.itag } }]) ∧ JoinTaken s.fe e' h.hdr.itag) ∧
  (∀ (s : State), Performs s 0x2C0 2 → (∀ i j w, s.fe.req i.val = true → laneOperand s.fe 0 i j = some w → j % 2 = 1 → (idOf w).isSome = true) →
    s.fe.inRate 0 = 1 → s.fe.inRate 1 = 1 →
    let cands : List Cand := ([0, 1].filter fun i : Fin 4 => s.fe.req i.val).flatMap fun i => (List.range 4).filterMap fun q =>
      (laneOperand s.fe 0 i (2 * q)).bind fun sc => (laneOperand s.fe 0 i (2 * q + 1)).bind fun im =>
        (idOf im).map fun n => { score := sc, id := n, src := i.val, idImage := im }
    ∃ (t : Token) (best : List Cand), exec .cfwd s = .next (emits s 2 [t] [t]) ∧ (∃ l, (best ++ l).Perm cands ∧ ∀ p ∈ best, ∀ q ∈ l, candLe p q = true) ∧
      best.length = Nat.min (s.fe.const 0 % 4 + 1) cands.length ∧ best.Pairwise (fun p q => candLe p q = true) ∧
      HoldsPositions t (firingHeader s 2) 0 fun p => (best[p / 2]?).map fun c => if p % 2 = 0 then c.score else c.idImage)

/-- R15, R24, R48 to R51, R54, R60 to R64, R259. Movement. A token of a local edge enters its queue. A link takes the head of a channel
across to the queue that ends the channel, or into the next tile's crossing stage; a packet of the network moves one router nearer and
leaves at its tile; a malformed token enters as poison with a trap (that the poison names element 15 is the model's choice, log 109).
The head of a FIFO channel goes on; a delay node passes its oldest token on. A takeback annihilates the head of its itag, goes on
upstream where there is none, traps where another head stands, and reaches the element as a cancel. A control token that stands at
every input goes out on every output.
That a packet moves one router in each move, along a way named with it, is the model's choice (log 110). -/
def Obligations.TokensAndTakebacksMove : Prop :=
  (∀ (a : ElemAt) (i : Fin 4) (s : State) (t : Token) (rest : List Token), getF (s.elem a).wire i = t :: rest → s.tileOn a = true →
    getF (s.elem a).tbWire i = [] → (s.elem a).cancels = [] → ¬ CoreReads s (a, i) →
    let e := s.elem a
    exec (.tokenCrossing (.arrive a i)) s =
      .next (s.setElem a { e with wire := setF e.wire i rest, inq := setF e.inq i (getF e.inq i ++ [t]) })) ∧
  (∀ (d : Fin 4) (x y nx ny c : Nat) (v : Fin 4) (s : State) (t : Token) (rest : List Token), s.clockOn d = true →
    s.gateOpen d x y = true → (dirOf v.val).go x y = some (nx, ny) → c < 4 → s.stageAt (stageKey d x y (dirOf v.val) c) = t :: rest →
    (∀ j, j < 4 → j ≠ c → s.stageAt (stageKey d x y (dirOf v.val) j) = []) → s.gateOpen d nx ny = true → s.power d nx ny = 0 →
    s.linkOpen d x y nx ny (dirOf v.val) c = true →
    (∀ p, s.staticEnd d nx ny (dirOf v.val).opp c = some p → Enters s p →
      ∃ u, exec (.tokenCrossing (.grant d x y v)) s = .next u ∧ Entered s u p t { die := d, x := nx, y := ny, e := 15 } ∧
        u.stageAt (stageKey d x y (dirOf v.val) c) = rest) ∧
    (∀ way, s.staticEnd d nx ny (dirOf v.val).opp c = none → s.passOut d nx ny (dirOf v.val) c = some way →
      (s.stageAt (stageKey d nx ny way c)).length < 2 → t.hdr.kind ≠ 7 → t.hdr.reserved = 0 →
      ∃ u, exec (.tokenCrossing (.grant d x y v)) s = .next u ∧ u.stageAt (stageKey d x y (dirOf v.val) c) = rest ∧
        u.stageAt (stageKey d nx ny way c) = s.stageAt (stageKey d nx ny way c) ++ [{ t with hdr := { t.hdr with refused := false } }] ∧
        u.elems = s.elems)) ∧
  (∀ (d v : Fin 4) (s : State) (k : NetPacket) (rest : List NetPacket), s.clockOn d = true → s.packetsOf d = k :: rest →
    (∀ nx ny, dirOf v.val ∈ k.ways → (dirOf v.val).go k.x k.y = some (nx, ny) →
      exec (.tokenCrossing (.hop d 0 v)) s = .next (s.setPackets d ({ k with x := nx, y := ny } :: rest))) ∧
    (k.dest.die = d → k.x = k.dest.x → k.y = k.dest.y → s.gateOpen d k.x k.y = true → s.power d k.x k.y = 0 →
      Enters s (k.dest, k.input) →
      ∃ u, exec (.tokenCrossing (.hop d 0 v)) s = .next u ∧ Entered s u (k.dest, k.input) k.tok { k.dest with e := 15 } ∧
        u.packetsOf d = rest)) ∧
  (∀ (a : ElemAt) (s : State) (t : Token) (rest : List Token), tileKind a.x a.y = .mt → a.e < 8 → s.tileOn a = true →
    (s.elem a).calm 0 = true → 0 < s.credits a 0 → getF (s.elem a).inq 0 = t :: rest → s.parkedFor a = none → s.stageQueue a = none →
    exec (.tokenCrossing (.leave a)) s = .next ((s.setElem a ((s.elem a).drop 0 1)).send a 0 t)) ∧
  (∀ (s : State), s.live s.focus 0x003 = true → s.fe.calm 0 = true → 0 < s.credits s.focus 0 → ∀ t rest, s.fe.dly = t :: rest →
    let n := s.fe.const 0 / 2 ^ 9 % 16 + 1 - s.fe.dly.length
    exec .dly s = .next ((s.setElem s.focus { s.fe.drop 0 n with dly := rest ++ (getF s.fe.inq 0).take n }).send s.focus 0 t)) ∧
  (∀ (a : ElemAt) (i : Fin 4) (s : State) (k : BitVec 8) (rest : List (BitVec 8)), getF (s.elem a).tbQueue i = k :: rest →
    s.tileOn a = true → (s.elem a).cancels = [] → (s.elem a).tbTrapped = false →
    let e := s.elem a
    let e1 : Elem := { e with tbQueue := setF e.tbQueue i rest }
    (e.head? i = none → exec (.takebackStage a i) s = .next (s.setElem a { e1 with tbWire := setF e.tbWire i (getF e.tbWire i ++ [k]) })) ∧
    (∀ t, e.head? i = some t → (t.hdr.kind = 0 ∨ t.hdr.kind = 1 ∨ t.hdr.kind = 4) → t.hdr.itag = k →
      exec (.takebackStage a i) s = .next (s.setElem a (e1.drop i 1))) ∧
    (∀ t, e.head? i = some t → (t.hdr.kind = 2 ∨ t.hdr.kind = 3 ∨ t.hdr.kind = 6 ∨ t.hdr.itag ≠ k) →
      ∃ tr, tr.cause = .takebackOrder ∧ exec (.takebackStage a i) s =
        .next ((s.setElem a { e with tbTrapped := true }).elemTrap a t.hdr tr))) ∧
  (∀ (a b : ElemAt) (o : Fin 2) (i : Fin 4) (s : State) (k : BitVec 8) (rest : List (BitVec 8)), s.dest a o.val = some (b, i) →
    InFabric a → InFabric b → a ≠ b → s.tileOn a = true → getF (s.elem b).tbWire i = k :: rest → s.transit (b, i) = [] → (s.elem a).opcode ≠ 0x003 →
    tileKind a.x a.y ≠ .mt → (s.elem a).cancellable = false → (s.elem a).cancels = [] → sideEffectFree (s.elem a).opcode = false →
    (s.elem a).opcode ≠ 0x285 → (s.elem a).opcode ≠ 0x288 →
    ∃ t, exec (.takebackAtElement a o) s = .next t ∧ getF (t.elem b).tbWire i = rest ∧
      ((s.elem a).must = false → t.elem a = { s.elem a with cancels := [(k, o)] }) ∧
      ((s.elem a).must = true → t.elem a = { s.elem a with heldTb := (s.elem a).heldTb ++ [(k, o)] })) ∧
  (∀ (s : State) (t : Token),
    let e := s.fe
    s.live s.focus e.opcode = true → (0x040 ≤ e.opcode ∧ e.opcode ≤ 0x188 ∨ e.opcode = 0x280 ∨ e.opcode = 0x281) → e.cancels = [] →
    t.hdr.kind = 2 ∨ t.hdr.kind = 3 ∨ t.hdr.kind = 6 → (∃ i : Fin 4, e.req i.val = true) →
    (∀ i : Fin 4, e.req i.val = true → e.calm i = true ∧ ∃ u, e.head? i = some u ∧ u.hdr.kind = t.hdr.kind) →
    (∀ i : Fin 4, e.req i.val = true → (∀ j : Fin 4, j < i → e.req j.val = false) → e.head? i = some t) →
    (∀ o, o < 2 → e.outOn o = true → 0 < s.credits s.focus o) → (∃ o, o < 2 ∧ e.outOn o = true) →
    ∃ e', exec .controlTokenAlign s = .next (sentOn (sentOn (s.setElem s.focus e') s.focus 0 [t]) s.focus 1 [t]) ∧
      (∀ i, getF e'.inq i = if e.req i.val then (getF e.inq i).drop 1 else getF e.inq i) ∧ e'.fields = e.fields ∧
      (t.hdr.kind = 6 → (e.field 2).testBit 3 = true → t.pay.toNat / 2 ^ 48 % 8 = e.field 2 % 8 → e'.shape = some (t.pay.truncate 64)))

/-- R21, R269 to R272, R82. Ranking. rank.k gathers its vector and asks a ladder once it is whole; the ladder answers with the ranks of
the largest values and the count of NaNs; the reply leaves as rank tokens and a count token. rank.apply adds the attended rows of W to
its destination row; rkval rebuilds a vector from its ranks; cbdec decodes each index into eight weights. The grain of a request at
its consumers is the model's reading (log 33). -/
def Obligations.RankingAndCodebookComplete : Prop :=
  (∀ (s : State) (w : Word) (t : Token), s.live s.focus 0x2C1 = true → s.fe.shape = some w → w.toNat / 2 ^ 51 % 8 = 4 → s.fe.asked = false →
    s.fe.reply = none → s.fe.outq = [] → s.fe.head? 0 = some t → t.hdr.isControl = false → s.fe.calm 0 = true → s.outsReady s.focus = true →
    let len := shapePart w 0
    let e' : Elem := { s.fe.drop 0 1 with run := s.fe.run ++ [t] }
    (s.fe.run.length + 1 < (len + 7) / 8 → exec .rankK s = .next (s.setElem s.focus e')) ∧
    (s.fe.run.length + 1 = (len + 7) / 8 → s.fe.code = 0 → (∀ u ∈ s.fe.run ++ [t], u.hdr.kind ≠ 4) →
      ∃ u r, exec .rankK s = .next u ∧ u.elem s.focus = { e' with asked := true } ∧ r.who = s.focus ∧ r.tokens = s.fe.run ++ [t] ∧
        r.len = len ∧ r.cut = Nat.min (s.fe.const 1) len ∧
        ∀ l : Fin 4, getF (u.die s.focus.die).ladders l =
          getF (s.die s.focus.die).ladders l ++ if l.val = s.fe.const 0 % 4 then [r] else [])) ∧
  (∀ (d l : Fin 4) (s : State) (r : LadderReq) (rest : List LadderReq), getF (s.die d).ladders l = r :: rest → Clocked s d →
    let v (i : Nat) : Option Word := (r.tokens[i / 8]?).bind fun t => if t.hdr.kind = 1 then none else posAt 0 t (i % 8)
    ∃ u ks, exec (.ladderServe d l) s = .next u ∧ getF (u.die d).ladders l = rest ∧ IsRanking r.len r.cut v ks ∧
      (u.elem r.who).reply = some (ks, ((List.range r.len).filter fun i => ((v i).map isNaN).getD false).length)) ∧
  (∀ (s : State) (r : List Nat × Nat) (t : Token) (l : List Token) (w : Word), s.live s.focus 0x2C1 = true → s.fe.reply = some r →
    s.fe.run = t :: l → s.fe.shape = some w → w.toNat / 2 ^ 51 % 8 = 4 →
    let n := (Nat.min (s.fe.const 1) (shapePart w 0) + 15) / 16
    ∃ (toks : List Token) (count : Token), exec .rankKReply s = .next (s.answerRun s.focus { s.fe with run := [], asked := false, reply := none }
        (toks.map (fun x => (0, x)) ++ [(1, count)])) ∧ toks.length = n ∧
      (∀ k x, toks[k]? = some x → HoldsPositions x t.hdr 1 fun j => (r.1[16 * k + j]?).map (BitVec.ofNat 64)) ∧
      HoldsPositions count t.hdr 1 fun j => if j = 0 then some (BitVec.ofNat 64 r.1.length) else
        if j = 1 then some (BitVec.ofNat 64 r.2) else none) ∧
  (∀ (s : State) (count : Token), RequestWhole s 0x2C2 count → NoTraps s.fe →
    let e := s.fe
    let c := e.applyCfg
    let dst : Fin 8 := ⟨4 + c.j % 4, by omega⟩
    let d := s.slotAt s.focus dst
    let idx := runIndices e.run
    (s.slotAt s.focus c.w).tag = .full → (s.slotAt s.focus c.att).tag = .full → d.taken = 0 →
    d.tag = .empty ∨ (d.tag = .opened ∧ ((e.field 10).testBit 3 = true ∨ d.kept = true)) → c.w ≠ dst → c.att ≠ dst → c.w ≠ c.att →
    (∀ x ∈ idx, (x.2.2 + 1) * c.n ≤ s.slotSize s.focus c.w) →
    ∃ u, exec .rankApply s = .next u ∧ (u.elem s.focus).run = [] ∧ getF (u.elem s.focus).inq 1 = (getF e.inq 1).drop 1 ∧
      Consumed s u s.focus c.w ∧ Consumed s u s.focus c.att ∧
      (u.slotAt s.focus dst).tag = (if (e.field 10).testBit 4 then .full else .opened) ∧
      ∀ k, k < c.n → Map.get 0 (64 * c.row + k) (u.slotAt s.focus dst).data =
        idx.foldl (fun y x => roundW64 (addVal (mulVal (valOf (Map.get 0 x.1 (s.slotAt s.focus c.att).data))
          (valOf (Map.get 0 (x.2.2 * c.n + k) (s.slotAt s.focus c.w).data))) (valOf y) e.rm) e.rm)
          (if d.tag = .empty then 0 else Map.get 0 (64 * c.row + k) d.data)) ∧
  (∀ (s : State) (count : Token) (w : Word), RequestWhole s 0x2C3 count → NoTraps s.fe → s.outsReady s.focus = true → s.fe.outq = [] → s.fe.shape = some w →
    w.toNat / 2 ^ 51 % 8 = 4 →
    let e := s.fe
    let k : Fin 8 := ⟨e.const 0 % 8, by omega⟩
    let len := shapePart w 0
    let idx := runIndices e.run
    (s.slotAt s.focus k).tag = .full → (∀ x ∈ idx, x.2.2 < len ∧ x.1 < s.slotSize s.focus k) →
    ∃ (toks : List Token) (u : State) (e' : Elem), exec .rkval s = .next (u.answerRun s.focus e' (toks.map fun x => (0, x))) ∧ e'.run = [] ∧ Consumed s u s.focus k ∧
      toks.length = (len + 7) / 8 ∧
      ∀ n x, toks[n]? = some x → HoldsPositions x { (e.run.headD count).hdr with kind := 0 } 0 fun p =>
        if 8 * n + p < len then some (match idx.reverse.find? fun i => i.2.2 == 8 * n + p with
          | some i => Map.get 0 i.1 (s.slotAt s.focus k).data
          | none => BitVec.ofNat 64 (e.const 1)) else none) ∧
  (∀ (s : State) (t : Token), s.live s.focus 0x300 = true → s.fe.outq = [] → s.fe.req 0 = true → s.fe.headsReady = true →
    s.outsReady s.focus = true → s.fe.poisonHead = none → PredicateHolds s.fe 1 → NoTraps s.fe → s.fe.head? 0 = some t → t.hdr.kind ≠ 1 →
    ∃ toks : List Token, exec .cbdec s = .next (s.answerRun s.focus s.fe.consume (toks.map fun x => (0, x))) ∧ toks.length = 16 ∧
      ∀ j x, toks[j]? = some x → HoldsPositions x (firingHeader s 1) 0 fun p => (posAt 1 t j).map fun l =>
        cb2Weight (l.toNat % 256) (l.toNat / 2 ^ 16 % 1024) (s.tableEntry s.focus (l.toNat % 2 ^ 16 / 256)) p)

/-! ### The expert table (spec/21) -/

/-- R267, R308, R364 to R373. The expert table enables from an image without errors and reports the first error; it disables once
at rest, with its live states written back; ERTSTAT clears on read; an update reloads an absent entry. A fetch enters its port's
queue, the spinner gives it a slot, the older fetch of a class first, it completes with its window written, its rows referenced and its
generation counted, and not while its source fails; a failed source is reported once. A steer.ert sends probes, the table answers them and the rows follow; a release returns a
reference; a parked row replays after its fetch; a passed miss budget is reported once.
The record of a probe whose answer is illegal is the model's choice (log 116). -/
def Obligations.ExpertTableEvents : Prop :=
  (∀ (s : State) (i : Nat) (e : ErtEntry), s.ert.en = false → ImageHolds s i e → e.state = 0 →
    (e.pages * 4096 ≤ (s.imageClass e.cls.val).1.bytes → ∃ t, exec .ertEnable s = .next t ∧ t.ert.en = true ∧ t.ert.entries = [(i, e)] ∧
      (∀ c, getF t.ert.classes c = (s.imageClass c.val).1) ∧ MemorySame s t) ∧
    ((s.imageClass e.cls.val).1.bytes < e.pages * 4096 →
      exec .ertEnable s = .next (s.setErt { s.ert with err := 4, errIndex := i }))) ∧
  (∀ s : State, s.ert.en = true → exec .ertDisable s = .next (s.setErt { s.ert with disabling := true })) ∧
  (∀ (s : State) (i : Nat) (e : ErtEntry), s.ert.en = true → s.ert.disabling = true → s.ert.entries = [(i, e)] → e.v = true →
    (∀ c, (getF s.ert.classes c).v = false) → s.ert.base.toNat % 64 = 0 → s.ert.base.toNat + 2 ^ 21 < 2 ^ 37 → i < 16384 →
    (s.ert.atRest = true → ∃ t, exec .ertDisableComplete s = .next t ∧ t.ert.en = false ∧ t.ert.disabling = false ∧ t.ert.entries = [] ∧
      DwordSet s t (s.ert.base.toNat + 64 * i + 32) (ertStatus e)) ∧
    (e.refcnt ≠ 0 ∨ e.parked ≠ 0 ∨ e.state = 1 → exec .ertDisableComplete s = .next s)) ∧
  (∀ s : State, exec .ertstatRead s = .next { s with
    ert := { s.ert with err := 0, errIndex := 0 }
    hostOut := [BitVec.ofNat 64 ((if s.ert.disabling then 1 else 0) + s.ert.err % 256 * 2 ^ 8 + s.ert.errIndex % 2 ^ 14 * 2 ^ 16)] }) ∧
  (∀ (i : Fin 16384) (s : State), s.ert.en = true →
    ((s.imageEntry i.val).1.state ≠ 0 → exec (.ertUpdate i) s = .next (s.setErt { s.ert with err := 5, errIndex := i.val })) ∧
    ((s.imageEntry i.val).1.state = 0 → (s.imageEntry i.val).1.v = false → (s.ert.entry i.val).v = false ∨ (s.ert.entry i.val).state = 0 →
      ∃ t, exec (.ertUpdate i) s = .next t ∧ t.ert.entry i.val = {} ∧ MemorySame s t ∧
        ∀ j, j ≠ i.val → { t.ert.entry j with swept := false } = { s.ert.entry j with swept := false }) ∧
    (∀ e, s.imageEntry i.val = (e, false) → e.state = 0 → e.v = true → (s.ert.entry i.val).state = 0 → e.pages ≠ 0 →
      (∀ x ∈ s.ert.entries, x.1 ≠ i.val → x.2.v = false) → (∀ c, (getF s.ert.classes c).v = decide (c = e.cls)) →
      e.pages * 4096 ≤ (getF s.ert.classes e.cls).bytes →
      ∃ t, exec (.ertUpdate i) s = .next t ∧ t.ert.entry i.val = { e with gen := (s.ert.entry i.val).gen } ∧ t.ert.err = s.ert.err ∧ MemorySame s t)) ∧
  (∀ (p : Fin 2) (s : State) (i : Nat) (l : List Nat), Clocked s 0 → s.ert.wanting = i :: l → s.portOf i = p → (getF s.ert.queue p).length < 64 →
    exec (.fetchQueueEnter p) s = .next (s.setErt { s.ert with wanting := l, queue := setF s.ert.queue p (getF s.ert.queue p ++ [i]) })) ∧
  (∀ (i : Fin 16384) (s : State), Fetching s i →
    let e := s.ert.entry i.val
    let c := getF s.ert.classes e.cls
    let moved : Ert := { s.ert with classes := setF s.ert.classes e.cls { c with hand := (c.hand + 1) % c.count } }
    e.hasSlot = false → e.swept = false → (¬ SweepsFirst s i → exec (.spinner i) s = .next s) ∧ (SweepsFirst s i →
    (e.cls, c.hand) ∉ s.ert.freeing →
    (s.ert.occupant e.cls c.hand = none →
      exec (.spinner i) s = .next ((s.setErt moved).editEntry i.val fun e => { e with hasSlot := true, slot := c.hand, steps := 0 })) ∧
    (∀ j o, s.ert.occupant e.cls c.hand = some (j, o) → o.state = 2 → o.refcnt = 0 → o.parked = 0 → o.use = false →
      exec (.spinner i) s =
        .next (((s.setErt moved).evictEntry j).editEntry i.val fun e => { e with hasSlot := true, slot := c.hand, steps := 0 })) ∧
    (∀ j o, s.ert.occupant e.cls c.hand = some (j, o) → o.state = 2 → o.refcnt ≠ 0 ∨ o.parked ≠ 0 ∨ o.use = true →
      let u : State := s.setErt (moved.setEntry j { o with use := false })
      (e.steps + 1 < c.limit → exec (.spinner i) s = .next (u.editEntry i.val fun e => { e with steps := e.steps + 1 })) ∧
      (c.limit ≤ e.steps + 1 → e.told = false → exec (.spinner i) s = .next ((u.editEntry i.val
        fun e => { e with steps := 0, swept := true, told := true }).report (eventRec 14 0 0 e.cls.val 0 0 (BitVec.ofNat 64 i.val))))) ∧
    (∀ j o, s.ert.occupant e.cls c.hand = some (j, o) → o.state = 3 → e.steps + 1 < c.limit →
      exec (.spinner i) s = .next ((s.setErt moved).editEntry i.val fun e => { e with steps := e.steps + 1 })))) ∧
  (∀ (i : Fin 16384) (s : State), Fetching s i →
    let e := s.ert.entry i.val
    let c := getF s.ert.classes e.cls
    (¬ SourceReads s e → exec (.fetchComplete i) s = .next s) ∧ (SourceReads s e →
    e.hasSlot = true → (e.cls, e.slot) ∉ s.ert.freeing → (∀ w ∈ s.ert.waits, w.entry ≠ i.val) → s.ert.wanting = [] → memWf s.mem = true →
    e.leaf % 8 = 0 → e.leaf + 1024 ≤ 2 ^ 37 →
    ∃ t, exec (.fetchComplete i) s = .next t ∧
      t.ert.entry i.val = { e with state := 2, use := true, refcnt := e.refcnt + e.parked, parked := 0, gen := e.gen + 1, srcFailed := false
                                   evicting := false } ∧
      getF t.ert.queue (s.portOf i.val) = (getF s.ert.queue (s.portOf i.val)).erase i.val ∧ FetchLanded s t c e)) ∧
  (∀ (i : Fin 16384) (s : State), Fetching s i → (s.ert.entry i.val).hasSlot = true →
    ((s.ert.entry i.val).srcFailed = false → exec (.fetchSourceError i) s =
      .next ((s.editEntry i.val fun e => { e with srcFailed := true }).report
        (eventRec 13 0 0 (s.portOf i.val).val 0 (BitVec.ofNat 64 (s.ert.entry i.val).src) (BitVec.ofNat 64 i.val)))) ∧
    ((s.ert.entry i.val).srcFailed = true → exec (.fetchSourceError i) s = .next s)) ∧
  (∀ (s : State) (t : Token), s.fe.pawn 0 = some t → s.live s.focus 0x286 = true → t.hdr.kind ≠ 4 → s.fe.probes.length < 8 →
    s.outsReady s.focus = true → exec .steerErt s = .next (s.setElem s.focus { s.fe.drop 0 1 with probes := s.fe.probes ++ [{ row := t }] })) ∧
  (∀ (s : State) (p : Probe) (rest : List Probe), s.fe.probes = p :: rest → p.answer = 0 →
    let key := s.ert.find (s.fe.const 0 / 2 ^ 16 % 2 ^ 16) (s.fe.const 0 % 2 ^ 16)
    let row (miss : Nat) : Token := { p.row with hdr := { p.row.hdr with miss := max p.row.hdr.miss miss } }
    let answer (n gen miss : Nat) : State := s.setElem s.focus { s.fe with probes := { p with answer := n, gen, row := row miss } :: rest }
    (key = none → exec .steerProbe s = .next (answer 3 0 0)) ∧
    (∀ i, key = some i →
      (2 ≤ (s.ert.entry i).state.val → (s.ert.entry i).evicting = false → exec .steerProbe s =
        .next ((answer 1 (s.ert.entry i).gen 1).editEntry i fun n => { n with refcnt := n.refcnt + 1, use := true })) ∧
      ((s.ert.entry i).state = 1 → exec .steerProbe s =
        .next ((({ answer 2 (s.ert.entry i).gen (s.nextId + 2) with nextId := s.nextId + 1 } : State).editEntry i
          fun n => { n with parked := n.parked + 1 }).noteMiss s.focus p.row.hdr.seq i s.nextId)) ∧
      ((s.ert.entry i).state = 0 → ∃ t, exec .steerProbe s = .next t ∧ (t.ert.entry i).state = 1 ∧
        (t.ert.entry i).parked = (s.ert.entry i).parked + 1 ∧ (i ∈ t.ert.wanting ∨ ∃ q, i ∈ getF t.ert.queue q)))) ∧
  (∀ (s : State) (p : Probe) (rest : List Probe), s.fe.probes = p :: rest → s.live s.focus 0x286 = true →
    (∀ o, o < 2 → 0 < s.credits s.focus o) →
    let taken : State := (s.setElem s.focus { s.fe with probes := rest }).countFire s.focus.die
    let pred (b : Bool) : Header := { p.row.hdr with pvalid := true, pbit := b }
    (p.answer = 1 → (s.fe.const 0).testBit 32 = false → exec .steerErtAnswer s = .next (taken.send s.focus 0 { p.row with hdr := pred true })) ∧
    (p.answer = 1 → (s.fe.const 0).testBit 32 = true →
      exec .steerErtAnswer s = .next (taken.send s.focus 0 { hdr := { pred true with kind := 0, lanes := 0 }, pay := 0 })) ∧
    (p.answer = 2 → (s.fe.const 0).testBit 32 = false →
      exec .steerErtAnswer s = .next ((taken.send s.focus 1 { p.row with hdr := pred false }).expectRow s.focus p.gen)) ∧
    (p.answer = 2 → (s.fe.const 0).testBit 32 = true → exec .steerErtAnswer s =
      .next ((taken.send s.focus 0 { hdr := { pred false with kind := 0, lanes := 0 }, pay := 0 }).expectRow s.focus p.gen)) ∧
    (p.answer = 3 → exec .steerErtAnswer s =
      let k := poisonTok p.row.hdr (origin s.focus .illegal)
      let u : State := s.setElem s.focus { s.fe with probes := rest }
      .next ((u.emitFired s.focus p.row.hdr.itag { s.fe with probes := rest } [k] [k]).elemTrap s.focus p.row.hdr (illegalAt 0 p.row.hdr [some p.row])))) ∧
  (∀ (s : State) (t : Token) (i : Nat), s.fe.head? 1 = some t → s.live s.focus 0x286 = true → s.fe.calm 1 = true →
    s.ert.find (s.fe.const 0 / 2 ^ 16 % 2 ^ 16) (s.fe.const 0 % 2 ^ 16) = some i →
    (t.hdr.kind = 0 ∨ t.hdr.kind = 1 → 2 ≤ (s.ert.entry i).refcnt → exec .ertRelease s =
      .next ((s.setElem s.focus (s.fe.drop 1 1)).editEntry i fun e => { e with refcnt := e.refcnt - 1 })) ∧
    (t.hdr.kind = 0 ∨ t.hdr.kind = 1 → (s.ert.entry i).refcnt = 1 → (s.ert.entry i).evicting = true → 2 ≤ (s.ert.entry i).state.val →
      (s.ert.entry i).parked = 0 → (∀ w ∈ s.ert.waits, w.entry ≠ i) →
      ∃ u, exec .ertRelease s = .next u ∧ (u.ert.entry i).state = 0 ∧ (u.ert.entry i).refcnt = 0 ∧
        u.ert.freeing = s.ert.freeing ++ [((s.ert.entry i).cls, (s.ert.entry i).slot)])) ∧
  (∀ (s : State) (t : Token) (b : ElemAt) (g i : Nat) (gs : List Nat), s.channelHead s.focus = some t → s.parkedFor s.focus = some b →
    s.fe.gens = g :: gs → (t.hdr.kind = 0 ∨ t.hdr.kind = 1) →
    s.ert.find ((s.elem b).const 0 / 2 ^ 16 % 2 ^ 16) ((s.elem b).const 0 % 2 ^ 16) = some i → s.taskAt b = none →
    exec .parkedRowReplay s = .next (if g < (s.ert.entry i).gen then (s.setElem s.focus { s.fe.drop 0 1 with gens := gs }).send s.focus 0 t else s)) ∧
  (∀ (id : BitVec 32) (i : Fin 16384) (s : State) (t : Task), s.task? id = some t → t.bounded = true → 0 < t.budget → t.budget < t.missTime →
    t.missReported = false → i.val = t.missEntry → exec (.missBudgetExceeded id i) s =
      .next ((s.setTask { t with missReported := true }).report
        (eventRec 12 t.die (regionNo t.region) (t.budget / 1000) id 0 (BitVec.ofNat 64 i.val))))

/-! ### Streams and tasks (spec/08, 18, 19) -/

/-- R117, R196, R197, R316 to R322, R343, R344, R36. A load stream emits its row and a drain stops it behind its barrier; a store stream
takes rows, barriers and the end-of-run with their effects; a resume token lets a withheld access try again. The task queue unit
refills from its spill area, selects, places and prepares a ready task, fails one that no placement fits and one that the loader
refuses; a region loads the task that waits for it and starts its core; a finished task retires. The wake watchdog reports a wait once. Placing a task in a region
that keeps its image skips the load, which the rule allows.
That a resume token lets a kept landing row try again is its reading (log 127). -/
def Obligations.StreamsAndTasksMove : Prop :=
  (∀ (s : State) (t u : Token) (rest : List Token), EnginesSettled s → s.fe.se.outq = t :: u :: rest → s.live s.focus 0x204 = true →
    isStreamEngine s.focus = true → 0 < s.credits s.focus 0 → s.fe.frozen = false → s.fe.cancels = [] →
    (s.fe.se.hold = .free → exec .streamRowEmit s =
      .next ((s.setElem s.focus { s.fe with eor := s.fe.eor || t.hdr.kind == 3, se := { s.fe.se with outq := u :: rest } }).send s.focus 0 t)) ∧
    (∀ l, s.fe.se.hold = .draining l → t.hdr.kind = 3 → exec .streamRowEmit s =
      .next ((s.setElem s.focus { s.fe with eor := true, se := { s.fe.se with outq := u :: rest, hold := .stopped } }).send s.focus 0 t)) ∧
    (∀ l, s.fe.se.hold = .draining l → t.hdr.kind = 2 → l ≤ t.hdr.seq.toNat % 8 → exec .streamRowEmit s =
      .next ((s.setElem s.focus { s.fe with se := { s.fe.se with outq := u :: rest, hold := .stopped } }).send s.focus 0 t)) ∧
    (∀ v r, s.fe.se.hold = .upTo v → s.fe.se.cur = some r → t.hdr.kind = 2 → exec .streamRowEmit s =
      .next ((s.setElem s.focus { s.fe with se := { s.fe.se with
        outq := u :: rest, hold := if r.w + r.row / s.fe.seRate = v then .stopped else .upTo v } }).send s.focus 0 t)) ∧
    (s.fe.se.hold = .stopped → exec .streamRowEmit s = .next s)) ∧
  (∀ (s : State) (r : StreamRun) (t : Token), StoreTakes s r t → r.fmt ≠ 5 → r.blockData = false →
    (t.hdr.kind = 0 ∨ t.hdr.kind = 1 ∨ t.hdr.kind = 4 → ∃ u r', exec .storeStreamTake s = .next u ∧ StoreTook s u r' ∧ r'.row = r.row + 1 ∧
      (u.elem s.focus).se.issued = s.fe.se.issued + 1 ∧ r'.poison = (r.poison || decide (t.hdr.kind = 4)) ∧
      r'.writes = r.writes ++ (if t.hdr.kind = 0 then (r.rowWrites s.fe t).1.map fun x => (s.fe.se.issued, x) else []) ∧
      r'.finished = (if r.count = r.row + 1 then some (if r.truncated then { code := 1, info := r.requested } else { code := 0, info := r.count })
        else none)) ∧
    (t.hdr.kind = 3 → ∃ u r', exec .storeStreamTake s = .next u ∧ StoreTook s u r' ∧ (u.elem s.focus).eor = true ∧ r'.writes = r.writes ∧
      r'.finished = some (if t.hdr.seq.getLsbD 0 then { code := 1, info := r.row } else if r.truncated then { code := 1, info := r.requested }
        else { code := if r.count = 0 then 0 else 2, info := r.row })) ∧
    (t.hdr.kind = 2 → ∃ u, exec .storeStreamTake s = .next u ∧ StoreTook s u r ∧
      (u.elem s.focus).reached = some (max (s.fe.reached.getD 0) (t.hdr.seq.toNat % 8)))) ∧
  (∀ (s : State) (n : Nat), s.fe.resumes = n + 1 → tileKind s.focus.x s.focus.y ≠ .ct ∨ s.focus.e ≠ 14 →
    ∃ u, exec .resumeToken s = .next u ∧ (∀ b, ekey b ≠ ekey s.focus → u.elem b = s.elem b) ∧ u.elem s.focus = { s.fe with
      resumes := n, pend := updateFirst (fun p => p.withheld) (fun p => { p with withheld := false }) s.fe.pend
      se := { s.fe.se with cur := s.fe.se.cur.map fun r => { r with withheld := false } } } ∧
      ∀ l m, (l, m) ∈ u.rowFaults ↔ (l, m) ∈ s.rowFaults ∧ l.stream ≠ s.focus) ∧
  (∀ (s : State) (n : Nat), s.fe.resumes = n + 1 → tileKind s.focus.x s.focus.y = .ct → s.focus.e = 14 →
    ∃ u, exec .resumeToken s = .next u ∧ u.elem s.focus = { s.fe with resumes := n } ∧
      ∀ k, getF (u.tile s.focus.die s.focus.x s.focus.y).slots k =
        { getF (s.tile s.focus.die s.focus.x s.focus.y).slots k with withheld := [] }) ∧
  (∀ s : State, s.power s.focus.die s.focus.x s.focus.y = 1 ∨ s.power s.focus.die s.focus.x s.focus.y = 2 → 0 < s.waitingAt s.focus →
    s.clockOn s.focus.die = true →
    let tl := s.tile s.focus.die s.focus.x s.focus.y
    (tl.woke = true → exec .wakeWatchdog s = .next s) ∧
    (tl.woke = false → ∃ e, exec .wakeWatchdog s = .next ((s.setTile s.focus.die s.focus.x s.focus.y { tl with woke := true }).report e) ∧
      e.d0.toNat % 2 ^ 8 = 8 ∧ e.d0.toNat / 2 ^ 32 = s.waitingAt s.focus % 2 ^ 32)) ∧
  (∀ (d : Fin 4) (b : Fin 16) (s : State) (t : Task) (l : List Task), s.inBank d b.val true = t :: l → b.val ∉ (s.tquOf d).refillHeld →
    (s.inBank d b.val false).length < 256 →
    (¬ EntryLost s ((s.tquOf d).spillAt t.spillSlot) → t.predFailed = false →
      exec (.spillRefill d b) s = .next (s.setTask { t with spilled := false })) ∧
    (¬ EntryLost s ((s.tquOf d).spillAt t.spillSlot) → t.predFailed = true →
      exec (.spillRefill d b) s = .next ((s.setTask { t with spilled := false }).failTask t.id 2 0 0)) ∧
    (EntryLost s ((s.tquOf d).spillAt t.spillSlot) → exec (.spillRefill d b) s =
      .next ((s.setTqu d { s.tquOf d with refillHeld := (s.tquOf d).refillHeld ++ [b.val] }).tqError d 3 ((s.tquOf d).spillAt t.spillSlot)))) ∧
  (∀ (d : Fin 4) (s : State), exec (.tqResume d) s = .next (s.setTqu d { s.tquOf d with refillHeld := [] }) ∧
    exec (.tqerrRead d) s = .next { s.setTqu d { s.tquOf d with tqErr := 0 } with hostOut := [(s.tquOf d).tqErr] }) ∧
  (∀ (d : Fin 4) (s : State) (t : Task), OneToSelect s d t → t.bounded = false →
    (s.placeable d (s.sketch t) = false → exec (.tquSelect d) s = .next (s.failTask t.id 5 0 0)) ∧
    (s.placeable d (s.sketch t) = true → s.candidates (s.sketch t) = [] → exec (.tquSelect d) s = .next s) ∧
    (∀ c cs, s.placeable d (s.sketch t) = true → s.candidates (s.sketch t) = c :: cs →
      (∀ e, (s.placeTask t c none).prepare t = .error e →
        exec (.tquSelect d) s = .next ((s.placeTask t c none).failTask t.id 4 e 0)) ∧
      (∀ p, (s.placeTask t c none).prepare t = .ok p → c.kind ≠ 3 → exec (.tquSelect d) s = .next (s.placeTask t c none))) ∧
    (∀ p c cs r k ks, s.placeable d (s.sketch t) = true → s.candidates (s.sketch t) = c :: cs → c.kind = 1 → c.region = some r →
      s.freeCores d = k :: ks → (s.placeTask t c none).prepare t = .ok p →
      ∃ u, exec (.tquSelect d) s = .next u ∧ (u.region d r).owner = some k ∧
        (u.core (coreOf d k)).prefetch = (s.core (coreOf d k)).prefetch ++ [t.id] ∧
        ∃ t', u.task? t.id = some t' ∧ t'.st = .placing ∧ t'.region = some r ∧ t'.core = some k ∧ t'.frame = some c.frame)) ∧
  (∀ (d : Fin 4) (s : State) (f g : Task), TwoToSelect s d f g → f.bounded = false → s.placeable d (s.sketch f) = true →
    (∀ u, PlacesOpen s d f u → exec (.tquSelect d) s = .next u) ∧
    (s.candidates (s.sketch f) = [] → g.bounded = false → s.placeable d (s.sketch g) = true →
      (f.order < g.order → exec (.tquSelect d) s = .next s) ∧
      (g.order ≤ f.order → ∀ u, PlacesOpen s d g u → exec (.tquSelect d) s = .next u))) ∧
  (∀ (d : Fin 4) (s : State) (t : Task), OneToSelect s d t → t.bounded = true → s.placeable d (s.sketch t) = true →
    (s.candidates (s.sketch t) = [] → exec (.tquSelect d) s = .next s) ∧
    (s.candidates (s.sketch t) ≠ [] → (∀ c ∈ s.candidates (s.sketch t), ∀ n, IsWorstCase t c.wait (s.die d).clk n → t.bound < n) →
      exec (.tquSelect d) s = .next ((s.setDie d { s.die d with refusals := (s.die d).refusals + 1 }).failTask t.id 1 0 0)) ∧
    (∀ l c l' n, s.candidates (s.sketch t) = l ++ c :: l' → (∀ x ∈ l, ∀ m, IsWorstCase t x.wait (s.die d).clk m → t.bound < m) →
      IsWorstCase t c.wait (s.die d).clk n → n ≤ t.bound →
      let adm : Admission := { time := n, comp := (t.cf, t.cw, t.ladders) }
      (256 < ((s.tasks.filter fun u => decide (u.die = d) && u.admittedNow).map Task.share).sum + t.share →
        exec (.tquSelect d) s = .next s) ∧
      (((s.tasks.filter fun u => decide (u.die = d) && u.admittedNow).map Task.share).sum + t.share ≤ 256 → c.kind ≠ 3 →
        ∀ p, (s.placeTask t c (some adm)).prepare t = .ok p → exec (.tquSelect d) s = .next (s.placeTask t c (some adm))))) ∧
  (∀ (s : State) (t : Task) (c : Candidate) (adm : Admission) (r k : Fin 16), c.kind ≠ 2 → c.region = some r →
    (2 < c.kind → (s.region t.die r).owner = some k) → (c.kind ≤ 2 → (s.freeCores t.die).head? = some k) →
    ∃ t', (s.placeTask t c (some adm)).tasks = s.tasks.map (fun x => if x.id = t.id then t' else x) ∧ t'.st = .placing ∧
      t'.admitted = adm.time ∧ t'.slack = Int.ofNat t.bound - Int.ofNat adm.time ∧ t'.region = some r ∧ t'.core = some k) ∧
  (∀ (d : Fin 4) (s : State) (a b : Task), TwoStages s d a b →
    (b.st ≠ .ready → exec (.tquSelect d) s = .next s) ∧
    (b.st = .ready → a.first ≠ b.first ∨ a.last ≠ b.last ∨ a.widths ≠ b.widths →
      exec (.tquSelect d) s = .next ((s.failTask a.id 5 0 0).failTask b.id 5 0 0)) ∧
    (b.st = .ready → a.first = b.first → a.last = b.last → a.widths = b.widths → s.placeable d (s.sketch a) = true →
      s.placeable d (s.sketch b) = true →
      let pair (x y : Candidate) : Prop :=
        y.clash x = false ∧ (if x.kind ≤ 2 then 1 else 0) + (if y.kind ≤ 2 then 1 else 0) ≤ (s.freeCores d).length
      ((∀ x ∈ s.candidates (s.sketch a), ∀ y ∈ s.candidates (s.sketch b), ¬ pair x y) → exec (.tquSelect d) s = .next s) ∧
      (∀ p x p' q y q', s.candidates (s.sketch a) = p ++ x :: p' → s.candidates (s.sketch b) = q ++ y :: q' → pair x y →
        (∀ z ∈ p, ∀ w ∈ s.candidates (s.sketch b), ¬ pair z w) → (∀ w ∈ q, ¬ pair x w) → x.kind ≠ 3 → y.kind ≠ 3 →
        let u := (s.placeTask a x none (if y.kind = 1 then y.region.toList else [])).placeTask b y none
        (∀ e, u.prepare a = .error e → exec (.tquSelect d) s = .next ((u.failTask a.id 4 e 0).failTask b.id 4 e 0)) ∧
        (∀ n e, u.prepare a = .ok n → u.prepare b = .error e →
          exec (.tquSelect d) s = .next ((u.failTask a.id 4 e 1).failTask b.id 4 e 1)) ∧
        (∀ n m, u.prepare a = .ok n → u.prepare b = .ok m → exec (.tquSelect d) s = .next u)))) ∧
  (∀ (d : Fin 4) (r : Fin 16) (s : State) (t : Task) (c : Fin 64) (p : Prepared), s.awaiting d r = some (t, c) →
    (s.region d r).present = true → (s.region d r).task = none → (s.region d r).phase = .idle → (s.core c).task = none → s.clockOn d = true →
    (s.region d r).blocks.all (s.blockUsable d) = true → s.prepareKept t (s.core c) = .ok p →
    (s.region d r).image = some t.imageKey → (s.region d r).reflect = (t.frame.getD (s.region d r).frame).reflect → t.savedCore = none →
    ∃ u, exec (.regionLoad d r) s = .next u ∧ (u.region d r).task = some t.id ∧ (u.region d r).phase = .running ∧
      (u.region d r).committed = true ∧ (∃ t', u.task? t.id = some t' ∧ t'.st = .running ∧ t'.start = s.time) ∧
      (u.core c).run = .running ∧ (u.core c).task = some t.id ∧ (u.core c).pc = BitVec.ofNat 64 (4 * t.entry) ∧ (u.core c).status = 1 ∧
      (u.core c).asid = t.asid.zeroExtend 64 ∧ (u.core c).prio = BitVec.ofNat 64 t.prio ∧ (u.core c).wid = t.dw 2 ∧
      (u.core c).widw = t.dw 1 ∧ (∀ i, getF (u.core c).g i = 0) ∧
      (∀ a ∈ (s.region d r).engines d, (u.elem a).se.lastWid = BitVec.ofNat 64 t.first - 1) ∧
      ((s.core c).text = some t.textKey → (u.core c).code = (s.core c).code) ∧
      ((s.core c).text ≠ some t.textKey → ∀ i w, p.text[i]? = some w → Map.get (0xFFFF_FFFF : Word32) i (u.core c).code = BitVec.ofNat 32 w)) ∧
  (∀ (d : Fin 4) (r k : Fin 16) (s : State) (t : Task), s.clockOn d = true → (s.region d r).task = some t.id → s.task? t.id = some t →
    t.st = .running → (s.region d r).owner = some k → (s.region d r).phase = .running →
    let ended : Prop := if s.sinks d r = [] then (s.core (coreOf d k)).run = .halted else ∀ a ∈ s.sinks d r, (s.elem a).ended = true
    let rests : Prop := (s.core (coreOf d k)).th = false ∧ s.coreRests (coreOf d k) = true
    (ended → rests → s.edgesLeft d r = true → RegionQuiet s d r (coreOf d k) →
      ∃ u, exec (.taskRetire d r) s = .next u ∧ (u.region d r).task = none ∧ (u.region d r).phase = .idle ∧
        (u.region d r).committed = false ∧ (u.core (coreOf d k)).task = none ∧ (u.core (coreOf d k)).run = .stopped ∧
        ∀ t', u.task? t.id = some t' → t'.st = .retired) ∧
    (¬ ended ∨ ¬ rests ∨ s.edgesLeft d r = false ∨ s.workDone d r (coreOf d k) = false → exec (.taskRetire d r) s = .next s))

/-! ### The driver's commands (spec/18, 19) -/

/-- R304, R328, R334, R336 to R338, R341, R345. TASKCMD drains a running task, and every running stage of its group, when each can pay,
and gives its core the pre-emption notice as the drain begins (log 135); a lower level replaces that of a drain in progress. It freeze-saves, ends and releases a task and clears its wait for service. A drain or a
freeze-save completes with the task's context saved where the context area has room for it, and keeps the region stopped where it has
none, until a retry. A drain that times out becomes a freeze-save; a fault checkpoint stops the sources at a boundary and then the region.
A command in a state where it does not apply changes nothing.
The two moves of a fault checkpoint (log 95), that a pre-emption which cannot be paid has no effect (log 97) and the immediate end of a
region held for saving (log 98) are its readings too. -/
def Obligations.DriverCommandsTakeEffect : Prop :=
  (∀ (d : Fin 4) (r k : Fin 16) (l : Fin 8) (s : State) (t : Task), RunsIn s d r k t →
    (l.val ≤ 5 → t.group = 0 → (s.region d r).phase = .running → Affords s t → ∃ u, exec (.taskcmdDrain t.home t.id l) s = .next u ∧
      (u.region d r).phase = .draining l.val ∧ (u.region d r).task = some t.id ∧
      (∀ a ∈ s.viSources d r, (s.elem a).se.hold ≠ .stopped → (u.elem a).se.hold = .draining l.val) ∧
      (∀ a ∈ s.regionElems d r, (u.elem a).reached = none) ∧ (u.core (coreOf d k)).irq = (s.core (coreOf d k)).irq ++ [0] ∧
      u.task? t.id = some (if t.bounded then { t with slack := t.slack - Int.ofNat (PreemptionCost s t) } else t) ∧ u.mem = s.mem) ∧
    (l.val ≤ 5 → t.group ≠ 0 → (s.region d r).phase = .running → (∀ w ∈ s.tasks, ∀ w' ∈ s.tasks, w.id = w'.id → w = w') →
      (∀ w, Stage s t w → ∀ q, w.region = some q → (s.region d q).phase = .running → Affords s w) →
      ∃ u, exec (.taskcmdDrain t.home t.id l) s = .next u ∧
        ∀ w, Stage s t w → ∀ q, w.region = some q → (s.region d q).phase = .running → (u.region d q).phase = .draining l.val) ∧
    (∀ n, t.group = 0 → (s.region d r).phase = .draining n →
      (l.val < n → l.val ≤ 5 → ∃ u, exec (.taskcmdDrain t.home t.id l) s = .next u ∧ (u.region d r).phase = .draining l.val ∧
        u.tasks = s.tasks ∧ u.cores = s.cores) ∧
      (n ≤ l.val → exec (.taskcmdDrain t.home t.id l) s = .next s)) ∧
    (t.group = 0 → (s.region d r).phase = .running → ¬ Affords s t → exec (.taskcmdDrain t.home t.id l) s = .next s) ∧
    ((s.region d r).phase = .checkpoint ∨ (∃ f, (s.region d r).phase = .freezing f) ∨ (∃ f n, (s.region d r).phase = .saveHeld f n) →
      exec (.taskcmdDrain t.home t.id l) s = .next s) ∧
    (5 < l.val → exec (.taskcmdDrain t.home t.id l) s = .next s)) ∧
  (∀ (d : Fin 4) (r k : Fin 16) (s : State) (t : Task) (l : Nat), RunsIn s d r k t → t.group = 0 → (s.region d r).phase = .draining l →
    s.clockOn d = true →
    (s.regionDrained d r l = true → (s.region d r).cache = [] → ∃ u, exec (.drainComplete d r) s = .next u ∧ Saves s u d r k t .drained 1 l) ∧
    (s.regionDrained d r l = true → (s.region d r).cache ≠ [] → exec (.drainComplete d r) s = .next (s.writeBack d r)) ∧
    (s.regionDrained d r l = false → exec (.drainComplete d r) s = .next s) ∧
    (∃ u, exec (.drainTimeout d r) s = .next u ∧ FreezesRegion s u d r k 2)) ∧
  (∀ (d : Fin 4) (r k : Fin 16) (s : State) (t : Task), RunsIn s d r k t →
    ((s.region d r).phase = .running ∨ (s.region d r).phase = .checkpoint →
      (Affords s t → ∃ u, exec (.taskcmdFreezeSave t.home t.id) s = .next u ∧ FreezesRegion s u d r k 2 ∧
        u.task? t.id = some (if t.bounded then { t with slack := t.slack - Int.ofNat (PreemptionCost s t) } else t)) ∧
      (¬ Affords s t → exec (.taskcmdFreezeSave t.home t.id) s = .next s)) ∧
    (∀ l, (s.region d r).phase = .draining l →
      ∃ u, exec (.taskcmdFreezeSave t.home t.id) s = .next u ∧ FreezesRegion s u d r k 2 ∧ u.tasks = s.tasks) ∧
    ((s.region d r).phase = .idle → exec (.taskcmdFreezeSave t.home t.id) s = .next s)) ∧
  (∀ (d : Fin 4) (r k : Fin 16) (s : State) (t : Task) (form : Nat), RunsIn s d r k t → (s.region d r).phase = .freezing form →
    (s.clockOn d = true →
      ((∀ a ∈ s.regionElems d r, s.elemBusy a = false) → s.netBusy d r = false → s.flmOpen (coreOf d k) = false →
        ∃ u, exec (.freezeSaveComplete d r) s = .next u ∧
          Saves (((s.mtControls d r).foldl (fun s m => s.quiesceMt m.1 (s.regionElems d r)) s).writeBack d r) u d r k t
            (if form = 1 then .drained else .frozen) form 0) ∧
      ((∃ a ∈ s.regionElems d r, s.elemBusy a = true) → exec (.freezeSaveComplete d r) s = .next s)) ∧
    exec (.taskcmdEnd t.home t.id) s = .next (s.setTask { t with endAsked := true })) ∧
  (∀ (d : Fin 4) (r k : Fin 16) (s : State) (t : Task) (form l : Nat), RunsIn s d r k t → (s.region d r).phase = .saveHeld form l →
    s.clockOn d = true → ∃ u, exec (.contextSaveRetry d r) s = .next u ∧ Saves s u d r k t (if form = 1 then .drained else .frozen) form l) ∧
  (∀ (d : Fin 4) (r k : Fin 16) (s : State), (s.region d r).owner = some k → s.clockOn d = true →
    ((s.region d r).phase = .running → s.withholds d r = true →
      ∃ u, exec (.faultCheckpoint d r) s = .next u ∧ (u.region d r).phase = .checkpoint ∧
        (∀ a ∈ s.viSources d r, (s.elem a).se.hold ≠ .stopped → (u.elem a).se.hold = .draining 0) ∧ u.cores = s.cores) ∧
    ((s.region d r).phase = .checkpoint → s.regionStill d r = true →
      ∃ u, exec (.faultCheckpoint d r) s = .next u ∧ FreezesRegion s u d r k 3) ∧
    (∀ l, (s.region d r).phase = .draining l → s.withholds d r = true →
      ∃ u, exec (.faultCheckpoint d r) s = .next u ∧ FreezesRegion s u d r k 3) ∧
    ((s.region d r).phase = .freezing 2 → s.withholds d r = true →
      exec (.faultCheckpoint d r) s = .next (s.setRegion d r { s.region d r with phase := .freezing 3 })) ∧
    (∀ l, (s.region d r).phase = .saveHeld 2 l → s.withholds d r = true →
      exec (.faultCheckpoint d r) s = .next (s.setRegion d r { s.region d r with phase := .saveHeld 3 l })) ∧
    (s.withholds d r = false → (s.region d r).phase ≠ .checkpoint → exec (.faultCheckpoint d r) s = .next s)) ∧
  (∀ (s : State) (t : Task), s.task? t.id = some t →
    (t.region = none → exec (.taskcmdEnd t.home t.id) s = .next (s.failTask t.id 3 0 0)) ∧
    (∀ d r k, RunsIn s d r k t → t.core = some k → (∀ form, (s.region d r).phase ≠ .freezing form) →
      ∃ u, exec (.taskcmdEnd t.home t.id) s = .next u ∧ (u.region d r).task = none ∧ (u.region d r).phase = .idle ∧
        (u.region d r).committed = false ∧ (u.core (coreOf d k)).task = none ∧
        ∀ t', u.task? t.id = some t' → t'.st = .failed ∧ t'.cause = 3)) ∧
  (∀ (d : Fin 4) (r k : Fin 16) (s : State) (t : Task), RunsIn s d r k t →
    ((∃ x ∈ s.regionTiles d r, (getF (s.tile d x.1 x.2).trap 0).getLsbD 63 = true) →
      ∃ u, exec (.taskcmdRelease t.home t.id) s = .next u ∧ (∀ x ∈ s.regionTiles d r, ∀ i, getF (u.tile d x.1 x.2).trap i = 0) ∧
        (∀ a ∈ s.regionElems d r, u.elem a = { s.elem a with frozen := false }) ∧ u.cores = s.cores ∧ u.tasks = s.tasks) ∧
    ((∀ x ∈ s.regionTiles d r, (getF (s.tile d x.1 x.2).trap 0).getLsbD 63 = false) → exec (.taskcmdRelease t.home t.id) s = .next s)) ∧
  (∀ (s : State) (t : Task), s.task? t.id = some t →
    (t.st = .frozen → t.needService = true →
      exec (.taskcmdFaultServiced t.home t.id) s = .next (s.setTask { t with needService := false })) ∧
    (t.st ≠ .frozen → exec (.taskcmdFaultServiced t.home t.id) s = .next s))

/-! ### Translation, loading, management registers (spec/20, 22) -/

/-- R351, R353 to R355, R357, R363, R364, R368. A translation that a cache holds answers whatever the tables hold later. A walk reads each
entry as it stands, keeps the page that it comes to, and a fault leaves nothing. An extent answers whatever the tables hold later; one of
a page that faults withholds the accesses to it. An invalidation makes INVSTAT busy; busy clears when no cache holds what it covers, the
extents say what the tables say, and no access translated through an old entry and no older walk goes on; one that
finds it busy is lost; at the table's die the slots of its evictions free on the same terms. Load requests queue up to 16 and are served
in order, the status last, when the outputs have landed; reads of the status
registers clear what they report. When a cache walks and keeps an entry, and when an extent is patched ahead, is the model's agenda
(log 36); that an invalidation waits for stores in order buffers, pinned lines and walks is its reading (log 137), and so is that a
descriptor without a home is dropped (log 147). -/
def Obligations.InvalidationsAndLoadsComplete : Prop :=
  (∀ (s : State) (who : Asker) (asid : BitVec 13) (va : Nat) (w u : Bool) (m : List Host.Cell), Clocked s who.at' → s.tlbOf who = [] →
    s.tlbOf (.die who.at') = [] → s.pageFor who asid va ≠ none →
    ({ s.fillTlb who asid va with mem := m } : State).translateBy who asid va w u = s.translateBy who asid va w u) ∧
  (∀ (s : State) (n : Nat) (k : Walk), s.walks[n]? = some k → k.failed = none → 0 < k.left → Clocked s k.who.at' →
    let e := readEntry k.va (5 - k.left) (s.levelEntry k.va (5 - k.left) k.table)
    (∀ t, e = .table t → s.stepWalk n = { s with walks := s.walks.set n { k with table := t, left := k.left - 1 } }) ∧
    (∀ p w u m, e = .page p →
      ({ s.stepWalk n with mem := m } : State).translateBy k.who k.asid k.va w u = s.permit (some p) w u) ∧
    (∀ w u, e = .fault → (∀ x ∈ s.tlbOf k.who, x.holds k.asid k.va = false) →
      ({ s.stepWalk n with moves := s.moves + 1 } : State).translateBy k.who k.asid k.va w u = .error .translation ∧
        ∀ who, (s.stepWalk n).tlbOf who = s.tlbOf who)) ∧
  (∀ (s : State) (a : ElemAt) (page : Nat) (asid : BitVec 13) (w u : Bool), InFabric a → s.extentOf a asid (4096 * page) = none →
    (s.extents a).length ≤ 256 →
    let v := s.reachPage a asid (4096 * page) w u
    (∀ pa m, s.translate a.die asid (4096 * page) w u = .ok pa →
      ({ v with mem := m } : State).throughExtent a asid (4096 * page) w u = .ok pa) ∧
    (∀ f, s.translate a.die asid (4096 * page) w u = .error f → v.badExtent a asid (4096 * page) = true)) ∧
  (∀ (a : ElemAt) (g : Nat) (s : State) (r : StreamRun), Clocked s a.die → (s.elem a).se.cur = some r → r.withheld = false →
    g ∈ r.todo → (s.elem a).mayRead r = true → NotReached s a r.cmd.asid g false r.cmd.user →
    ∃ t, exec (.readPerform (.stream a g)) s = .next t ∧ (∀ x, t.byte x = s.byte x) ∧
      ∃ x, (t.elem a).se.cur = some x ∧ x.withheld = true ∧ x.todo = r.todo) ∧
  (∀ (d : Fin 4) (i : Instr) (c : InvScope) (s : State),
    (∃ a n, i = .invalidateRange d a n ∧ c = .range (some (BitVec.ofNat 13 a.val)) ((s.tquOf d).invAddr.toNat / 2 ^ 12 % 2 ^ 44 * 4096) n) ∨
      (∃ a, i = .invalidateAsid d a ∧ c = .space (BitVec.ofNat 13 a.val)) ∨ (i = .invalidateAll d ∧ c = .all) →
    ((s.tquOf d).inv = none → exec i s = .next (s.setTqu d { s.tquOf d with inv := some c, invAt := s.moves })) ∧
    ((s.tquOf d).inv ≠ none → exec i s = .next (s.setTqu d { s.tquOf d with invLost := true }))) ∧
  (∀ s : State, (s.tquOf s.focus.die).inv = none → s.focus.die ≠ 0 → exec .invalidationComplete s = .next s) ∧
  (∀ (s : State) (c : InvScope), (s.tquOf s.focus.die).inv = some c → ∃ u, exec .invalidationComplete s = .next u ∧
    let began := (s.tquOf s.focus.die).invAt
    (OldUseWaits s c began → (u.tquOf s.focus.die).inv = some c) ∧ (¬ OldUseWaits s c began → (u.tquOf s.focus.die).inv = none) ∧
    u.mem = s.mem ∧ (∀ who, ∀ e ∈ u.tlbOf who, e ∈ s.tlbOf who ∧ ¬ Covers c e) ∧ (s.walks = [] → ExtentsRenewed u c) ∧
    (s.focus.die ≠ 0 → ∀ who, ∀ e ∈ s.tlbOf who, ¬ Covers c e → e ∈ u.tlbOf who)) ∧
  (∀ s : State, s.focus.die = 0 → ∃ u, exec .invalidationComplete s = .next u ∧
    (∀ c ∈ s.ert.dropping, ∀ who, ∀ e ∈ u.tlbOf who, ¬ Covers c.1 e) ∧
    ((∃ c ∈ s.ert.dropping, OldUseWaits s c.1 c.2) → u.ert = s.ert) ∧
    ((∀ c ∈ s.ert.dropping, ¬ OldUseWaits s c.1 c.2) → u.ert.freeing = [] ∧ u.ert.dropping = [] ∧
      ∀ j, u.ert.entry j =
        if (s.ert.entry j).cls ∈ s.ert.freeing.map (·.1) then { s.ert.entry j with swept := false } else s.ert.entry j)) ∧
  (∀ (d : Fin 4) (s : State),
    exec (.invstatRead d) s = .next { s.setTqu d { s.tquOf d with invLost := false } with
      hostOut := [BitVec.ofNat 64 ((if (s.tquOf d).inv = none then 0 else 1) + if (s.tquOf d).invLost then 2 else 0)] } ∧
    exec (.loadstatRead d) s = .next { s.setTqu d { s.tquOf d with loadLost := false } with
      hostOut := [BitVec.ofNat 64 (s.host.loads.length + if (s.tquOf d).loadLost then 2 ^ 8 else 0)] }) ∧
  (∀ (d : Fin 4) (v : Word) (s : State),
    (s.host.loads.length < 16 → exec (.loadRequest d v) s =
      .next { s with host := { s.host with loads := s.host.loads ++ [(d, fieldBits v 51 6)] } }) ∧
    (16 ≤ s.host.loads.length → exec (.loadRequest d v) s = .next (s.setTqu d { s.tquOf d with loadLost := true }))) ∧
  (∀ (s : State) (d : Fin 4) (v : Word) (rest : List (Fin 4 × Word)), s.host.loadEnd = none → s.host.loads = (d, v) :: rest →
    let s1 : State := { s with host := { s.host with loads := rest } }
    let desc : List Word := (List.range 8).map fun i => s.home (v.toNat / 8 + i)
    (s.homeOf v.toNat = none → exec .objectLoad s = .next s1) ∧
    (v.toNat + 64 ≤ 2 ^ 37 → v.toNat % 64 = 0 →
      (∀ code i, s1.loadObject d desc = .error (code, some i) → ∃ u, exec .objectLoad s = .next u ∧
        ServesLoad s1 u d (v.toNat + 48) (BitVec.ofNat 64 (code + i % 2 ^ 32 * 2 ^ 32))) ∧
      (∀ s2, s1.loadObject d desc = .ok s2 → ∃ u, exec .objectLoad s = .next u ∧ ServesLoad s2 u d (v.toNat + 48) 0))) ∧
  (∀ (s : State) (d : Fin 4) (pa : Nat) (v : Word), s.host.loadEnd = some (d, pa, v) → pa % 8 = 0 →
    ∃ u, exec .objectLoad s = .next u ∧ ServesLoad s u d pa v)

/-- R113, R374, R375, R377, R379, R381, R382. Enabling bits take effect; a held event record is written, EVTPROD advances and an interrupt is raised;
register writes keep their bits and obey their conditions, and reads see them; host accesses go the host-port path; the boot starts every core at
pc 0 in supervisor mode, or reports its error. -/
def Obligations.ManagementTakesEffect : Prop :=
  (∀ s : State, exec .eventEnable s = .next { s with host := { s.host with evten := true } } ∧
    exec .evtlostRead s = .next { s with host := { s.host with evtLost := 0 }, hostOut := [s.host.evtLost] }) ∧
  (∀ (s : State) (e : EventRec) (rest : List EventRec), s.host.held = e :: rest →
    let size := 2 ^ (s.host.evtCap.toNat % 32)
    let pa := s.host.evtBase.toNat + 32 * (s.host.evtProd.toNat % size)
    4 ≤ s.host.evtCap.toNat % 32 → s.host.evtCap.toNat % 32 ≤ 16 →
    (s.host.evten = true → (s.host.evtProd - s.host.evtCons).toNat ≠ size → s.host.evtBase.toNat % 32 = 0 →
      s.host.evtBase.toNat + 32 * size ≤ 2 ^ 37 → ∃ u, exec .eventRecordWrite s = .next u ∧
      u.host = { s.host with held := rest, evtProd := s.host.evtProd + 1, msix := s.host.msix + 1 } ∧
      ∀ a, u.byte a = if pa ≤ a ∧ a < pa + 32 then valueByte ([e.d0, e.d1, e.d2, e.d3].getD ((a - pa) / 8) 0) ((a - pa) % 8) else s.byte a) ∧
    (s.host.evten = false ∨ (s.host.evtProd - s.host.evtCons).toNat = size → exec .eventRecordWrite s = .next s)) ∧
  (∀ (s : State) (r : TierRange) (p : LinkPeer),
    (s.host.tieren = false → exec (.tierEnable [r]) s = .next { s with host := { s.host with
      tieren := true, tierRange := setF s.host.tierRange ⟨16 * r.port.val + r.j.val, by omega⟩ (fieldBits r.base 51 12 ||| 1, fieldBits r.info 42 0) } }) ∧
    (s.host.linken = false → s.paths = [] → exec (.linkEnable [p]) s = .next { s with host := { s.host with
      linken := true, ngUp := setF s.host.ngUp p.port true, ngPeer := setF s.host.ngPeer p.port (p.pmod, p.pport) } })) ∧
  (∀ (s : State) (v : Word) (d : Fin 4) (c : Fin 64) (p : Fin 16),
    exec (.registerWrite 0 0x28 v) s = .next (if s.host.evten then s else { s with host := { s.host with evtBase := fieldBits v 51 12 } }) ∧
    exec (.registerWrite 0 0x40 v) s = .next { s with host := { s.host with evtCons := v.truncate 32 } } ∧
    exec (.registerWrite 0 (0x100000 + 0x1000 * d.val) v) s = .next (s.setTqu d { s.tquOf d with spillBase := fieldBits v 51 8 }) ∧
    (s.setTqu d { s.tquOf d with spillBase := fieldBits v 51 8 }).readReg 0 (0x100000 + 0x1000 * d.val) = fieldBits v 51 8 ∧
    s.readReg 0 (0x200208 + 0x1000 * c.val) = (s.core c).status ∧ s.readReg 1 (0x10 + 0x1000 * p.val) = (s.port p).fepLo ∧
    exec (.registerWrite 0 (0x100038 + 0x1000 * d.val) v) s = .next (s.setTqu d { s.tquOf d with ctxCap := fieldBits v 23 0 }) ∧
    ((s.core c).run = .stopped → ∃ u, exec (.registerWrite 0 (0x200200 + 0x1000 * c.val) v) s = .next u ∧
      CoreBecomes s u c { s.core c with pc := fieldBits v 17 2 }) ∧
    ((s.core c).run = .running → exec (.registerWrite 0 (0x200200 + 0x1000 * c.val) v) s = .next s) ∧
    ((s.port p).en = false → exec (.registerWrite 1 (8 + 0x1000 * p.val) v) s = .next (s.setPort p { s.port p with mac := v.truncate 48 })) ∧
    ((s.port p).en = true → exec (.registerWrite 1 (8 + 0x1000 * p.val) v) s = .next s)) ∧
  (∀ (s : State) (a : Nat) (bytes : List Byte), bytes ≠ [] → a % 8 + bytes.length ≤ 8 → ∃ w : GWrite, w.granule = a / 8 ∧
    (∀ i, i < 8 → w.mask.getLsbD i = decide (a % 8 ≤ i ∧ i < a % 8 + bytes.length)) ∧
    (∀ i b, bytes[i]? = some b → valueByte w.value (a % 8 + i) = b) ∧
    (∀ d, s.homeOf (8 * (a / 8)) = some (.die d) →
      exec (.hostCxlWrite a bytes) s = .next (s.setPath hostPath (s.pathItems hostPath ++ [.write .host w]))) ∧
    (s.homeOf (8 * (a / 8)) = some .host → exec (.hostCxlWrite a bytes) s = .next (s.setHome w)) ∧
    (s.homeOf (8 * (a / 8)) = none → exec (.hostCxlWrite a bytes) s = .next s)) ∧
  (∀ (s : State) (a n : Nat),
    ((∀ g ∈ s.marked, 8 * g + 8 ≤ a ∨ a + n ≤ 8 * g) →
      exec (.hostCxlRead a n) s = .next { s with hostOut := (List.range n).map fun i => (s.byte (a + i)).zeroExtend 64 }) ∧
    ((∃ g ∈ s.marked, a < 8 * g + 8 ∧ 8 * g < a + n) → exec (.hostCxlRead a n) s = .next { s with hostOut := [] })) ∧
  (∀ (s : State) (fault : Bool) (bad : List (Fin 4 × Fin 20)),
    let a := s.host.bootAddr.toNat
    let word (i : Nat) : Word32 := BitVec.ofNat 32 (leBytes s.byte (a + i) 4)
    (∀ e, s.bootCheck a fault = e + 1 → exec (.boot fault bad) s =
      .next { s with host := { s.host with bootFailed := true, bootError := e + 1 } }) ∧
    (s.bootCheck a fault = 0 → ∃ u, exec (.boot fault bad) s = .next u ∧ u.host.booted = true ∧ u.host.bootFailed = false ∧
      (∀ x ∈ bad, (u.die x.1).blkstat.getLsbD (32 + x.2.val) = true) ∧
      ∀ c, (u.core c).run = .running ∧ (u.core c).pc = 0 ∧ (u.core c).status = (s.core c).status ||| 8 ∧
        (∀ i, i < 1024 → Map.get (0xFFFF_FFFF : Word32) (0xFC00 + i) (u.core c).code = word (16 + 4 * i)) ∧
        (s.host.dispatcher c = false → Map.get (0xFFFF_FFFF : Word32) 0 (u.core c).code = 0xFC00_6000) ∧
        (s.host.dispatcher c = true → ∀ i, i < leBytes s.byte (a + 4) 4 →
          Map.get (0xFFFF_FFFF : Word32) i (u.core c).code = word (4112 + 4 * i))))

/-! ### Resets, clocks, power, errors (spec/22, 23) -/

/-- R378, R380, R389 to R394. Module reset keeps only memory; a core's window resets, stops and restarts it and a wait of its handler
ends; a clock change takes effect or is held, and completes; a trip stops the clock and clears below 95 °C; block power changes and
completes, contents of an off block lost; temperatures, ports, links, parity and uncorrectable errors have their effects and
events. Whose fault time the change of a clock counts in is the model's reading (log 136).
That a core's reset keeps its code memory (log 40), that FAULTACK ends the wait of a handler (log 41), that module reset keeps the marks
of bad granules (log 78) and the parity retry's time (log 136) are its readings too. -/
def Obligations.OperationsTakeEffect : Prop :=
  (∀ s : State, ∃ u, exec .moduleReset s = .next u ∧ u.mem = s.mem ∧ u.marked = s.marked ∧ u.cores = State.reset.cores ∧ u.dies = State.reset.dies ∧
    u.elems = [] ∧ u.tiles = [] ∧ u.mt = [] ∧ u.paths = [] ∧ u.landing = [] ∧ u.tasks = [] ∧ u.ert = {} ∧ u.host = {} ∧ u.eth = State.reset.eth ∧ u.time = 0) ∧
  (∀ (c : Fin 64) (s : State),
    (∃ u k, exec (.coreReset c) s = .next u ∧ CoreBecomes s u c k ∧ (∀ i, getF k.g i = 0) ∧ (∀ i, getF k.p i = false) ∧ k.pc = 0 ∧ k.status = 8 ∧
      k.cause = 0 ∧ k.trappc = 0 ∧ k.badaddr = 0 ∧ k.asid = 0 ∧ k.code = (s.core c).code ∧
      k.run = if (s.core c).run = .held then .held else .running) ∧
    ((s.core c).run = .running → ∃ u, exec (.coreStop c) s = .next u ∧
      CoreBecomes s u c { s.core c with
        run := .stopped, before := .stopped, waiting := false, amo := none, rel := none, hdrHeld := false, hdrFaulted := false }) ∧
    ((s.core c).run = .held → exec (.coreStop c) s = .next s) ∧
    ((s.core c).run = .stopped → exec (.coreRestart c) s = .next (s.setCore c { s.core c with run := .running })) ∧
    ((s.core c).run ≠ .stopped → exec (.coreRestart c) s = .next s) ∧
    ((s.core c).th = false ∨ (s.core c).waiting = false → exec (.faultack c) s = .next s) ∧
    (∀ d a sc p, (s.core c).th = true → (s.core c).waiting = true → (s.core c).run = .running → decode (s.core c).word = .wait d a sc →
      ({ s with cur := c } : State).checkData ((s.core c).readG a) 8 false = .ok p →
      exec (.faultack c) s = .next { ({ s with cur := c } : State).waitDone d sc p with cur := s.cur })) ∧
  (∀ (d st : Fin 4) (s : State),
    let k := s.die d
    (k.clkBusy = false → k.clkHeld = false → k.trip = false → k.clk ≠ st →
      (s.boundedOn d = [] → ∃ u, exec (.clockChange d st) s = .next u ∧ DieBecomes s u d { k with
        clkAsked := st, clk := st, clkLast := if st = 3 then k.clkLast else st, clkBusy := true, clkHeld := false }) ∧
      (st = 3 → s.boundedOn d ≠ [] → ∃ u, exec (.clockChange d st) s = .next u ∧ DieBecomes s u d { k with clkAsked := st, clkHeld := true })) ∧
    (k.clkBusy = true ∨ k.clkHeld = true ∨ k.clk = st ∨ (k.trip = true ∧ st ≠ 3) → exec (.clockChange d st) s = .next s) ∧
    (k.clkHeld = true → s.boundedOn d = [] → ∃ u, exec (.heldClockChange d) s = .next u ∧ DieBecomes s u d { k with
      clk := k.clkAsked, clkLast := if k.clkAsked = 3 then k.clkLast else k.clkAsked, clkBusy := true, clkHeld := false }) ∧
    (k.clkHeld = false → exec (.heldClockChange d) s = .next s) ∧
    (k.clkBusy = true → ∃ u n, n ≤ 2000 ∧ exec (.clockChangeComplete d) s = .next u ∧ u.die d = { k with clkBusy := false } ∧
      u.tasks = s.tasks.map fun t => if t.die = d ∧ t.st ≠ .retired ∧ t.st ≠ .refused ∧ t.st ≠ .failed ∧ k.clk ≠ 3 then { t with faultTime := t.faultTime + n } else t) ∧
    (k.clkBusy = false → exec (.clockChangeComplete d) s = .next s)) ∧
  (∀ (d : Fin 4) (t : Nat) (s : State),
    (t < 95 * 16 → exec (.tripClear d t) s = .next (s.setDie d { s.die d with trip := false }) ∧ exec (.thermalWarning d t) s = .next s) ∧
    (95 * 16 ≤ t → exec (.tripClear d t) s = .next s ∧
      exec (.thermalWarning d t) s = .next (s.report (eventRec 16 d 0 t 0 0 (BitVec.ofNat 64 d.val)))) ∧
    (110 * 16 ≤ t → exec (.thermalTrip d t) s =
      .next ((s.setDie d { s.die d with clk := 3, clkAsked := 3, trip := true, clkBusy := false, clkHeld := false }).report
        (eventRec 15 d 0 t 0 0 (BitVec.ofNat 64 d.val)))) ∧
    (t < 110 * 16 → exec (.thermalTrip d t) s = .next s)) ∧
  (∀ (d : Fin 4) (v : Word) (s : State), (∀ r, (s.region d r).present = false) →
    ∃ u, exec (.blockPowerChange d v) s = .next u ∧ (u.die d).blkpwr = fieldBits v 39 0 ∧
      (∀ b, b < 20 → (u.die d).blkstat.getLsbD b = (decide (blockState v.toNat b = 0) &&
        ((s.die d).blkstat.getLsbD b || decide (blockState (s.die d).blkpwr.toNat b ≠ 0)))) ∧
      ∀ b x y e, b < 20 → (x, y) ∈ blockSites b → e < 16 → u.elem { die := d, x, y, e } =
        if blockState v.toNat b = 3 ∧ blockState (s.die d).blkpwr.toNat b ≠ 3 then
          { tbWire := (s.elem { die := d, x, y, e }).tbWire }
        else s.elem { die := d, x, y, e }) ∧
  (∀ (d : Fin 4) (b : Fin 20) (s : State),
    ((s.die d).blkstat.getLsbD b.val = true → ∃ u, exec (.blockPowerComplete d b) s = .next u ∧
      (∀ i, (u.die d).blkstat.getLsbD i = ((s.die d).blkstat.getLsbD i && decide (i ≠ b.val))) ∧
      (∀ a, u.elem a = s.elem a) ∧ ∀ x y, (x, y) ∈ blockSites b.val → u.tile d x y = { s.tile d x y with refused := false, woke := false }) ∧
    ((s.die d).blkstat.getLsbD b.val = false → exec (.blockPowerComplete d b) s = .next s)) ∧
  (∀ (p : Fin 36) (s : State), s.paths = [] → (∀ m, (getF s.host.ngrt m).getLsbD p.val = false) →
    (getF s.host.ngUp p = true → exec (.nguvenPortDown p) s = .next { s with host := { s.host with ngUp := setF s.host.ngUp p false } }) ∧
    (getF s.host.ngUp p = false → exec (.nguvenPortDown p) s = .next s) ∧
    (s.host.linken = true → getF s.host.ngUp p = false →
      exec (.nguvenPortUp p) s = .next { s with host := { s.host with ngUp := setF s.host.ngUp p true } })) ∧
  (∀ (p i : Fin 36) (s : State) (q : PathId) (m : Fin 64) (items : List PathItem), s.paths = [(q, items)] → q.dst = .module m → i ≠ p →
    (q.k = p.val → getF s.host.ngUp p = true →
      ({ s.host with ngUp := setF s.host.ngUp p false } : HostSide).upPort m = some i →
      ∃ u, exec (.nguvenPortDown p) s = .next u ∧ u.pathItems { q with k := i.val } = items ∧ u.pathItems q = []) ∧
    (q.k = i.val → s.host.linken = true → getF s.host.ngUp p = false → getF s.host.ngUp i = false → (getF s.host.ngrt m).getLsbD p.val = true →
      ∃ u, exec (.nguvenPortUp p) s = .next u ∧ u.pathItems { q with k := p.val } = items ∧ u.pathItems q = [])) ∧
  (∀ (p : Fin 36) (s : State), exec (.linkCrcReplay .host) s = .next { s with host := { s.host with lreplay := s.host.lreplay + 1 } } ∧
    exec (.linkCrcReplay (.nguven p)) s = .next { s with host := { s.host with
      lreplay := s.host.lreplay + 1, ngReplays := setF s.host.ngReplays p (getF s.host.ngReplays p + 1) } }) ∧
  (∀ (d : Fin 4) (r : Fin 16) (s : State),
    (s.sending d r = true → ∃ u : State, exec (.configParityRetry d r) s =
        .next (u.report (eventRec 18 d r.val ((s.region d r).resent + 1) (taskNo (s.region d r).task) 0 (BitVec.ofNat 64 r.val))) ∧
      u.region d r = { s.region d r with sent := some ((s.region d r).sent.getD s.time), resent := (s.region d r).resent + 1 } ∧
      (u.die d).cursor = (if (s.die d).cursor.region = some r then { region := some r } else (s.die d).cursor) ∧
      (∀ t, s.loadingTask d r = some t → s.task? t.id = some t → u.task? t.id = some { t with faultTime := t.faultTime +
        (if (s.region d r).resent = 0 then s.time - (s.region d r).sent.getD s.time else 0) })) ∧
    (s.sending d r = false → exec (.configParityRetry d r) s = .next s)) ∧
  (∀ (s : State) (st g place : Nat) (c : Fin 64), 1 ≤ st → st ≤ 3 →
    (∃ (d : Fin 4) (u : State), exec (.uncorrectableError (.data st g none place)) s = .next (u.report (eventRec 17 d 0 st 0 (BitVec.ofNat 64 (8 * g)) (BitVec.ofNat 64 place))) ∧
      (∀ x, x ∈ u.marked ↔ x ∈ s.marked ∨ x = g) ∧ (u.die d).uecnt = (s.die d).uecnt + 1 ∧ u.mem = s.mem) ∧
    ((s.core c).task = none → (s.core c).run = .running → ∃ (u : State) (e : EventRec), exec (.uncorrectableError (.code c)) s = .next (u.report e) ∧
      (u.core c).run = .stopped ∧ e.d0.toNat % 2 ^ 8 = 17 ∧ (u.die (dieOf c)).uecnt = (s.die (dieOf c)).uecnt + 1)) ∧
  (∀ (s : State) (g place : Nat), (∃ u e, exec (.uncorrectableError (.data 4 g none place)) s = .next (State.report u e) ∧
      (∀ x, x ∈ u.mtMarked ↔ x ∈ s.mtMarked ∨ x = g) ∧ u.marked = s.marked) ∧
    ∃ u e, exec (.uncorrectableError (.data 5 g none place)) s = .next (State.report u e) ∧ u.marked = s.marked ∧
      let a := elemOfKey (g / 8 * 16)
      (getF (u.tile a.die a.x a.y).slots ⟨g % 8, by omega⟩).bad = true) ∧
  (∀ (s : State) (a : ElemAt) (r : Fin 16), s.regionAt a.die a.x a.y = some r → (s.region a.die r).task = none →
    ∃ (u : State) (e : EventRec), exec (.uncorrectableError (.field a)) s = .next (u.report e) ∧
      u.region a.die r = { s.region a.die r with committed := false, image := none } ∧
      e.d0.toNat % 2 ^ 8 = 17 ∧ (u.die a.die).uecnt = (s.die a.die).uecnt + 1)

/-! ### Ethernet (spec/22) -/

/-- R385 to R387. A port takes its enable and lanes; posted sends and receives are taken in order, a bad one completing at once with
status 4, and one without a connection waits for it; a packet is dropped, refused or lands in the oldest receive that takes it, and has no
effect once its message has completed; sends and receives complete with their status, those of an ordered connection in their order; a
held completion is written once the queue has room, its producer advances and the port's interrupt is raised. -/
def Obligations.EthernetTakesEffect : Prop :=
  (∀ (p : Fin 16) (en : Bool) (l : Fin 3) (s : State), exec (.portEnable p en) s = .next (s.setPort p { s.port p with en }) ∧
    exec (.portLinkChange p l) s = .next (s.setPort p { s.port p with lanes := l })) ∧
  (∀ (p : Fin 16) (s : State), (s.port p).en = true →
    let k := s.port p
    (let l : List Word := (List.range 8).map fun i => s.ethRead (k.qbase.toNat + 4096 + 64 * (s.index p 8 % k.size) + 8 * i)
     let s1 := s.setIndex p 8 (s.index p 8 + 1)
     s.index p 0 ≠ s.index p 8 →
      (s1.sendBad l = true → exec (.sendPosted p) s = .next (s1.complete p [BitVec.ofNat 64 (1 + 4 * 2 ^ 8), nth l 6, 0, 0])) ∧
      (s1.sendBad l = false → exec (.sendPosted p) s =
        .next { s1.setPort p { k with sends := k.sends ++
          [{ dwords := l, id := s1.nextId, begun := k.conns.contains (EthPost.conn { dwords := l, id := 0 }) || decide (k.conns.length < 4096) }] }
          with nextId := s1.nextId + 1 })) ∧
    (let l : List Word := (List.range 8).map fun i => s.ethRead (k.qbase.toNat + 4096 + 64 * k.size + 64 * (s.index p 24 % k.size) + 8 * i)
     let s1 := s.setIndex p 24 (s.index p 24 + 1)
     s.index p 16 ≠ s.index p 24 →
      (s1.recvBad l = true → exec (.receivePosted p) s = .next (s1.complete p [BitVec.ofNat 64 (2 + 4 * 2 ^ 8), nth l 5, 0, 0])) ∧
      (s1.recvBad l = false → exec (.receivePosted p) s =
        .next { s1.setPort p { k with recvs := k.recvs ++ [{ dwords := l, id := s1.nextId }] } with nextId := s1.nextId + 1 })) ∧
    (s.index p 0 = s.index p 8 → exec (.sendPosted p) s = .next s) ∧ (s.index p 16 = s.index p 24 → exec (.receivePosted p) s = .next s)) ∧
  (∀ (p : Fin 16) (pkt : Packet) (s : State), (s.port p).en = true → (s.port p).lanes ≠ 0 →
    let k := s.port p
    (pkt.secure = true → exec (.packetArrival p pkt) s = .next (s.setPort p { k with rxpkts := k.rxpkts + 1, drops := k.drops + 1 })) ∧
    let k1 := { k with rxpkts := k.rxpkts + 1 }
    (pkt.secure = false → pkt.msg ∈ k.past → exec (.packetArrival p pkt) s = .next (s.setPort p k1)) ∧
    (pkt.secure = false → pkt.msg ∉ k.past → (∀ m ∈ k.msgs, m.id ≠ pkt.msg) →
      ((∀ e ∈ k.recvs, takes e pkt = false) ∨ k.connects (connOf pkt) = false →
        exec (.packetArrival p pkt) s = .next (s.setPort p (k1.note pkt (some s.time)))) ∧
      (∀ l e rest, k.recvs = l ++ e :: rest → (∀ x ∈ l, takes x pkt = false) → takes e pkt = true → k.connects (connOf pkt) = true →
        ∃ u, exec (.packetArrival p pkt) s = .next u ∧ u.port p = { k1.note pkt none with recvs := l ++ rest, msgs := k.msgs ++
          [{ id := pkt.msg, post := e.dwords, pkt, got := [pkt.offset], moved := pkt.bytes.length }] } ∧
        ((nth e.dwords 1).toNat + pkt.offset + pkt.bytes.length ≤ 2 ^ 37 →
          pkt.offset + pkt.bytes.length ≤ (nth e.dwords 0).toNat / 2 ^ 32 →
          ∀ a, u.byte a = if (nth e.dwords 1).toNat + pkt.offset ≤ a ∧ a < (nth e.dwords 1).toNat + pkt.offset + pkt.bytes.length then
            pkt.bytes.getD (a - ((nth e.dwords 1).toNat + pkt.offset)) 0 else s.byte a)))) ∧
  (∀ (p : Fin 16) (s : State) (m : EthMsg) (rest : List EthMsg), (s.port p).msgs = m :: rest → m.moved = m.pkt.length → m.pkt.rod = false →
    let len := (nth m.post 0).toNat / 2 ^ 32
    let done : EthPort := { s.port p with
      msgs := rest, past := (s.port p).past ++ [m.id], ordered := (s.port p).ordered.filter fun x => x.2.2.1 != m.id }
    exec (.receiveDone p m.id) s = .next (((s.setPort p done).beginSends p).complete p
      [BitVec.ofNat 64 (2 + (if len < m.pkt.length then 2 ^ 8 else 0) + Nat.min len m.pkt.length % 2 ^ 32 * 2 ^ 32), nth m.post 5, m.pkt.matchBits,
       BitVec.ofNat 64 (m.pkt.src.toNat % 2 ^ 32 + m.pkt.srcPid.toNat * 2 ^ 32)])) ∧
  (∀ (p : Fin 16) (s : State) (m : EthMsg) (x : BitVec 128 × BitVec 32 × Nat × Option Nat) (rest : List EthMsg) (l), (s.port p).msgs = m :: rest →
    m.pkt.rod = true → (s.port p).ordered = (m.pkt.src, m.pkt.srcPid, x.2.2.1, none) :: l → x.2.2.1 ≠ m.id →
    exec (.receiveDone p m.id) s = .next s) ∧
  (∀ (p : Fin 16) (s : State) (e : EthPost), (s.port p).sends = [e] → e.begun = false → exec (.sendDone p e.id true) s = .next s ∧
    exec (.noReceiveTimeout p e.id) s = .next s) ∧
  (∀ (p : Fin 16) (s : State) (e : EthPost) (rest : List EthPost), (s.port p).sends = e :: rest → e.begun = true →
    let len := (nth e.dwords 0).toNat / 2 ^ 32
    let done (status moved : Nat) (u : State) : Prop := ∃ (n : Nat) (b : Word) (free : Nat), n ≤ max 1 len ∧
      (status = 0 → (len + 4095) / 4096 ≤ n) ∧ u = ({ s.setPort p { s.port p with
        sends := rest, txpkts := (s.port p).txpkts + BitVec.ofNat 64 n + b, retx := (s.port p).retx + b } with free }.complete p
      [BitVec.ofNat 64 (1 + status * 2 ^ 8 + moved % 2 ^ 32 * 2 ^ 32), nth e.dwords 6, 0, 0]).beginSends p
    (∃ u, exec (.sendDone p e.id true) s = .next u ∧ done 0 ((nth e.dwords 0).toNat / 2 ^ 32) u) ∧
    (∃ u n, n ≤ (nth e.dwords 0).toNat / 2 ^ 32 ∧ exec (.sendDone p e.id false) s = .next u ∧ done 2 n u) ∧
    (∃ u, exec (.noReceiveTimeout p e.id) s = .next u ∧ done 3 0 u)) ∧
  (∀ (p : Fin 16) (v : BitVec 32) (s : State) (e : List Word), (s.port p).held = [e] → e.length = 4 →
    let k := s.port p
    6 ≤ k.qcap.toNat % 16 → k.qbase.toNat % 4096 = 0 → k.qbase.toNat + 2 ^ 30 ≤ 2 ^ 37 →
    let prod := s.index p 32
    ((prod + 2 ^ 32 - v.toNat) % 2 ^ 32 ≠ k.size → ∃ u, exec (.completionConsumerAdvance p v) s = .next u ∧
      u.port p = { k with held := [], msix := k.msix + 1 } ∧ u.index p 32 = (prod + 1) % 2 ^ 32 ∧
      ∀ i, i < 4 → DwordIs u (k.qbase.toNat + 4096 + 128 * k.size + 32 * (prod % k.size) + 8 * i) (e.getD i 0)) ∧
    ((prod + 2 ^ 32 - v.toNat) % 2 ^ 32 = k.size → ∃ u, exec (.completionConsumerAdvance p v) s = .next u ∧ u.port p = k))

/-! ### Encodings and the machine as a whole -/

/-- R128 to R144. Words written out from the encodings decode to the instruction that the spec's examples give; three words with an
unassigned function or a field that must be zero decode to none. -/
def Obligations.DecodeWordsFromSpec : Prop :=
  (∀ x ∈ [((0x0084_0801 : Nat), Instr.sub ⟨4, 4, 1, false, false, false⟩), (0x0043_2006, .shl ⟨2, 3, 4, false, false, false⟩),
      (0x0041_1100, .add ⟨2, 1, 2, false, false, true⟩), (0x2021_FFFF, .addi 1 1 0xFFFF), (0x4460_1234, .lui 3 0x1234),
      (0x0801_1043, .peq ⟨3, 1, 2, false, false⟩), (0x7443_FFFC, .ldwu 2 3 0xFFFC), (0x8CC4_0008, .std 6 4 8),
      (0x10A4_00C8, .lda 5 4 .d false .device), (0x14A4_30E8, .amoAdd ⟨5, 4, 6, true, true, true, .device⟩), (0xB022_FFFB, .bltu 1 2 0xFFFB),
      (0xC400_0040, .jal 0x40), (0x181F_0000, .jalr 0 31), (0x0C26_0000, .qpush 1 6), (0xFC00_0011, .trap 17),
      (0xC846_38A0, .strmLd ⟨2, 6, 7, 5, false, false⟩), (0xE046_3962, .collAr 2 6 7 11 .exact), (0xE924_2A80, .enq 9 4 5 20),
      (0x1C45_3061, .shape 2 5 6 .fp8), (0xEC06_3861, .cfgLd 6 7 3 true), (0xF0A6_3860, .ertPin 5 6 7 3), (0x1C07_0000, .sbar 7),
      (0x1C05_0010, .twaitAny 5), (0x1C85_0030, .tfind 4 5), (0x1C05_0040, .tclr 5), (0xD806_3880, .cpy 0 6 7 4), (0xDC26_3880, .cpy2d 1 6 7 4),
      (0x1C06_0050, .qfence 6), (0xE445_0120, .flm .device 5 9), (0x1C27_0070, .shpub 1 7), (0x1C00_0080, .cfgCmt), (0x1C05_0090, .resume 5),
      (0xF0A6_0061, .ertProbe 5 6 3), (0xF0A6_0062, .ertEvict 5 6 3)], decodeNat x.1 = .ok x.2) ∧
  ∀ w ∈ [(0xFFFF_FFFF : Nat), 0x0000_0013, 0x4461_1234], ∃ r, decodeNat w = .error r

/-- R128 to R148. Decoding the word of a well-formed instruction, of the core or of the configuration network, gives it back, with every
operand at every value that its encoding admits: no bit of an encoding is dropped. -/
def Obligations.DecodeOfEncodeIsTheInstruction : Prop :=
  (∀ i : Instr, i.wellFormed = true → encodeNat i < 2 ^ 32 ∧ decodeNat (encodeNat i) = .ok i) ∧
  (∀ i : Instr, i.wellFormedConfig = true → encodeConfigNat i < 2 ^ 32 ∧ decodeConfigNat (encodeConfigNat i) = .ok i)

/-- R128 to R148. Every word that decodes is the word of what it decodes to, which is well formed: no reserved bit is ignored, and each
instruction has one word. -/
def Obligations.DecodedWordIsItsEncoding : Prop :=
  (∀ (w : Nat) (i : Instr), w < 2 ^ 32 → decodeNat w = .ok i → i.wellFormed = true ∧ encodeNat i = w) ∧
  (∀ (w : Nat) (i : Instr), w < 2 ^ 32 → decodeConfigNat w = .ok i → i.wellFormedConfig = true ∧ encodeConfigNat i = w)

/-- R127, R162, R378, R389. A step with an empty agenda runs the instruction that the current core's word at its pc decodes to; a move of
the agenda runs the named core's instruction, or the named event at its element, or changes a translation cache or an extent; then time passes. A core that does not run, or
whose die clock is stopped, only lets time pass. The agenda is the model's own (log 1), and so is the time that passes (log 4). -/
def Obligations.StepRunsTheDecodedInstruction : Prop :=
  (∀ (s t : State) (i : Instr), s.agenda = [] → s.me.run = .running → Clocked s (dieOf s.cur) → decode s.fetchWord = i → exec i s = .next t →
    step s = .next t.tick) ∧
  (∀ (s t : State) (c : Fin 64) (l : List Move) (i : Instr), s.agenda = .core c :: l → (s.core c).run = .running → Clocked s (dieOf c) →
    decode (s.core c).word = i → exec i { s with agenda := l, cur := c } = .next t → step s = .next t.tick) ∧
  (∀ (s t : State) (i : Instr) (a : ElemAt) (l : List Move), s.agenda = .event i a :: l → i.ofCore = false →
    exec i { s with agenda := l, focus := a } = .next t → step s = .next t.tick) ∧
  (∀ (s : State) (who : Asker) (a : BitVec 13) (v n : Nat) (l : List Move),
    (s.agenda = .tlbFill who a v :: l → step s = .next (({ s with agenda := l } : State).fillTlb who a v).tick) ∧
    (s.agenda = .tlbDrop who n :: l → step s = .next (({ s with agenda := l } : State).dropTlb who n).tick) ∧
    (s.agenda = .walkStart who a v :: l → step s = .next (({ s with agenda := l } : State).startWalk who a v).tick) ∧
    (s.agenda = .walkStep n :: l → step s = .next (({ s with agenda := l } : State).stepWalk n).tick) ∧
    ∀ x, s.agenda = .patch x n :: l → step s = .next (({ s with agenda := l } : State).patchExtent x n).tick) ∧
  (∀ s : State, s.agenda = [] → s.me.run ≠ .running ∨ (s.die (dieOf s.cur)).clk = 3 → step s = .next s.tick) ∧
  (∀ t : State, t.doomed = [] → t.tasks = [] → t.tick = { t with moves := t.moves + 1, time := t.time + Config.elapsedNs t.moves })

/-- R162, R165, R317, R328, R378. After reset every general register, predicate, the pc and the private memory of every core are 0, STATUS
is 8, the cores are held, and the limits have their reset values; the memory is in its canonical form. That an unwritten byte of memory
reads 0 is the model's choice (log 3). -/
def Obligations.ResetLeavesTheResetValues : Prop :=
  (∀ c, (State.reset.core c).run = .held ∧ (State.reset.core c).pc = 0 ∧ (State.reset.core c).status = 8 ∧
    (∀ r, (State.reset.core c).readG r = 0) ∧ (∀ p, getF (State.reset.core c).p p = false) ∧
    (∀ a, Map.get (0 : Byte) a (State.reset.core c).priv = 0) ∧ (State.reset.core c).task = none) ∧
  (∀ d, (State.reset.tquOf d).spillBase = 0 ∧ (State.reset.tquOf d).drainLim = 20000 ∧ (State.reset.tquOf d).faultLim = 50000 ∧
    (State.reset.tquOf d).wakeLim = 10000 ∧ (State.reset.die d).clk = 0 ∧ ∀ r, (State.reset.region d r).present = false) ∧
  (∀ d : Fin 4, State.reset.readReg 0 (0x100028 + 0x1000 * d.val) = 20000 ∧ State.reset.readReg 0 (0x1000 + 8 * d.val) = 0) ∧
  State.reset.tasks = [] ∧ State.reset.ert.en = false ∧ State.reset.host.booted = false ∧ State.reset.host.evten = false ∧
  (∀ a, State.reset.byte a = 0) ∧ memWf State.reset.mem = true

/-- R98. Whatever comes next, every step of a machine whose memory is in its canonical form answers a next state, and the memory is in that
form again: addresses strictly rising and no entry that reads as an unwritten byte does. -/
def Obligations.StepKeepsTheMemoryCanonical : Prop :=
  ∀ s : State, memWf s.mem = true → ∃ t, step s = .next t ∧ memWf t.mem = true
end

