-- ==== Sys2Proof/Laws/State.lean ====
section
/-!
SUPPORT. One lemma per field per update of State, so that no proof unfolds a record update, and what each update writes.
-/
namespace Sys2Proof.Machine

/-! ### State.setCore -/

@[simp] theorem State.setCore_dies (s : State) (c : Fin 64) (k : CoreState) : (s.setCore c k).dies = s.dies := rfl
@[simp] theorem State.setCore_elems (s : State) (c : Fin 64) (k : CoreState) : (s.setCore c k).elems = s.elems := rfl
@[simp] theorem State.setCore_tiles (s : State) (c : Fin 64) (k : CoreState) : (s.setCore c k).tiles = s.tiles := rfl
@[simp] theorem State.setCore_mt (s : State) (c : Fin 64) (k : CoreState) : (s.setCore c k).mt = s.mt := rfl
@[simp] theorem State.setCore_mtChanges (s : State) (c : Fin 64) (k : CoreState) : (s.setCore c k).mtChanges = s.mtChanges := rfl
@[simp] theorem State.setCore_mtGen (s : State) (c : Fin 64) (k : CoreState) : (s.setCore c k).mtGen = s.mtGen := rfl
@[simp] theorem State.setCore_mem (s : State) (c : Fin 64) (k : CoreState) : (s.setCore c k).mem = s.mem := rfl
@[simp] theorem State.setCore_marked (s : State) (c : Fin 64) (k : CoreState) : (s.setCore c k).marked = s.marked := rfl
@[simp] theorem State.setCore_doomed (s : State) (c : Fin 64) (k : CoreState) : (s.setCore c k).doomed = s.doomed := rfl
@[simp] theorem State.setCore_paths (s : State) (c : Fin 64) (k : CoreState) : (s.setCore c k).paths = s.paths := rfl
@[simp] theorem State.setCore_landing (s : State) (c : Fin 64) (k : CoreState) : (s.setCore c k).landing = s.landing := rfl
@[simp] theorem State.setCore_pathSets (s : State) (c : Fin 64) (k : CoreState) : (s.setCore c k).pathSets = s.pathSets := rfl
@[simp] theorem State.setCore_releases (s : State) (c : Fin 64) (k : CoreState) : (s.setCore c k).releases = s.releases := rfl
@[simp] theorem State.setCore_nextId (s : State) (c : Fin 64) (k : CoreState) : (s.setCore c k).nextId = s.nextId := rfl
@[simp] theorem State.setCore_stages (s : State) (c : Fin 64) (k : CoreState) : (s.setCore c k).stages = s.stages := rfl
@[simp] theorem State.setCore_granted (s : State) (c : Fin 64) (k : CoreState) : (s.setCore c k).granted = s.granted := rfl
@[simp] theorem State.setCore_exchanged (s : State) (c : Fin 64) (k : CoreState) : (s.setCore c k).exchanged = s.exchanged := rfl
@[simp] theorem State.setCore_rowFaults (s : State) (c : Fin 64) (k : CoreState) : (s.setCore c k).rowFaults = s.rowFaults := rfl
@[simp] theorem State.setCore_tileIds (s : State) (c : Fin 64) (k : CoreState) : (s.setCore c k).tileIds = s.tileIds := rfl
@[simp] theorem State.setCore_late (s : State) (c : Fin 64) (k : CoreState) : (s.setCore c k).late = s.late := rfl
@[simp] theorem State.setCore_tasks (s : State) (c : Fin 64) (k : CoreState) : (s.setCore c k).tasks = s.tasks := rfl
@[simp] theorem State.setCore_ert (s : State) (c : Fin 64) (k : CoreState) : (s.setCore c k).ert = s.ert := rfl
@[simp] theorem State.setCore_host (s : State) (c : Fin 64) (k : CoreState) : (s.setCore c k).host = s.host := rfl
@[simp] theorem State.setCore_eth (s : State) (c : Fin 64) (k : CoreState) : (s.setCore c k).eth = s.eth := rfl
@[simp] theorem State.setCore_time (s : State) (c : Fin 64) (k : CoreState) : (s.setCore c k).time = s.time := rfl
@[simp] theorem State.setCore_agenda (s : State) (c : Fin 64) (k : CoreState) : (s.setCore c k).agenda = s.agenda := rfl
@[simp] theorem State.setCore_cur (s : State) (c : Fin 64) (k : CoreState) : (s.setCore c k).cur = s.cur := rfl
@[simp] theorem State.setCore_focus (s : State) (c : Fin 64) (k : CoreState) : (s.setCore c k).focus = s.focus := rfl
@[simp] theorem State.setCore_moves (s : State) (c : Fin 64) (k : CoreState) : (s.setCore c k).moves = s.moves := rfl
@[simp] theorem State.setCore_mtMarked (s : State) (c : Fin 64) (k : CoreState) : (s.setCore c k).mtMarked = s.mtMarked := rfl
@[simp] theorem State.setCore_tlbs (s : State) (c : Fin 64) (k : CoreState) : (s.setCore c k).tlbs = s.tlbs := rfl
@[simp] theorem State.setCore_walks (s : State) (c : Fin 64) (k : CoreState) : (s.setCore c k).walks = s.walks := rfl
@[simp] theorem State.setCore_since (s : State) (c : Fin 64) (k : CoreState) : (s.setCore c k).since = s.since := rfl
@[simp] theorem State.setCore_free (s : State) (c : Fin 64) (k : CoreState) : (s.setCore c k).free = s.free := rfl
@[simp] theorem State.setCore_hostOut (s : State) (c : Fin 64) (k : CoreState) : (s.setCore c k).hostOut = s.hostOut := rfl

/-! ### State.setMe -/

@[simp] theorem State.setMe_dies (s : State) (k : CoreState) : (s.setMe k).dies = s.dies := rfl
@[simp] theorem State.setMe_elems (s : State) (k : CoreState) : (s.setMe k).elems = s.elems := rfl
@[simp] theorem State.setMe_tiles (s : State) (k : CoreState) : (s.setMe k).tiles = s.tiles := rfl
@[simp] theorem State.setMe_mt (s : State) (k : CoreState) : (s.setMe k).mt = s.mt := rfl
@[simp] theorem State.setMe_mtChanges (s : State) (k : CoreState) : (s.setMe k).mtChanges = s.mtChanges := rfl
@[simp] theorem State.setMe_mtGen (s : State) (k : CoreState) : (s.setMe k).mtGen = s.mtGen := rfl
@[simp] theorem State.setMe_mem (s : State) (k : CoreState) : (s.setMe k).mem = s.mem := rfl
@[simp] theorem State.setMe_marked (s : State) (k : CoreState) : (s.setMe k).marked = s.marked := rfl
@[simp] theorem State.setMe_doomed (s : State) (k : CoreState) : (s.setMe k).doomed = s.doomed := rfl
@[simp] theorem State.setMe_paths (s : State) (k : CoreState) : (s.setMe k).paths = s.paths := rfl
@[simp] theorem State.setMe_landing (s : State) (k : CoreState) : (s.setMe k).landing = s.landing := rfl
@[simp] theorem State.setMe_pathSets (s : State) (k : CoreState) : (s.setMe k).pathSets = s.pathSets := rfl
@[simp] theorem State.setMe_releases (s : State) (k : CoreState) : (s.setMe k).releases = s.releases := rfl
@[simp] theorem State.setMe_nextId (s : State) (k : CoreState) : (s.setMe k).nextId = s.nextId := rfl
@[simp] theorem State.setMe_stages (s : State) (k : CoreState) : (s.setMe k).stages = s.stages := rfl
@[simp] theorem State.setMe_granted (s : State) (k : CoreState) : (s.setMe k).granted = s.granted := rfl
@[simp] theorem State.setMe_exchanged (s : State) (k : CoreState) : (s.setMe k).exchanged = s.exchanged := rfl
@[simp] theorem State.setMe_rowFaults (s : State) (k : CoreState) : (s.setMe k).rowFaults = s.rowFaults := rfl
@[simp] theorem State.setMe_tileIds (s : State) (k : CoreState) : (s.setMe k).tileIds = s.tileIds := rfl
@[simp] theorem State.setMe_late (s : State) (k : CoreState) : (s.setMe k).late = s.late := rfl
@[simp] theorem State.setMe_tasks (s : State) (k : CoreState) : (s.setMe k).tasks = s.tasks := rfl
@[simp] theorem State.setMe_ert (s : State) (k : CoreState) : (s.setMe k).ert = s.ert := rfl
@[simp] theorem State.setMe_host (s : State) (k : CoreState) : (s.setMe k).host = s.host := rfl
@[simp] theorem State.setMe_eth (s : State) (k : CoreState) : (s.setMe k).eth = s.eth := rfl
@[simp] theorem State.setMe_time (s : State) (k : CoreState) : (s.setMe k).time = s.time := rfl
@[simp] theorem State.setMe_agenda (s : State) (k : CoreState) : (s.setMe k).agenda = s.agenda := rfl
@[simp] theorem State.setMe_cur (s : State) (k : CoreState) : (s.setMe k).cur = s.cur := rfl
@[simp] theorem State.setMe_focus (s : State) (k : CoreState) : (s.setMe k).focus = s.focus := rfl
@[simp] theorem State.setMe_moves (s : State) (k : CoreState) : (s.setMe k).moves = s.moves := rfl
@[simp] theorem State.setMe_mtMarked (s : State) (k : CoreState) : (s.setMe k).mtMarked = s.mtMarked := rfl
@[simp] theorem State.setMe_tlbs (s : State) (k : CoreState) : (s.setMe k).tlbs = s.tlbs := rfl
@[simp] theorem State.setMe_walks (s : State) (k : CoreState) : (s.setMe k).walks = s.walks := rfl
@[simp] theorem State.setMe_since (s : State) (k : CoreState) : (s.setMe k).since = s.since := rfl
@[simp] theorem State.setMe_free (s : State) (k : CoreState) : (s.setMe k).free = s.free := rfl
@[simp] theorem State.setMe_hostOut (s : State) (k : CoreState) : (s.setMe k).hostOut = s.hostOut := rfl

/-! ### State.setPc -/

@[simp] theorem State.setPc_dies (s : State) (v : Word) : (s.setPc v).dies = s.dies := rfl
@[simp] theorem State.setPc_elems (s : State) (v : Word) : (s.setPc v).elems = s.elems := rfl
@[simp] theorem State.setPc_tiles (s : State) (v : Word) : (s.setPc v).tiles = s.tiles := rfl
@[simp] theorem State.setPc_mt (s : State) (v : Word) : (s.setPc v).mt = s.mt := rfl
@[simp] theorem State.setPc_mtChanges (s : State) (v : Word) : (s.setPc v).mtChanges = s.mtChanges := rfl
@[simp] theorem State.setPc_mtGen (s : State) (v : Word) : (s.setPc v).mtGen = s.mtGen := rfl
@[simp] theorem State.setPc_mem (s : State) (v : Word) : (s.setPc v).mem = s.mem := rfl
@[simp] theorem State.setPc_marked (s : State) (v : Word) : (s.setPc v).marked = s.marked := rfl
@[simp] theorem State.setPc_doomed (s : State) (v : Word) : (s.setPc v).doomed = s.doomed := rfl
@[simp] theorem State.setPc_paths (s : State) (v : Word) : (s.setPc v).paths = s.paths := rfl
@[simp] theorem State.setPc_landing (s : State) (v : Word) : (s.setPc v).landing = s.landing := rfl
@[simp] theorem State.setPc_pathSets (s : State) (v : Word) : (s.setPc v).pathSets = s.pathSets := rfl
@[simp] theorem State.setPc_releases (s : State) (v : Word) : (s.setPc v).releases = s.releases := rfl
@[simp] theorem State.setPc_nextId (s : State) (v : Word) : (s.setPc v).nextId = s.nextId := rfl
@[simp] theorem State.setPc_stages (s : State) (v : Word) : (s.setPc v).stages = s.stages := rfl
@[simp] theorem State.setPc_granted (s : State) (v : Word) : (s.setPc v).granted = s.granted := rfl
@[simp] theorem State.setPc_exchanged (s : State) (v : Word) : (s.setPc v).exchanged = s.exchanged := rfl
@[simp] theorem State.setPc_rowFaults (s : State) (v : Word) : (s.setPc v).rowFaults = s.rowFaults := rfl
@[simp] theorem State.setPc_tileIds (s : State) (v : Word) : (s.setPc v).tileIds = s.tileIds := rfl
@[simp] theorem State.setPc_late (s : State) (v : Word) : (s.setPc v).late = s.late := rfl
@[simp] theorem State.setPc_tasks (s : State) (v : Word) : (s.setPc v).tasks = s.tasks := rfl
@[simp] theorem State.setPc_ert (s : State) (v : Word) : (s.setPc v).ert = s.ert := rfl
@[simp] theorem State.setPc_host (s : State) (v : Word) : (s.setPc v).host = s.host := rfl
@[simp] theorem State.setPc_eth (s : State) (v : Word) : (s.setPc v).eth = s.eth := rfl
@[simp] theorem State.setPc_time (s : State) (v : Word) : (s.setPc v).time = s.time := rfl
@[simp] theorem State.setPc_agenda (s : State) (v : Word) : (s.setPc v).agenda = s.agenda := rfl
@[simp] theorem State.setPc_cur (s : State) (v : Word) : (s.setPc v).cur = s.cur := rfl
@[simp] theorem State.setPc_focus (s : State) (v : Word) : (s.setPc v).focus = s.focus := rfl
@[simp] theorem State.setPc_moves (s : State) (v : Word) : (s.setPc v).moves = s.moves := rfl
@[simp] theorem State.setPc_mtMarked (s : State) (v : Word) : (s.setPc v).mtMarked = s.mtMarked := rfl
@[simp] theorem State.setPc_tlbs (s : State) (v : Word) : (s.setPc v).tlbs = s.tlbs := rfl
@[simp] theorem State.setPc_walks (s : State) (v : Word) : (s.setPc v).walks = s.walks := rfl
@[simp] theorem State.setPc_since (s : State) (v : Word) : (s.setPc v).since = s.since := rfl
@[simp] theorem State.setPc_free (s : State) (v : Word) : (s.setPc v).free = s.free := rfl
@[simp] theorem State.setPc_hostOut (s : State) (v : Word) : (s.setPc v).hostOut = s.hostOut := rfl

/-! ### State.advance -/

@[simp] theorem State.advance_dies (s : State) : (s.advance ).dies = s.dies := rfl
@[simp] theorem State.advance_elems (s : State) : (s.advance ).elems = s.elems := rfl
@[simp] theorem State.advance_tiles (s : State) : (s.advance ).tiles = s.tiles := rfl
@[simp] theorem State.advance_mt (s : State) : (s.advance ).mt = s.mt := rfl
@[simp] theorem State.advance_mtChanges (s : State) : (s.advance ).mtChanges = s.mtChanges := rfl
@[simp] theorem State.advance_mtGen (s : State) : (s.advance ).mtGen = s.mtGen := rfl
@[simp] theorem State.advance_mem (s : State) : (s.advance ).mem = s.mem := rfl
@[simp] theorem State.advance_marked (s : State) : (s.advance ).marked = s.marked := rfl
@[simp] theorem State.advance_doomed (s : State) : (s.advance ).doomed = s.doomed := rfl
@[simp] theorem State.advance_paths (s : State) : (s.advance ).paths = s.paths := rfl
@[simp] theorem State.advance_landing (s : State) : (s.advance ).landing = s.landing := rfl
@[simp] theorem State.advance_pathSets (s : State) : (s.advance ).pathSets = s.pathSets := rfl
@[simp] theorem State.advance_releases (s : State) : (s.advance ).releases = s.releases := rfl
@[simp] theorem State.advance_nextId (s : State) : (s.advance ).nextId = s.nextId := rfl
@[simp] theorem State.advance_stages (s : State) : (s.advance ).stages = s.stages := rfl
@[simp] theorem State.advance_granted (s : State) : (s.advance ).granted = s.granted := rfl
@[simp] theorem State.advance_exchanged (s : State) : (s.advance ).exchanged = s.exchanged := rfl
@[simp] theorem State.advance_rowFaults (s : State) : (s.advance ).rowFaults = s.rowFaults := rfl
@[simp] theorem State.advance_tileIds (s : State) : (s.advance ).tileIds = s.tileIds := rfl
@[simp] theorem State.advance_late (s : State) : (s.advance ).late = s.late := rfl
@[simp] theorem State.advance_tasks (s : State) : (s.advance ).tasks = s.tasks := rfl
@[simp] theorem State.advance_ert (s : State) : (s.advance ).ert = s.ert := rfl
@[simp] theorem State.advance_host (s : State) : (s.advance ).host = s.host := rfl
@[simp] theorem State.advance_eth (s : State) : (s.advance ).eth = s.eth := rfl
@[simp] theorem State.advance_time (s : State) : (s.advance ).time = s.time := rfl
@[simp] theorem State.advance_agenda (s : State) : (s.advance ).agenda = s.agenda := rfl
@[simp] theorem State.advance_cur (s : State) : (s.advance ).cur = s.cur := rfl
@[simp] theorem State.advance_focus (s : State) : (s.advance ).focus = s.focus := rfl
@[simp] theorem State.advance_moves (s : State) : (s.advance ).moves = s.moves := rfl
@[simp] theorem State.advance_mtMarked (s : State) : (s.advance ).mtMarked = s.mtMarked := rfl
@[simp] theorem State.advance_tlbs (s : State) : (s.advance ).tlbs = s.tlbs := rfl
@[simp] theorem State.advance_walks (s : State) : (s.advance ).walks = s.walks := rfl
@[simp] theorem State.advance_since (s : State) : (s.advance ).since = s.since := rfl
@[simp] theorem State.advance_free (s : State) : (s.advance ).free = s.free := rfl
@[simp] theorem State.advance_hostOut (s : State) : (s.advance ).hostOut = s.hostOut := rfl

/-! ### State.wr -/

@[simp] theorem State.wr_dies (s : State) (r : Reg) (v : Word) : (s.wr r v).dies = s.dies := rfl
@[simp] theorem State.wr_elems (s : State) (r : Reg) (v : Word) : (s.wr r v).elems = s.elems := rfl
@[simp] theorem State.wr_tiles (s : State) (r : Reg) (v : Word) : (s.wr r v).tiles = s.tiles := rfl
@[simp] theorem State.wr_mt (s : State) (r : Reg) (v : Word) : (s.wr r v).mt = s.mt := rfl
@[simp] theorem State.wr_mtChanges (s : State) (r : Reg) (v : Word) : (s.wr r v).mtChanges = s.mtChanges := rfl
@[simp] theorem State.wr_mtGen (s : State) (r : Reg) (v : Word) : (s.wr r v).mtGen = s.mtGen := rfl
@[simp] theorem State.wr_mem (s : State) (r : Reg) (v : Word) : (s.wr r v).mem = s.mem := rfl
@[simp] theorem State.wr_marked (s : State) (r : Reg) (v : Word) : (s.wr r v).marked = s.marked := rfl
@[simp] theorem State.wr_doomed (s : State) (r : Reg) (v : Word) : (s.wr r v).doomed = s.doomed := rfl
@[simp] theorem State.wr_paths (s : State) (r : Reg) (v : Word) : (s.wr r v).paths = s.paths := rfl
@[simp] theorem State.wr_landing (s : State) (r : Reg) (v : Word) : (s.wr r v).landing = s.landing := rfl
@[simp] theorem State.wr_pathSets (s : State) (r : Reg) (v : Word) : (s.wr r v).pathSets = s.pathSets := rfl
@[simp] theorem State.wr_releases (s : State) (r : Reg) (v : Word) : (s.wr r v).releases = s.releases := rfl
@[simp] theorem State.wr_nextId (s : State) (r : Reg) (v : Word) : (s.wr r v).nextId = s.nextId := rfl
@[simp] theorem State.wr_stages (s : State) (r : Reg) (v : Word) : (s.wr r v).stages = s.stages := rfl
@[simp] theorem State.wr_granted (s : State) (r : Reg) (v : Word) : (s.wr r v).granted = s.granted := rfl
@[simp] theorem State.wr_exchanged (s : State) (r : Reg) (v : Word) : (s.wr r v).exchanged = s.exchanged := rfl
@[simp] theorem State.wr_rowFaults (s : State) (r : Reg) (v : Word) : (s.wr r v).rowFaults = s.rowFaults := rfl
@[simp] theorem State.wr_tileIds (s : State) (r : Reg) (v : Word) : (s.wr r v).tileIds = s.tileIds := rfl
@[simp] theorem State.wr_late (s : State) (r : Reg) (v : Word) : (s.wr r v).late = s.late := rfl
@[simp] theorem State.wr_tasks (s : State) (r : Reg) (v : Word) : (s.wr r v).tasks = s.tasks := rfl
@[simp] theorem State.wr_ert (s : State) (r : Reg) (v : Word) : (s.wr r v).ert = s.ert := rfl
@[simp] theorem State.wr_host (s : State) (r : Reg) (v : Word) : (s.wr r v).host = s.host := rfl
@[simp] theorem State.wr_eth (s : State) (r : Reg) (v : Word) : (s.wr r v).eth = s.eth := rfl
@[simp] theorem State.wr_time (s : State) (r : Reg) (v : Word) : (s.wr r v).time = s.time := rfl
@[simp] theorem State.wr_agenda (s : State) (r : Reg) (v : Word) : (s.wr r v).agenda = s.agenda := rfl
@[simp] theorem State.wr_cur (s : State) (r : Reg) (v : Word) : (s.wr r v).cur = s.cur := rfl
@[simp] theorem State.wr_focus (s : State) (r : Reg) (v : Word) : (s.wr r v).focus = s.focus := rfl
@[simp] theorem State.wr_moves (s : State) (r : Reg) (v : Word) : (s.wr r v).moves = s.moves := rfl
@[simp] theorem State.wr_mtMarked (s : State) (r : Reg) (v : Word) : (s.wr r v).mtMarked = s.mtMarked := rfl
@[simp] theorem State.wr_tlbs (s : State) (r : Reg) (v : Word) : (s.wr r v).tlbs = s.tlbs := rfl
@[simp] theorem State.wr_walks (s : State) (r : Reg) (v : Word) : (s.wr r v).walks = s.walks := rfl
@[simp] theorem State.wr_since (s : State) (r : Reg) (v : Word) : (s.wr r v).since = s.since := rfl
@[simp] theorem State.wr_free (s : State) (r : Reg) (v : Word) : (s.wr r v).free = s.free := rfl
@[simp] theorem State.wr_hostOut (s : State) (r : Reg) (v : Word) : (s.wr r v).hostOut = s.hostOut := rfl

/-! ### State.wrP -/

@[simp] theorem State.wrP_dies (s : State) (p : PReg) (b : Bool) : (s.wrP p b).dies = s.dies := rfl
@[simp] theorem State.wrP_elems (s : State) (p : PReg) (b : Bool) : (s.wrP p b).elems = s.elems := rfl
@[simp] theorem State.wrP_tiles (s : State) (p : PReg) (b : Bool) : (s.wrP p b).tiles = s.tiles := rfl
@[simp] theorem State.wrP_mt (s : State) (p : PReg) (b : Bool) : (s.wrP p b).mt = s.mt := rfl
@[simp] theorem State.wrP_mtChanges (s : State) (p : PReg) (b : Bool) : (s.wrP p b).mtChanges = s.mtChanges := rfl
@[simp] theorem State.wrP_mtGen (s : State) (p : PReg) (b : Bool) : (s.wrP p b).mtGen = s.mtGen := rfl
@[simp] theorem State.wrP_mem (s : State) (p : PReg) (b : Bool) : (s.wrP p b).mem = s.mem := rfl
@[simp] theorem State.wrP_marked (s : State) (p : PReg) (b : Bool) : (s.wrP p b).marked = s.marked := rfl
@[simp] theorem State.wrP_doomed (s : State) (p : PReg) (b : Bool) : (s.wrP p b).doomed = s.doomed := rfl
@[simp] theorem State.wrP_paths (s : State) (p : PReg) (b : Bool) : (s.wrP p b).paths = s.paths := rfl
@[simp] theorem State.wrP_landing (s : State) (p : PReg) (b : Bool) : (s.wrP p b).landing = s.landing := rfl
@[simp] theorem State.wrP_pathSets (s : State) (p : PReg) (b : Bool) : (s.wrP p b).pathSets = s.pathSets := rfl
@[simp] theorem State.wrP_releases (s : State) (p : PReg) (b : Bool) : (s.wrP p b).releases = s.releases := rfl
@[simp] theorem State.wrP_nextId (s : State) (p : PReg) (b : Bool) : (s.wrP p b).nextId = s.nextId := rfl
@[simp] theorem State.wrP_stages (s : State) (p : PReg) (b : Bool) : (s.wrP p b).stages = s.stages := rfl
@[simp] theorem State.wrP_granted (s : State) (p : PReg) (b : Bool) : (s.wrP p b).granted = s.granted := rfl
@[simp] theorem State.wrP_exchanged (s : State) (p : PReg) (b : Bool) : (s.wrP p b).exchanged = s.exchanged := rfl
@[simp] theorem State.wrP_rowFaults (s : State) (p : PReg) (b : Bool) : (s.wrP p b).rowFaults = s.rowFaults := rfl
@[simp] theorem State.wrP_tileIds (s : State) (p : PReg) (b : Bool) : (s.wrP p b).tileIds = s.tileIds := rfl
@[simp] theorem State.wrP_late (s : State) (p : PReg) (b : Bool) : (s.wrP p b).late = s.late := rfl
@[simp] theorem State.wrP_tasks (s : State) (p : PReg) (b : Bool) : (s.wrP p b).tasks = s.tasks := rfl
@[simp] theorem State.wrP_ert (s : State) (p : PReg) (b : Bool) : (s.wrP p b).ert = s.ert := rfl
@[simp] theorem State.wrP_host (s : State) (p : PReg) (b : Bool) : (s.wrP p b).host = s.host := rfl
@[simp] theorem State.wrP_eth (s : State) (p : PReg) (b : Bool) : (s.wrP p b).eth = s.eth := rfl
@[simp] theorem State.wrP_time (s : State) (p : PReg) (b : Bool) : (s.wrP p b).time = s.time := rfl
@[simp] theorem State.wrP_agenda (s : State) (p : PReg) (b : Bool) : (s.wrP p b).agenda = s.agenda := rfl
@[simp] theorem State.wrP_cur (s : State) (p : PReg) (b : Bool) : (s.wrP p b).cur = s.cur := rfl
@[simp] theorem State.wrP_focus (s : State) (p : PReg) (b : Bool) : (s.wrP p b).focus = s.focus := rfl
@[simp] theorem State.wrP_moves (s : State) (p : PReg) (b : Bool) : (s.wrP p b).moves = s.moves := rfl
@[simp] theorem State.wrP_mtMarked (s : State) (p : PReg) (b : Bool) : (s.wrP p b).mtMarked = s.mtMarked := rfl
@[simp] theorem State.wrP_tlbs (s : State) (p : PReg) (b : Bool) : (s.wrP p b).tlbs = s.tlbs := rfl
@[simp] theorem State.wrP_walks (s : State) (p : PReg) (b : Bool) : (s.wrP p b).walks = s.walks := rfl
@[simp] theorem State.wrP_since (s : State) (p : PReg) (b : Bool) : (s.wrP p b).since = s.since := rfl
@[simp] theorem State.wrP_free (s : State) (p : PReg) (b : Bool) : (s.wrP p b).free = s.free := rfl
@[simp] theorem State.wrP_hostOut (s : State) (p : PReg) (b : Bool) : (s.wrP p b).hostOut = s.hostOut := rfl

/-! ### State.setDie -/

@[simp] theorem State.setDie_cores (s : State) (d : Fin 4) (k : Die) : (s.setDie d k).cores = s.cores := rfl
@[simp] theorem State.setDie_elems (s : State) (d : Fin 4) (k : Die) : (s.setDie d k).elems = s.elems := rfl
@[simp] theorem State.setDie_tiles (s : State) (d : Fin 4) (k : Die) : (s.setDie d k).tiles = s.tiles := rfl
@[simp] theorem State.setDie_mt (s : State) (d : Fin 4) (k : Die) : (s.setDie d k).mt = s.mt := rfl
@[simp] theorem State.setDie_mtChanges (s : State) (d : Fin 4) (k : Die) : (s.setDie d k).mtChanges = s.mtChanges := rfl
@[simp] theorem State.setDie_mtGen (s : State) (d : Fin 4) (k : Die) : (s.setDie d k).mtGen = s.mtGen := rfl
@[simp] theorem State.setDie_mem (s : State) (d : Fin 4) (k : Die) : (s.setDie d k).mem = s.mem := rfl
@[simp] theorem State.setDie_marked (s : State) (d : Fin 4) (k : Die) : (s.setDie d k).marked = s.marked := rfl
@[simp] theorem State.setDie_doomed (s : State) (d : Fin 4) (k : Die) : (s.setDie d k).doomed = s.doomed := rfl
@[simp] theorem State.setDie_paths (s : State) (d : Fin 4) (k : Die) : (s.setDie d k).paths = s.paths := rfl
@[simp] theorem State.setDie_landing (s : State) (d : Fin 4) (k : Die) : (s.setDie d k).landing = s.landing := rfl
@[simp] theorem State.setDie_pathSets (s : State) (d : Fin 4) (k : Die) : (s.setDie d k).pathSets = s.pathSets := rfl
@[simp] theorem State.setDie_releases (s : State) (d : Fin 4) (k : Die) : (s.setDie d k).releases = s.releases := rfl
@[simp] theorem State.setDie_nextId (s : State) (d : Fin 4) (k : Die) : (s.setDie d k).nextId = s.nextId := rfl
@[simp] theorem State.setDie_stages (s : State) (d : Fin 4) (k : Die) : (s.setDie d k).stages = s.stages := rfl
@[simp] theorem State.setDie_granted (s : State) (d : Fin 4) (k : Die) : (s.setDie d k).granted = s.granted := rfl
@[simp] theorem State.setDie_exchanged (s : State) (d : Fin 4) (k : Die) : (s.setDie d k).exchanged = s.exchanged := rfl
@[simp] theorem State.setDie_rowFaults (s : State) (d : Fin 4) (k : Die) : (s.setDie d k).rowFaults = s.rowFaults := rfl
@[simp] theorem State.setDie_tileIds (s : State) (d : Fin 4) (k : Die) : (s.setDie d k).tileIds = s.tileIds := rfl
@[simp] theorem State.setDie_late (s : State) (d : Fin 4) (k : Die) : (s.setDie d k).late = s.late := rfl
@[simp] theorem State.setDie_tasks (s : State) (d : Fin 4) (k : Die) : (s.setDie d k).tasks = s.tasks := rfl
@[simp] theorem State.setDie_ert (s : State) (d : Fin 4) (k : Die) : (s.setDie d k).ert = s.ert := rfl
@[simp] theorem State.setDie_host (s : State) (d : Fin 4) (k : Die) : (s.setDie d k).host = s.host := rfl
@[simp] theorem State.setDie_eth (s : State) (d : Fin 4) (k : Die) : (s.setDie d k).eth = s.eth := rfl
@[simp] theorem State.setDie_time (s : State) (d : Fin 4) (k : Die) : (s.setDie d k).time = s.time := rfl
@[simp] theorem State.setDie_agenda (s : State) (d : Fin 4) (k : Die) : (s.setDie d k).agenda = s.agenda := rfl
@[simp] theorem State.setDie_cur (s : State) (d : Fin 4) (k : Die) : (s.setDie d k).cur = s.cur := rfl
@[simp] theorem State.setDie_focus (s : State) (d : Fin 4) (k : Die) : (s.setDie d k).focus = s.focus := rfl
@[simp] theorem State.setDie_moves (s : State) (d : Fin 4) (k : Die) : (s.setDie d k).moves = s.moves := rfl
@[simp] theorem State.setDie_mtMarked (s : State) (d : Fin 4) (k : Die) : (s.setDie d k).mtMarked = s.mtMarked := rfl
@[simp] theorem State.setDie_tlbs (s : State) (d : Fin 4) (k : Die) : (s.setDie d k).tlbs = s.tlbs := rfl
@[simp] theorem State.setDie_walks (s : State) (d : Fin 4) (k : Die) : (s.setDie d k).walks = s.walks := rfl
@[simp] theorem State.setDie_since (s : State) (d : Fin 4) (k : Die) : (s.setDie d k).since = s.since := rfl
@[simp] theorem State.setDie_free (s : State) (d : Fin 4) (k : Die) : (s.setDie d k).free = s.free := rfl
@[simp] theorem State.setDie_hostOut (s : State) (d : Fin 4) (k : Die) : (s.setDie d k).hostOut = s.hostOut := rfl

/-! ### State.setRegion -/

@[simp] theorem State.setRegion_cores (s : State) (d : Fin 4) (r : Fin 16) (v : Region) : (s.setRegion d r v).cores = s.cores := rfl
@[simp] theorem State.setRegion_elems (s : State) (d : Fin 4) (r : Fin 16) (v : Region) : (s.setRegion d r v).elems = s.elems := rfl
@[simp] theorem State.setRegion_tiles (s : State) (d : Fin 4) (r : Fin 16) (v : Region) : (s.setRegion d r v).tiles = s.tiles := rfl
@[simp] theorem State.setRegion_mt (s : State) (d : Fin 4) (r : Fin 16) (v : Region) : (s.setRegion d r v).mt = s.mt := rfl
@[simp] theorem State.setRegion_mtChanges (s : State) (d : Fin 4) (r : Fin 16) (v : Region) : (s.setRegion d r v).mtChanges = s.mtChanges := rfl
@[simp] theorem State.setRegion_mtGen (s : State) (d : Fin 4) (r : Fin 16) (v : Region) : (s.setRegion d r v).mtGen = s.mtGen := rfl
@[simp] theorem State.setRegion_mem (s : State) (d : Fin 4) (r : Fin 16) (v : Region) : (s.setRegion d r v).mem = s.mem := rfl
@[simp] theorem State.setRegion_marked (s : State) (d : Fin 4) (r : Fin 16) (v : Region) : (s.setRegion d r v).marked = s.marked := rfl
@[simp] theorem State.setRegion_doomed (s : State) (d : Fin 4) (r : Fin 16) (v : Region) : (s.setRegion d r v).doomed = s.doomed := rfl
@[simp] theorem State.setRegion_paths (s : State) (d : Fin 4) (r : Fin 16) (v : Region) : (s.setRegion d r v).paths = s.paths := rfl
@[simp] theorem State.setRegion_landing (s : State) (d : Fin 4) (r : Fin 16) (v : Region) : (s.setRegion d r v).landing = s.landing := rfl
@[simp] theorem State.setRegion_pathSets (s : State) (d : Fin 4) (r : Fin 16) (v : Region) : (s.setRegion d r v).pathSets = s.pathSets := rfl
@[simp] theorem State.setRegion_releases (s : State) (d : Fin 4) (r : Fin 16) (v : Region) : (s.setRegion d r v).releases = s.releases := rfl
@[simp] theorem State.setRegion_nextId (s : State) (d : Fin 4) (r : Fin 16) (v : Region) : (s.setRegion d r v).nextId = s.nextId := rfl
@[simp] theorem State.setRegion_stages (s : State) (d : Fin 4) (r : Fin 16) (v : Region) : (s.setRegion d r v).stages = s.stages := rfl
@[simp] theorem State.setRegion_granted (s : State) (d : Fin 4) (r : Fin 16) (v : Region) : (s.setRegion d r v).granted = s.granted := rfl
@[simp] theorem State.setRegion_exchanged (s : State) (d : Fin 4) (r : Fin 16) (v : Region) : (s.setRegion d r v).exchanged = s.exchanged := rfl
@[simp] theorem State.setRegion_rowFaults (s : State) (d : Fin 4) (r : Fin 16) (v : Region) : (s.setRegion d r v).rowFaults = s.rowFaults := rfl
@[simp] theorem State.setRegion_tileIds (s : State) (d : Fin 4) (r : Fin 16) (v : Region) : (s.setRegion d r v).tileIds = s.tileIds := rfl
@[simp] theorem State.setRegion_late (s : State) (d : Fin 4) (r : Fin 16) (v : Region) : (s.setRegion d r v).late = s.late := rfl
@[simp] theorem State.setRegion_tasks (s : State) (d : Fin 4) (r : Fin 16) (v : Region) : (s.setRegion d r v).tasks = s.tasks := rfl
@[simp] theorem State.setRegion_ert (s : State) (d : Fin 4) (r : Fin 16) (v : Region) : (s.setRegion d r v).ert = s.ert := rfl
@[simp] theorem State.setRegion_host (s : State) (d : Fin 4) (r : Fin 16) (v : Region) : (s.setRegion d r v).host = s.host := rfl
@[simp] theorem State.setRegion_eth (s : State) (d : Fin 4) (r : Fin 16) (v : Region) : (s.setRegion d r v).eth = s.eth := rfl
@[simp] theorem State.setRegion_time (s : State) (d : Fin 4) (r : Fin 16) (v : Region) : (s.setRegion d r v).time = s.time := rfl
@[simp] theorem State.setRegion_agenda (s : State) (d : Fin 4) (r : Fin 16) (v : Region) : (s.setRegion d r v).agenda = s.agenda := rfl
@[simp] theorem State.setRegion_cur (s : State) (d : Fin 4) (r : Fin 16) (v : Region) : (s.setRegion d r v).cur = s.cur := rfl
@[simp] theorem State.setRegion_focus (s : State) (d : Fin 4) (r : Fin 16) (v : Region) : (s.setRegion d r v).focus = s.focus := rfl
@[simp] theorem State.setRegion_moves (s : State) (d : Fin 4) (r : Fin 16) (v : Region) : (s.setRegion d r v).moves = s.moves := rfl
@[simp] theorem State.setRegion_mtMarked (s : State) (d : Fin 4) (r : Fin 16) (v : Region) : (s.setRegion d r v).mtMarked = s.mtMarked := rfl
@[simp] theorem State.setRegion_tlbs (s : State) (d : Fin 4) (r : Fin 16) (v : Region) : (s.setRegion d r v).tlbs = s.tlbs := rfl
@[simp] theorem State.setRegion_walks (s : State) (d : Fin 4) (r : Fin 16) (v : Region) : (s.setRegion d r v).walks = s.walks := rfl
@[simp] theorem State.setRegion_since (s : State) (d : Fin 4) (r : Fin 16) (v : Region) : (s.setRegion d r v).since = s.since := rfl
@[simp] theorem State.setRegion_free (s : State) (d : Fin 4) (r : Fin 16) (v : Region) : (s.setRegion d r v).free = s.free := rfl
@[simp] theorem State.setRegion_hostOut (s : State) (d : Fin 4) (r : Fin 16) (v : Region) : (s.setRegion d r v).hostOut = s.hostOut := rfl

/-! ### State.setElem -/

@[simp] theorem State.setElem_cores (s : State) (a : ElemAt) (e : Elem) : (s.setElem a e).cores = s.cores := rfl
@[simp] theorem State.setElem_dies (s : State) (a : ElemAt) (e : Elem) : (s.setElem a e).dies = s.dies := rfl
@[simp] theorem State.setElem_tiles (s : State) (a : ElemAt) (e : Elem) : (s.setElem a e).tiles = s.tiles := rfl
@[simp] theorem State.setElem_mt (s : State) (a : ElemAt) (e : Elem) : (s.setElem a e).mt = s.mt := rfl
@[simp] theorem State.setElem_mtChanges (s : State) (a : ElemAt) (e : Elem) : (s.setElem a e).mtChanges = s.mtChanges := rfl
@[simp] theorem State.setElem_mtGen (s : State) (a : ElemAt) (e : Elem) : (s.setElem a e).mtGen = s.mtGen := rfl
@[simp] theorem State.setElem_mem (s : State) (a : ElemAt) (e : Elem) : (s.setElem a e).mem = s.mem := rfl
@[simp] theorem State.setElem_marked (s : State) (a : ElemAt) (e : Elem) : (s.setElem a e).marked = s.marked := rfl
@[simp] theorem State.setElem_doomed (s : State) (a : ElemAt) (e : Elem) : (s.setElem a e).doomed = s.doomed := rfl
@[simp] theorem State.setElem_paths (s : State) (a : ElemAt) (e : Elem) : (s.setElem a e).paths = s.paths := rfl
@[simp] theorem State.setElem_landing (s : State) (a : ElemAt) (e : Elem) : (s.setElem a e).landing = s.landing := rfl
@[simp] theorem State.setElem_pathSets (s : State) (a : ElemAt) (e : Elem) : (s.setElem a e).pathSets = s.pathSets := rfl
@[simp] theorem State.setElem_releases (s : State) (a : ElemAt) (e : Elem) : (s.setElem a e).releases = s.releases := rfl
@[simp] theorem State.setElem_nextId (s : State) (a : ElemAt) (e : Elem) : (s.setElem a e).nextId = s.nextId := rfl
@[simp] theorem State.setElem_stages (s : State) (a : ElemAt) (e : Elem) : (s.setElem a e).stages = s.stages := rfl
@[simp] theorem State.setElem_granted (s : State) (a : ElemAt) (e : Elem) : (s.setElem a e).granted = s.granted := rfl
@[simp] theorem State.setElem_exchanged (s : State) (a : ElemAt) (e : Elem) : (s.setElem a e).exchanged = s.exchanged := rfl
@[simp] theorem State.setElem_rowFaults (s : State) (a : ElemAt) (e : Elem) : (s.setElem a e).rowFaults = s.rowFaults := rfl
@[simp] theorem State.setElem_tileIds (s : State) (a : ElemAt) (e : Elem) : (s.setElem a e).tileIds = s.tileIds := rfl
@[simp] theorem State.setElem_late (s : State) (a : ElemAt) (e : Elem) : (s.setElem a e).late = s.late := rfl
@[simp] theorem State.setElem_tasks (s : State) (a : ElemAt) (e : Elem) : (s.setElem a e).tasks = s.tasks := rfl
@[simp] theorem State.setElem_ert (s : State) (a : ElemAt) (e : Elem) : (s.setElem a e).ert = s.ert := rfl
@[simp] theorem State.setElem_host (s : State) (a : ElemAt) (e : Elem) : (s.setElem a e).host = s.host := rfl
@[simp] theorem State.setElem_eth (s : State) (a : ElemAt) (e : Elem) : (s.setElem a e).eth = s.eth := rfl
@[simp] theorem State.setElem_time (s : State) (a : ElemAt) (e : Elem) : (s.setElem a e).time = s.time := rfl
@[simp] theorem State.setElem_agenda (s : State) (a : ElemAt) (e : Elem) : (s.setElem a e).agenda = s.agenda := rfl
@[simp] theorem State.setElem_cur (s : State) (a : ElemAt) (e : Elem) : (s.setElem a e).cur = s.cur := rfl
@[simp] theorem State.setElem_focus (s : State) (a : ElemAt) (e : Elem) : (s.setElem a e).focus = s.focus := rfl
@[simp] theorem State.setElem_moves (s : State) (a : ElemAt) (e : Elem) : (s.setElem a e).moves = s.moves := rfl
@[simp] theorem State.setElem_mtMarked (s : State) (a : ElemAt) (e : Elem) : (s.setElem a e).mtMarked = s.mtMarked := rfl
@[simp] theorem State.setElem_tlbs (s : State) (a : ElemAt) (e : Elem) : (s.setElem a e).tlbs = s.tlbs := rfl
@[simp] theorem State.setElem_walks (s : State) (a : ElemAt) (e : Elem) : (s.setElem a e).walks = s.walks := rfl
@[simp] theorem State.setElem_since (s : State) (a : ElemAt) (e : Elem) : (s.setElem a e).since = s.since := rfl
@[simp] theorem State.setElem_free (s : State) (a : ElemAt) (e : Elem) : (s.setElem a e).free = s.free := rfl
@[simp] theorem State.setElem_hostOut (s : State) (a : ElemAt) (e : Elem) : (s.setElem a e).hostOut = s.hostOut := rfl

/-! ### State.setTile -/

@[simp] theorem State.setTile_cores (s : State) (d : Fin 4) (x y : Nat) (t : Tile) : (s.setTile d x y t).cores = s.cores := rfl
@[simp] theorem State.setTile_dies (s : State) (d : Fin 4) (x y : Nat) (t : Tile) : (s.setTile d x y t).dies = s.dies := rfl
@[simp] theorem State.setTile_elems (s : State) (d : Fin 4) (x y : Nat) (t : Tile) : (s.setTile d x y t).elems = s.elems := rfl
@[simp] theorem State.setTile_mt (s : State) (d : Fin 4) (x y : Nat) (t : Tile) : (s.setTile d x y t).mt = s.mt := rfl
@[simp] theorem State.setTile_mtChanges (s : State) (d : Fin 4) (x y : Nat) (t : Tile) : (s.setTile d x y t).mtChanges = s.mtChanges := rfl
@[simp] theorem State.setTile_mtGen (s : State) (d : Fin 4) (x y : Nat) (t : Tile) : (s.setTile d x y t).mtGen = s.mtGen := rfl
@[simp] theorem State.setTile_mem (s : State) (d : Fin 4) (x y : Nat) (t : Tile) : (s.setTile d x y t).mem = s.mem := rfl
@[simp] theorem State.setTile_marked (s : State) (d : Fin 4) (x y : Nat) (t : Tile) : (s.setTile d x y t).marked = s.marked := rfl
@[simp] theorem State.setTile_doomed (s : State) (d : Fin 4) (x y : Nat) (t : Tile) : (s.setTile d x y t).doomed = s.doomed := rfl
@[simp] theorem State.setTile_paths (s : State) (d : Fin 4) (x y : Nat) (t : Tile) : (s.setTile d x y t).paths = s.paths := rfl
@[simp] theorem State.setTile_landing (s : State) (d : Fin 4) (x y : Nat) (t : Tile) : (s.setTile d x y t).landing = s.landing := rfl
@[simp] theorem State.setTile_pathSets (s : State) (d : Fin 4) (x y : Nat) (t : Tile) : (s.setTile d x y t).pathSets = s.pathSets := rfl
@[simp] theorem State.setTile_releases (s : State) (d : Fin 4) (x y : Nat) (t : Tile) : (s.setTile d x y t).releases = s.releases := rfl
@[simp] theorem State.setTile_nextId (s : State) (d : Fin 4) (x y : Nat) (t : Tile) : (s.setTile d x y t).nextId = s.nextId := rfl
@[simp] theorem State.setTile_stages (s : State) (d : Fin 4) (x y : Nat) (t : Tile) : (s.setTile d x y t).stages = s.stages := rfl
@[simp] theorem State.setTile_granted (s : State) (d : Fin 4) (x y : Nat) (t : Tile) : (s.setTile d x y t).granted = s.granted := rfl
@[simp] theorem State.setTile_exchanged (s : State) (d : Fin 4) (x y : Nat) (t : Tile) : (s.setTile d x y t).exchanged = s.exchanged := rfl
@[simp] theorem State.setTile_rowFaults (s : State) (d : Fin 4) (x y : Nat) (t : Tile) : (s.setTile d x y t).rowFaults = s.rowFaults := rfl
@[simp] theorem State.setTile_tileIds (s : State) (d : Fin 4) (x y : Nat) (t : Tile) : (s.setTile d x y t).tileIds = s.tileIds := rfl
@[simp] theorem State.setTile_late (s : State) (d : Fin 4) (x y : Nat) (t : Tile) : (s.setTile d x y t).late = s.late := rfl
@[simp] theorem State.setTile_tasks (s : State) (d : Fin 4) (x y : Nat) (t : Tile) : (s.setTile d x y t).tasks = s.tasks := rfl
@[simp] theorem State.setTile_ert (s : State) (d : Fin 4) (x y : Nat) (t : Tile) : (s.setTile d x y t).ert = s.ert := rfl
@[simp] theorem State.setTile_host (s : State) (d : Fin 4) (x y : Nat) (t : Tile) : (s.setTile d x y t).host = s.host := rfl
@[simp] theorem State.setTile_eth (s : State) (d : Fin 4) (x y : Nat) (t : Tile) : (s.setTile d x y t).eth = s.eth := rfl
@[simp] theorem State.setTile_time (s : State) (d : Fin 4) (x y : Nat) (t : Tile) : (s.setTile d x y t).time = s.time := rfl
@[simp] theorem State.setTile_agenda (s : State) (d : Fin 4) (x y : Nat) (t : Tile) : (s.setTile d x y t).agenda = s.agenda := rfl
@[simp] theorem State.setTile_cur (s : State) (d : Fin 4) (x y : Nat) (t : Tile) : (s.setTile d x y t).cur = s.cur := rfl
@[simp] theorem State.setTile_focus (s : State) (d : Fin 4) (x y : Nat) (t : Tile) : (s.setTile d x y t).focus = s.focus := rfl
@[simp] theorem State.setTile_moves (s : State) (d : Fin 4) (x y : Nat) (t : Tile) : (s.setTile d x y t).moves = s.moves := rfl
@[simp] theorem State.setTile_mtMarked (s : State) (d : Fin 4) (x y : Nat) (t : Tile) : (s.setTile d x y t).mtMarked = s.mtMarked := rfl
@[simp] theorem State.setTile_tlbs (s : State) (d : Fin 4) (x y : Nat) (t : Tile) : (s.setTile d x y t).tlbs = s.tlbs := rfl
@[simp] theorem State.setTile_walks (s : State) (d : Fin 4) (x y : Nat) (t : Tile) : (s.setTile d x y t).walks = s.walks := rfl
@[simp] theorem State.setTile_since (s : State) (d : Fin 4) (x y : Nat) (t : Tile) : (s.setTile d x y t).since = s.since := rfl
@[simp] theorem State.setTile_free (s : State) (d : Fin 4) (x y : Nat) (t : Tile) : (s.setTile d x y t).free = s.free := rfl
@[simp] theorem State.setTile_hostOut (s : State) (d : Fin 4) (x y : Nat) (t : Tile) : (s.setTile d x y t).hostOut = s.hostOut := rfl

/-! ### State.setPath -/

@[simp] theorem State.setPath_cores (s : State) (p : PathId) (l : List PathItem) : (s.setPath p l).cores = s.cores := rfl
@[simp] theorem State.setPath_dies (s : State) (p : PathId) (l : List PathItem) : (s.setPath p l).dies = s.dies := rfl
@[simp] theorem State.setPath_elems (s : State) (p : PathId) (l : List PathItem) : (s.setPath p l).elems = s.elems := rfl
@[simp] theorem State.setPath_tiles (s : State) (p : PathId) (l : List PathItem) : (s.setPath p l).tiles = s.tiles := rfl
@[simp] theorem State.setPath_mt (s : State) (p : PathId) (l : List PathItem) : (s.setPath p l).mt = s.mt := rfl
@[simp] theorem State.setPath_mtChanges (s : State) (p : PathId) (l : List PathItem) : (s.setPath p l).mtChanges = s.mtChanges := rfl
@[simp] theorem State.setPath_mtGen (s : State) (p : PathId) (l : List PathItem) : (s.setPath p l).mtGen = s.mtGen := rfl
@[simp] theorem State.setPath_mem (s : State) (p : PathId) (l : List PathItem) : (s.setPath p l).mem = s.mem := rfl
@[simp] theorem State.setPath_marked (s : State) (p : PathId) (l : List PathItem) : (s.setPath p l).marked = s.marked := rfl
@[simp] theorem State.setPath_doomed (s : State) (p : PathId) (l : List PathItem) : (s.setPath p l).doomed = s.doomed := rfl
@[simp] theorem State.setPath_landing (s : State) (p : PathId) (l : List PathItem) : (s.setPath p l).landing = s.landing := rfl
@[simp] theorem State.setPath_pathSets (s : State) (p : PathId) (l : List PathItem) : (s.setPath p l).pathSets = s.pathSets := rfl
@[simp] theorem State.setPath_releases (s : State) (p : PathId) (l : List PathItem) : (s.setPath p l).releases = s.releases := rfl
@[simp] theorem State.setPath_nextId (s : State) (p : PathId) (l : List PathItem) : (s.setPath p l).nextId = s.nextId := rfl
@[simp] theorem State.setPath_stages (s : State) (p : PathId) (l : List PathItem) : (s.setPath p l).stages = s.stages := rfl
@[simp] theorem State.setPath_granted (s : State) (p : PathId) (l : List PathItem) : (s.setPath p l).granted = s.granted := rfl
@[simp] theorem State.setPath_exchanged (s : State) (p : PathId) (l : List PathItem) : (s.setPath p l).exchanged = s.exchanged := rfl
@[simp] theorem State.setPath_rowFaults (s : State) (p : PathId) (l : List PathItem) : (s.setPath p l).rowFaults = s.rowFaults := rfl
@[simp] theorem State.setPath_tileIds (s : State) (p : PathId) (l : List PathItem) : (s.setPath p l).tileIds = s.tileIds := rfl
@[simp] theorem State.setPath_late (s : State) (p : PathId) (l : List PathItem) : (s.setPath p l).late = s.late := rfl
@[simp] theorem State.setPath_tasks (s : State) (p : PathId) (l : List PathItem) : (s.setPath p l).tasks = s.tasks := rfl
@[simp] theorem State.setPath_ert (s : State) (p : PathId) (l : List PathItem) : (s.setPath p l).ert = s.ert := rfl
@[simp] theorem State.setPath_host (s : State) (p : PathId) (l : List PathItem) : (s.setPath p l).host = s.host := rfl
@[simp] theorem State.setPath_eth (s : State) (p : PathId) (l : List PathItem) : (s.setPath p l).eth = s.eth := rfl
@[simp] theorem State.setPath_time (s : State) (p : PathId) (l : List PathItem) : (s.setPath p l).time = s.time := rfl
@[simp] theorem State.setPath_agenda (s : State) (p : PathId) (l : List PathItem) : (s.setPath p l).agenda = s.agenda := rfl
@[simp] theorem State.setPath_cur (s : State) (p : PathId) (l : List PathItem) : (s.setPath p l).cur = s.cur := rfl
@[simp] theorem State.setPath_focus (s : State) (p : PathId) (l : List PathItem) : (s.setPath p l).focus = s.focus := rfl
@[simp] theorem State.setPath_moves (s : State) (p : PathId) (l : List PathItem) : (s.setPath p l).moves = s.moves := rfl
@[simp] theorem State.setPath_mtMarked (s : State) (p : PathId) (l : List PathItem) : (s.setPath p l).mtMarked = s.mtMarked := rfl
@[simp] theorem State.setPath_tlbs (s : State) (p : PathId) (l : List PathItem) : (s.setPath p l).tlbs = s.tlbs := rfl
@[simp] theorem State.setPath_walks (s : State) (p : PathId) (l : List PathItem) : (s.setPath p l).walks = s.walks := rfl
@[simp] theorem State.setPath_since (s : State) (p : PathId) (l : List PathItem) : (s.setPath p l).since = s.since := rfl
@[simp] theorem State.setPath_free (s : State) (p : PathId) (l : List PathItem) : (s.setPath p l).free = s.free := rfl
@[simp] theorem State.setPath_hostOut (s : State) (p : PathId) (l : List PathItem) : (s.setPath p l).hostOut = s.hostOut := rfl

/-! ### State.report -/

@[simp] theorem State.report_cores (s : State) (e : EventRec) : (s.report e).cores = s.cores := rfl
@[simp] theorem State.report_dies (s : State) (e : EventRec) : (s.report e).dies = s.dies := rfl
@[simp] theorem State.report_elems (s : State) (e : EventRec) : (s.report e).elems = s.elems := rfl
@[simp] theorem State.report_tiles (s : State) (e : EventRec) : (s.report e).tiles = s.tiles := rfl
@[simp] theorem State.report_mt (s : State) (e : EventRec) : (s.report e).mt = s.mt := rfl
@[simp] theorem State.report_mtChanges (s : State) (e : EventRec) : (s.report e).mtChanges = s.mtChanges := rfl
@[simp] theorem State.report_mtGen (s : State) (e : EventRec) : (s.report e).mtGen = s.mtGen := rfl
@[simp] theorem State.report_mem (s : State) (e : EventRec) : (s.report e).mem = s.mem := rfl
@[simp] theorem State.report_marked (s : State) (e : EventRec) : (s.report e).marked = s.marked := rfl
@[simp] theorem State.report_doomed (s : State) (e : EventRec) : (s.report e).doomed = s.doomed := rfl
@[simp] theorem State.report_paths (s : State) (e : EventRec) : (s.report e).paths = s.paths := rfl
@[simp] theorem State.report_landing (s : State) (e : EventRec) : (s.report e).landing = s.landing := rfl
@[simp] theorem State.report_pathSets (s : State) (e : EventRec) : (s.report e).pathSets = s.pathSets := rfl
@[simp] theorem State.report_releases (s : State) (e : EventRec) : (s.report e).releases = s.releases := rfl
@[simp] theorem State.report_nextId (s : State) (e : EventRec) : (s.report e).nextId = s.nextId := rfl
@[simp] theorem State.report_stages (s : State) (e : EventRec) : (s.report e).stages = s.stages := rfl
@[simp] theorem State.report_granted (s : State) (e : EventRec) : (s.report e).granted = s.granted := rfl
@[simp] theorem State.report_exchanged (s : State) (e : EventRec) : (s.report e).exchanged = s.exchanged := rfl
@[simp] theorem State.report_rowFaults (s : State) (e : EventRec) : (s.report e).rowFaults = s.rowFaults := rfl
@[simp] theorem State.report_tileIds (s : State) (e : EventRec) : (s.report e).tileIds = s.tileIds := rfl
@[simp] theorem State.report_late (s : State) (e : EventRec) : (s.report e).late = s.late := rfl
@[simp] theorem State.report_tasks (s : State) (e : EventRec) : (s.report e).tasks = s.tasks := rfl
@[simp] theorem State.report_ert (s : State) (e : EventRec) : (s.report e).ert = s.ert := rfl
@[simp] theorem State.report_eth (s : State) (e : EventRec) : (s.report e).eth = s.eth := rfl
@[simp] theorem State.report_time (s : State) (e : EventRec) : (s.report e).time = s.time := rfl
@[simp] theorem State.report_agenda (s : State) (e : EventRec) : (s.report e).agenda = s.agenda := rfl
@[simp] theorem State.report_cur (s : State) (e : EventRec) : (s.report e).cur = s.cur := rfl
@[simp] theorem State.report_focus (s : State) (e : EventRec) : (s.report e).focus = s.focus := rfl
@[simp] theorem State.report_moves (s : State) (e : EventRec) : (s.report e).moves = s.moves := rfl
@[simp] theorem State.report_mtMarked (s : State) (e : EventRec) : (s.report e).mtMarked = s.mtMarked := rfl
@[simp] theorem State.report_tlbs (s : State) (e : EventRec) : (s.report e).tlbs = s.tlbs := rfl
@[simp] theorem State.report_walks (s : State) (e : EventRec) : (s.report e).walks = s.walks := rfl
@[simp] theorem State.report_since (s : State) (e : EventRec) : (s.report e).since = s.since := rfl
@[simp] theorem State.report_free (s : State) (e : EventRec) : (s.report e).free = s.free := rfl
@[simp] theorem State.report_hostOut (s : State) (e : EventRec) : (s.report e).hostOut = s.hostOut := rfl

/-! ### State.setHome -/

@[simp] theorem State.setHome_cores (s : State) (w : GWrite) : (s.setHome w).cores = s.cores := rfl
@[simp] theorem State.setHome_dies (s : State) (w : GWrite) : (s.setHome w).dies = s.dies := rfl
@[simp] theorem State.setHome_elems (s : State) (w : GWrite) : (s.setHome w).elems = s.elems := rfl
@[simp] theorem State.setHome_tiles (s : State) (w : GWrite) : (s.setHome w).tiles = s.tiles := rfl
@[simp] theorem State.setHome_mt (s : State) (w : GWrite) : (s.setHome w).mt = s.mt := rfl
@[simp] theorem State.setHome_mtChanges (s : State) (w : GWrite) : (s.setHome w).mtChanges = s.mtChanges := rfl
@[simp] theorem State.setHome_mtGen (s : State) (w : GWrite) : (s.setHome w).mtGen = s.mtGen := rfl
@[simp] theorem State.setHome_doomed (s : State) (w : GWrite) : (s.setHome w).doomed = s.doomed := rfl
@[simp] theorem State.setHome_paths (s : State) (w : GWrite) : (s.setHome w).paths = s.paths := rfl
@[simp] theorem State.setHome_landing (s : State) (w : GWrite) : (s.setHome w).landing = s.landing := rfl
@[simp] theorem State.setHome_pathSets (s : State) (w : GWrite) : (s.setHome w).pathSets = s.pathSets := rfl
@[simp] theorem State.setHome_releases (s : State) (w : GWrite) : (s.setHome w).releases = s.releases := rfl
@[simp] theorem State.setHome_nextId (s : State) (w : GWrite) : (s.setHome w).nextId = s.nextId := rfl
@[simp] theorem State.setHome_stages (s : State) (w : GWrite) : (s.setHome w).stages = s.stages := rfl
@[simp] theorem State.setHome_granted (s : State) (w : GWrite) : (s.setHome w).granted = s.granted := rfl
@[simp] theorem State.setHome_exchanged (s : State) (w : GWrite) : (s.setHome w).exchanged = s.exchanged := rfl
@[simp] theorem State.setHome_rowFaults (s : State) (w : GWrite) : (s.setHome w).rowFaults = s.rowFaults := rfl
@[simp] theorem State.setHome_tileIds (s : State) (w : GWrite) : (s.setHome w).tileIds = s.tileIds := rfl
@[simp] theorem State.setHome_late (s : State) (w : GWrite) : (s.setHome w).late = s.late := rfl
@[simp] theorem State.setHome_tasks (s : State) (w : GWrite) : (s.setHome w).tasks = s.tasks := rfl
@[simp] theorem State.setHome_ert (s : State) (w : GWrite) : (s.setHome w).ert = s.ert := rfl
@[simp] theorem State.setHome_host (s : State) (w : GWrite) : (s.setHome w).host = s.host := rfl
@[simp] theorem State.setHome_eth (s : State) (w : GWrite) : (s.setHome w).eth = s.eth := rfl
@[simp] theorem State.setHome_time (s : State) (w : GWrite) : (s.setHome w).time = s.time := rfl
@[simp] theorem State.setHome_agenda (s : State) (w : GWrite) : (s.setHome w).agenda = s.agenda := rfl
@[simp] theorem State.setHome_cur (s : State) (w : GWrite) : (s.setHome w).cur = s.cur := rfl
@[simp] theorem State.setHome_focus (s : State) (w : GWrite) : (s.setHome w).focus = s.focus := rfl
@[simp] theorem State.setHome_moves (s : State) (w : GWrite) : (s.setHome w).moves = s.moves := rfl
@[simp] theorem State.setHome_mtMarked (s : State) (w : GWrite) : (s.setHome w).mtMarked = s.mtMarked := rfl
@[simp] theorem State.setHome_tlbs (s : State) (w : GWrite) : (s.setHome w).tlbs = s.tlbs := rfl
@[simp] theorem State.setHome_walks (s : State) (w : GWrite) : (s.setHome w).walks = s.walks := rfl
@[simp] theorem State.setHome_since (s : State) (w : GWrite) : (s.setHome w).since = s.since := rfl
@[simp] theorem State.setHome_free (s : State) (w : GWrite) : (s.setHome w).free = s.free := rfl
@[simp] theorem State.setHome_hostOut (s : State) (w : GWrite) : (s.setHome w).hostOut = s.hostOut := rfl

/-! ### State.setRelease -/

@[simp] theorem State.setRelease_cores (s : State) (r : Release) : (s.setRelease r).cores = s.cores := rfl
@[simp] theorem State.setRelease_dies (s : State) (r : Release) : (s.setRelease r).dies = s.dies := rfl
@[simp] theorem State.setRelease_elems (s : State) (r : Release) : (s.setRelease r).elems = s.elems := rfl
@[simp] theorem State.setRelease_tiles (s : State) (r : Release) : (s.setRelease r).tiles = s.tiles := rfl
@[simp] theorem State.setRelease_mt (s : State) (r : Release) : (s.setRelease r).mt = s.mt := rfl
@[simp] theorem State.setRelease_mtChanges (s : State) (r : Release) : (s.setRelease r).mtChanges = s.mtChanges := rfl
@[simp] theorem State.setRelease_mtGen (s : State) (r : Release) : (s.setRelease r).mtGen = s.mtGen := rfl
@[simp] theorem State.setRelease_mem (s : State) (r : Release) : (s.setRelease r).mem = s.mem := rfl
@[simp] theorem State.setRelease_marked (s : State) (r : Release) : (s.setRelease r).marked = s.marked := rfl
@[simp] theorem State.setRelease_doomed (s : State) (r : Release) : (s.setRelease r).doomed = s.doomed := rfl
@[simp] theorem State.setRelease_paths (s : State) (r : Release) : (s.setRelease r).paths = s.paths := rfl
@[simp] theorem State.setRelease_landing (s : State) (r : Release) : (s.setRelease r).landing = s.landing := rfl
@[simp] theorem State.setRelease_pathSets (s : State) (r : Release) : (s.setRelease r).pathSets = s.pathSets := rfl
@[simp] theorem State.setRelease_nextId (s : State) (r : Release) : (s.setRelease r).nextId = s.nextId := rfl
@[simp] theorem State.setRelease_stages (s : State) (r : Release) : (s.setRelease r).stages = s.stages := rfl
@[simp] theorem State.setRelease_granted (s : State) (r : Release) : (s.setRelease r).granted = s.granted := rfl
@[simp] theorem State.setRelease_exchanged (s : State) (r : Release) : (s.setRelease r).exchanged = s.exchanged := rfl
@[simp] theorem State.setRelease_rowFaults (s : State) (r : Release) : (s.setRelease r).rowFaults = s.rowFaults := rfl
@[simp] theorem State.setRelease_tileIds (s : State) (r : Release) : (s.setRelease r).tileIds = s.tileIds := rfl
@[simp] theorem State.setRelease_late (s : State) (r : Release) : (s.setRelease r).late = s.late := rfl
@[simp] theorem State.setRelease_tasks (s : State) (r : Release) : (s.setRelease r).tasks = s.tasks := rfl
@[simp] theorem State.setRelease_ert (s : State) (r : Release) : (s.setRelease r).ert = s.ert := rfl
@[simp] theorem State.setRelease_host (s : State) (r : Release) : (s.setRelease r).host = s.host := rfl
@[simp] theorem State.setRelease_eth (s : State) (r : Release) : (s.setRelease r).eth = s.eth := rfl
@[simp] theorem State.setRelease_time (s : State) (r : Release) : (s.setRelease r).time = s.time := rfl
@[simp] theorem State.setRelease_agenda (s : State) (r : Release) : (s.setRelease r).agenda = s.agenda := rfl
@[simp] theorem State.setRelease_cur (s : State) (r : Release) : (s.setRelease r).cur = s.cur := rfl
@[simp] theorem State.setRelease_focus (s : State) (r : Release) : (s.setRelease r).focus = s.focus := rfl
@[simp] theorem State.setRelease_moves (s : State) (r : Release) : (s.setRelease r).moves = s.moves := rfl
@[simp] theorem State.setRelease_mtMarked (s : State) (r : Release) : (s.setRelease r).mtMarked = s.mtMarked := rfl
@[simp] theorem State.setRelease_tlbs (s : State) (r : Release) : (s.setRelease r).tlbs = s.tlbs := rfl
@[simp] theorem State.setRelease_walks (s : State) (r : Release) : (s.setRelease r).walks = s.walks := rfl
@[simp] theorem State.setRelease_since (s : State) (r : Release) : (s.setRelease r).since = s.since := rfl
@[simp] theorem State.setRelease_free (s : State) (r : Release) : (s.setRelease r).free = s.free := rfl
@[simp] theorem State.setRelease_hostOut (s : State) (r : Release) : (s.setRelease r).hostOut = s.hostOut := rfl

/-! ### State.dropRelease -/

@[simp] theorem State.dropRelease_cores (s : State) (id : Nat) : (s.dropRelease id).cores = s.cores := rfl
@[simp] theorem State.dropRelease_dies (s : State) (id : Nat) : (s.dropRelease id).dies = s.dies := rfl
@[simp] theorem State.dropRelease_elems (s : State) (id : Nat) : (s.dropRelease id).elems = s.elems := rfl
@[simp] theorem State.dropRelease_tiles (s : State) (id : Nat) : (s.dropRelease id).tiles = s.tiles := rfl
@[simp] theorem State.dropRelease_mt (s : State) (id : Nat) : (s.dropRelease id).mt = s.mt := rfl
@[simp] theorem State.dropRelease_mtChanges (s : State) (id : Nat) : (s.dropRelease id).mtChanges = s.mtChanges := rfl
@[simp] theorem State.dropRelease_mtGen (s : State) (id : Nat) : (s.dropRelease id).mtGen = s.mtGen := rfl
@[simp] theorem State.dropRelease_mem (s : State) (id : Nat) : (s.dropRelease id).mem = s.mem := rfl
@[simp] theorem State.dropRelease_marked (s : State) (id : Nat) : (s.dropRelease id).marked = s.marked := rfl
@[simp] theorem State.dropRelease_doomed (s : State) (id : Nat) : (s.dropRelease id).doomed = s.doomed := rfl
@[simp] theorem State.dropRelease_paths (s : State) (id : Nat) : (s.dropRelease id).paths = s.paths := rfl
@[simp] theorem State.dropRelease_landing (s : State) (id : Nat) : (s.dropRelease id).landing = s.landing := rfl
@[simp] theorem State.dropRelease_pathSets (s : State) (id : Nat) : (s.dropRelease id).pathSets = s.pathSets := rfl
@[simp] theorem State.dropRelease_nextId (s : State) (id : Nat) : (s.dropRelease id).nextId = s.nextId := rfl
@[simp] theorem State.dropRelease_stages (s : State) (id : Nat) : (s.dropRelease id).stages = s.stages := rfl
@[simp] theorem State.dropRelease_granted (s : State) (id : Nat) : (s.dropRelease id).granted = s.granted := rfl
@[simp] theorem State.dropRelease_exchanged (s : State) (id : Nat) : (s.dropRelease id).exchanged = s.exchanged := rfl
@[simp] theorem State.dropRelease_rowFaults (s : State) (id : Nat) : (s.dropRelease id).rowFaults = s.rowFaults := rfl
@[simp] theorem State.dropRelease_tileIds (s : State) (id : Nat) : (s.dropRelease id).tileIds = s.tileIds := rfl
@[simp] theorem State.dropRelease_late (s : State) (id : Nat) : (s.dropRelease id).late = s.late := rfl
@[simp] theorem State.dropRelease_tasks (s : State) (id : Nat) : (s.dropRelease id).tasks = s.tasks := rfl
@[simp] theorem State.dropRelease_ert (s : State) (id : Nat) : (s.dropRelease id).ert = s.ert := rfl
@[simp] theorem State.dropRelease_host (s : State) (id : Nat) : (s.dropRelease id).host = s.host := rfl
@[simp] theorem State.dropRelease_eth (s : State) (id : Nat) : (s.dropRelease id).eth = s.eth := rfl
@[simp] theorem State.dropRelease_time (s : State) (id : Nat) : (s.dropRelease id).time = s.time := rfl
@[simp] theorem State.dropRelease_agenda (s : State) (id : Nat) : (s.dropRelease id).agenda = s.agenda := rfl
@[simp] theorem State.dropRelease_cur (s : State) (id : Nat) : (s.dropRelease id).cur = s.cur := rfl
@[simp] theorem State.dropRelease_focus (s : State) (id : Nat) : (s.dropRelease id).focus = s.focus := rfl
@[simp] theorem State.dropRelease_moves (s : State) (id : Nat) : (s.dropRelease id).moves = s.moves := rfl
@[simp] theorem State.dropRelease_mtMarked (s : State) (id : Nat) : (s.dropRelease id).mtMarked = s.mtMarked := rfl
@[simp] theorem State.dropRelease_tlbs (s : State) (id : Nat) : (s.dropRelease id).tlbs = s.tlbs := rfl
@[simp] theorem State.dropRelease_walks (s : State) (id : Nat) : (s.dropRelease id).walks = s.walks := rfl
@[simp] theorem State.dropRelease_since (s : State) (id : Nat) : (s.dropRelease id).since = s.since := rfl
@[simp] theorem State.dropRelease_free (s : State) (id : Nat) : (s.dropRelease id).free = s.free := rfl
@[simp] theorem State.dropRelease_hostOut (s : State) (id : Nat) : (s.dropRelease id).hostOut = s.hostOut := rfl

/-! ### State.setRdc -/

@[simp] theorem State.setRdc_cores (s : State) (d : Fin 4) (g : Nat) (v : Option Word) : (s.setRdc d g v).cores = s.cores := rfl
@[simp] theorem State.setRdc_elems (s : State) (d : Fin 4) (g : Nat) (v : Option Word) : (s.setRdc d g v).elems = s.elems := rfl
@[simp] theorem State.setRdc_tiles (s : State) (d : Fin 4) (g : Nat) (v : Option Word) : (s.setRdc d g v).tiles = s.tiles := rfl
@[simp] theorem State.setRdc_mt (s : State) (d : Fin 4) (g : Nat) (v : Option Word) : (s.setRdc d g v).mt = s.mt := rfl
@[simp] theorem State.setRdc_mtChanges (s : State) (d : Fin 4) (g : Nat) (v : Option Word) : (s.setRdc d g v).mtChanges = s.mtChanges := rfl
@[simp] theorem State.setRdc_mtGen (s : State) (d : Fin 4) (g : Nat) (v : Option Word) : (s.setRdc d g v).mtGen = s.mtGen := rfl
@[simp] theorem State.setRdc_mem (s : State) (d : Fin 4) (g : Nat) (v : Option Word) : (s.setRdc d g v).mem = s.mem := rfl
@[simp] theorem State.setRdc_marked (s : State) (d : Fin 4) (g : Nat) (v : Option Word) : (s.setRdc d g v).marked = s.marked := rfl
@[simp] theorem State.setRdc_doomed (s : State) (d : Fin 4) (g : Nat) (v : Option Word) : (s.setRdc d g v).doomed = s.doomed := rfl
@[simp] theorem State.setRdc_paths (s : State) (d : Fin 4) (g : Nat) (v : Option Word) : (s.setRdc d g v).paths = s.paths := rfl
@[simp] theorem State.setRdc_landing (s : State) (d : Fin 4) (g : Nat) (v : Option Word) : (s.setRdc d g v).landing = s.landing := rfl
@[simp] theorem State.setRdc_pathSets (s : State) (d : Fin 4) (g : Nat) (v : Option Word) : (s.setRdc d g v).pathSets = s.pathSets := rfl
@[simp] theorem State.setRdc_releases (s : State) (d : Fin 4) (g : Nat) (v : Option Word) : (s.setRdc d g v).releases = s.releases := rfl
@[simp] theorem State.setRdc_nextId (s : State) (d : Fin 4) (g : Nat) (v : Option Word) : (s.setRdc d g v).nextId = s.nextId := rfl
@[simp] theorem State.setRdc_stages (s : State) (d : Fin 4) (g : Nat) (v : Option Word) : (s.setRdc d g v).stages = s.stages := rfl
@[simp] theorem State.setRdc_granted (s : State) (d : Fin 4) (g : Nat) (v : Option Word) : (s.setRdc d g v).granted = s.granted := rfl
@[simp] theorem State.setRdc_exchanged (s : State) (d : Fin 4) (g : Nat) (v : Option Word) : (s.setRdc d g v).exchanged = s.exchanged := rfl
@[simp] theorem State.setRdc_rowFaults (s : State) (d : Fin 4) (g : Nat) (v : Option Word) : (s.setRdc d g v).rowFaults = s.rowFaults := rfl
@[simp] theorem State.setRdc_tileIds (s : State) (d : Fin 4) (g : Nat) (v : Option Word) : (s.setRdc d g v).tileIds = s.tileIds := rfl
@[simp] theorem State.setRdc_late (s : State) (d : Fin 4) (g : Nat) (v : Option Word) : (s.setRdc d g v).late = s.late := rfl
@[simp] theorem State.setRdc_tasks (s : State) (d : Fin 4) (g : Nat) (v : Option Word) : (s.setRdc d g v).tasks = s.tasks := rfl
@[simp] theorem State.setRdc_ert (s : State) (d : Fin 4) (g : Nat) (v : Option Word) : (s.setRdc d g v).ert = s.ert := rfl
@[simp] theorem State.setRdc_host (s : State) (d : Fin 4) (g : Nat) (v : Option Word) : (s.setRdc d g v).host = s.host := rfl
@[simp] theorem State.setRdc_eth (s : State) (d : Fin 4) (g : Nat) (v : Option Word) : (s.setRdc d g v).eth = s.eth := rfl
@[simp] theorem State.setRdc_time (s : State) (d : Fin 4) (g : Nat) (v : Option Word) : (s.setRdc d g v).time = s.time := rfl
@[simp] theorem State.setRdc_agenda (s : State) (d : Fin 4) (g : Nat) (v : Option Word) : (s.setRdc d g v).agenda = s.agenda := rfl
@[simp] theorem State.setRdc_cur (s : State) (d : Fin 4) (g : Nat) (v : Option Word) : (s.setRdc d g v).cur = s.cur := rfl
@[simp] theorem State.setRdc_focus (s : State) (d : Fin 4) (g : Nat) (v : Option Word) : (s.setRdc d g v).focus = s.focus := rfl
@[simp] theorem State.setRdc_moves (s : State) (d : Fin 4) (g : Nat) (v : Option Word) : (s.setRdc d g v).moves = s.moves := rfl
@[simp] theorem State.setRdc_mtMarked (s : State) (d : Fin 4) (g : Nat) (v : Option Word) : (s.setRdc d g v).mtMarked = s.mtMarked := rfl
@[simp] theorem State.setRdc_tlbs (s : State) (d : Fin 4) (g : Nat) (v : Option Word) : (s.setRdc d g v).tlbs = s.tlbs := rfl
@[simp] theorem State.setRdc_walks (s : State) (d : Fin 4) (g : Nat) (v : Option Word) : (s.setRdc d g v).walks = s.walks := rfl
@[simp] theorem State.setRdc_since (s : State) (d : Fin 4) (g : Nat) (v : Option Word) : (s.setRdc d g v).since = s.since := rfl
@[simp] theorem State.setRdc_free (s : State) (d : Fin 4) (g : Nat) (v : Option Word) : (s.setRdc d g v).free = s.free := rfl
@[simp] theorem State.setRdc_hostOut (s : State) (d : Fin 4) (g : Nat) (v : Option Word) : (s.setRdc d g v).hostOut = s.hostOut := rfl

/-! ### State.setStage -/

@[simp] theorem State.setStage_cores (s : State) (k : Nat) (l : List Token) : (s.setStage k l).cores = s.cores := rfl
@[simp] theorem State.setStage_dies (s : State) (k : Nat) (l : List Token) : (s.setStage k l).dies = s.dies := rfl
@[simp] theorem State.setStage_elems (s : State) (k : Nat) (l : List Token) : (s.setStage k l).elems = s.elems := rfl
@[simp] theorem State.setStage_tiles (s : State) (k : Nat) (l : List Token) : (s.setStage k l).tiles = s.tiles := rfl
@[simp] theorem State.setStage_mt (s : State) (k : Nat) (l : List Token) : (s.setStage k l).mt = s.mt := rfl
@[simp] theorem State.setStage_mtChanges (s : State) (k : Nat) (l : List Token) : (s.setStage k l).mtChanges = s.mtChanges := rfl
@[simp] theorem State.setStage_mtGen (s : State) (k : Nat) (l : List Token) : (s.setStage k l).mtGen = s.mtGen := rfl
@[simp] theorem State.setStage_mem (s : State) (k : Nat) (l : List Token) : (s.setStage k l).mem = s.mem := rfl
@[simp] theorem State.setStage_marked (s : State) (k : Nat) (l : List Token) : (s.setStage k l).marked = s.marked := rfl
@[simp] theorem State.setStage_doomed (s : State) (k : Nat) (l : List Token) : (s.setStage k l).doomed = s.doomed := rfl
@[simp] theorem State.setStage_paths (s : State) (k : Nat) (l : List Token) : (s.setStage k l).paths = s.paths := rfl
@[simp] theorem State.setStage_landing (s : State) (k : Nat) (l : List Token) : (s.setStage k l).landing = s.landing := rfl
@[simp] theorem State.setStage_pathSets (s : State) (k : Nat) (l : List Token) : (s.setStage k l).pathSets = s.pathSets := rfl
@[simp] theorem State.setStage_releases (s : State) (k : Nat) (l : List Token) : (s.setStage k l).releases = s.releases := rfl
@[simp] theorem State.setStage_nextId (s : State) (k : Nat) (l : List Token) : (s.setStage k l).nextId = s.nextId := rfl
@[simp] theorem State.setStage_granted (s : State) (k : Nat) (l : List Token) : (s.setStage k l).granted = s.granted := rfl
@[simp] theorem State.setStage_exchanged (s : State) (k : Nat) (l : List Token) : (s.setStage k l).exchanged = s.exchanged := rfl
@[simp] theorem State.setStage_rowFaults (s : State) (k : Nat) (l : List Token) : (s.setStage k l).rowFaults = s.rowFaults := rfl
@[simp] theorem State.setStage_tileIds (s : State) (k : Nat) (l : List Token) : (s.setStage k l).tileIds = s.tileIds := rfl
@[simp] theorem State.setStage_late (s : State) (k : Nat) (l : List Token) : (s.setStage k l).late = s.late := rfl
@[simp] theorem State.setStage_tasks (s : State) (k : Nat) (l : List Token) : (s.setStage k l).tasks = s.tasks := rfl
@[simp] theorem State.setStage_ert (s : State) (k : Nat) (l : List Token) : (s.setStage k l).ert = s.ert := rfl
@[simp] theorem State.setStage_host (s : State) (k : Nat) (l : List Token) : (s.setStage k l).host = s.host := rfl
@[simp] theorem State.setStage_eth (s : State) (k : Nat) (l : List Token) : (s.setStage k l).eth = s.eth := rfl
@[simp] theorem State.setStage_time (s : State) (k : Nat) (l : List Token) : (s.setStage k l).time = s.time := rfl
@[simp] theorem State.setStage_agenda (s : State) (k : Nat) (l : List Token) : (s.setStage k l).agenda = s.agenda := rfl
@[simp] theorem State.setStage_cur (s : State) (k : Nat) (l : List Token) : (s.setStage k l).cur = s.cur := rfl
@[simp] theorem State.setStage_focus (s : State) (k : Nat) (l : List Token) : (s.setStage k l).focus = s.focus := rfl
@[simp] theorem State.setStage_moves (s : State) (k : Nat) (l : List Token) : (s.setStage k l).moves = s.moves := rfl
@[simp] theorem State.setStage_mtMarked (s : State) (k : Nat) (l : List Token) : (s.setStage k l).mtMarked = s.mtMarked := rfl
@[simp] theorem State.setStage_tlbs (s : State) (k : Nat) (l : List Token) : (s.setStage k l).tlbs = s.tlbs := rfl
@[simp] theorem State.setStage_walks (s : State) (k : Nat) (l : List Token) : (s.setStage k l).walks = s.walks := rfl
@[simp] theorem State.setStage_since (s : State) (k : Nat) (l : List Token) : (s.setStage k l).since = s.since := rfl
@[simp] theorem State.setStage_free (s : State) (k : Nat) (l : List Token) : (s.setStage k l).free = s.free := rfl
@[simp] theorem State.setStage_hostOut (s : State) (k : Nat) (l : List Token) : (s.setStage k l).hostOut = s.hostOut := rfl
@[simp] theorem State.setStage_core (s : State) (k : Nat) (l : List Token) : (s.setStage k l).core = s.core := rfl

/-! ### State.setTask -/

@[simp] theorem State.setTask_cores (s : State) (t : Task) : (s.setTask t).cores = s.cores := rfl
@[simp] theorem State.setTask_dies (s : State) (t : Task) : (s.setTask t).dies = s.dies := rfl
@[simp] theorem State.setTask_elems (s : State) (t : Task) : (s.setTask t).elems = s.elems := rfl
@[simp] theorem State.setTask_tiles (s : State) (t : Task) : (s.setTask t).tiles = s.tiles := rfl
@[simp] theorem State.setTask_mt (s : State) (t : Task) : (s.setTask t).mt = s.mt := rfl
@[simp] theorem State.setTask_mtChanges (s : State) (t : Task) : (s.setTask t).mtChanges = s.mtChanges := rfl
@[simp] theorem State.setTask_mtGen (s : State) (t : Task) : (s.setTask t).mtGen = s.mtGen := rfl
@[simp] theorem State.setTask_mem (s : State) (t : Task) : (s.setTask t).mem = s.mem := rfl
@[simp] theorem State.setTask_marked (s : State) (t : Task) : (s.setTask t).marked = s.marked := rfl
@[simp] theorem State.setTask_doomed (s : State) (t : Task) : (s.setTask t).doomed = s.doomed := rfl
@[simp] theorem State.setTask_paths (s : State) (t : Task) : (s.setTask t).paths = s.paths := rfl
@[simp] theorem State.setTask_landing (s : State) (t : Task) : (s.setTask t).landing = s.landing := rfl
@[simp] theorem State.setTask_pathSets (s : State) (t : Task) : (s.setTask t).pathSets = s.pathSets := rfl
@[simp] theorem State.setTask_releases (s : State) (t : Task) : (s.setTask t).releases = s.releases := rfl
@[simp] theorem State.setTask_nextId (s : State) (t : Task) : (s.setTask t).nextId = s.nextId := rfl
@[simp] theorem State.setTask_stages (s : State) (t : Task) : (s.setTask t).stages = s.stages := rfl
@[simp] theorem State.setTask_granted (s : State) (t : Task) : (s.setTask t).granted = s.granted := rfl
@[simp] theorem State.setTask_exchanged (s : State) (t : Task) : (s.setTask t).exchanged = s.exchanged := rfl
@[simp] theorem State.setTask_rowFaults (s : State) (t : Task) : (s.setTask t).rowFaults = s.rowFaults := rfl
@[simp] theorem State.setTask_tileIds (s : State) (t : Task) : (s.setTask t).tileIds = s.tileIds := rfl
@[simp] theorem State.setTask_late (s : State) (t : Task) : (s.setTask t).late = s.late := rfl
@[simp] theorem State.setTask_ert (s : State) (t : Task) : (s.setTask t).ert = s.ert := rfl
@[simp] theorem State.setTask_host (s : State) (t : Task) : (s.setTask t).host = s.host := rfl
@[simp] theorem State.setTask_eth (s : State) (t : Task) : (s.setTask t).eth = s.eth := rfl
@[simp] theorem State.setTask_time (s : State) (t : Task) : (s.setTask t).time = s.time := rfl
@[simp] theorem State.setTask_agenda (s : State) (t : Task) : (s.setTask t).agenda = s.agenda := rfl
@[simp] theorem State.setTask_cur (s : State) (t : Task) : (s.setTask t).cur = s.cur := rfl
@[simp] theorem State.setTask_focus (s : State) (t : Task) : (s.setTask t).focus = s.focus := rfl
@[simp] theorem State.setTask_moves (s : State) (t : Task) : (s.setTask t).moves = s.moves := rfl
@[simp] theorem State.setTask_mtMarked (s : State) (t : Task) : (s.setTask t).mtMarked = s.mtMarked := rfl
@[simp] theorem State.setTask_tlbs (s : State) (t : Task) : (s.setTask t).tlbs = s.tlbs := rfl
@[simp] theorem State.setTask_walks (s : State) (t : Task) : (s.setTask t).walks = s.walks := rfl
@[simp] theorem State.setTask_since (s : State) (t : Task) : (s.setTask t).since = s.since := rfl
@[simp] theorem State.setTask_free (s : State) (t : Task) : (s.setTask t).free = s.free := rfl
@[simp] theorem State.setTask_hostOut (s : State) (t : Task) : (s.setTask t).hostOut = s.hostOut := rfl
@[simp] theorem State.setTask_core (s : State) (t : Task) : (s.setTask t).core = s.core := rfl

/-! ### Files -/

@[simp] theorem getF_setF {α : Type} {n : Nat} (v : Vector α n) (i : Fin n) (x : α) : getF (setF v i x) i = x := by
  simp [getF, setF]
theorem getF_setF_ne {α : Type} {n : Nat} (v : Vector α n) {i j : Fin n} (x : α) (h : j ≠ i) : getF (setF v i x) j = getF v j := by
  have : i.val ≠ j.val := fun e => h (Fin.ext e.symm)
  simp [getF, setF, this]
@[simp] theorem setF_getF {α : Type} {n : Nat} (v : Vector α n) (i : Fin n) : setF v i (getF v i) = v := by simp [getF, setF]
@[simp] theorem setF_setF {α : Type} {n : Nat} (v : Vector α n) (i : Fin n) (x y : α) : setF (setF v i x) i y = setF v i y := by
  simp [setF]

/-! ### The running core -/

@[simp] theorem State.core_setCore (s : State) (c : Fin 64) (k : CoreState) : (s.setCore c k).core c = k := by
  simp [State.core, State.setCore]
theorem State.core_setCore_ne (s : State) {c d : Fin 64} (k : CoreState) (h : d ≠ c) : (s.setCore c k).core d = s.core d := by
  simp [State.core, State.setCore, getF_setF_ne _ _ h]
@[simp] theorem State.setCore_setCore (s : State) (c : Fin 64) (k l : CoreState) : (s.setCore c k).setCore c l = s.setCore c l := by
  simp [State.setCore]
@[simp] theorem State.setCore_core (s : State) (c : Fin 64) : s.setCore c (s.core c) = s := by simp [State.core, State.setCore]
@[simp] theorem State.me_setMe (s : State) (k : CoreState) : (s.setMe k).me = k := by simp [State.me, State.setMe]
@[simp] theorem State.setMe_setMe (s : State) (k l : CoreState) : (s.setMe k).setMe l = s.setMe l := by simp [State.setMe]
@[simp] theorem State.setMe_me (s : State) : s.setMe s.me = s := by simp [State.me, State.setMe]
theorem State.setMe_core_ne (s : State) {c : Fin 64} (k : CoreState) (h : c ≠ s.cur) : (s.setMe k).core c = s.core c := by
  simp [State.setMe, s.core_setCore_ne k h]

@[simp] theorem CoreState.writeG_pc (k : CoreState) (r : Reg) (v : Word) : (k.writeG r v).pc = k.pc := by
  unfold CoreState.writeG; split <;> rfl
@[simp] theorem CoreState.readG_zero (k : CoreState) : k.readG 0 = 0 := rfl
theorem CoreState.readG_writeG (k : CoreState) (r : Reg) (v : Word) : (k.writeG r v).readG r = if r = 0 then 0 else v := by
  by_cases h : r = 0 <;> simp [CoreState.readG, CoreState.writeG, h]
theorem CoreState.readG_writeG_ne (k : CoreState) {r q : Reg} (v : Word) (h : q ≠ r) : (k.writeG r v).readG q = k.readG q := by
  by_cases h0 : r = 0 <;> simp [CoreState.readG, CoreState.writeG, h0, getF_setF_ne _ _ h]
theorem CoreState.writeG_rest (k : CoreState) (r : Reg) (v : Word) : { k.writeG r v with g := k.g } = k := by
  unfold CoreState.writeG; split <;> rfl

@[simp] theorem State.advance_me (s : State) : s.advance.me = { s.me with pc := s.nextPc } := by simp [State.advance, State.setPc]
@[simp] theorem State.setPc_me (s : State) (v : Word) : (s.setPc v).me = { s.me with pc := v } := by simp [State.setPc]
@[simp] theorem State.wr_me (s : State) (r : Reg) (v : Word) : (s.wr r v).me = s.me.writeG r v := by simp [State.wr]
@[simp] theorem State.wrP_me (s : State) (p : PReg) (b : Bool) : (s.wrP p b).me = { s.me with p := setF s.me.p p b } := by
  simp [State.wrP]
@[simp] theorem State.wr_nextPc (s : State) (r : Reg) (v : Word) : (s.wr r v).nextPc = s.nextPc := by simp [State.nextPc]
@[simp] theorem State.wrP_nextPc (s : State) (p : PReg) (b : Bool) : (s.wrP p b).nextPc = s.nextPc := by simp [State.nextPc]
theorem State.wr_core_ne (s : State) {c : Fin 64} (r : Reg) (v : Word) (h : c ≠ s.cur) : (s.wr r v).core c = s.core c :=
  s.setMe_core_ne _ h
theorem State.wrP_core_ne (s : State) {c : Fin 64} (p : PReg) (b : Bool) (h : c ≠ s.cur) : (s.wrP p b).core c = s.core c :=
  s.setMe_core_ne _ h
theorem State.setPc_core_ne (s : State) {c : Fin 64} (v : Word) (h : c ≠ s.cur) : (s.setPc v).core c = s.core c :=
  s.setMe_core_ne _ h
theorem State.advance_core_ne (s : State) {c : Fin 64} (h : c ≠ s.cur) : s.advance.core c = s.core c := s.setPc_core_ne _ h

/-- pc + 4 modulo the size of code memory. -/
theorem State.nextPc_eq (s : State) : s.nextPc = BitVec.ofNat 64 ((s.me.pc.toNat + 4) % 2 ^ 18) := by
  apply BitVec.eq_of_toNat_eq
  have h3 : BitVec.toNat (0x3FFFF : Word) = 2 ^ 18 - 1 := by decide
  have h4 : BitVec.toNat (4 : Word) = 4 := by decide
  simp only [State.nextPc, pcWrap, BitVec.toNat_and, BitVec.toNat_add, BitVec.toNat_ofNat, h3, h4]
  rw [Nat.and_two_pow_sub_one_eq_mod]
  omega

end Sys2Proof.Machine
end

