-- ==== Sys2Proof/Laws/Core.lean ====
section
/-!
SUPPORT. What the core's shared operations do, once each: a register write, a predicate write, going on, operands without queue-mapped
registers, taking a trap.
-/
namespace Sys2Proof.Machine
open Sys2Proof.Safety

theorem State.byte_congr {s t : State} (h : t.mem = s.mem) (a : Nat) : t.byte a = s.byte a := by simp [State.byte, h]
theorem State.mtByte_congr {s t : State} (h : t.mt = s.mt) (h2 : t.mtGen = s.mtGen) (a : Nat) : t.mtByte a = s.mtByte a := by
  simp [State.mtByte, State.mtDefault, h, h2]

/-- Replacing the running core by one with the same private memory leaves every byte of memory alone. -/
theorem memorySame_setMe (s : State) (k : CoreState) (h : k.priv = s.me.priv) : MemorySame s (s.setMe k) := by
  refine ⟨fun a => rfl, fun a => rfl, fun c a => ?_⟩
  by_cases hc : c = s.cur
  · subst hc; simp [State.setMe, h, State.me]
  · rw [s.setMe_core_ne k hc]

theorem othersSame_setMe (s : State) (k : CoreState) : OthersSame s (s.setMe k) := fun _ h => s.setMe_core_ne k h
theorem restSame_setMe (s : State) (k : CoreState) : RestSame s (s.setMe k) := rfl

theorem State.wr_advance_eq (s : State) (d : Reg) (v : Word) :
    (s.wr d v).advance = s.setMe { s.me.writeG d v with pc := s.nextPc } := by
  simp [State.advance, State.setPc, State.wr, State.nextPc]

theorem CoreState.writeG_priv (k : CoreState) (r : Reg) (v : Word) : (k.writeG r v).priv = k.priv := by
  unfold CoreState.writeG; split <;> rfl

/-- A register write that goes on to the next word. -/
theorem wroteReg_wr_advance (s : State) (d : Reg) (v : Word) : WroteReg s (s.wr d v).advance d v (nextWord s) := by
  have hn : s.nextPc = nextWord s := s.nextPc_eq
  have hr : ∀ q, State.rd (s.wr d v).advance q = (s.me.writeG d v).readG q := by
    intro q; simp [State.rd, CoreState.readG]
  refine ⟨?_, fun r h => ?_, by simp [hn], ?_, ?_, ?_, ?_⟩
  · rw [hr, CoreState.readG_writeG]
  · rw [hr, CoreState.readG_writeG_ne _ _ h]; rfl
  · rw [s.wr_advance_eq, s.me_setMe]
    unfold CoreState.writeG; split <;> rfl
  · rw [s.wr_advance_eq]; exact othersSame_setMe _ _
  · rw [s.wr_advance_eq]; rfl
  · rw [s.wr_advance_eq]; exact memorySame_setMe _ _ (CoreState.writeG_priv _ _ _)

/-- A predicate write that goes on to the next word. -/
theorem wrotePred_wrP_advance (s : State) (p : PReg) (b : Bool) : WrotePred s (s.wrP p b).advance p b (nextWord s) := by
  have hn : s.nextPc = nextWord s := s.nextPc_eq
  have he : (s.wrP p b).advance = s.setMe { s.me with p := setF s.me.p p b, pc := s.nextPc } := by
    simp [State.advance, State.setPc, State.wrP, State.nextPc]
  refine ⟨by simp [State.rdP], fun q h => ?_, by simp [hn], ?_, ?_, ?_, ?_⟩
  · simp [State.rdP, getF_setF_ne _ _ h]
  · rw [he, s.me_setMe]
  · rw [he]; exact othersSame_setMe _ _
  · rw [he]; rfl
  · rw [he]; exact memorySame_setMe _ _ rfl

/-- Going on without a write. -/
theorem onlyPc_setPc (s : State) (v : Word) : OnlyPc s (s.setPc v) v :=
  ⟨by simp, by simp, othersSame_setMe _ _, rfl, memorySame_setMe _ _ rfl⟩
theorem onlyPc_advance (s : State) : OnlyPc s s.advance (nextWord s) := by
  have h := onlyPc_setPc s s.nextPc
  rw [show nextWord s = s.nextPc from s.nextPc_eq.symm]; exact h

/-- Operands that name no queue-mapped register are read at once. -/
@[simp] theorem State.sources_plain (s : State) (a b : Reg) : s.sources none a none b none = .vals (s.rd a) (s.rd b) s := by
  simp [State.sources, State.checkBind, State.checkHead, State.destReady, State.srcValue, State.popQ]

/-- The plain form of a three-register instruction. -/
theorem State.rrr_plain (s : State) (o : Rrr) (f : Word → Word → Word) (ha : o.qa = false) (hb : o.qb = false) (hd : o.qd = false) :
    s.rrr o f = (s.wr o.d (f (s.rd o.a) (s.rd o.b))).advance := by
  simp [State.rrr, qReg, ha, hb, hd, State.putD]
theorem State.unary_plain (s : State) (o : Unary) (f : Word → Word) (ha : o.qa = false) (hd : o.qd = false) :
    s.unary o f = (s.wr o.d (f (s.rd o.a))).advance := by
  simp [State.unary, State.rrr, qReg, ha, hd, State.putD]
theorem State.pcmp_plain (s : State) (o : PCmp) (f : Word → Word → Bool) (ha : o.qa = false) (hb : o.qb = false) :
    s.pcmp o f = (s.wrP o.p (f (s.rd o.a) (s.rd o.b))).advance := by
  simp [State.pcmp, qReg, ha, hb]

end Sys2Proof.Machine
end

