-- ==== Sys2Proof/Laws/Memory.lean ====
section
/-!
SUPPORT. Laws of maps and of memory: a read after a write, what a write leaves alone, and that every operation on the home copies keeps
their canonical form.
-/
namespace Sys2Proof.Machine

/-! ### Maps -/

@[simp] theorem Map.get_set_self {α : Type} (d : α) (k : Nat) (v : α) (m : Map α) : Map.get d k (Map.set k v m) = v := by
  induction m with
  | nil => simp [Map.set, Map.get]
  | cons x t ih =>
    obtain ⟨k', v'⟩ := x
    by_cases h : k' = k
    · simp [Map.set, Map.get, h]
    · by_cases h2 : k < k' <;> simp [Map.set, Map.get, h, h2, ih]

theorem Map.get_set_ne {α : Type} (d : α) {k j : Nat} (v : α) (m : Map α) (h : j ≠ k) :
    Map.get d j (Map.set k v m) = Map.get d j m := by
  induction m with
  | nil => simp [Map.set, Map.get, Ne.symm h]
  | cons x t ih =>
    obtain ⟨k', v'⟩ := x
    by_cases h1 : k' = k
    · subst h1; simp [Map.set, Map.get, Ne.symm h]
    · by_cases h2 : k < k' <;> simp [Map.set, Map.get, h1, h2, ih, Ne.symm h]

@[simp] theorem Map.get_del_self {α : Type} (d : α) (k : Nat) (m : Map α) : Map.get d k (Map.del k m) = d := by
  induction m with
  | nil => rfl
  | cons x t ih => by_cases h : x.1 = k <;> simp [Map.del, Map.get, h, ih]

theorem Map.get_del_ne {α : Type} (d : α) {k j : Nat} (m : Map α) (h : j ≠ k) : Map.get d j (Map.del k m) = Map.get d j m := by
  induction m with
  | nil => rfl
  | cons x t ih =>
    by_cases h1 : x.1 = k
    · simp [Map.del, Map.get, h1, ih, Ne.symm h]
    · simp [Map.del, Map.get, h1, ih]

@[simp] theorem Map.get_put_self {α : Type} [DecidableEq α] (d : α) (k : Nat) (v : α) (m : Map α) :
    Map.get d k (Map.put d k v m) = v := by
  induction m with
  | nil => by_cases h : v = d <;> simp [Map.put, Map.get, h]
  | cons x t ih =>
    obtain ⟨k', v'⟩ := x
    by_cases h : k' = k
    · by_cases hv : v = d <;> simp [Map.put, Map.get, h, hv]
    · by_cases h2 : k < k'
      · by_cases hv : v = d <;> simp [Map.put, Map.get, h, h2, hv]
      · simp [Map.put, Map.get, h, h2, ih]

theorem Map.get_put_ne {α : Type} [DecidableEq α] (d : α) {k j : Nat} (v : α) (m : Map α) (h : j ≠ k) :
    Map.get d j (Map.put d k v m) = Map.get d j m := by
  induction m with
  | nil => by_cases hv : v = d <;> simp [Map.put, Map.get, hv, Ne.symm h]
  | cons x t ih =>
    obtain ⟨k', v'⟩ := x
    by_cases h1 : k' = k
    · subst h1
      by_cases hv : v = d <;> simp [Map.put, Map.get, hv, Ne.symm h, Map.get_del_ne d t h]
    · by_cases h2 : k < k'
      · by_cases hv : v = d <;> simp [Map.put, Map.get, h1, h2, hv, Ne.symm h, Map.get_del_ne d t h]
      · simp [Map.put, Map.get, h1, h2, ih]

/-! ### The canonical form -/

theorem Map.canon_cons {α : Type} [DecidableEq α] (d : α) (k : Nat) (v : α) (t : Map α) :
    Map.canon d ((k, v) :: t) = true ↔ v ≠ d ∧ (∀ e ∈ t, k < e.1) ∧ Map.canon d t = true := by
  simp [Map.canon, and_assoc]

theorem Map.del_subset {α : Type} (k : Nat) (m : Map α) : ∀ e ∈ Map.del k m, e ∈ m := by
  induction m with
  | nil => simp [Map.del]
  | cons x t ih =>
    intro e he
    by_cases h : x.1 = k
    · simp only [Map.del, h, if_true] at he
      exact List.mem_cons_of_mem _ (ih e he)
    · simp only [Map.del, h, if_false, List.mem_cons] at he
      rcases he with he | he
      · simp [he]
      · exact List.mem_cons_of_mem _ (ih e he)

theorem Map.canon_del {α : Type} [DecidableEq α] (d : α) (k : Nat) (m : Map α) (h : Map.canon d m = true) :
    Map.canon d (Map.del k m) = true := by
  induction m with
  | nil => rfl
  | cons x t ih =>
    obtain ⟨k', v'⟩ := x
    rw [Map.canon_cons] at h
    by_cases hk : k' = k
    · simp [Map.del, hk, ih h.2.2]
    · simp only [Map.del, hk, if_false]
      rw [Map.canon_cons]
      exact ⟨h.1, fun e he => h.2.1 e (Map.del_subset k t e he), ih h.2.2⟩

theorem Map.mem_put {α : Type} [DecidableEq α] (d : α) (k : Nat) (v : α) (m : Map α) :
    ∀ e ∈ Map.put d k v m, e.1 = k ∨ e ∈ m := by
  induction m with
  | nil => intro e; by_cases hv : v = d <;> simp [Map.put, hv]; intro h; simp [h]
  | cons x t ih =>
    obtain ⟨k', v'⟩ := x
    intro e he
    by_cases h : k' = k
    · by_cases hv : v = d
      · simp only [Map.put, h, hv, if_true] at he
        exact .inr (List.mem_cons_of_mem _ (Map.del_subset k t e he))
      · simp only [Map.put, h, hv, if_true, if_false, List.mem_cons] at he
        rcases he with he | he
        · simp [he]
        · exact .inr (List.mem_cons_of_mem _ he)
    · by_cases h2 : k < k'
      · by_cases hv : v = d
        · simp only [Map.put, h, h2, hv, if_true, if_false, List.mem_cons] at he
          rcases he with he | he
          · exact .inr (by simp [he])
          · exact .inr (List.mem_cons_of_mem _ (Map.del_subset k t e he))
        · simp only [Map.put, h, h2, hv, if_true, if_false, List.mem_cons] at he
          rcases he with he | he | he
          · simp [he]
          · exact .inr (by simp [he])
          · exact .inr (List.mem_cons_of_mem _ he)
      · simp only [Map.put, h, h2, if_false, List.mem_cons] at he
        rcases he with he | he
        · exact .inr (by simp [he])
        · rcases ih e he with h3 | h3
          · exact .inl h3
          · exact .inr (List.mem_cons_of_mem _ h3)

/-- A write keeps the form. -/
theorem Map.canon_put {α : Type} [DecidableEq α] (d : α) (k : Nat) (v : α) (m : Map α) (h : Map.canon d m = true) :
    Map.canon d (Map.put d k v m) = true := by
  induction m with
  | nil => by_cases hv : v = d <;> simp [Map.put, Map.canon, hv]
  | cons x t ih =>
    obtain ⟨k', v'⟩ := x
    have h' := (Map.canon_cons d k' v' t).1 h
    by_cases hk : k' = k
    · by_cases hv : v = d
      · simp [Map.put, hk, hv, Map.canon_del d k t h'.2.2]
      · simp only [Map.put, hk, hv, if_true, if_false]
        rw [Map.canon_cons]
        exact ⟨hv, fun e he => hk ▸ h'.2.1 e he, h'.2.2⟩
    · by_cases h2 : k < k'
      · by_cases hv : v = d
        · simp only [Map.put, hk, h2, hv, if_true, if_false]
          rw [Map.canon_cons]
          exact ⟨h'.1, fun e he => h'.2.1 e (Map.del_subset k t e he), Map.canon_del d k t h'.2.2⟩
        · simp only [Map.put, hk, h2, hv, if_true, if_false]
          rw [Map.canon_cons]
          refine ⟨hv, fun e he => ?_, h⟩
          rcases List.mem_cons.1 he with he | he
          · simp [he, h2]
          · exact Nat.lt_trans h2 (h'.2.1 e he)
      · simp only [Map.put, hk, h2, if_false]
        rw [Map.canon_cons]
        refine ⟨h'.1, fun e he => ?_, ih h'.2.2⟩
        rcases Map.mem_put d k v t e he with h3 | h3
        · omega
        · exact h'.2.1 e h3

theorem Map.canon_filter {α : Type} [DecidableEq α] (d : α) (p : Nat × α → Bool) (m : Map α) (h : Map.canon d m = true) :
    Map.canon d (m.filter p) = true := by
  induction m with
  | nil => rfl
  | cons x t ih =>
    obtain ⟨k', v'⟩ := x
    have h' := (Map.canon_cons d k' v' t).1 h
    cases hp : p (k', v') with
    | true =>
      rw [List.filter_cons_of_pos hp, Map.canon_cons]
      exact ⟨h'.1, fun e he => h'.2.1 e (List.mem_filter.1 he).1, ih h'.2.2⟩
    | false => rw [List.filter_cons_of_neg (by simp [hp])]; exact ih h'.2.2

/-! ### Memory operations keep the form -/

theorem memWf_memWrite (m : List Host.Cell) (a : Nat) (b : Byte) (h : memWf m = true) : memWf (memWrite m a b) = true :=
  Map.canon_put _ a b m h

theorem memWf_filter (m : List Host.Cell) (p : Host.Cell → Bool) (h : memWf m = true) : memWf (m.filter p) = true :=
  Map.canon_filter _ p m h

theorem memWf_writeBytes (m : List Host.Cell) (g : Nat) (mask : BitVec 8) (v : Word) (n : Nat) (h : memWf m = true) :
    memWf (writeBytes m g mask v n) = true := by
  induction n with
  | zero => exact h
  | succ i ih =>
    simp only [writeBytes]
    split
    · exact memWf_memWrite _ _ _ ih
    · exact ih

theorem memWf_setHome (s : State) (w : GWrite) (h : memWf s.mem = true) : memWf (s.setHome w).mem = true :=
  memWf_writeBytes s.mem w.granule w.mask w.value 8 h

theorem memWf_reset : memWf State.reset.mem = true := rfl

theorem memWf_foldl_memWrite (l m : List Host.Cell) (h : memWf m = true) :
    memWf (l.foldl (fun m c => memWrite m c.1 c.2) m) = true := by
  induction l generalizing m with
  | nil => exact h
  | cons x t ih => exact ih _ (memWf_memWrite m x.1 x.2 h)

theorem memWf_copyCells (m : List Host.Cell) (src dst n : Nat) (h : memWf m = true) : memWf (copyCells m src dst n) = true :=
  memWf_foldl_memWrite _ _ (memWf_filter m _ h)

theorem memWf_writeDwordsFold (l : List (Word × Nat)) (pa : Nat) (s : State) (h : memWf s.mem = true) :
    memWf (l.foldl (fun s w => if w.1 = 0 then s else s.setHome (storeAt (pa + 8 * w.2) 8 w.1)) s).mem = true := by
  induction l generalizing s with
  | nil => exact h
  | cons x t ih =>
    simp only [List.foldl_cons]
    apply ih
    split
    · exact h
    · exact memWf_setHome s _ h

theorem memWf_writeBlock (s : State) (pa : Nat) (ws : List Word) (h : memWf s.mem = true) : memWf (s.writeBlock pa ws).mem = true :=
  memWf_writeDwordsFold _ _ _ (memWf_filter s.mem _ h)

/-! ### A read after a write -/

theorem get_memWrite (m : List Host.Cell) (a b : Nat) (v : Byte) :
    Map.get (0 : Byte) b (memWrite m a v) = if b = a then v else Map.get (0 : Byte) b m := by
  unfold memWrite
  by_cases h : b = a
  · subst h; simp
  · simp [h, Map.get_put_ne _ _ _ h]

/-- A granule write sets exactly the bytes that its mask names. -/
theorem get_writeBytes (m : List Host.Cell) (g : Nat) (mask : BitVec 8) (v : Word) (n a : Nat) :
    Map.get (0 : Byte) a (writeBytes m g mask v n) =
      if 8 * g ≤ a ∧ a < 8 * g + n ∧ mask.getLsbD (a - 8 * g) = true then byteOf v (a - 8 * g) else Map.get (0 : Byte) a m := by
  induction n with
  | zero =>
    have : ¬ (8 * g ≤ a ∧ a < 8 * g + 0 ∧ mask.getLsbD (a - 8 * g) = true) := by omega
    rw [if_neg this]; rfl
  | succ i ih =>
    simp only [writeBytes]
    by_cases hm : mask.getLsbD i = true
    · simp only [hm, if_true, get_memWrite, ih]
      by_cases ha : a = 8 * g + i
      · subst ha; simp [hm]
      · have : (8 * g ≤ a ∧ a < 8 * g + i ∧ mask.getLsbD (a - 8 * g) = true) ↔
          (8 * g ≤ a ∧ a < 8 * g + (i + 1) ∧ mask.getLsbD (a - 8 * g) = true) := by
          constructor <;> (rintro ⟨h1, h2, h3⟩; exact ⟨h1, by omega, h3⟩)
        simp [ha, this]
    · rw [if_neg hm, ih]
      have : (8 * g ≤ a ∧ a < 8 * g + i ∧ mask.getLsbD (a - 8 * g) = true) ↔
          (8 * g ≤ a ∧ a < 8 * g + (i + 1) ∧ mask.getLsbD (a - 8 * g) = true) := by
        constructor
        · rintro ⟨h1, h2, h3⟩; exact ⟨h1, by omega, h3⟩
        · rintro ⟨h1, h2, h3⟩
          have : a - 8 * g ≠ i := fun e => hm (e ▸ h3)
          exact ⟨h1, by omega, h3⟩
      simp only [this]

/-- What a home copy's bytes read as after a write. -/
theorem State.byte_setHome (s : State) (w : GWrite) (a : Nat) :
    (s.setHome w).byte a = if a / 8 = w.granule ∧ w.mask.getLsbD (a % 8) = true then byteOf w.value (a % 8) else s.byte a := by
  simp only [State.byte, State.setHome, get_writeBytes]
  by_cases h : a / 8 = w.granule
  · have h1 : a - 8 * w.granule = a % 8 := by omega
    have h2 : 8 * w.granule ≤ a ∧ a < 8 * w.granule + 8 := by omega
    simp [h, h1, h2]
  · have : ¬ (8 * w.granule ≤ a ∧ a < 8 * w.granule + 8 ∧ w.mask.getLsbD (a - 8 * w.granule) = true) := by omega
    simp [h, this]

/-! ### Elements and tiles -/

@[simp] theorem State.elem_setElem (s : State) (a : ElemAt) (e : Elem) : (s.setElem a e).elem a = e := by
  simp [State.elem, State.setElem]
theorem State.elem_setElem_ne (s : State) {a b : ElemAt} (e : Elem) (h : ekey b ≠ ekey a) : (s.setElem a e).elem b = s.elem b := by
  simp [State.elem, State.setElem, Map.get_set_ne _ _ _ h]
@[simp] theorem State.tile_setTile (s : State) (d : Fin 4) (x y : Nat) (t : Tile) : (s.setTile d x y t).tile d x y = t := by
  simp [State.tile, State.setTile]
theorem State.tile_setTile_ne (s : State) {d d' : Fin 4} {x y x' y' : Nat} (t : Tile) (h : tkey d' x' y' ≠ tkey d x y) :
    (s.setTile d x y t).tile d' x' y' = s.tile d' x' y' := by
  simp [State.tile, State.setTile, Map.get_set_ne _ _ _ h]

/-! ### The expert table -/

@[simp] theorem Ert.entry_setEntry (t : Ert) (i : Nat) (e : ErtEntry) : (t.setEntry i e).entry i = e := by
  simp [Ert.entry, Ert.setEntry]
theorem Ert.entry_setEntry_ne (t : Ert) {i j : Nat} (e : ErtEntry) (h : j ≠ i) : (t.setEntry i e).entry j = t.entry j := by
  simp [Ert.entry, Ert.setEntry, Map.get_put_ne _ _ _ h]

end Sys2Proof.Machine
end

