-- ==== Sys2Proof/Laws/Translate.lean ====
section
/-!
SUPPORT. What the updates of a translation cache and of an extent table do (R353, R354).
-/
namespace Sys2Proof.Machine

theorem lookupD_assign {α β : Type} [DecidableEq α] (d : β) (k j : α) (v : β) (l : List (α × β)) :
    lookupD d j (assign k v l) = if j = k then v else lookupD d j l := by
  induction l with
  | nil => simp [assign, lookupD, eq_comm]
  | cons x t ih =>
    obtain ⟨i, w⟩ := x
    by_cases hi : i = k
    · subst hi; by_cases h : j = i <;> simp [assign, lookupD, h, eq_comm]
    · by_cases h : j = k
      · subst h; simp [assign, lookupD, hi, ih]
      · simp [assign, lookupD, hi, ih, h]

@[simp] theorem State.tlbOf_setTlb (s : State) (who : Asker) (l : List TlbEntry) : (s.setTlb who l).tlbOf who = l := by
  cases who <;> simp [State.setTlb, State.tlbOf, lookupD_assign, State.setDie, State.die]

@[simp] theorem State.setTlb_mem (s : State) (who : Asker) (l : List TlbEntry) : (s.setTlb who l).mem = s.mem := by cases who <;> rfl
@[simp] theorem State.setTlb_walks (s : State) (who : Asker) (l : List TlbEntry) : (s.setTlb who l).walks = s.walks := by cases who <;> rfl
@[simp] theorem State.setTlb_moves (s : State) (who : Asker) (l : List TlbEntry) : (s.setTlb who l).moves = s.moves := by cases who <;> rfl
@[simp] theorem State.setTlb_cores (s : State) (who : Asker) (l : List TlbEntry) : (s.setTlb who l).cores = s.cores := by cases who <;> rfl
@[simp] theorem State.setTlb_elems (s : State) (who : Asker) (l : List TlbEntry) : (s.setTlb who l).elems = s.elems := by cases who <;> rfl
@[simp] theorem State.setTlb_tiles (s : State) (who : Asker) (l : List TlbEntry) : (s.setTlb who l).tiles = s.tiles := by cases who <;> rfl
@[simp] theorem State.setTlb_host (s : State) (who : Asker) (l : List TlbEntry) : (s.setTlb who l).host = s.host := by cases who <;> rfl

/-- No cache grows beyond what it holds at most (R353). -/
theorem State.tlbOf_keepTlb_length (s : State) (who : Asker) (asid : BitVec 13) (va : Nat) (p : Page) :
    ((s.keepTlb who asid va p).tlbOf who).length ≤ who.cap := by
  simp only [State.keepTlb, State.tlbOf_setTlb, List.length_take]
  exact Nat.min_le_left _ _

/-- The entry that keeps a translation is the first that holds its address. -/
theorem State.tlbOf_keepTlb (s : State) (who : Asker) (asid : BitVec 13) (va : Nat) (p : Page) :
    (s.keepTlb who asid va p).tlbOf who = (p.entry asid va :: (s.tlbOf who).filter fun x => !x.holds asid va).take who.cap := by
  simp [State.keepTlb]

/-- A walk that has ended with a fault, or none, caches nothing. -/
theorem State.stepWalk_none (s : State) (n : Nat) (h : s.walks[n]? = none) : s.stepWalk n = s := by simp [State.stepWalk, h]

/-- The extent table of a tile as it was set. -/
@[simp] theorem State.extents_setExtents (s : State) (a : ElemAt) (l : List Extent) : (s.setExtents a l).extents a = l := by
  simp [State.extents, State.setExtents]
@[simp] theorem State.setExtents_mem (s : State) (a : ElemAt) (l : List Extent) : (s.setExtents a l).mem = s.mem := rfl
@[simp] theorem State.setExtents_elems (s : State) (a : ElemAt) (l : List Extent) : (s.setExtents a l).elems = s.elems := rfl
@[simp] theorem State.setExtents_dies (s : State) (a : ElemAt) (l : List Extent) : (s.setExtents a l).dies = s.dies := rfl
@[simp] theorem State.setExtents_tlbs (s : State) (a : ElemAt) (l : List Extent) : (s.setExtents a l).tlbs = s.tlbs := rfl

/-- A full table has room for one extent more after it gives one up. -/
theorem extentRoom_length (e : Nat) (l : List Extent) (h : l.length ≤ 256) : (extentRoom e l).length < 256 := by
  unfold extentRoom
  split
  · assumption
  · split
    · rename_i x hx
      have := List.length_erase_of_mem (List.mem_of_find?_eq_some hx)
      omega
    · simp only [List.length_tail]; omega

end Sys2Proof.Machine
end

