-- ==== Sys2Proof/Tests/Slice0.lean ====
section
/-!
SUPPORT. Tests: ill-formed terms that the checks refuse, words written from the encodings of spec/05, single steps with results from
the rules' own tables, and for each statement a witness that meets its hypotheses.
-/
namespace Sys2Proof.Tests
open Sys2Proof Sys2Proof.Machine Sys2Proof.Safety
set_option Elab.async false

/-! ### A small machine -/

/-- An address space of ASID 0: the first GiB maps to itself, the second to the memory of die 1, both writable and open to task mode; the
third is a read-only supervisor page; nothing else is mapped. -/
def pages : List Host.Cell :=
  [(0, 1), (1, 0x10), (0x1000, 3), (0x1001, 0x20), (0x2000, 3), (0x2001, 0x30), (0x3000, 0x0D), (0x3007, 0x0A),
   (0x3008, 0x0D), (0x300C, 0x20), (0x300F, 0x0A), (0x3010, 0x01), (0x3017, 0x0A)]

/-- A region of all blocks, owned by core 0, with its image committed. -/
def whole : Region := { present := true, w := 4, h := 5, owner := some 0, committed := true }

/-- Core 0 runs in supervisor mode; region 0 of die 0 is `whole`; the ports and elements given stand on die 0. -/
def bed (es : List (ElemAt × Elem)) : State :=
  es.foldl (fun s x => s.setElem x.1 x.2)
    { State.reset with
      mem := pages
      dies := setF State.reset.dies 0 { regions := setF (Vector.replicate 16 {}) 0 whole }
      cores := setF State.reset.cores 0 { run := .running } }

def at' (x y e : Nat) : ElemAt := { die := 0, x, y, e }
/-- Elements 5 and 6 of tile (1, 1) take tokens. -/
def receivers : List (ElemAt × Elem) := [(at' 1 1 5, { fields := [(0, 0x28A)] }), (at' 1 1 6, { fields := [(0, 0x28A)] })]
def word (k : Nat) (v : Nat) : Token := { hdr := { kind := BitVec.ofNat 3 k, lanes := 3 }, pay := BitVec.ofNat 512 v }

/-- A sink port bound to q1 with a queue, and a source port bound to q2 whose edge leads to element 4 of its tile. -/
def ports (q : List Token) : State :=
  bed [(at' 0 1 0, { fields := [(16, 0x9C0)], inq := #v[q, [], [], []] }), (at' 0 1 1, { fields := [(7, 0x140), (16, 0xA80)] }), (at' 0 1 4, { fields := [(0, 0x201)] })]

/-- The running core with general registers set. -/
def withRegs (s : State) (l : List (Reg × Word)) : State := l.foldl (fun s x => s.wr x.1 x.2) s

/-- The running core edited. -/
def withCore (s : State) (f : CoreState → CoreState) : State := s.setMe (f s.me)

theorem eq_ok {ε α : Type} {x : Except ε α} {a : α} (h : x.toOption = some a) : x = .ok a := by
  cases x with
  | error e => cases h
  | ok b => cases h; rfl

def errorOf {ε α : Type} : Except ε α → Option ε
  | .error e => some e
  | .ok _ => none

theorem eq_error {ε α : Type} {x : Except ε α} {e : ε} (h : errorOf x = some e) : x = .error e := by
  cases x with
  | error f => cases h; rfl
  | ok b => cases h

theorem on_board {s : State} {addr : Word} {n : Nat} {write : Bool} {pa : Nat}
    (h : decide (addr.toNat < 0x00FF_FFFF_FFFF_0000) && decide (addr.toNat % n = 0) &&
      decide ((s.translateBy (.core s.cur) (s.me.asid.truncate 13) addr.toNat write (!s.sv)).toOption = some pa)) :
    OnBoard s addr n write pa := by
  simp only [Bool.and_eq_true, decide_eq_true_eq] at h
  exact ⟨h.1.1, h.1.2, eq_ok h.2⟩

/-! ### Witnesses -/

theorem witness_TwoOperandFunctionWritesTableValue : ∃ row ∈ aluRows ++ mulDivRows, ∃ o : Rrr,
    o.qa = false ∧ o.qb = false ∧ o.qd = false ∧ row.2 7 2 = 9 :=
  ⟨_, List.mem_cons_self, ⟨1, 2, 3, false, false, false⟩, by decide⟩

theorem witness_CountsAndImmediatesWriteTableValue : ∃ o : Unary, o.qa = false ∧ o.qd = false := ⟨⟨1, 2, false, false⟩, by decide⟩

theorem witness_CompareSelectAndPredicateResults : (∃ row ∈ compareRows, ∃ o : Rrr, o.qa = false ∧ o.qb = false ∧ o.qd = false ∧
      row.2 3 3 = true) ∧ (∃ row ∈ predicateRows, ∃ o : PCmp, o.qa = false ∧ o.qb = false ∧ row.2 3 3 = true) :=
  ⟨⟨_, List.mem_cons_self, ⟨1, 2, 3, false, false, false⟩, by decide⟩, ⟨_, List.mem_cons_self, ⟨1, 2, 3, false, false⟩, by decide⟩⟩

/-- q1 holds 5 and is named twice; q2 takes the result. -/
theorem witness_QueueOperandsPopOnceAndPush : (∃ row ∈ queueRows, ∃ o : Rrr, ∃ x y, SourceGives (ports [word 0 5]) (qReg o.qa o.a) o.a x ∧
      SourceGives (ports [word 0 5]) (qReg o.qb o.b) o.b y ∧ DestTakes (ports [word 0 5]) (qReg o.qd o.d)) ∧
    (∃ row ∈ predicateRows, ∃ o : PCmp, ∃ x y, SourceGives (ports [word 0 5]) (qReg o.qa o.a) o.a x ∧
      SourceGives (ports [word 0 5]) (qReg o.qb o.b) o.b y) ∧
    ∃ o : Unary, ∃ x, SourceGives (ports [word 0 5]) (qReg o.qa o.a) o.a x ∧ DestTakes (ports [word 0 5]) (qReg o.qd o.d) :=
  have h : SourceGives (ports [word 0 5]) (qReg true 1) 1 5 := Exists.intro (at' 0 1 0) (by decide +kernel)
  have d : DestTakes (ports [word 0 5]) (qReg true 2) := Exists.intro (at' 0 1 1) (by decide +kernel)
  ⟨⟨_, List.mem_cons_self, ⟨2, 1, 1, true, true, true⟩, 5, 5, h, h, d⟩, ⟨_, List.mem_cons_self, ⟨2, 1, 1, true, true⟩, 5, 5, h, h⟩,
    ⟨⟨2, 1, true, true⟩, 5, h, d⟩⟩

theorem unbound {s : State} {q : Nat} {vo : Bool} (h : s.qBind s.cur q = none) : WrongWay s q 0 vo := by unfold WrongWay; rw [h]

theorem wrong_way {s : State} {q : Nat} {vo : Bool} {a : ElemAt} (h : s.qBind s.cur q = some a) (k : (s.elem a).portVo = !vo) :
    WrongWay s q 1 vo := by unfold WrongWay; rw [h]; exact ⟨rfl, k⟩

/-- An unbound register, a source read and a sink written, in each place. -/
theorem witness_QueueDirectionTrapsFirst : let s := ports [word 0 5]
    (∃ row ∈ queueRows, row.2 7 2 = 9) ∧ (∃ row ∈ predicateRows, row.2 3 3 = true) ∧ WrongWay s 5 0 true ∧ WrongWay s 5 0 false ∧
      WrongWay s 2 1 true ∧ WrongWay s 1 1 false ∧ SourceBound s (qReg false 1) ∧ SourceBound s (qReg true 1) := by
  refine ⟨⟨_, List.mem_cons_self, by decide⟩, ⟨_, List.mem_cons_self, by decide⟩, unbound ?_, unbound ?_, wrong_way (a := at' 0 1 1) ?_ ?_,
    wrong_way (a := at' 0 1 0) ?_ ?_, trivial, Exists.intro (at' 0 1 0) ?_⟩ <;> decide +kernel

theorem witness_QpushSendsTheToken : let s := ports []
    s.qBind s.cur 2 = some (at' 0 1 1) ∧ (s.elem (at' 0 1 1)).portVo = false ∧ 0 < s.credits (at' 0 1 1) 0 ∧
      (s.elem (at' 0 1 1)).frozen = false ∧ (s.elem (at' 0 1 1)).cancelled (BitVec.ofNat 8 s.me.wid.toNat) 0 = false := by decide +kernel

/-- Behind one token of each kind that a pop drops stand a data, null, poison and end-of-run token in turn. -/
theorem witness_QpopAndQlvlReadTheQueue :
    (∀ k ∈ [0, 1, 4, 3], let s := ports [word 2 0, word 5 0, word 6 0, word k 7, word 0 8]
      s.qBind s.cur 1 = some (at' 0 1 0) ∧ (s.elem (at' 0 1 0)).portVo = true ∧
        getF (s.elem (at' 0 1 0)).inq 0 = [word 2 0, word 5 0, word 6 0] ++ word k 7 :: [word 0 8] ∧ (word k 7).hdr.kind = BitVec.ofNat 3 k) ∧
    (∀ c ∈ [word 2 0, word 5 0, word 6 0], c.hdr.kind = 2 ∨ c.hdr.kind = 5 ∨ c.hdr.kind = 6) ∧
    (let s := ports [word 0 5, word 1 0, word 3 0, word 0 6]
     getF (s.elem (at' 0 1 0)).inq 0 = [word 0 5, word 1 0] ++ [word 3 0, word 0 6] ∧ (∀ t ∈ [word 0 5, word 1 0], t.hdr.kind ≠ 3) ∧
       (word 3 0).hdr.kind = 3 ∧ s.qBind s.cur 2 = some (at' 0 1 1) ∧ (s.elem (at' 0 1 1)).portVo = false ∧ s.qBind s.cur 7 = none) := by
  decide +kernel

/-- An accumulator of tile (1, 1) that is full, with the last offset, the next one and a misaligned one; and an empty one. -/
def accs (tag : SlotTag) : State :=
  let s := bed [(at' 1 1 14, { fields := [(16, 1)] })]
  withRegs (s.setTile 0 1 1 { slots := setF (Vector.replicate 8 {}) 4 { tag, data := [(4095, 9)] } })
    [(1, 0x108), (2, 32760), (3, 32761), (4, 4)]

/-- The last one names an accumulator; the identifier 4 names none. -/
theorem witness_AccumulatorReadAndReset : (∀ tag ∈ [SlotTag.full, .empty], let s := accs tag
    AccNamed s (s.rd 1) 0 1 1 0 ∧ (getF (s.tile 0 1 1).slots 4).tag = tag ∧ (getF (s.tile 0 1 1).slots 4).taken = 0 ∧
      (s.rd 2).toNat ≤ 32760 ∧ (s.rd 2).toNat % 8 = 0 ∧ 32760 < (s.rd 3).toNat ∧ (s.rd 4).toNat ≤ 32760 ∧ (s.rd 4).toNat % 8 ≠ 0) ∧
    ∀ r x y j, ¬ AccNamed (accs .full) ((accs .full).rd 4) r x y j := by
  refine ⟨?_, fun r x y j h => ?_⟩
  · unfold AccNamed; decide +kernel
  · have hn : 4 = x * 256 + y * 8 + j.val := by
      have := congrArg BitVec.toNat h.2.2.1
      rw [show ((accs .full).rd 4).toNat = 4 by decide +kernel, BitVec.toNat_ofNat] at this
      have := h.2.2.2.1; have := h.2.2.2.2.1; omega
    omega

/-- g1 holds the last byte of the private window, g2 its last dword, g3 an address of the first GiB, g4 one whose home is die 1. -/
def addresses : State :=
  withRegs (bed []) [(1, 0x00FF_FFFF_FFFF_FFFF), (2, 0x00FF_FFFF_FFFF_FFF8), (3, 0x5000), (4, 0x4000_0008), (5, 0x8000_0000), (6, 0x3003)]

theorem witness_PlainLoadWritesExtendedValue : (∃ row ∈ loadRows, row.2.1 = 1) ∧
    InWindow (addresses.rd 1 + BitVec.ofInt 64 (0 : BitVec 16).toInt) 1 65535 ∧
    OnBoard addresses (addresses.rd 3 + BitVec.ofInt 64 (0xFFFF : BitVec 16).toInt) 1 false 0x4FFF ∧
    (addresses.drainStores addresses.cur).marked.contains (0x4FFF / 8) = false :=
  ⟨⟨_, List.mem_cons_self, rfl⟩, by unfold InWindow; decide +kernel, on_board (by decide +kernel), by decide +kernel⟩

theorem witness_PlainStoreStoresItsBytes : (∃ row ∈ storeRows, row.2 = 1) ∧
    InWindow (addresses.rd 1 + BitVec.ofInt 64 (0 : BitVec 16).toInt) 1 65535 ∧
    OnBoard addresses (addresses.rd 3 + BitVec.ofInt 64 (0xFFFF : BitVec 16).toInt) 1 true 0x4FFF ∧ OrderSettled addresses.me :=
  ⟨⟨_, List.mem_cons_self, rfl⟩, by unfold InWindow; decide +kernel, on_board (by decide +kernel), trivial⟩

theorem witness_AcquireLoadReadsAndAcquires : InWindow (addresses.rd 2) (sizeBytes .d) 65528 ∧
    OnBoard addresses (addresses.rd 4) (sizeBytes .d) false (2 ^ 37 + 8) ∧
    (addresses.drainStores addresses.cur).marked.contains ((2 ^ 37 + 8) / 8) = false :=
  ⟨by unfold InWindow; decide +kernel, on_board (by decide +kernel), by decide +kernel⟩

theorem witness_ReleaseStorePerformsAfterRelease : (addresses.me.rel = none ∧ addresses.me.order = []) ∧ NoPaths addresses ∧
    InWindow (addresses.rd 2) (sizeBytes .d) 65528 ∧ OnBoard addresses (addresses.rd 3) (sizeBytes .d) true 0x5000 ∧
    addresses.isLocal (dieOf addresses.cur) (0x5000 / 8) = true ∧ OnBoard addresses (addresses.rd 4) (sizeBytes .d) true (2 ^ 37 + 8) ∧
    addresses.isLocal (dieOf addresses.cur) ((2 ^ 37 + 8) / 8) = false :=
  ⟨by decide +kernel, by unfold NoPaths; decide +kernel, by unfold InWindow; decide +kernel, on_board (by decide +kernel), by decide +kernel,
    on_board (by decide +kernel), by decide +kernel⟩

/-- The MT of site (5, 1) caches `n` pages from the second GiB on. -/
def cached (n : Nat) : State :=
  withRegs (bed [(at' 5 1 15, { fields := [(16, 3), (17, 0x4000_0000), (18, n)] })]) [(4, 0x4000_0008)]

theorem in_range {s : State} {va : Nat} (h : s.atomicTarget va = true) : InPrivateRange s va := by
  unfold State.atomicTarget at h
  split at h
  · rename_i r hr
    obtain ⟨hc, h⟩ := Bool.and_eq_true_iff.1 h
    obtain ⟨a, ha, h⟩ := List.any_eq_true.1 h
    obtain ⟨h, hd⟩ := Bool.and_eq_true_iff.1 h
    obtain ⟨hk, he⟩ := Bool.and_eq_true_iff.1 h
    obtain ⟨hd, hl⟩ := Bool.and_eq_true_iff.1 hd
    obtain ⟨hm, hb⟩ := Bool.and_eq_true_iff.1 hd
    have hm := of_decide_eq_true hm
    have hl := of_decide_eq_true hl
    rw [bits, Nat.pow_zero, Nat.div_one] at hm
    rw [bits, bits, Nat.pow_zero, Nat.div_one] at hl
    exact ⟨r, hr, hc, a, ha, of_decide_eq_true hk, of_decide_eq_true he, hm, of_decide_eq_true hb, hl⟩
  · cases h

theorem not_in_range {s : State} {va : Nat} (h : s.atomicTarget va = false) : ¬ InPrivateRange s va := by
  rintro ⟨r, hr, hc, a, ha, hk, he, hm, hb, hl⟩
  have hd : (s.elem a).declares va = true := by
    unfold Elem.declares
    refine Bool.and_eq_true_iff.2 ⟨Bool.and_eq_true_iff.2 ⟨decide_eq_true ?_, decide_eq_true hb⟩, decide_eq_true ?_⟩ <;>
      simp only [bits, Nat.pow_zero, Nat.div_one] <;> assumption
  have : s.atomicTarget va = true := by
    unfold State.atomicTarget; rw [hr]
    refine Bool.and_eq_true_iff.2 ⟨hc, List.any_eq_true.2 ⟨a, ha, ?_⟩⟩
    rw [decide_eq_true hk, decide_eq_true he, hd]; rfl
  rw [h] at this; cases this

def amoAt (a : Reg) : Amo := { d := 7, a, b := 0, acq := true, rel := true, dbl := true, scope := .device }

theorem witness_AtomicReadsModifiesWrites : (∃ row ∈ amoRows, row.2 4 1 2 0 = some 3) ∧
    (OnBoard (cached 1) ((cached 1).rd (amoAt 4).a) (amoBytes (amoAt 4)) true (2 ^ 37 + 8) ∧ InPrivateRange (cached 1) ((cached 1).rd (amoAt 4).a).toNat) ∧
    (addresses.me.rel = none ∧ addresses.me.amo = none ∧ addresses.me.order = []) ∧ NoPaths addresses ∧
    InWindow (addresses.rd (amoAt 2).a) (amoBytes (amoAt 2)) 65528 ∧
    OnBoard addresses (addresses.rd (amoAt 4).a) (amoBytes (amoAt 4)) true (2 ^ 37 + 8) ∧
    (addresses.marked.contains ((2 ^ 37 + 8) / 8) = false ∧ addresses.unlandedLine (.core addresses.cur) ((2 ^ 37 + 8) / 64) = false ∧
      addresses.isLocal (dieOf addresses.cur) ((2 ^ 37 + 8) / 8) = false) ∧
    ¬ InPrivateRange addresses (addresses.rd (amoAt 4).a).toNat :=
  ⟨⟨_, List.mem_cons_self, by decide⟩, ⟨on_board (by decide +kernel), in_range (by decide +kernel)⟩, by decide +kernel,
    by unfold NoPaths; decide +kernel, by unfold InWindow; decide +kernel, on_board (by decide +kernel), by decide +kernel,
    not_in_range (by decide +kernel)⟩

/-- Bits 63:56 set; a misaligned address; an unmapped one; a page without write permission. -/
theorem witness_DataAddressChecksInOrder : let s := withRegs addresses [(8, 2 ^ 56), (9, 2 ^ 56 - 1), (10, 2 ^ 40)]
    DataAccess s (.stl 5 0 .d .die) (s.rd 5) 8 true ∧ (2 ^ 56 ≤ (s.rd 8).toNat ∧ (s.rd 9).toNat < 2 ^ 56 ∧ (s.rd 9).toNat % 8 ≠ 0 ∧
      (s.rd 10).toNat < 0x00FF_FFFF_FFFF_0000 ∧ (s.rd 10).toNat % 8 = 0 ∧
      (s.rd 5).toNat < 0x00FF_FFFF_FFFF_0000 ∧ (s.rd 5).toNat % 8 = 0) ∧
      s.translateBy (.core s.cur) (s.me.asid.truncate 13) (s.rd 10).toNat true (!s.sv) = .error .translation ∧
      s.translateBy (.core s.cur) (s.me.asid.truncate 13) (s.rd 5).toNat true (!s.sv) = .error .protection :=
  ⟨.inr (.inr (.inr (.inl ⟨5, 0, .d, .die, rfl, rfl, rfl, rfl⟩))), by decide +kernel, eq_error (by decide +kernel), eq_error (by decide +kernel)⟩

theorem witness_BranchesAndJumpsReachTheirTargets : PcOk (bed []) ∧ PcOk (withCore (bed []) fun k => { k with pc := 0x3FFFC }) ∧
    ∃ row ∈ branchRows, row.2 3 3 = true :=
  ⟨by unfold PcOk; decide +kernel, by unfold PcOk; decide +kernel, _, List.mem_cons_self, by decide⟩

theorem loads {s : State} {i : Instr} {addr : Word} {code n : Nat} {w : Bool}
    (h : ∃ d a size u scope, i = .lda d a size u scope ∧ addr = s.rd a ∧ n = sizeBytes size ∧ w = false)
    (k : (2 ^ 56 ≤ addr.toNat ∧ code = 0x05) ∨ (addr.toNat < 2 ^ 56 ∧ addr.toNat % n ≠ 0 ∧ code = 0x06) ∨
      (addr.toNat < 0x00FF_FFFF_FFFF_0000 ∧ addr.toNat % n = 0 ∧ ∃ f,
        s.translateBy (.core s.cur) (s.me.asid.truncate 13) addr.toNat w (!s.sv) = .error f ∧ code = if f = .translation then 0x07 else 0x08)) :
    RaisesSync s i code := .inr (.inr (.inr (.inr (.inl ⟨addr, n, w, .inr (.inr (.inl h)), k⟩))))

theorem witness_SoftwareAndIllegalTrapsEnterHandler : (bed []).me.th = false := by decide +kernel

/-- Inside a handler: an illegal word, eret in task mode, an unbound register, a jump beyond code memory, an address out of range and one
without a page, an atomic on a cached range, a shape request of a core without region, trap. -/
theorem witness_DoubleTrapStopsTheCore :
    let s := withCore (withRegs (bed []) [(1, 2 ^ 56), (2, 2 ^ 40), (3, 4)]) fun k => { k with status := 0x10 }
    (s.me.th = true ∧ s.host.held.length < 256) ∧ RaisesSync s (.illegalInstruction 0) 1 ∧ RaisesSync s .eret 2 ∧ RaisesSync s (.qlvl 1 5) 3 ∧
      RaisesSync s (.jalr 0 1) 4 ∧ RaisesSync s (.lda 0 1 .d false .die) 5 ∧ RaisesSync s (.lda 0 3 .d false .die) 6 ∧
      RaisesSync s (.lda 0 2 .d false .die) 7 ∧
      RaisesSync (cached 1) (.amoAdd (amoAt 4)) 9 ∧ RaisesSync { s with cur := 1 } (.shape 0 1 0 .vec) 10 ∧ RaisesSync s (.trap 5) 11 := by
  refine ⟨by decide +kernel, .inl ⟨0, rfl, rfl⟩, .inr (.inl ⟨by decide +kernel, .inl rfl, rfl⟩),
    .inr (.inr (.inl ⟨1, 5, 0, .inl ⟨.inl rfl, by decide +kernel⟩, rfl⟩)), .inr (.inr (.inr (.inl ⟨0, 1, rfl, by decide +kernel, rfl⟩))),
    loads ⟨0, 1, .d, false, .die, rfl, rfl, rfl, rfl⟩ (.inl ⟨by decide +kernel, rfl⟩),
    loads ⟨0, 3, .d, false, .die, rfl, rfl, rfl, rfl⟩ (.inr (.inl ⟨by decide +kernel, by decide +kernel, rfl⟩)),
    loads ⟨0, 2, .d, false, .die, rfl, rfl, rfl, rfl⟩
      (.inr (.inr ⟨by decide +kernel, by decide +kernel, .translation, eq_error (by decide +kernel), rfl⟩)),
    .inr (.inr (.inr (.inr (.inr (.inl ⟨_, List.mem_cons_self, amoAt 4, 2 ^ 37 + 8, rfl, on_board (by decide +kernel),
      in_range (by decide +kernel), rfl⟩))))),
    .inr (.inr (.inr (.inr (.inr (.inr (.inl ⟨0, 1, 0, .vec, rfl, by decide +kernel, rfl⟩)))))),
    .inr (.inr (.inr (.inr (.inr (.inr (.inr ⟨5, rfl, rfl⟩))))))⟩

theorem witness_EretRestores : (bed []).sv = true ∧ (withCore (bed []) fun k => { k with status := 1 }).sv = false := by decide +kernel

theorem witness_SystemRegisterAccess : (bed []).sv = true ∧ (withCore (bed []) fun k => { k with status := 1 }).sv = false := by
  decide +kernel

/-- The word at pc 0 is the wait of the address in g3 with the value in g7; the address holds 0. -/
def waits : State :=
  withCore addresses fun k => { k with code := [(0, BitVec.ofNat 32 (encodeNat (.wait 7 3 .device)))], waiting := true }

theorem witness_FenceWaitHaltComplete : (waits.me.rel = none ∧ waits.me.order = []) ∧ NoPaths waits ∧ OnBoard waits (waits.rd 3) 8 false 0x5000 ∧
    waits.home (0x5000 / 8) = waits.rd 7 ∧ waits.home (0x5000 / 8) ≠ waits.rd 3 ∧ waits.me.waiting = true ∧ waits.me.run = .running ∧
    decode waits.fetchWord = .wait 7 3 .device ∧ waits.clockOn (dieOf waits.cur) = true :=
  ⟨by decide +kernel, by unfold NoPaths; decide +kernel, on_board (by decide +kernel), by decide +kernel⟩

def interrupted (st : Word) : State := withCore (bed []) fun k => { k with status := st, irq := [2, 1] }

theorem witness_AsynchronousTrapTaken : ∀ b : Bool, let s := interrupted (if b then 9 else 8)
    (s.core 0).irq = 2 :: [1] ∧ s.clockOn (dieOf 0) = true ∧ (s.core 0).amo = none ∧ (s.core 0).rel = none ∧
      (s.core 0).ie = b ∧ (s.core 0).run = .running := by decide +kernel

/-! Commands -/

/-- Engine (0, 1) 2 serves port vi 0, engine (0, 1) 3 port vi 1 through q3 with an edge; port 2 is not mapped. -/
def engines : List (ElemAt × Elem) :=
  [(at' 0 1 2, { fields := [(0, 0x204), (16, 0x80)] }), (at' 0 1 3, { fields := [(0, 0x204), (7, 0x140), (16, 0xB81)] }),
   (at' 0 1 4, { fields := [(0, 0x201)] })]

/-- g1 and g2 name records of the first GiB, g3 ports 0 and 1, g4 port 0, g5 queue 0. -/
def issuing : State := withRegs (bed engines) [(1, 0x5000), (2, 0x5040), (3, 3), (4, 1), (5, 1), (6, 5), (7, 2 ^ 32)]

def aStore : OrderItem := .store { granule := 0xA00, mask := 0xFF, value := 1 }
def aCommand (op : CmdOp) : Command :=
  { op, word := 0, core := 0, asid := 0, user := false, base := 0x5000, count := 8, tag := 5, engine := some (at' 0 1 2) }

theorem all_bits {m : Word} {p : Nat → Bool} (h : (List.range 64).all (fun i => !m.getLsbD i || p i) = true) :
    ∀ i, m.getLsbD i = true → p i = true := by
  intro i hi
  have := List.all_eq_true.1 h i (List.mem_range.2 (by have := BitVec.lt_of_getLsbD hi; omega))
  simpa [hi] using this

theorem named_bits {s : State} {m : Word} {p : ElemAt → Bool}
    (h : (List.range 64).all (fun i => !m.getLsbD i || ((maskPort s i).map p).getD true) = true) :
    ∀ e, MaskNames s m e → p e = true := by
  rintro e ⟨i, _, hb, hp⟩
  have := all_bits h i hb
  simpa [hp] using this

theorem witness_TaggedCommandsIssue :
    (∃ row ∈ streamRows, row.2.2 = false) ∧ issuing.portElem issuing.cur false 2 = none ∧
    (issuing.portElem issuing.cur false 1 = some (at' 0 1 3) ∧ (issuing.elem (at' 0 1 3)).qpValid = true) ∧
    (issuing.portElem issuing.cur false 0 = some (at' 0 1 2) ∧ (issuing.elem (at' 0 1 2)).qpValid = false) ∧
    OnBoard issuing (issuing.rd 1) 64 false 0x5000 ∧ OnBoard issuing (issuing.rd 1) 8 false 0x5000 ∧
    (issuing.engineLoad issuing.cur (at' 0 1 2) < 2 ∧ issuing.me.queueLoad 0 < 16) ∧ OrderSettled issuing.me ∧ TagRoom issuing 5 ∧
    ¬ TagRoom (withCore issuing fun k => { k with tagCount := setF k.tagCount 5 255 }) 5 ∧
    2 ≤ (issuing.setElem (at' 0 1 2) { se := { items := [.cmd (aCommand .strmLd), .cmd (aCommand .strmLd)] } }).engineLoad 0 (at' 0 1 2) ∧
    16 ≤ (withCore issuing fun k => { k with queues := setF k.queues 0 (List.replicate 16 (.fence 0 0)) }).me.queueLoad 0 :=
  ⟨⟨_, List.mem_cons_self, rfl⟩, by decide +kernel, by decide +kernel, by decide +kernel, on_board (by decide +kernel),
    on_board (by decide +kernel), by decide +kernel, trivial, by unfold TagRoom; decide +kernel, by unfold TagRoom; decide +kernel,
    by decide +kernel, by decide +kernel⟩

/-- No port named; port 0 named with nothing, and with a store, in the order buffer; no queue, a full one and one with room. -/
theorem witness_BarriersAndFencesArePlaced :
    (∀ e, ¬ MaskNames issuing (issuing.rd 0) e) ∧ MaskNames issuing (issuing.rd 4) (at' 0 1 2) ∧ issuing.me.order = [] ∧
    (OrderSettled (withCore issuing fun k => { k with order := [aStore] }).me ∧
      (withCore issuing fun k => { k with order := [aStore] }).me.order ≠ []) ∧
    (∀ q : QReg, (issuing.rd 0).getLsbD q.val = false) ∧ (issuing.rd 5).getLsbD (0 : QReg).val = true ∧
    16 ≤ (withCore issuing fun k => { k with queues := setF k.queues 0 (List.replicate 16 (.fence 0 0)) }).me.queueLoad 0 ∧
    ∀ q : QReg, (issuing.rd 5).getLsbD q.val = true → issuing.me.queueLoad q < 16 :=
  ⟨fun _ h => by obtain ⟨i, _, hb, _⟩ := h; simp [State.rd, CoreState.readG] at hb, ⟨0, by decide +kernel⟩, by decide +kernel, ⟨trivial, by decide +kernel⟩,
    by decide +kernel, by decide +kernel, by decide +kernel, by decide +kernel⟩

/-- The mask in g3 names tags 0 and 1: both set, the second alone, none; and the empty mask. -/
theorem witness_TagInstructionsWaitFindClear : issuing.rd 0 = 0 ∧ issuing.rd 3 ≠ 0 ∧
    (∀ i, (issuing.rd 3).getLsbD i = true → issuing.me.tags.getLsbD i = true) ∧
    (let s := withCore issuing fun k => { k with tags := 2 }
     (s.rd 3).getLsbD 1 = true ∧ s.me.tags.getLsbD 1 = true ∧ (s.rd 3).getLsbD 0 = true ∧ s.me.tags.getLsbD 0 = false ∧
       ∀ j, j < 1 → (s.rd 3).getLsbD j = true → s.me.tags.getLsbD j = false) ∧
    ∀ i, (issuing.rd 3).getLsbD i = true → (withCore issuing fun k => { k with tags := 0 }).me.tags.getLsbD i = false :=
  ⟨by decide +kernel, by decide +kernel, all_bits (by decide +kernel), by decide +kernel,
    fun i h => by simpa using all_bits (p := fun i => !(withCore issuing fun k => { k with tags := 0 }).me.tags.getLsbD i) (by decide +kernel) i h⟩

/-- Requests (m and n in one register, k in the other): each below its granule, one beyond 32 bits, and one granted; a core with a region
and one without. -/
theorem witness_ShapeGrantsAndWritesBack : issuing.ownRegion issuing.cur = some 0 ∧ ({ issuing with cur := 1 } : State).ownRegion 1 = none ∧
    (issuing.region 0 0).w = 4 ∧ (issuing.region 0 0).h = 5 ∧ 2 ^ 32 ≤ (issuing.rd 7).toNat ∧ (issuing.rd 6).toNat = 5 ∧
    (let s := withRegs issuing [(10, 0x0000_0020_0000_0019), (11, 0x0000_000F_0000_0010), (12, 33)]
     (s.rd 10).toNat % 2 ^ 32 = 25 ∧ (s.rd 10).toNat / 2 ^ 32 = 32 ∧ (s.rd 11).toNat % 2 ^ 32 = 16 ∧ (s.rd 11).toNat / 2 ^ 32 < 16 ∧
       (s.rd 12).toNat < 2 ^ 32 ∧ Granted 25 320 16 16 ∧ Granted 32 256 16 32 ∧ Granted 33 1024 32 32 ∧ Granted 5000 4096 8 4096) := by
  unfold Granted; decide +kernel

def publishing : State := withCore issuing fun k => { k with sh := setF k.sh 1 { valid := true, grantM := 8 } }

/-- Ports 0 and 1 named with a valid register; the same when the bound port has no credit; port 2, which is not mapped, behind port 0. -/
theorem witness_ShpubPublishesTheGrant : let s := publishing
    (2 ^ 32 ≤ (s.rd 7).toNat ∧ (s.rd 3).toNat < 2 ^ 32 ∧ (s.rd 6).toNat < 2 ^ 32 ∧ (s.rd 6).getLsbD 2 = true ∧ maskPort s 2 = none ∧
      (∀ j, j < 2 → (s.rd 6).getLsbD j = true → (maskPort s j).isSome = true) ∧ (getF s.me.sh 1).valid = true ∧ (getF s.me.sh 0).valid = false) ∧
    (∀ i, (s.rd 3).getLsbD i = true → (maskPort s i).isSome = true) ∧ MaskNames s (s.rd 3) (at' 0 1 3) ∧
    (∀ e, MaskNames s (s.rd 3) e → (s.elem e).qpValid = true → 0 < s.credits e 0 ∧ (s.elem e).frozen = false) ∧
    ((s.elem (at' 0 1 3)).qpValid = true ∧ (s.elem (at' 0 1 2)).qpValid = false ∧ s.me.order = []) ∧
    (s.setElem (at' 0 1 4) { s.elem (at' 0 1 4) with inq := #v[List.replicate 4 (word 0 0), [], [], []] }).credits (at' 0 1 3) 0 = 0 :=
  ⟨by decide +kernel, all_bits (by decide +kernel), ⟨1, by decide +kernel⟩,
    fun e h q => by
      simpa [q] using named_bits (s := publishing) (p := fun e => !(publishing.elem e).qpValid ||
        (decide (0 < publishing.credits e 0) && !(publishing.elem e).frozen)) (by decide +kernel) e h,
    by decide +kernel, by decide +kernel⟩

/-- A good launch header at 0x5000: priority 16, own die, one block, two commands. -/
def header : List Host.Cell := [(0x5002, 8), (0x5003, 0x10), (0x5038, 2), (0x503B, 9), (0x506A, 0x10)]
def enqueuing (st : Word) (bad : List Host.Cell) : State :=
  withCore { issuing with mem := pages ++ header ++ bad } fun k => { k with status := st }

def enqHead (st : Word) (bad : List Host.Cell) : Task :=
  let s := enqueuing st bad
  let h := ((s.emptyPathSets [.core s.cur]).readHeader [0x5000, 0x5040]).1
  { id := 0, die := 0, hdr := h, hdrAddr := 0x5000, by' := 0, tag := 5, hdrAsid := 0, user := !s.sv, parent := none
    asid := BitVec.ofNat 13 ((h.getD 0 0).toNat / 2 ^ 32), order := 0 }

/-- A good header in supervisor mode and, above PRIO, in task mode; a nonzero dword 10 of an unbounded task. No stream named. -/
theorem witness_EnqQueuesTheTask : ((enqueuing 8 []).me.rel = none ∧ (enqueuing 8 []).me.order = [] ∧ (enqueuing 8 []).me.hdrHeld = false ∧ (enqueuing 0 []).me.hdrHeld = false ∧
      (enqueuing 0 []).me.rel = none ∧ (enqueuing 0 []).me.order = []) ∧
    NoPaths (enqueuing 8 []) ∧ TagRoom (enqueuing 8 []) 5 ∧ OnBoard (enqueuing 8 []) ((enqueuing 8 []).rd 1) 64 false 0x5000 ∧
    OnBoard (enqueuing 8 []) ((enqueuing 8 []).rd 1 + 64) 8 false 0x5040 ∧ OnBoard (enqueuing 8 []) ((enqueuing 8 []).rd 1 + 128) 8 true 0x5080 ∧
    (∀ e, ¬ MaskNames (enqueuing 8 []) ((enqueuing 8 []).rd 0) e) ∧
    ((enqHead 8 []).badHeader none = false ∧ (enqHead 8 []).prio = 16 ∧ ((enqHead 8 []).hdr.getD 0 0).toNat / 2 ^ 17 % 8 = 4 ∧
      ((enqueuing 8 []).inBank 0 1 false).length < 256 ∧ (enqueuing 8 []).inBank 0 1 true = []) ∧
    ((enqHead 0 []).badHeader (some 0) = false ∧ (enqueuing 0 []).sv = false ∧ (enqueuing 0 []).me.prio.toNat < (enqHead 0 []).prio) ∧
    (enqHead 8 [(0x5050, 1)]).badHeader none = true :=
  ⟨by decide +kernel, by unfold NoPaths; decide +kernel, by unfold TagRoom; decide +kernel, on_board (by decide +kernel), on_board (by decide +kernel),
    on_board (by decide +kernel), fun _ h => by obtain ⟨i, _, hb, _⟩ := h; simp [State.rd, CoreState.readG] at hb,
    by decide +kernel, by decide +kernel, by decide +kernel⟩

/-- The expert table with entry 7 of key (3, 4) in a given state, and the key in g9; g0 asks to pin, g4 not to. -/
def tabled (e : ErtEntry) : State :=
  { withRegs issuing [(9, 0x30004)] with ert := { en := true, entries := [(7, { e with v := true, layer := 3, expert := 4 })] } }

theorem witness_ExpertTableCommandsAnswer : (withCore issuing fun k => { k with status := 0 }).sv = false ∧
    (∀ st : Fin 4, let s := tabled { state := st, refcnt := 2 }
      s.me.order = [] ∧ getF s.me.tagCount 5 < 255 ∧ (s.rd 9).toNat < 2 ^ 32 ∧ s.rd 0 = 0 ∧ s.rd 4 = 1 ∧ s.sv = true ∧
        s.ert.find ((s.rd 9).toNat / 2 ^ 16) ((s.rd 9).toNat % 2 ^ 16) = some 7 ∧ (s.ert.entry 7).state = st ∧
        (s.ert.entry 7).evicting = false ∧ (s.ert.entry 7).refcnt ≠ 0) ∧
    (tabled {}).ert.find (((tabled {}).rd 1).toNat / 2 ^ 16) (((tabled {}).rd 1).toNat % 2 ^ 16) = none := by decide +kernel

/-- A stream of commands at region 0: begun or not, after a write or not, bad or not. -/
def configuring (c : Cursor) : State :=
  let s := bed engines
  s.setDie 0 { s.die 0 with cursor := c }

/-- A store of granule 3 is queued at the MT of site (5, 1). -/
def queued : State :=
  bed [(at' 1 1 0, { pend := [{ store := true, mt := true, bank := tkey 0 5 1, heads := [], hdr := {}, writes := [(3, 1, 1)] }] })]

theorem witness_ConfigurationCommandsTakeEffect :
    (StreamAt (configuring { region := some 0 }) 0 0 false ∧ ((configuring {}).region 0 0).w = (4 : Fin 8).val ∧
      ((configuring {}).region 0 0).h = (5 : Fin 8).val ∧ ((configuring {}).region 0 0).w ≠ (3 : Fin 8).val) ∧
    (StreamAt (configuring { region := some 0, began := true }) 0 0 true ∧
      (configuring { region := some 0, began := true }).cfgTarget 0 0 0 1 2 16 0x3FF = some (at' 0 1 2) ∧
      (configuring { region := some 0, began := true }).cfgTarget 0 0 0 1 2 15 0 = none ∧
      (configuring { region := some 0, began := true }).cfgTarget 0 0 22 1 2 16 0 = none ∧
      ((configuring {}).die 0).cursor.last = none ∧ MtSite (configuring {}) 0 0 (5 : Fin 32).val (1 : Fin 32).val ∧
      ¬ MtSite (configuring {}) 0 0 (1 : Fin 32).val (1 : Fin 32).val) ∧
    QueuedAt queued 0 0 (tkey 0 5 1) 3 1 1 ∧
    (StreamAt (configuring { region := some 0, began := true, last := some (at' 1 1 0, 16, 10) }) 0 0 true ∧ 10 < fieldWidth 16 ∧
      (0x3FFFFFFF : BitVec 30).toNat < 2 ^ (fieldWidth 16 - 10) ∧ fieldWidth 16 ≤ 70 ∧
      2 ^ (fieldWidth 16 - 40) ≤ (0x3FFFFFFF : BitVec 30).toNat) ∧
    ((configuring { region := some 0, bad := some 9 }).die 0).cursor.bad = some 9 := by
  refine ⟨?_, ?_, ⟨at' 1 1 0, ?_, ?_⟩, ?_, ?_⟩
  case refine_4 =>
    exact ⟨{ store := true, mt := true, bank := tkey 0 5 1, heads := [], hdr := {}, writes := [(3, 1, 1)] }, by decide +kernel⟩
  all_goals first | (unfold StreamAt MtSite; decide +kernel) | (unfold StreamAt; decide +kernel) | decide +kernel

/-! Begin and end of commands -/

theorem ok_with {ε α : Type} {x : Except ε α} {p : α → Bool} (h : x.toOption.map p = some true) : ∃ a, x = .ok a ∧ p a = true := by
  cases x with
  | error e => cases h
  | ok a => exact ⟨a, rfl, by simpa [Except.toOption] using h⟩

theorem queues_settled {s : State} {c : Fin 64} (h : (s.core c).fenceDue = none) : QueuesSettled s c := by
  unfold QueuesSettled State.settleQueues CoreState.settleFences
  rw [h]
  simp [State.setCore, setF, State.core, getF]

theorem isNone_none {α : Type} {x : Option α} (h : x.isNone = true) : x = none := by cases x <;> trivial

theorem engines_settled {s : State} (h : s.engines.findSome? s.settleHeadItem = none) : EnginesSettled s := by
  unfold EnginesSettled State.settleEngines
  generalize s.engines.foldl _ 0 = n
  cases n with
  | zero => rfl
  | succ n => unfold State.settleItems; rw [h]

/-- Bytes of dwords at 0x5000. -/
def record (l : List (Nat × Nat)) : List Host.Cell :=
  l.flatMap fun x => ((List.range 8).map fun i => (0x5000 + 8 * x.1 + i, BitVec.ofNat 8 (x.2 / 256 ^ i))).filter fun c => c.2 != 0

/-- Core 0 has `order`, `queues` and `cfg`; engine (0, 1) 2 has `se`; a record of these dwords stands at 0x5000. -/
def commanding (rec : List (Nat × Nat)) (se : StreamState) (f : CoreState → CoreState) : State :=
  let s := withCore { issuing with mem := pages ++ record rec } f
  s.setElem (at' 0 1 2) { s.elem (at' 0 1 2) with se }

def loadCmd (count : Word) : Command := { aCommand .strmLd with count }
def withShape (g : BitVec 16) (k : CoreState) : CoreState := { k with sh := setF k.sh 0 { valid := true, grantM := g } }

/-- Engine (0, 1) 2 is about to begin a load of a one-dimensional record whose header is `h`, of 64 elements. -/
def loading (h : Nat) (count : Word) (f : CoreState → CoreState) : State :=
  commanding [(0, h), (1, 0x6000), (4, 64)] { items := [.cmd (loadCmd count)] } f

def recordOf (h : Nat) (count : Word) (f : CoreState → CoreState) : Except Nat (List Word × State) :=
  let s := loading h count f
  (s.setElem (at' 0 1 2) { s.elem (at' 0 1 2) with se := { (s.elem (at' 0 1 2)).se with items := [] } }).cmdDwords 0 0 false (0x5000 / 8) 16

def runOf (l : List Word) (count : Word) : StreamRun := { cmd := loadCmd count, record := l, count := 0, requested := 0 }

/-- The head of queue 1 of core 0 is a copy about to begin. -/
def copying (op : CmdOp) (count : Word) (l : List (Nat × Nat)) : State :=
  commanding l {} fun k => { k with queues := setF k.queues 1 [.cmd { aCommand op with count } .waiting {} false] }

/-- A cfg.ld of `n` words is about to begin. -/
def configLoad (n : Word) (words : Nat) : State :=
  commanding [(0, words)] {} fun k => { k with cfg := [{ cmd := { aCommand .cfgLd with count := n } }] }

def twoWords (w : Fin 8) : Nat := encodeConfigNat (.beginCmd false w 5) + 2 ^ 32 * encodeConfigNat .commit

theorem witness_CommandsBegin :
    (∀ op ∈ [CmdOp.strmLd, .cpy, .cfgLd, .flm], let s := commanding [] {} fun k => { k with order := [.cmd (aCommand op)] }
      (s.die 0).clk ≠ 3 ∧ (aCommand op).core = 0 ∧ (s.core 0).order = .cmd (aCommand op) :: [] ∧ (aCommand op).engine = some (at' 0 1 2)) ∧
    OrderSettled { (issuing.core 0) with order := [] } ∧
    -- an engine: a bad header, an invalid shape register, a record of 8 rows whole and clamped to 4
    NextCommand (loading 0x800 0 id) (at' 0 1 2) (loadCmd 0) [] ∧
    (∃ p, recordOf 0 0 id = .ok p ∧ decide ((runOf p.1 0).bad .strmLd = some 0) = true) ∧
    (∃ p, recordOf 0x8000_0800 0 id = .ok p ∧ (decide ((runOf p.1 0).bad .strmLd = none) && ((runOf p.1 0).dw 0).testBit 31 &&
      !(getF ((loading 0x8000_0800 0 id).core 0).sh ⟨(runOf p.1 0).dw 0 / 2 ^ 28 % 8, by omega⟩).valid) = true) ∧
    (∃ p, recordOf 0x800 0 id = .ok p ∧ (decide ((runOf p.1 0).bad .strmLd = none) && !((runOf p.1 0).dw 0).testBit 31 &&
      decide ((runOf p.1 0).allRows = 8)) = true) ∧
    (∃ p, recordOf 0x8000_0800 8 (withShape 32) = .ok p ∧ (decide ((runOf p.1 8).bad .strmLd = none) && ((runOf p.1 8).dw 0).testBit 31 &&
      decide ((runOf p.1 8).bound (grantDim (getF ((loading 0x8000_0800 8 (withShape 32)).core 0).sh 0) ((runOf p.1 8).dw 0 / 2 ^ 26 % 4)) = 4)) = true) ∧
    ((loading 0x800 0 id).taskAt (at' 0 1 2) = none ∧ ((loading 0x800 0 id).elem (at' 0 1 2)).outRate 0 = 1) ∧
    -- a copy: a count beyond its range, a source in the window, a row count beyond its range, nothing to move, one row
    (∃ p, (copying .cpy (2 ^ 40 + 1) []).cmdDwords 0 0 false (0x5000 / 8) 6 = .ok p ∧ true = true) ∧
    (∃ p, (copying .cpy 8 [(0, 0x00FF_FFFF_FFFF_0000)]).cmdDwords 0 0 false (0x5000 / 8) 6 = .ok p ∧
      decide (0x00FF_FFFF_FFFF_0000 ≤ (p.1.getD 0 0).toNat) = true) ∧
    (∃ p, (copying .cpy2d 8 [(3, 2 ^ 32 + 1)]).cmdDwords 0 0 false (0x5000 / 8) 6 = .ok p ∧
      (decide ((p.1.getD 0 0).toNat < 0x00FF_FFFF_FFFF_0000) && decide (2 ^ 32 < (p.1.getD 3 0).toNat)) = true) ∧
    (∃ p, (copying .cpy2d 8 [(3, 2 ^ 32)]).cmdDwords 0 0 false (0x5000 / 8) 6 = .ok p ∧
      (decide ((p.1.getD 1 0).toNat < 0x00FF_FFFF_FFFF_0000) && decide ((p.1.getD 3 0).toNat ≤ 2 ^ 32) && decide ((p.1.getD 3 0).toNat ≠ 0)) = true) ∧
    -- a cfg.ld: a good image and one for another geometry
    (∃ p, (configLoad 2 (twoWords 4)).cmdDwords 0 0 false (0x5000 / 8) 1 = .ok p ∧
      decide ((p.2.streamImage 0 0 (some false) (((configLoad 2 (twoWords 4)).region 0 0).frame.rewriteLoaded (p.2.heldOpcode 0 0) [] (imageWords p.1 2))).1 = none) = true) ∧
    (∃ p, (configLoad 2 (twoWords 3)).cmdDwords 0 0 false (0x5000 / 8) 1 = .ok p ∧
      decide ((p.2.streamImage 0 0 (some false) (((configLoad 2 (twoWords 3)).region 0 0).frame.rewriteLoaded (p.2.heldOpcode 0 0) [] (imageWords p.1 2))).1 = some 0) = true) ∧
    -- a count of 8 clamped to 0 rows
    (∃ p, recordOf 0x8000_0800 8 (withShape 0) = .ok p ∧ (decide ((runOf p.1 8).bad .strmLd = none) && ((runOf p.1 8).dw 0).testBit 31 &&
      decide ((runOf p.1 8).bound (grantDim (getF ((loading 0x8000_0800 8 (withShape 0)).core 0).sh 0) ((runOf p.1 8).dw 0 / 2 ^ 26 % 4)) = 0)) = true) ∧
    (((loading 0x800 0 id).elem (at' 0 1 2)).se.hold ≠ .stopped ∧ ((configLoad 2 (twoWords 4)).region 0 0).portable = false ∧
      (configLoad 2 (twoWords 4)).regionQuiet 0 0 = true ∧ (configLoad 2 (twoWords 4)).ownRegion 0 = some 0) ∧
    QueuesSettled (copying .cpy 8 []) 0 := by
  refine ⟨?_, trivial, ⟨?_, ?_, engines_settled (isNone_none ?_)⟩, ok_with ?_, ok_with ?_, ok_with ?_, ok_with ?_, ?_, ok_with ?_, ok_with ?_,
    ok_with ?_, ok_with ?_, ok_with ?_, ok_with ?_, ok_with ?_, ?_, queues_settled ?_⟩ <;> decide +kernel

/-- A finished load at engine (0, 1) 2, an ended copy and a finished one at the heads of queues 1 and 2, an ended cfg.ld. -/
def completing : State :=
  commanding [] { cur := some { runOf [] 8 with finished := some { code := 0, info := 8 } } } fun k => { k with
    queues := setF (setF k.queues 1 [.cmd (aCommand .cpy) .ended { code := 3, info := 8 } false]) 2
      [.cmd (aCommand .cpy) (.copy { src := 0x6000, dst := 0x7000, rowBytes := 8, srcPitch := 0, dstPitch := 0, rows := 1, done := [0xE00] }) {} false]
    cfg := [{ cmd := aCommand .cfgLd, ended := some { code := 0, info := 2 } }] }

/-- Groups 17 and 18 have the ranks of cores 0 and 1, and 18 one of module 1; each core has a collective at the head of queue 1. -/
def collRun (group rank count : Nat) : CollRun :=
  { src := 0x6000, dst := 0x7000, control := 0, count, group, rank, ranks := group - 15, index := 0 }
def collectives (group count : Nat) : State :=
  let item (rank count : Nat) : List QItem := [.cmd (aCommand .collAr) (.coll (collRun group rank count)) {} false]
  let s := withCore { issuing with mem := pages ++ [(0x4400, 2), (0x440A, 1), (0x4800, 3), (0x480A, 1), (0x480C, 64)] } fun k => { k with
    queues := setF k.queues 1 (item 0 8) }
  s.setCore 1 { queues := setF (Vector.replicate 8 []) 1 (item 1 count) }

theorem next_collective {s : State} {c : Fin 64} {group : Nat} {q : QReg} {k : Command} {r : CollRun} {rest : List QItem}
    (h : (s.core c).queues = setF (Vector.replicate 8 []) q (.cmd k (.coll r) {} false :: rest)) (g : r.group = group ∧ r.matched = false)
    (p : (s.core c).collPending k.seq = false) : NextCollective s c group q k r {} rest := by
  refine ⟨by rw [h]; simp [getF, setF], g.1, g.2, p, fun p' k' r' hp hh => ?_⟩
  have : getF (s.core c).queues p' = [] := by
    rw [h]; simp [getF, setF, Vector.getElem_set]; exact fun e => hp (Fin.ext e.symm)
  rw [this] at hh; cases hh

theorem witness_CommandsCompleteAndMatch :
    ((completing.die 0).clk ≠ 3 ∧ (completing.elem (at' 0 1 2)).se.cur = some { runOf [] 8 with finished := some { code := 0, info := 8 } } ∧
      completing.isLocal (dieOf 0) (0x5010 / 8) = true ∧ completing.unlandedParty (.stream (at' 0 1 2)) = false ∧
      (getF (completing.core 0).queues 1).length = 1 ∧ completing.unlandedParty (.queue 0 1) = false ∧
      CopyRun.granules { src := 0x6000, dst := 0x7000, rowBytes := 8, srcPitch := 0, dstPitch := 0, rows := 1 } = [0xE00] ∧
      (completing.elem (at' 0 1 2)).se.hold ≠ .stopped ∧ (completing.elem (at' 0 1 2)).frozen = false ∧ (completing.elem (at' 0 1 2)).se.outq = [] ∧
      ((completing.core 0).cfg.length = 1) ∧ completing.isLocal (dieOf 0) (0x4FF8 / 8) = true ∧ completing.unlandedParty (.config 0) = false) ∧
    completing.translate (dieOf 0) 0 (0x5000 + 16) true false = .ok 0x5010 ∧ completing.translate (dieOf 0) 0 (0x5000 - 8) true false = .ok 0x4FF8 ∧
    (∀ g ∈ [17, 18], ∀ n ∈ [(8 : Nat), 9], (collectives g n).localRanks g = [(0, 0), (1, 1)] ∧ (collectives g n).groupSize g = g - 15) ∧
    (∀ g ∈ [17, 18], ∀ n ∈ [(8 : Nat), 9], NextCollective (collectives g n) 0 g 1 (aCommand .collAr) (collRun g 0 8) {} [] ∧
      NextCollective (collectives g n) 1 g 1 (aCommand .collAr) (collRun g 1 n) {} []) ∧
    ∀ p k r, headColl (getF (({ collectives 17 8 with cores := setF State.reset.cores 0 {} } : State).core 0).queues p) = some (k, r) → r.group = 17 →
      r.matched = true :=
  ⟨by decide +kernel, eq_ok (by decide +kernel), eq_ok (by decide +kernel), by decide +kernel,
    fun g hg n hn => ⟨next_collective rfl (by simp [collRun]) ((by decide +kernel :
        ∀ g ∈ [17, 18], ∀ n ∈ [(8 : Nat), 9], ((collectives g n).core 0).collPending 0 = false) g hg n hn),
      next_collective rfl (by simp [collRun]) ((by decide +kernel :
        ∀ g ∈ [17, 18], ∀ n ∈ [(8 : Nat), 9], ((collectives g n).core 1).collPending 0 = false) g hg n hn)⟩,
    fun p k r h => by
      have : getF (({ collectives 17 8 with cores := setF State.reset.cores 0 {} } : State).core 0).queues p = [] := by
        simp [State.core, getF, setF]
      rw [this] at h; cases h⟩

def aPath : PathId := { src := 0, dst := .die 1, k := 0 }
def aWrite : GWrite := { granule := 2 ^ 34 + 1, mask := 0xFF, value := 1 }
def away : State := { issuing with paths := [(aPath, [.write (.core 0) aWrite])] }
def reading (todo : List Nat) : StreamRun :=
  { runOf ((List.range 16).map fun i => if i = 0 then 0x60_0800 else if i = 1 then 0x6000 else if i = 4 then 8 else 0) 8 with
    count := 1, started := true, todo }

/-- A load whose row still needs two granules, and its last one; a copy of two rows; a store at the head of an order buffer. -/
def moving (todo : List Nat) : State :=
  commanding [] { cur := some (reading todo) } fun k => { k with
    order := [aStore]
    queues := setF k.queues 1 [.cmd (aCommand .cpy2d) (.copy { src := 0x6000, dst := 0x7000, rowBytes := 8, srcPitch := 8, dstPitch := 8, rows := 2 }) {} false] }

def releasing (r : Release) (q : List PathId) : State :=
  { issuing with releases := [r], pathSets := [(.core 0, q)] }

/-- Core 0 has an atomic of the first GiB pending. -/
def pending : State := withCore addresses fun k => { k with amo := some { op := .amoAdd (amoAt 3), ready := true } }

/-- Element (1, 1) 0 has one access under way. -/
def fetching (p : FabAccess) : State := bed [(at' 1 1 0, { pend := [p] })]

theorem witness_BoardMovesTakeEffect :
    (((moving [0xC00, 0xC01]).die 0).clk ≠ 3 ∧ ((moving [0xC00, 0xC01]).elem (at' 0 1 2)).se.cur = some (reading [0xC00, 0xC01]) ∧
      (0xC00 ∈ [0xC00, 0xC01]) ∧ (moving []).isLocal 0 (0x6000 / 8) = true ∧ (moving []).marked.contains (0x6000 / 8) = false ∧
      getF ((moving []).core 0).queues 1 =
        .cmd (aCommand .cpy2d) (.copy { src := 0x6000, dst := 0x7000, rowBytes := 8, srcPitch := 8, dstPitch := 8, rows := 2 }) {} false :: [] ∧
      ((moving [0xC00, 0xC01]).elem (at' 0 1 2)).se.hold ≠ .stopped ∧ ((moving [0xC00, 0xC01]).elem (at' 0 1 2)).se.outq = [] ∧ inSpan (spanOf 0x6008 8) 0xC01 = true ∧ ((moving []).core 0).order = aStore :: [] ∧ (moving []).unlandedLine (.core 0) (0xA00 / 8) = false) ∧
    -- an element's read of a page, of the memory tile of its port, and of a page that is not mapped
    (let p : FabAccess := { store := false, mt := false, heads := [], hdr := {}, todo := [0xC00] }
     ((fetching p).die 0).clk ≠ 3 ∧ ((fetching p).elem (at' 1 1 0)).pend[0]? = some p ∧ (fetching p).cachedRange (at' 1 1 0) 0xC00 = none ∧
       (fetching p).isLocal 0 (0x6000 / 8) = true ∧ (fetching p).marked.contains (0x6000 / 8) = false ∧
       ((fetching { p with mt := true }).elem (at' 1 1 0)).pend[0]? = some { p with mt := true } ∧ (fetching p).mtMarked.contains (mtFirst 0 + 0xC00) = false) ∧
    Reaches (fetching { store := false, mt := false, heads := [], hdr := {}, todo := [0xC00] }) (at' 1 1 0) 0 0xC00 false true 0x6000 ∧
    NotReached (fetching { store := false, mt := false, heads := [], hdr := {}, todo := [2 ^ 37] }) (at' 1 1 0) 0 (2 ^ 37) false true ∧
    Reaches (moving [0xC00, 0xC01]) (at' 0 1 2) 0 0xC00 false false 0x6000 ∧ (moving []).translate 0 0 (8 * 0xC01) false false = .ok 0x6008 ∧
    OrderSettled { (moving []).core 0 with order := [] } ∧
    (away.pathUp aPath = true ∧ away.pathItems aPath = .write (.core 0) aWrite :: [] ∧
      ({ issuing with paths := [(aPath, [.row (at' 0 1 2) 3 aWrite])] } : State).pathItems aPath = .row (at' 0 1 2) 3 aWrite :: [] ∧
      (∀ b : Bool, let s : State := { issuing with paths := [(aPath, [.marker 4])], landing := if b then [({ dst := .die 1, stream := at' 0 1 2 }, [(3, aPath, aWrite)])] else [] }
        s.pathItems aPath = .marker 4 :: [] ∧ s.rowsOnPort aPath = b)) ∧
    (let s : State := { issuing with landing := [({ dst := .die 1, stream := at' 0 1 2 }, [(3, aPath, aWrite)])] }
     s.landingAt { dst := .die 1, stream := at' 0 1 2 } = [(3, aPath, aWrite)] ∧ s.rowDue { dst := .die 1, stream := at' 0 1 2 } 3 = true ∧
       (s.homeOf (8 * aWrite.granule)).isSome = true ∧ s.rowFaults = []) ∧
    -- a row for a granule without a home, and one for another module
    (let w : GWrite := { aWrite with granule := 2 ^ 60 }
     let s : State := { issuing with landing := [({ dst := .die 1, stream := at' 0 1 2 }, [(3, aPath, w)])] }
     s.landingAt { dst := .die 1, stream := at' 0 1 2 } = [(3, aPath, w)] ∧ s.rowDue { dst := .die 1, stream := at' 0 1 2 } 3 = true ∧
       s.rowFaults = [] ∧ (s.homeOf (8 * w.granule)).isNone = true) ∧
    (let s : State := { issuing with landing := [({ dst := .module 1, stream := at' 0 1 2 }, [(3, aPath, aWrite)])] }
     s.landingAt { dst := .module 1, stream := at' 0 1 2 } = [(3, aPath, aWrite)] ∧ s.rowDue { dst := .module 1, stream := at' 0 1 2 } 3 = true) ∧
    (let r : Release := { id := 4, who := .flm 0 5, parties := [.core 0], rows := [] }
     (releasing { r with sent := true } []).release? 4 = some { r with sent := true } ∧ (releasing r [aPath]).release? 4 = some r ∧
       (releasing r [aPath]).rowsPerformed r = true ∧ Party.core 0 ∈ r.parties ∧ aPath ∈ (releasing r [aPath]).partyPaths (.core 0)) ∧
    ((∃ row ∈ amoRows, row.1 (amoAt 3) = .amoAdd (amoAt 3)) ∧ (pending.core 0).amo = some { op := .amoAdd (amoAt 3), ready := true } ∧
      (pending.core 0).run = .running ∧ (pending.core 0).order = [] ∧ pending.marked.contains (0x5000 / 8) = false ∧
      pending.atomicTarget (pending.rd 3).toNat = false ∧ pending.unlandedLine (.core 0) (0x5000 / 64) = false) ∧
    OnBoard { pending with cur := 0 } (({ pending with cur := 0 } : State).rd (amoAt 3).a) (amoBytes (amoAt 3)) true 0x5000 :=
  ⟨by decide +kernel, by decide +kernel, eq_ok (by decide +kernel), ⟨.translation, eq_error (by decide +kernel)⟩, eq_ok (by decide +kernel),
    eq_ok (by decide +kernel), trivial, by decide +kernel, by decide +kernel, by decide +kernel,
    by decide +kernel, by decide +kernel, ⟨⟨_, List.mem_cons_self, rfl⟩, by decide +kernel⟩, on_board (by decide +kernel)⟩

theorem witness_RdcFillsAbsentCopiesAndDropsLandedOnes : issuing.isLocal 0 0xA00 = true ∧ issuing.isLocal 0 (2 ^ 37 / 8) = false ∧
    issuing.rdcOf 0 (2 ^ 37 / 8) = none ∧ (issuing.setRdc 0 (2 ^ 37 / 8) (some 7)).isLocal 0 (2 ^ 37 / 8) = false ∧
    (issuing.setRdc 0 (2 ^ 37 / 8) (some 7)).rdcOf 0 (2 ^ 37 / 8) = some 7 ∧ away.unlanded 0 aWrite.granule = true ∧
    issuing.unlanded 0 aWrite.granule = false := by decide +kernel

/-! Firings -/

/-- Element 0 of tile (1, 1) is in focus with opcode `op`, inputs 0 to 2 required, output 0 leading to element 5 and output 1 to element 6
of its tile, a data token at each input, and further fields. -/
def tokenOf (lanes : BitVec 16) (pay : Nat) : Token := { hdr := { lanes, seq := 9, itag := 9 }, pay := BitVec.ofNat 512 pay }
def inputs : Vector (List Token) 4 := #v[[tokenOf 0xFFFF 3], [tokenOf 0x00FF 2], [tokenOf 0xFFFF 1], []]
def firing (op : Nat) (fs : Map Nat) (q : Vector (List Token) 4) : State :=
  { bed ((at' 1 1 0, { fields := fs.foldl (fun m x => Map.set x.1 x.2 m) [(0, op), (1, 0x70), (7, 0x150), (8, 0x160)], inq := q }) :: receivers) with
    focus := at' 1 1 0 }

theorem performs {s : State} {op ar : Nat} (h : (s.canFire s.focus op && s.fe.cancels.isEmpty && s.fe.poisonHead.isNone && s.fe.code == 0) = true) :
    Performs s op ar := by
  simp only [Bool.and_eq_true, List.isEmpty_iff, beq_iff_eq, Option.isNone_iff_eq_none] at h
  exact ⟨h.1.1.1, h.1.1.2, h.1.2, .inl h.2⟩

/-- Each opcode may fire; without its token at input 1 it may not; with poison, a null or no predicate there it is cut short. -/
theorem witness_FiringRule : ∀ row ∈ fireRows,
    (firing row.2.1 [] inputs).canFire (at' 1 1 0) row.2.1 = true ∧ (firing row.2.1 [] inputs).fe.cancels = [] ∧
    (firing row.2.1 [] (inputs.set 1 [])).canFire (at' 1 1 0) row.2.1 = false ∧
    (let s := firing row.2.1 [] (inputs.set 1 [word 4 7]); s.canFire s.focus row.2.1 = true ∧ s.fe.poisonHead.isSome = true) ∧
    (let s := firing row.2.1 [(1, 0x75)] inputs
     s.canFire s.focus row.2.1 = true ∧ s.fe.poisonHead.isNone = true ∧ s.fe.code = 1 ∧ (s.fe.head? s.fe.predFin).map (·.hdr.pvalid) = some false) ∧
    (let s := firing row.2.1 [(1, 0x73)] (inputs.set 0 [word 1 0])
     s.canFire s.focus row.2.1 = true ∧ s.fe.poisonHead.isNone = true ∧ s.fe.code = 3 ∧ NullHead s.fe row.2.2) := by
  unfold NullHead; decide +kernel

theorem witness_FiringEmitsOnItsEdges : let s := firing 0x040 [] inputs
    s.fe.consume.cancels = [] ∧ s.fe.consume.fields = s.fe.fields ∧ s.fe.outOn 0 = true ∧ s.fe.outOn 1 = true ∧
    s.dest s.focus 0 = some (at' 1 1 5, 0) ∧ s.dest s.focus 1 = some (at' 1 1 6, 0) ∧ s.fe.cancelled 9 0 = false ∧ s.fe.cancelled 9 1 = false ∧
    (let u := s.setElem s.focus { s.fe with cancels := [(9, 0), (9, 1)] }
     u.fe.cancelled 9 0 = true ∧ u.fe.cancelled 9 1 = true) := by decide +kernel

/-- Live W64 operands with no trap; with nantrap, a NaN from infinities at position 0; with the range guard, an infinity there. -/
def infinities : Vector (List Token) 4 :=
  #v[[tokenOf 0xFFFF (wInf true).toNat], [tokenOf 0xFFFF (wInf false).toNat], [tokenOf 0xFFFF 0], []]

theorem no_trap {e : Elem} {ar j : Nat} {f : Elem → List Word → Word} (h : (!e.nantrap && e.field 14 % 4 == 0) = true) :
    ¬ NanAt e ar f j ∧ ¬ GuardAt e ar f j := by
  simp only [Bool.and_eq_true, Bool.not_eq_true', beq_iff_eq] at h
  refine ⟨fun g => by simp [g.1] at h, fun ⟨l, _, g⟩ => ?_⟩
  have : bits (e.field 14) 0 2 = 0 := by unfold bits; omega
  simp [Elem.guards, this] at g

theorem witness_FloatLanesComplete :
    (∀ row ∈ floatRows, Performs (firing row.2.1 [] inputs) row.2.1 row.2.2.1 ∧ ∀ j,
      ¬ NanAt (firing row.2.1 [] inputs).fe row.2.2.1 row.2.2.2 j ∧ ¬ GuardAt (firing row.2.1 [] inputs).fe row.2.2.1 row.2.2.2 j) ∧
    (∀ row ∈ laneCompareRows, Performs (firing row.2.1 [] inputs) row.2.1 2) ∧
    (∃ row ∈ floatRows, Performs (firing 0x040 [(13, 0x20)] infinities) row.2.1 row.2.2.1 ∧
      NanAt (firing 0x040 [(13, 0x20)] infinities).fe row.2.2.1 row.2.2.2 0) ∧
    (∃ row ∈ floatRows, Performs (firing 0x040 [(14, 2)] infinities) row.2.1 row.2.2.1 ∧
      (∀ k, ¬ NanAt (firing 0x040 [(14, 2)] infinities).fe row.2.2.1 row.2.2.2 k) ∧
      GuardAt (firing 0x040 [(14, 2)] infinities).fe row.2.2.1 row.2.2.2 0) := by
  refine ⟨fun row h => ⟨performs ?_, fun j => no_trap ?_⟩, fun row h => performs ?_,
    ⟨_, List.mem_cons_self, performs (by decide +kernel), by decide +kernel, [wInf true, wInf false], by decide +kernel, by decide +kernel,
      fun x hx => by simpa using List.all_eq_true.1 (show [wInf true, wInf false].all (fun x => !isNaN x) = true by decide +kernel) x hx⟩,
    ⟨_, List.mem_cons_self, performs (by decide +kernel), fun k g => absurd g.1 (by decide +kernel), [wInf true, wInf false], by decide +kernel⟩⟩
  all_goals revert row; decide +kernel

theorem no_guard {e : Elem} {v : Word} (h : (e.field 14 % 4 == 0) = true) : e.guards v = false := by
  have : bits (e.field 14) 0 2 = 0 := by unfold bits; simpa using h
  simp [Elem.guards, this]

theorem witness_SpecialFunctionsExactResults : isNaN canonicalNaN = true ∧ isNaN 0x7FFF_FFFF_FFFF_FFFF = true ∧
    (-4094 ≤ (4094 : Int) ∧ -2047 ≤ (-2047 : Int) ∧ 18 ≤ (18 : Int) ∧ 40 ≤ (40 : Int) ∧ 2838 < (2839 : Int)) := by decide +kernel

theorem witness_IntegerBitAndConversionLanesComplete :
    (∀ row ∈ carryRows, Performs (firing row.2.1 [] inputs) row.2.1 row.2.2.1) ∧ Performs (firing 0x0C4 [] inputs) 0x0C4 2 ∧
    Performs (firing 0x0C5 [] inputs) 0x0C5 2 ∧
    (∀ row ∈ bitRows, ∀ lay ∈ [0, 1, 2], (firing row.2.1 [(31, 64 * lay)] inputs).fe.const 15 / 2 ^ 6 % 4 = lay ∧
      Performs (firing row.2.1 [(31, 64 * lay)] inputs) row.2.1 row.2.2.1) ∧
    (∀ op ∈ [0x140, 0x141, 0x142, 0x143], Performs (firing op [] inputs) op 1) ∧ ∀ v, (firing 0x140 [] inputs).fe.guards v = false := by
  refine ⟨fun row h => performs ?_, performs (by decide +kernel), performs (by decide +kernel),
    fun row h lay g => ⟨?_, performs ?_⟩, fun op h => performs ?_, fun v => no_guard (by decide +kernel)⟩
  · revert row; decide +kernel
  · revert lay; revert row; decide +kernel
  · revert lay; revert row; decide +kernel
  · revert op; decide +kernel

theorem witness_MovementReductionPackingComplete :
    (∀ row ∈ moveRows, ∀ lay ∈ [0, 1, 2], let s := firing row.2.1 [(31, 64 * lay + 2 ^ 18 * 7)] inputs
      s.fe.const 15 / 2 ^ 6 % 4 = lay ∧ Performs s row.2.1 row.2.2.1 ∧ s.fe.const 15 / 2 ^ 18 % 64 < posCount lay ∧ ∀ i, i < 7 → s.fe.const i < 2 ^ 64) ∧
    (∀ row ∈ reduceRows, Performs (firing row.2.1 [] inputs) row.2.1 1 ∧ (firing row.2.1 [] inputs).fe.nantrap = false) ∧
    (∀ op ∈ [0x187, 0x188], Performs (firing op [] inputs) op 2) ∧ ∀ v, (firing 0x184 [] inputs).fe.guards v = false := by
  refine ⟨fun row h lay g => ⟨?_, performs ?_, ?_, ?_⟩, fun row h => ⟨performs ?_, ?_⟩, fun op h => performs ?_, fun v => no_guard (by decide +kernel)⟩
  · revert lay; revert row; decide +kernel
  · revert lay; revert row; decide +kernel
  · revert lay; revert row; decide +kernel
  · revert lay; revert row; decide +kernel
  · revert row; decide +kernel
  · revert row; decide +kernel
  · revert op; decide +kernel

/-! Accumulation, memory elements, tiles -/

theorem some_with {α : Type} {x : Option α} {p : α → Bool} (h : (x.map p).getD false = true) : ∃ a, x = some a ∧ p a = true := by
  cases x with
  | none => cases h
  | some a => exact ⟨a, rfl, h⟩

def endOfRun : Token := { hdr := { kind := 3 }, pay := 0 }

/-- A head that fires, one that is skipped, a limb with a carry token, a head whose end-of-run reads. -/
theorem witness_ExactAccumulatorChain :
    (let s := firing 0x1C0 [(1, 0x10)] inputs
     s.live s.focus 0x1C0 = true ∧ s.fe.req 0 = true ∧ s.fe.headsReady = true ∧ s.fe.cancels = [] ∧ s.fe.poisonHead = none ∧
       (s.fe.outOn 1 = true ∧ 1 ≤ s.credits s.focus 1) ∧ s.fe.code = 0) ∧
    (let s := firing 0x1C0 [(1, 0x13)] (inputs.set 0 [word 1 0])
     s.live s.focus 0x1C0 = true ∧ s.fe.req 0 = true ∧ s.fe.headsReady = true ∧ s.fe.cancels = [] ∧ s.fe.poisonHead = none ∧
       1 ≤ s.credits s.focus 1 ∧ PredicateSkips s.fe 1) ∧
    (let s := firing 0x1C1 [(1, 0x10)] inputs
     s.live s.focus 0x1C1 = true ∧ s.fe.head? 0 = some (tokenOf 0xFFFF 3) ∧ s.fe.calm 0 = true ∧ (tokenOf 0xFFFF 3).hdr.isControl = false ∧
       (tokenOf 0xFFFF 3).hdr.kind ≠ 4 ∧ s.outsReady s.focus = true) ∧
    (let s := firing 0x1C0 [(1, 0x10)] #v[[endOfRun], [], [], []]
     s.live s.focus 0x1C0 = true ∧ s.fe.req 0 = true ∧ s.fe.head? 0 = some endOfRun ∧ ReadsAt (s.fe.const 15 / 2 ^ 8 % 8) endOfRun.hdr ∧
       (∀ i : Fin 4, s.fe.req i.val = true → s.fe.calm i = true ∧ ∃ u, s.fe.head? i = some u ∧ u.hdr.kind = endOfRun.hdr.kind) ∧
       s.fe.cancels = [] ∧ (∀ k, 1 ≤ k → k ≤ 4 → s.load ({ s.focus with e := s.focus.e + k }, 0) = 0) ∧
       ∀ c, c = s.focus ∨ c = at' 1 1 4 → (s.elem c).outOn 0 = true → 2 ≤ s.credits c 0) := by
  refine ⟨by decide +kernel, ?_, by decide +kernel, ?_⟩
  · refine ⟨?_, ?_, ?_, ?_, ?_, ?_, .inl ⟨?_, by unfold NullHead; decide +kernel⟩⟩ <;> decide +kernel
  · refine ⟨by decide +kernel, by decide +kernel, by decide +kernel, .inl (by decide +kernel), fun i h => ?_, by decide +kernel, fun k h g => ?_, ?_⟩
    · have : i = 0 := by revert i; decide +kernel
      subst this
      exact ⟨by decide +kernel, endOfRun, by decide +kernel⟩
    · have := List.all_eq_true.1 (show (List.range 5).all (fun k => k == 0 || (firing 0x1C0 [(1, 0x10)] #v[[endOfRun], [], [], []]).load
          ({ at' 1 1 0 with e := 0 + k }, 0) == 0) = true by decide +kernel) k (by simp; omega)
      simp only [Bool.or_eq_true, beq_iff_eq, Nat.zero_add] at this
      have f : (firing 0x1C0 [(1, 0x10)] #v[[endOfRun], [], [], []]).focus = at' 1 1 0 := rfl
      rw [f]
      simpa [show k ≠ 0 by omega, at'] using this
    · rintro c (rfl | rfl) <;> decide +kernel

/-- Indices 3, then 2, below a bound of `n`, in the 32-bit integer layout. -/
def accessing (op n : Nat) (p : List FabAccess) : State :=
  let s := firing op [(16, 0x6000), (17, n), (31, 0x8A00)] #v[[tokenOf 0x00FF 3], [tokenOf 0x00FF 2], [], []]
  s.setElem s.focus { s.fe with fields := Map.set 1 0x30 s.fe.fields, pend := p }

theorem memory_ready {s : State} {op ar : Nat} (h : (s.live s.focus op && s.fe.req 0 && (ar != 2 || s.fe.req 1) && s.fe.headsReady &&
      (List.range 2).all (fun o => !s.fe.outOn o || decide ((s.fe.pend.length + 1) * s.fe.outRate o ≤ s.credits s.focus o)) && s.fe.pend.all (fun p => !p.withheld || p.dropped) &&
      s.fe.cancels.isEmpty && s.fe.poisonHead.isNone && s.fe.code == 0) = true) (hn : ¬ NullHead s.fe ar) : MemoryReady s op ar := by
  simp only [Bool.and_eq_true, List.isEmpty_iff, beq_iff_eq, Option.isNone_iff_eq_none, List.all_eq_true, List.mem_range, Bool.or_eq_true,
    bne_iff_ne, Bool.not_eq_true', decide_eq_true_eq] at h
  obtain ⟨⟨⟨⟨⟨⟨⟨⟨h1, h2⟩, h3⟩, h4⟩, h5⟩, hp⟩, h6⟩, h7⟩, h8⟩ := h
  exact ⟨h1, h2, fun a => by simpa [a] using h3, h4, fun o ho hb => by simpa [hb] using h5 o ho, fun p m w => by simpa [w] using hp p m, h6, h7,
    .inl h8, hn⟩

theorem not_bound {e : Elem} {store indexed : Bool} {j : Nat} (h : (if indexed then
      (match laneOperand e e.mLay 0 j with
        | some w => decide (0 ≤ intOf true (posWidth e.mLay) w.toNat) && decide (intOf true (posWidth e.mLay) w.toNat < Int.ofNat (e.const 1))
        | none => true)
      else (match laneOperand e 0 0 0 with
        | some x => decide (x.toNat + j < e.const 1)
        | none => true)) = true) : ¬ BreaksBound e store indexed j := by
  unfold BreaksBound
  cases indexed
  · simp only [Bool.false_eq_true, if_false] at h ⊢
    rintro ⟨_, _, x, hx, hb, _⟩
    rw [hx] at h; simp at h; omega
  · simp only [if_true] at h ⊢
    rintro ⟨w, hw, hb⟩
    rw [hw] at h; simp only [Bool.and_eq_true, decide_eq_true_eq] at h; omega

theorem breaks_bound {e : Elem} {store indexed : Bool} (w : Word) (h : if indexed then laneOperand e e.mLay 0 0 = some w ∧
      Int.ofNat (e.const 1) ≤ intOf true (posWidth e.mLay) w.toNat
    else store = true ∧ (laneOperand e e.mLay 1 0).isSome = true ∧ laneOperand e 0 0 0 = some w ∧ e.const 1 ≤ w.toNat ∧ e.mLay ≠ 2) :
    BreaksBound e store indexed 0 := by
  unfold BreaksBound
  cases indexed
  · exact ⟨h.1, h.2.1, w, h.2.2.1, by have := h.2.2.2.1; omega, fun g => h.2.2.2.2 g.1⟩
  · exact ⟨w, h.1, .inr h.2⟩

def performed (store : Bool) : FabAccess :=
  { store, mt := false, heads := [tokenOf 0xFFFF 3, tokenOf 0xFFFF 2], hdr := { seq := 9, itag := 9, lanes := 0xFFFF }, places := [(0, 0x30000)], got := [(0xC00, 7)] }

/-- Each opcode with every index in its bound, and (a load by an affine address never breaks it) with position 0 beyond it; an access
that has performed, of a load and of a store. -/
theorem witness_MemoryElementsAccessAndPerform :
    (∀ row ∈ memRows, let s := accessing row.2.1 100 []
      MemoryReady s row.2.1 (if row.2.2.1 then 2 else 1) ∧ (s.fe.mFmt ≠ 5 ∧ s.fe.mLay = 1) ∧
        ∀ j, j < posCount s.fe.mLay → ¬ BreaksBound s.fe row.2.2.1 row.2.2.2 j) ∧
    (∀ row ∈ memRows, row.2.2 ≠ (false, false) → let s := accessing row.2.1 2 []
      MemoryReady s row.2.1 (if row.2.2.1 then 2 else 1) ∧ BreaksBound s.fe row.2.2.1 row.2.2.2 0 ∧ s.fe.pend = []) ∧
    ∀ b : Bool, let s := accessing 0x200 100 [performed b]
      s.fe.pend = [performed b] ∧ (performed b).dropped = false ∧ (performed b).todo = [] ∧ (performed b).writes = [] ∧ s.fe.mLay = 1 ∧
        (performed b).heads = tokenOf 0xFFFF 3 :: tokenOf 0xFFFF 2 :: [] := by
  refine ⟨fun row h => ⟨memory_ready ?_ ?_, ?_, fun j hj => not_bound ?_⟩, fun row h g => ⟨memory_ready ?_ ?_, breaks_bound 3 ?_, ?_⟩, by decide +kernel⟩
  · revert row; decide +kernel
  · unfold NullHead; revert row; decide +kernel
  · revert row; decide +kernel
  · have e : posCount (accessing row.2.1 100 []).fe.mLay = 16 := by clear hj; revert row; decide +kernel
    rw [e] at hj
    revert j; revert row; decide +kernel
  · revert row; decide +kernel
  · unfold NullHead; revert row; decide +kernel
  · revert row; decide +kernel
  · revert row; decide +kernel

/-- Tile (1, 1) with slots and, at inputs 0 and 1 of its tm, tokens: c1 fills slot 1 (8 by 16, BF16 kind) by rows, c2 slot 2 (4 by 16, W64)
by address; c5 drains 16 rows of 16 columns of ac(0). -/
def tiled (slots : List (Fin 8 × Slot)) (t1 t2 : List Token) : State :=
  let s := bed ([(at' 1 1 14, { fields := [(0, 0x242), (7, 0x150), (17, 9 + 2 ^ 15 + 2 * 2 ^ 16 + 7 * 2 ^ 22 + 15 * 2 ^ 28),
                                           (18, 10 + 3 * 2 ^ 22 + 15 * 2 ^ 28), (21, 8)]
                                inq := #v[t1, t2, [], []], shape := some 0x0010_0010_0010 })] ++ receivers)
  let t := s.tile 0 1 1
  { s.setTile 0 1 1 { t with slots := slots.foldl (fun v x => setF v x.1 x.2) t.slots } with focus := at' 1 1 14 }

/-- Rows of a tile at 0x6000, 128 bytes apart. -/
def tileAddress : Token := tokenOf 0xFFFF (0x6000 + 2 ^ 64 * 128)
def filling (pins : List (Nat × Nat)) (snaps : List (Nat × List Word)) : List (Fin 8 × Slot) :=
  [(2, { tag := .filling, addr := some tileAddress, pins, snaps })]

theorem pins_of {s : State} {k : Nat} {t : Tile} {n : Nat} {l : Nat × Nat} (hs : s.tiles = [(k, t)]) (d : Fin 4) (hk : k / 1024 = d.val)
    (ht : t.slots.toList.flatMap (·.pins) = List.replicate n l) : s.pinnedIn d (Config.sliceOf l.2) = n := by
  have count : ∀ (ss : List Slot) (m : Nat), ss.foldl (fun n sl => n + (sl.pins.filter fun p => Config.sliceOf p.2 == Config.sliceOf l.2).length) m =
      m + ((ss.flatMap (·.pins)).filter fun p => Config.sliceOf p.2 == Config.sliceOf l.2).length := by
    intro ss
    induction ss with
    | nil => intro m; rfl
    | cons a as ih => intro m; simp only [List.foldl_cons, ih, List.flatMap_cons, List.filter_append, List.length_append]; omega
  simp [State.pinnedIn, hs, hk, count, ht]

theorem three_pins (p : List (Nat × Nat)) : ((tiled [(3, { pins := p })] [] []).tile 0 1 1).slots.toList.flatMap (·.pins) = p := by
  have h : ((tiled [(3, { pins := p })] [] []).tile 0 1 1).slots.toList.map (·.pins) = [[], [], [], p, [], [], [], []] := rfl
  rw [List.flatMap_def, h]; simp

/-- Row tokens into an empty slot and into its last row; an address token; a fill with a line to pin while its slice has room, and while
another 16,384 lines are pinned there; a pinned line to read, with every line read; a drain's first token and its last. -/
theorem witness_TilesFillAndDrain :
    (∀ n ∈ [0, 15], let s := tiled (if n = 0 then [] else [(1, { tag := .filling, kind := 2, taken := n })]) [word 0 5] []
      s.isTm s.focus = true ∧ (s.fe.binding 0).map (fun b => (b.slot, b.rows)) = some (1, true) ∧ getF s.fe.inq 0 = word 0 5 :: [] ∧
        s.fe.calm 0 = true ∧ (s.slotAt s.focus 1).tag = (if n = 0 then .empty else .filling) ∧
        (List.range 8).all (fun p => (posAt 0 (word 0 5) p).all (fitsKind 2)) = true) ∧
    (let s := tiled [] [] [tileAddress]
     (s.fe.binding 1).map (fun b => (b.slot, b.rows)) = some (2, false) ∧ getF s.fe.inq 1 = tileAddress :: [] ∧
       (posAt 0 tileAddress 0).isSome = true ∧ (posAt 0 tileAddress 1).isSome = true) ∧
    (let s := tiled (filling [] []) [] []
     (s.slotAt s.focus 2).tag = .filling ∧ (s.slotAt s.focus 2).addr = some tileAddress ∧ (s.fe.binding 1).map (fun b => tileLines b tileAddress) =
       some [0x180, 0x182, 0x184, 0x186] ∧ s.taskAsid s.focus = 0 ∧ (s.slotAt s.focus 2).pins = [] ∧ (s.slotAt s.focus 2).withheld = []) ∧
    (tiled (filling [] []) [] []).translate 0 0 (64 * 0x180) false true = .ok 0x6000 ∧
    (tiled (filling [] []) [] []).pinnedIn 0 (Config.sliceOf (0x6000 / 64)) * 64 < 2 ^ 20 ∧
    2 ^ 20 ≤ (tiled [(3, { pins := List.replicate 16384 (0x180, 0x180) })] [] []).pinnedIn 0 (Config.sliceOf (0x6000 / 64)) * 64 ∧
    (let s := tiled (filling [(0x180, 0x180)] []) [] []
     (s.slotAt s.focus 2).pins = [(0x180, 0x180)] ∧ (s.slotAt s.focus 2).snaps = [] ∧
       ∀ k, k < 8 → s.isLocal 0 (8 * 0x180 + k) = true ∧ s.marked.contains (8 * 0x180 + k) = false) ∧
    (let s := tiled (filling [] ([0x180, 0x182, 0x184, 0x186].map fun l => (l, List.replicate 8 0x3FFE_0000_0000_0000))) [] []
     (s.slotAt s.focus 2).snaps.map (·.1) = [0x180, 0x182, 0x184, 0x186]) ∧
    (∀ n ∈ [0, 31], let s := tiled [(4, { tag := .full, taken := n })] [] []
     s.live s.focus 0x242 = true ∧ (s.fe.drain.map fun d => (d.slot, d.rows * d.cols / 8)) = some (4, 32) ∧ s.fe.shape = some 0x0010_0010_0010 ∧
       (s.slotAt s.focus 4).tag = .full ∧ s.fe.outOn 0 = true ∧ 0 < s.credits s.focus 0 ∧ (s.slotAt s.focus 4).taken = n) := by
  refine ⟨by decide +kernel, by decide +kernel, by decide +kernel, eq_ok (by decide +kernel), ?_, ?_, by decide +kernel, by decide +kernel, by decide +kernel⟩
  · have := pins_of (s := tiled (filling [] []) [] []) (n := 0) (l := (0, 0x6000 / 64)) (k := tkey 0 1 1) (t := (tiled (filling [] []) [] []).tile 0 1 1) (by decide +kernel) 0 (by decide +kernel) (by decide +kernel)
    rw [show (0x6000 / 64 : Nat) = (0, 0x6000 / 64).2 from rfl, this]; decide
  · have := pins_of (s := tiled [(3, { pins := List.replicate 16384 (0x180, 0x180) })] [] []) (n := 16384) (l := (0x180, 0x180)) (k := tkey 0 1 1) (t := (tiled [(3, { pins := List.replicate 16384 (0x180, 0x180) })] [] []).tile 0 1 1)
      rfl 0 (by decide +kernel) (three_pins _)
    rw [show (0x6000 / 64 : Nat) = (0x180, 0x180).2 from rfl, this]; decide

/-! Matrix array and routing -/

/-- A matrix element whose pass reads slots 0 and 2 into ac(0), 16 by 16, over 8 of the 16 columns of k, with a W64 shape of kind 2. -/
def matrixAt (op f10 : Nat) (q : Vector (List Token) 4) : State :=
  let s := firing op [(1, if op = 0x241 then 0x30 else 0x10), (10, f10), (16, 2 * 2 ^ 6 + 7 * 2 ^ 18)] q
  let full : Slot := { tag := .full, kind := 1, data := [(0, 0x3FFE_0000_0000_0000), (64, 0x3FFE_0000_0000_0000)] }
  let t := s.tile 0 1 1
  (s.setTile 0 1 1 { t with slots := setF (setF t.slots 0 full) 2 full }).setElem (at' 1 1 0)
    { s.fe with shape := some (BitVec.ofNat 64 (16 + 16 * 2 ^ 16 + 16 * 2 ^ 32 + 2 * 2 ^ 51)) }

theorem witness_MatrixPassAccumulates : ∀ row ∈ [(Instr.mma, 0x240, false), (.mrec, 0x241, true)],
    let s := matrixAt row.2.1 0x18 inputs
    let c := s.fe.mma
    let dst : Fin 8 := ⟨4 + c.j % 4, by omega⟩
    Performs s row.2.1 (if row.2.2 then 2 else 1) ∧ NoTraps s.fe ∧ s.fe.shape = some 0x0010_0010_0010_0010 ∧
      (0x0010_0010_0010_0010 : Word).toNat / 2 ^ 51 % 8 = 2 ∧
      (s.slotAt s.focus c.a).tag = .full ∧ (s.slotAt s.focus c.b).tag = .full ∧ (s.slotAt s.focus c.a).kind + 1 = 2 ∧
      (s.slotAt s.focus c.b).kind + 1 = 2 ∧ (s.slotAt s.focus dst).taken = 0 ∧ (s.slotAt s.focus dst).tag = .empty ∧
      c.a ≠ c.b ∧ c.a ≠ dst ∧ c.b ≠ dst ∧ s.fe.req 0 = true ∧
      s.fe.head? 1 = some (tokenOf 0x00FF 2) ∧ (tokenOf 0x00FF 2).hdr.kind = 0 := by
  intro row h
  refine ⟨performs ?_, ?_⟩
  · revert row; decide +kernel
  · unfold NoTraps; revert row; decide +kernel

def row (seq : Nat) (b : Bool) : Token := { hdr := { seq := BitVec.ofNat 16 seq, itag := 9, lanes := 3, pvalid := true, pbit := b }, pay := 3 }
def one (t : Token) : Vector (List Token) 4 := #v[[t], [], [], []]
def two (t u : Token) : Vector (List Token) 4 := #v[[t], [u], [], []]

theorem join_ready {s : State} {op : Nat} {preds : List (Fin 4)} (i : Fin 4) (hi : i ∈ s.fe.reqIns) (h : (s.live s.focus op && s.outsReady s.focus &&
      s.fe.cancels.isEmpty && (List.finRange 4).all s.fe.calm && (s.fe.head? i).isSome &&
      ((s.fe.field 10).testBit 0 || s.fe.reqIns.all fun i => (s.fe.head? i).isSome) &&
      s.fe.reqIns.all fun i => ((s.fe.head? i).all fun t => !t.hdr.isControl && t.hdr.kind != 4 && t.hdr.pvalid)) = true) :
    JoinReady s op preds := by
  simp only [Bool.and_eq_true, List.isEmpty_iff, List.all_eq_true, Bool.or_eq_true, Bool.not_eq_true', bne_iff_ne, Option.all_eq_true] at h
  obtain ⟨⟨⟨⟨⟨⟨h1, h2⟩, h3⟩, h4⟩, h5⟩, h6⟩, h7⟩ := h
  exact ⟨h1, h2, h3, fun i => h4 i (List.mem_finRange i), ⟨i, hi, h5⟩, h6,
    fun i hi t ht => ⟨(h7 i hi t ht).1.1, (h7 i hi t ht).1.2, fun _ _ => (h7 i hi t ht).2⟩⟩

theorem witness_RoutingOpcodesComplete :
    (∀ r ∈ [(0x280, 1, 0x10), (0x281, 4, 0x30), (0x289, 1, 0x10)], Performs (firing r.1 [(1, r.2.2)] inputs) r.1 r.2.1 ∧
      getF (firing r.1 [(1, r.2.2)] inputs).fe.inq 0 = tokenOf 0xFFFF 3 :: [] ∧ getF (firing r.1 [(1, r.2.2)] inputs).fe.inq 1 = tokenOf 0x00FF 2 :: [] ∧
      (firing r.1 [(1, r.2.2)] inputs).fe.req 0 = true ∧ (r.1 = 0x281 → (firing r.1 [(1, r.2.2)] inputs).fe.req 1 = true)) ∧
    (let s := firing 0x28A [] (one (row 1 true))
     s.live s.focus 0x28A = true ∧ s.fe.calm 0 = true ∧ s.fe.head? 0 = some (row 1 true)) ∧
    -- steer by a true, a false and no predicate; a loop exit
    (∀ b : Bool, let s := firing 0x285 [] (two (row 1 true) (row 1 b))
      s.live s.focus 0x285 = true ∧ s.fe.calm 0 = true ∧ s.fe.calm 1 = true ∧ s.fe.head? 0 = some (row 1 true) ∧ s.fe.head? 1 = some (row 1 b) ∧
        s.fe.heldTb = [] ∧ 0 < s.credits s.focus 0 ∧ 0 < s.credits s.focus 1 ∧ s.fe.policy ≠ 3 ∧ s.oneCredit s.focus = true) ∧
    -- merge: the next step at input 1, and no such step
    (∀ n ∈ [0, 1], let s := firing 0x287 [(1, 0x30), (3, 0x100), (4, 0x100)] (two (row 2 true) (row n true))
      s.live s.focus 0x287 = true ∧ s.fe.routed = [0, 1] ∧ s.fe.mergeNext = 0 ∧ s.fe.pawn 0 = some (row 2 true) ∧ s.fe.pawn 1 = some (row n true) ∧
        ((row n true).hdr.seq - s.fe.mergeNext).toNat < 32768 ∧
        ((s.fe.routed.foldl (fun x i => x.windowTake i) s.fe).mergeWin.map fun x => decide (x.2.hdr.seq = 0)) = [false, n == 0] ∧ 0 < s.credits s.focus 0) ∧
    (let s := firing 0x288 [(1, 0x30), (3, 0x100), (4, 0x100)] (two (row 2 true) (row 1 true))
     s.live s.focus 0x288 = true ∧ s.fe.inOn 0 = true ∧ s.fe.pawn 0 = some (row 2 true) ∧ s.fe.rr = 3 ∧ s.fe.isEntry = false) ∧
    -- early joins: one head decides, all stand, a selector
    (∀ r ∈ [(0x282, false), (0x283, true)], JoinReady (firing r.1 [(1, 0x30), (10, 1)] (one (row 1 r.2))) r.1 [0, 1] ∧
      (firing r.1 [(1, 0x30), (10, 1)] (one (row 1 r.2))).fe.reqIns = [0, 1] ∧ HeadIs (firing r.1 [(1, 0x30), (10, 1)] (one (row 1 r.2))).fe 0 r.2 ∧
      (firing r.1 [(1, 0x30), (10, 1)] (one (row 1 r.2))).fe.head? 1 = none) ∧
    (∀ r ∈ [(0x282, false), (0x283, true)], JoinReady (firing r.1 [(1, 0x30)] (two (row 1 r.2) (row 1 false))) r.1 [0, 1]) ∧
    JoinReady (firing 0x284 [(1, 0x70), (10, 1)] (two (row 1 true) (row 1 false))) 0x284 [0] ∧
    (let s := firing 0x2C0 [(1, 0x30)] inputs
     Performs s 0x2C0 2 ∧ s.fe.inRate 0 = 1 ∧ s.fe.inRate 1 = 1 ∧ (idOf 0).isSome = true) := by
  refine ⟨fun r h => ⟨performs ?_, ?_⟩, by decide +kernel, by decide +kernel, by decide +kernel, by decide +kernel, fun r h => ⟨join_ready 0 ?_ ?_, ?_, ⟨row 1 r.2, ?_⟩, ?_⟩,
    fun r h => join_ready 0 ?_ ?_, join_ready 0 ?_ ?_, performs ?_, by decide +kernel, by decide +kernel, by decide +kernel⟩
  all_goals first | (revert r; decide +kernel) | decide +kernel

/-! Movement -/

def arriving (t : Token) : State := bed [(at' 1 1 0, { wire := #v[[t], [], [], []] })]

/-- A token in the eastward crossing stage of tile (1, 1), channel 1; at tile (2, 1) the channel ends at input 0 of element 0, or it is
passed straight on. -/
def crossing (ends : Bool) : State :=
  { bed [(at' 2 1 0, { fields := if ends then [(0, 0x28A), (3, 0x200 + 3 * 2 ^ 6 + 2 ^ 4)] else [] }), (at' 2 1 15, { fields := [(0, 1), (19, 2 ^ 2)] })] with
    stages := [(stageKey 0 1 1 .e 1, [word 0 5])] }

/-- A packet of the network at tile (1, 1), bound for element 0 of tile (x, 1). -/
def packet (x : Nat) : NetPacket := { x := 1, y := 1, dest := at' x 1 0, input := 0, sender := at' 1 1 3, tok := word 0 5 }
def routing (x : Nat) : State := (bed [(at' x 1 0, { fields := [(0, 0x28A)] })]).setPackets 0 [packet x]

/-- Element 0 of tile (1, 1) leads to input 0 of element 5, which has a takeback of itag 9 at the edge; at its own input 0 stand heads and
a takeback of itag `k`. -/
def takingBack (op : Nat) (must : Bool) (q : List Token) : State :=
  bed [(at' 1 1 0, { fields := [(0, op), (1, 0x10), (7, 0x150), (10, if must then 2 else 0)], inq := #v[q, [], [], []], tbQueue := #v[[9], [], [], []] }),
    (at' 1 1 5, { tbWire := #v[[9], [], [], []] })]

theorem witness_TokensAndTakebacksMove :
    (let s := arriving (word 0 5)
     getF (s.elem (at' 1 1 0)).wire 0 = word 0 5 :: [] ∧ s.tileOn (at' 1 1 0) = true ∧ getF (s.elem (at' 1 1 0)).tbWire 0 = [] ∧
       (s.elem (at' 1 1 0)).cancels = [] ∧ ¬ CoreReads s (at' 1 1 0, 0)) ∧
    (∀ b : Bool, let s := crossing b
      s.clockOn 0 = true ∧ s.gateOpen 0 1 1 = true ∧ (dirOf (1 : Fin 4).val).go 1 1 = some (2, 1) ∧
        s.stageAt (stageKey 0 1 1 (dirOf (1 : Fin 4).val) 1) = word 0 5 :: [] ∧
        (∀ j, j < 4 → j ≠ 1 → s.stageAt (stageKey 0 1 1 (dirOf (1 : Fin 4).val) j) = []) ∧ s.gateOpen 0 2 1 = true ∧ s.power 0 2 1 = 0 ∧
        s.staticEnd 0 2 1 (dirOf (1 : Fin 4).val).opp 1 = (if b then some (at' 2 1 0, 0) else none) ∧ (b = true → Enters s (at' 2 1 0, 0)) ∧
        s.passOut 0 2 1 (dirOf (1 : Fin 4).val) 1 = some .e ∧ (s.stageAt (stageKey 0 2 1 .e 1)).length < 2) ∧
    (let s := routing 3
     s.packetsOf 0 = packet 3 :: [] ∧ dirOf (1 : Fin 4).val ∈ (packet 3).ways ∧ (dirOf (1 : Fin 4).val).go (packet 3).x (packet 3).y = some (2, 1)) ∧
    (let s := routing 1
     s.packetsOf 0 = packet 1 :: [] ∧ (packet 1).x = (packet 1).dest.x ∧ (packet 1).y = (packet 1).dest.y ∧ s.gateOpen 0 1 1 = true ∧
       s.power 0 1 1 = 0 ∧ Enters s ((packet 1).dest, (packet 1).input)) ∧
    (let s := bed [(at' 5 1 2, { fields := [(7, 0x300 + 2 ^ 10 + 6 * 2 ^ 15)], inq := one (word 0 5) }), (at' 6 1 0, { fields := [(0, 0x28A)] })]
     tileKind 5 1 = .mt ∧ s.tileOn (at' 5 1 2) = true ∧ (s.elem (at' 5 1 2)).calm 0 = true ∧ 0 < s.credits (at' 5 1 2) 0 ∧
       getF (s.elem (at' 5 1 2)).inq 0 = word 0 5 :: [] ∧ s.parkedFor (at' 5 1 2) = none ∧ s.stageQueue (at' 5 1 2) = none) ∧
    (let s0 := firing 0x003 [(16, 2 * 2 ^ 9)] (one (word 0 5))
     let s := s0.setElem s0.focus { s0.fe with dly := [word 0 6] }
     s.live s.focus 0x003 = true ∧ s.fe.calm 0 = true ∧ 0 < s.credits s.focus 0 ∧ s.fe.dly = word 0 6 :: []) ∧
    (∀ q ∈ [[], [row 1 true], [{ row 1 true with hdr.itag := 8 }]], let s := takingBack 0x040 false q
      getF (s.elem (at' 1 1 0)).tbQueue 0 = 9 :: [] ∧ s.tileOn (at' 1 1 0) = true ∧ (s.elem (at' 1 1 0)).cancels = [] ∧ (s.elem (at' 1 1 0)).tbTrapped = false ∧
        (s.elem (at' 1 1 0)).head? 0 = q.head?) ∧
    (∀ b : Bool, let s := takingBack 0x201 b []
      s.dest (at' 1 1 0) 0 = some (at' 1 1 5, 0) ∧ getF (s.elem (at' 1 1 5)).tbWire 0 = 9 :: [] ∧ s.transit (at' 1 1 5, 0) = [] ∧ s.tileOn (at' 1 1 0) = true ∧
        (s.elem (at' 1 1 0)).opcode = 0x201 ∧ tileKind 1 1 ≠ .mt ∧ (s.elem (at' 1 1 0)).cancellable = false ∧ (s.elem (at' 1 1 0)).cancels = [] ∧
        sideEffectFree 0x201 = false ∧ (s.elem (at' 1 1 0)).must = b) ∧
    (let s := firing 0x040 [(1, 0x30)] (two endOfRun endOfRun)
     s.live s.focus s.fe.opcode = true ∧ s.fe.opcode = 0x040 ∧ s.fe.cancels = [] ∧ s.fe.req 0 = true ∧ (s.fe.calm 0 = true ∧ s.fe.calm 1 = true) ∧
       s.fe.head? 0 = some endOfRun ∧ s.fe.head? 1 = some endOfRun ∧ (s.fe.req 2 = false ∧ s.fe.req 3 = false) ∧ s.fe.outOn 0 = true ∧
       (∀ o, o < 2 → 0 < s.credits s.focus o)) := by
  unfold Enters CoreReads
  and_intros <;> decide +kernel

/-! Ranking -/

/-- A ranking element with its length-24 vector latched, ladder 0 and cut 5; it holds the tokens of `run`. -/
def ranking (op : Nat) (run : List Token) (reply : Option (List Nat × Nat)) (q : Vector (List Token) 4) (fs : Map Nat) : State :=
  let s := firing op ([(1, 0x10)] ++ fs) q
  s.setElem s.focus { s.fe with shape := some (BitVec.ofNat 64 (24 + 4 * 2 ^ 51)), run, reply }

def fullSlots (s : State) : State :=
  let t := s.tile 0 1 1
  let full : Slot := { tag := .full, data := [(0, 0x3FFE_0000_0000_0000), (20, 0x3FFF_0000_0000_0000)] }
  s.setTile 0 1 1 { t with slots := setF (setF t.slots 0 full) 1 full }

/-- A count token of 2 ranks, and a rank token with the indices 1 and 2. -/
def countTok : Token := tokenOf 0x0003 2
def rankTok : Token := tokenOf 0x0003 (1 + 2 ^ 32 * 2)
def wholeRequest (op c0 : Nat) : State := fullSlots (ranking op [rankTok] none (two (word 0 0) countTok) [(1, 0x30), (16, c0)])

theorem request_whole {s : State} {op : Nat} {count : Token} (h : (s.live s.focus op && s.fe.calm 1 && decide (s.fe.head? 1 = some count) &&
      !count.hdr.isControl && s.fe.code == 0 && decide (s.requestGrain s.focus (some count) = some s.fe.run.length) &&
      (count :: s.fe.run).all fun t => t.hdr.kind != 4) = true) : RequestWhole s op count := by
  simp only [Bool.and_eq_true, decide_eq_true_eq, Bool.not_eq_true', beq_iff_eq, List.all_eq_true, bne_iff_ne] at h
  exact ⟨h.1.1.1.1.1.1, h.1.1.1.1.1.2, h.1.1.1.1.2, h.1.1.1.2, h.1.1.2, h.1.2, h.2⟩

/-- A vector that is not yet whole and one that is; a request at ladder 0; a reply; requests that are whole; a token to decode. -/
theorem witness_RankingAndCodebookComplete :
    (∀ l ∈ [[], [word 0 1, word 0 2]], let s := ranking 0x2C1 l none (one (word 0 3)) [(17, 5)]
      s.live s.focus 0x2C1 = true ∧ s.fe.shape = some 0x0020_0000_0000_0018 ∧ (0x0020_0000_0000_0018 : Word).toNat / 2 ^ 51 % 8 = 4 ∧
        s.fe.asked = false ∧ s.fe.reply = none ∧ s.fe.outq = [] ∧ s.fe.head? 0 = some (word 0 3) ∧ s.fe.calm 0 = true ∧ s.fe.code = 0 ∧
        s.outsReady s.focus = true ∧
        (s.fe.run.length + 1 = 1 ∨ s.fe.run.length + 1 = 3) ∧ ∀ u ∈ s.fe.run ++ [word 0 3], u.hdr.kind ≠ 4) ∧
    (let r : LadderReq := { who := at' 1 1 0, region := 0, tokens := [tokenOf 0xFFFF 1], len := 8, cut := 2 }
     let s := bed []
     getF ((s.setDie 0 { s.die 0 with ladders := setF (s.die 0).ladders 0 [r] }).die 0).ladders 0 = r :: [] ∧ (s.die 0).clk ≠ 3) ∧
    (let s := ranking 0x2C1 [word 0 1] (some ([3, 0], 1)) (one (word 0 3)) [(17, 5)]
     s.live s.focus 0x2C1 = true ∧ s.fe.reply = some ([3, 0], 1) ∧ s.fe.run = word 0 1 :: [] ∧ s.fe.shape = some 0x0020_0000_0000_0018) ∧
    (let s := wholeRequest 0x2C2 8
     RequestWhole s 0x2C2 countTok ∧ NoTraps s.fe ∧ (s.slotAt s.focus s.fe.applyCfg.w).tag = .full ∧ (s.slotAt s.focus s.fe.applyCfg.att).tag = .full ∧
       (s.slotAt s.focus 4).taken = 0 ∧ (s.slotAt s.focus 4).tag = .empty ∧ s.fe.applyCfg.w = 0 ∧ s.fe.applyCfg.att = 1 ∧ s.fe.applyCfg.j = 0 ∧
       ∀ x ∈ runIndices s.fe.run, (x.2.2 + 1) * s.fe.applyCfg.n ≤ s.slotSize s.focus s.fe.applyCfg.w) ∧
    (let s := wholeRequest 0x2C3 0
     RequestWhole s 0x2C3 countTok ∧ NoTraps s.fe ∧ s.outsReady s.focus = true ∧ s.fe.outq = [] ∧ s.fe.shape = some 0x0020_0000_0000_0018 ∧ s.fe.const 0 = 0 ∧
       (s.slotAt s.focus 0).tag = .full ∧ ∀ x ∈ runIndices s.fe.run, x.2.2 < 24 ∧ x.1 < s.slotSize s.focus 0) ∧
    (let s := firing 0x300 [(1, 0x10)] inputs
     (s.live s.focus 0x300 = true ∧ s.fe.outq = [] ∧ s.fe.req 0 = true ∧ s.fe.headsReady = true ∧ s.outsReady s.focus = true ∧
       s.fe.poisonHead = none) ∧ PredicateHolds s.fe 1 ∧ NoTraps s.fe ∧ s.fe.head? 0 = some (tokenOf 0xFFFF 3)) := by
  unfold NoTraps
  exact ⟨by decide +kernel, by decide +kernel, by decide +kernel, ⟨request_whole (by decide +kernel), by decide +kernel⟩,
    ⟨request_whole (by decide +kernel), by decide +kernel⟩, by decide +kernel, .inl (by decide +kernel), by decide +kernel⟩

/-! The expert table -/

theorem home_far {s : State} {g : Nat} (h : ∀ c ∈ s.mem, c.1 / 8 ≠ g) : s.home g = 0 := by
  have get : ∀ (m : List Host.Cell) (a : Nat), (∀ c ∈ m, c.1 ≠ a) → Map.get (0 : Byte) a m = 0 := by
    intro m a hm
    induction m with
    | nil => rfl
    | cons c t ih => rw [Map.get, if_neg (hm c List.mem_cons_self), ih fun x hx => hm x (List.mem_cons_of_mem _ hx)]
  have zero : ∀ i, i < 8 → Map.get (0 : Byte) (8 * g + i) s.mem = 0 := fun i hi => get _ _ fun c hc e => h c hc (by omega)
  simp only [State.home, granuleOf, dword]
  rw [zero 7 (by decide), zero 6 (by decide), zero 5 (by decide), zero 4 (by decide), zero 3 (by decide), zero 2 (by decide), zero 1 (by decide),
    zero 0 (by decide)]
  rfl

/-- An image at 0x200000: entry 5 of key (3, 4) with `p` pages in class 2, which has one slot of 4 KiB at 0x10000000. -/
def imaged (p : Nat) : State :=
  { State.reset with
    mem := [(0x200140, 4), (0x200142, 3), (0x200144, BitVec.ofNat 8 p), (0x200148, 0x21), (0x300040, 1), (0x300043, 0x10), (0x300048, 1), (0x300050, 1)]
    ert := { base := 0x200000 } }
def imagedEntry (p : Nat) : ErtEntry := { v := true, pages := p, layer := 3, expert := 4, cls := 2 }

theorem image_holds (p : Nat) (h : (decide ((imaged p).imageEntry 5 = (imagedEntry p, false)) && decide (p ≠ 0) && ((imaged p).imageClass 2).2) = true) :
    ImageHolds (imaged p) 5 (imagedEntry p) := by
  simp only [Bool.and_eq_true, decide_eq_true_eq] at h
  refine ⟨by decide, h.1.1, rfl, h.1.2, fun j hj hn => ?_, h.2, fun c hc hn => ?_⟩
  · have z : ∀ k, k < 8 → (imaged p).home (((imaged p).ert.base.toNat + 64 * j) / 8 + k) = 0 := fun k hk => home_far fun c hc => by
      have b : (imaged p).ert.base.toNat = 0x200000 := rfl
      rw [b]
      simp only [imaged, List.mem_cons, List.not_mem_nil, or_false] at hc
      rcases hc with rfl | rfl | rfl | rfl | rfl | rfl | rfl | rfl <;> simp only <;> omega
    have z0 : (imaged p).home (((imaged p).ert.base.toNat + 64 * j) / 8) = 0 := z 0 (by decide)
    simp [State.imageEntry, z0, z, bits]
  · have : (imaged p).home (((imaged p).ert.base.toNat + 1048576 + 32 * c) / 8) = 0 := home_far fun x hx => by
      have b : (imaged p).ert.base.toNat = 0x200000 := rfl
      have m : (imagedEntry p).cls.val = 2 := rfl
      rw [b]
      simp only [imaged, List.mem_cons, List.not_mem_nil, or_false] at hx
      rcases hx with rfl | rfl | rfl | rfl | rfl | rfl | rfl | rfl <;> simp only <;> omega
    simp [State.imageClass, this]

/-- The table with entry 7 in a given state, class 0 of one slot at 0x10000000, and more. -/
def table (e : ErtEntry) (f : Ert → Ert) : State :=
  let s := tabled e
  { s with ert := f { s.ert with classes := setF s.ert.classes 0 { v := true, base := 0x1000_0000, count := 1, limit := 1 } } }
def fetch (e : ErtEntry) (f : Ert → Ert) : State := table { e with state := 1, pages := 1, leaf := 0x9000 } fun t => f { t with queue := #v[[7], []] }

/-- A steer.ert for key (3, 4) with probes, and a row at input 0 and a release at input 1. -/
def steering (st : ErtEntry) (probes : List Probe) (c0 : Nat) : State :=
  { firing 0x286 [(1, 0x10), (16, c0)] (two (row 1 true) (word 0 0)) with ert := (table st id).ert } |> fun s => s.setElem s.focus { s.fe with probes }
def key : Nat := 3 * 2 ^ 16 + 4

/-- A parking queue behind output 1 of a steer.ert. -/
def parked : State :=
  let s := steering { gen := 1 } [] key
  { ((s.setElem s.focus { s.fe with fields := Map.set 8 (0x300 + 2 ^ 10 + 5 * 2 ^ 15) s.fe.fields }).setElem (at' 5 1 0)
      { fields := [(7, 0x300 + 2 ^ 10 + 6 * 2 ^ 15)], inq := one (row 1 false), gens := [0] }).setElem (at' 6 1 0) { fields := [(0, 0x28A)] } with
    focus := at' 5 1 0 }

def lateTask : Task := { enqHead 8 [] with hdr := [2 ^ 23], missTime := 5 }

theorem witness_ExpertTableEvents :
    (ImageHolds (imaged 1) 5 (imagedEntry 1) ∧ (imaged 1).ert.en = false ∧ (imagedEntry 1).pages * 4096 ≤ ((imaged 1).imageClass 2).1.bytes) ∧
    (ImageHolds (imaged 2) 5 (imagedEntry 2) ∧ ((imaged 2).imageClass 2).1.bytes < (imagedEntry 2).pages * 4096) ∧
    (∀ n ∈ [0, 1], let s : State := { (tabled { refcnt := n }) with ert := { (tabled { refcnt := n }).ert with disabling := true } }
      s.ert.en = true ∧ s.ert.disabling = true ∧ s.ert.entries = [(7, { v := true, layer := 3, expert := 4, refcnt := n })] ∧
        (∀ c, (getF s.ert.classes c).v = false) ∧ s.ert.base.toNat % 64 = 0 ∧ s.ert.base.toNat + 2 ^ 21 < 2 ^ 37 ∧ s.ert.atRest = (n == 0)) ∧
    -- an update of an entry that the image gives as resident, as not valid, and as new
    (let s : State := { imaged 1 with mem := [(0x200160, 2)], ert := { (imaged 1).ert with en := true } }
     (s.imageEntry 5).1.state ≠ 0 ∧ s.ert.en = true) ∧
    (let s : State := { imaged 1 with ert := { (imaged 1).ert with en := true, classes := setF (imaged 1).ert.classes 2 ((imaged 1).imageClass 2).1 } }
     (s.imageEntry 4).1.state = 0 ∧ (s.imageEntry 4).1.v = false ∧ (s.ert.entry 4).v = false ∧ s.imageEntry 5 = (imagedEntry 1, false) ∧
       (s.ert.entry 5).state = 0 ∧ s.ert.entries = [] ∧ (∀ c, (getF s.ert.classes c).v = decide (c = 2)) ∧
       (imagedEntry 1).pages * 4096 ≤ (getF s.ert.classes 2).bytes) ∧
    (let s := table {} fun t => { t with wanting := [7] }
     s.ert.wanting = 7 :: [] ∧ s.portOf 7 = 0 ∧ (getF s.ert.queue 0).length < 64) ∧
    -- a fetch: a free slot; a slot of an unused entry; one in use; one that has its slot
    (let s := fetch {} id
     Fetching s 7 ∧ SweepsFirst s 7 ∧ (s.ert.entry 7).hasSlot = false ∧ (s.ert.entry 7).swept = false ∧ s.ert.freeing = [] ∧ s.ert.occupant 0 0 = none ∧
       0 < (getF s.ert.classes 0).limit ∧ (getF s.ert.classes 0).limit = 1) ∧
    (∀ b : Bool, let o : ErtEntry := { v := true, state := 2, use := b }
      let s := fetch {} fun t => { t with entries := t.entries ++ [(8, o)] }
      Fetching s 7 ∧ s.ert.occupant 0 0 = some (8, o) ∧ o.state = 2 ∧ o.refcnt = 0 ∧ o.parked = 0 ∧ (s.ert.entry 7).told = false) ∧
    (∀ b : Bool, SweepsFirst (fetch {} fun t => { t with entries := t.entries ++ [(8, { v := true, state := 2, use := b })] }) 7) ∧
    (let s := fetch { asked := 1 } fun t => { t with entries := t.entries ++ [(8, { v := true, state := 1 })], queue := #v[[8, 7], []] }
     Fetching s 7 ∧ ¬ SweepsFirst s 7 ∧ (s.ert.entry 7).hasSlot = false ∧ (s.ert.entry 7).swept = false) ∧
    (let s : State := { fetch { hasSlot := true } id with marked := [0] }
     Fetching s 7 ∧ (s.ert.entry 7).hasSlot = true ∧ (s.ert.entry 7).srcFailed = false ∧ ¬ SourceReads s (s.ert.entry 7)) ∧
    (let s := fetch { hasSlot := true } id
     Fetching s 7 ∧ SourceReads s (s.ert.entry 7) ∧ (s.ert.entry 7).hasSlot = true ∧ s.ert.waits = [] ∧ s.ert.wanting = [] ∧ memWf s.mem = true ∧ (s.ert.entry 7).leaf % 8 = 0 ∧
       (s.ert.entry 7).leaf + 1024 ≤ 2 ^ 37 ∧ (s.ert.entry 7).srcFailed = false) ∧
    -- rows, probes and their answers
    (let s := steering {} [] key
     s.fe.pawn 0 = some (row 1 true) ∧ s.live s.focus 0x286 = true ∧ s.fe.probes.length < 8 ∧ s.outsReady s.focus = true) ∧
    (∀ st : Fin 4, let s := steering { state := st } [{ row := row 1 true }] key
      s.fe.probes = { row := row 1 true } :: [] ∧ s.ert.find (s.fe.const 0 / 2 ^ 16 % 2 ^ 16) (s.fe.const 0 % 2 ^ 16) = some 7 ∧ (s.ert.entry 7).state = st) ∧
    (steering {} [{ row := row 1 true }] 9).ert.find 0 9 = none ∧
    (∀ n ∈ [1, 2, 3], ∀ b : Bool, let s := steering {} [{ row := row 1 true, answer := n }] (key + if b then 2 ^ 32 else 0)
      s.fe.probes = { row := row 1 true, answer := n } :: [] ∧ s.live s.focus 0x286 = true ∧ (∀ o, o < 2 → 0 < s.credits s.focus o) ∧
        (s.fe.const 0).testBit 32 = b) ∧
    (∀ n ∈ [1, 2], let s := steering { state := 2, refcnt := n, evicting := n == 1 } [] key
      s.fe.head? 1 = some (word 0 0) ∧ s.live s.focus 0x286 = true ∧ s.fe.calm 1 = true ∧ (s.ert.entry 7).refcnt = n ∧ (s.ert.entry 7).state = 2 ∧
        (s.ert.entry 7).parked = 0 ∧ (s.ert.entry 7).evicting = (n == 1) ∧ s.ert.waits = [] ∧
        s.ert.find (s.fe.const 0 / 2 ^ 16 % 2 ^ 16) (s.fe.const 0 % 2 ^ 16) = some 7) ∧
    (parked.channelHead parked.focus = some (row 1 false) ∧ parked.parkedFor parked.focus = some (at' 1 1 0) ∧ parked.fe.gens = 0 :: [] ∧
      (parked.ert.entry 7).gen = 1 ∧ parked.ert.find 3 4 = some 7 ∧ parked.taskAt (at' 1 1 0) = none ∧ (parked.elem (at' 1 1 0)).const 0 = key) ∧
    (∀ b : Nat, b ∈ [0, 3] → let lateTask := { lateTask with hdr := [2 ^ 23, 0, 0, 0, 0, 0, 0, 0, 0, 0, BitVec.ofNat 64 (b * 2 ^ 32)] }
     let s : State := { issuing with tasks := [lateTask] }
     s.task? 0 = some lateTask ∧ (0 < lateTask.budget → lateTask.budget < lateTask.missTime) ∧ lateTask.budget = b ∧ lateTask.bounded = true ∧ lateTask.missReported = false ∧ lateTask.missEntry = 0) := by
  unfold Fetching SweepsFirst SourceReads Clocked
  refine ⟨⟨image_holds 1 (by decide +kernel), by decide +kernel, by decide +kernel⟩, ⟨image_holds 2 (by decide +kernel), by decide +kernel⟩, ?_⟩
  and_intros <;> decide +kernel

/-! Streams and tasks -/

/-- Engine (0, 1) 2 of region 0 with an edge to element 4 of its tile, in focus, with a run and waiting tokens. -/
def streaming (se : StreamState) (q : List Token) : State :=
  { bed [(at' 0 1 2, { fields := [(0, 0x204), (7, 0x140), (16, 0x80)], inq := #v[q, [], [], []], se }), (at' 0 1 4, { fields := [(0, 0x201)] })] with
    focus := at' 0 1 2 }

def storeRun (count : Nat) : StreamRun :=
  { cmd := aCommand .strmSt, record := (List.range 16).map fun i => if i = 0 then 0x800 else if i = 1 then 0x6000 else if i = 4 then 64 else 0
    count, requested := count, started := true }

theorem all_items {s : State} (h : (s.elems.all fun x => x.2.se.items.isEmpty) = true) : ∀ a, (s.elem a).se.items = [] := by
  intro a
  have get : ∀ (m : Map Elem) (k : Nat), (m.all fun x => x.2.se.items.isEmpty) = true → (Map.get {} k m).se.items = [] := by
    intro m k hm
    induction m with
    | nil => rfl
    | cons c t ih =>
      simp only [List.all_cons, Bool.and_eq_true, List.isEmpty_iff] at hm
      rw [Map.get]
      split
      · exact hm.1
      · exact ih hm.2
  exact get _ _ h

theorem region_quiet {s : State} {d : Fin 4} {r : Fin 16} {c : Fin 64} (h : ((s.core c).order.isEmpty && (List.finRange 8).all (fun q => (getF (s.core c).queues q).isEmpty) &&
      (s.core c).cfg.isEmpty && !s.flmOpen c && (s.elems.all fun x => x.2.se.items.isEmpty) &&
      (s.regionElems d r).all fun a => (s.elem a).pend.isEmpty && (s.elem a).se.cur.isNone) = true) : RegionQuiet s d r c := by
  simp only [Bool.and_eq_true, List.isEmpty_iff, Bool.not_eq_true'] at h
  obtain ⟨⟨⟨⟨⟨h1, h2⟩, h3⟩, h4⟩, h5⟩, h6⟩ := h
  refine ⟨h1, fun q => by simpa using List.all_eq_true.1 h2 q (List.mem_finRange q), h3, h4, all_items h5, fun a ha => ?_⟩
  simpa using List.all_eq_true.1 h6 a ha

/-- A task of one block: its header, and memory that holds its image of two words at 0x5000 and its text of four words at 0x6000. -/
def oneBlock : List Word :=
  [BitVec.ofNat 64 (4 * 2 ^ 17 + 16 * 2 ^ 24), 0, 0, 0, 0x6000, 3, 0x5000, BitVec.ofNat 64 (2 + 2 ^ 24 + 2 ^ 27), 0, 0, 0, 0, 0, 2 ^ 20, 0, 0]
def aTask : Task := { enqHead 8 [] with hdr := oneBlock, st := .ready }
/-- A begin for `w` columns and a commit. -/
def imageWord (w : Fin 8) : Nat := encodeConfigNat (.beginCmd false w 1) + 2 ^ 32 * encodeConfigNat .commit
/-- Memory with the task's image of those two words. -/
def withImage (words : Nat) : State := { State.reset with mem := pages ++ record [(0, words)] }
def lone (t : Task) (w : Fin 8) (g : Region) : State :=
  { withImage (imageWord w) with
    tasks := [t]
    dies := setF State.reset.dies 0 { regions := setF (Vector.replicate 16 {}) 0 g }
    cores := setF State.reset.cores 0 { run := .stopped, prefetch := if t.st = .placing then [t.id] else []
                                        task := if t.st = .running then some t.id else none } }

def prepares (s : State) (t : Task) (p : Prepared → Bool) : Bool := match s.prepare t with
  | .ok x => p x
  | .error _ => false

theorem prepared {s : State} {t : Task} {p : Prepared → Bool} (h : prepares s t p = true) : ∃ x, s.prepare t = .ok x ∧ p x = true := by
  unfold prepares at h
  split at h
  · exact ⟨_, ‹_›, h⟩
  · cases h

theorem prepared_kept {s : State} {t : Task} {k : CoreState} {p : Prepared → Bool}
    (h : (match s.prepareKept t k with
      | .ok x => p x
      | .error _ => false) = true) : ∃ x, s.prepareKept t k = .ok x ∧ p x = true := by
  split at h
  · exact ⟨_, ‹_›, h⟩
  · cases h

def block (g : Region) : Region := { g with present := true, w := 1, h := 1, image := some aTask.imageKey }

/-- The first candidate of the one task, and whether its image suits once it is placed there. -/
theorem chooses {s : State} {t : Task} {f : Candidate → Bool}
    (h : (s.placeable 0 (s.sketch t) && (s.candidates (s.sketch t)).head?.any fun c => f c && prepares (s.placeTask t c none) t fun _ => true) = true) :
    s.placeable 0 (s.sketch t) = true ∧ ∃ c cs, s.candidates (s.sketch t) = c :: cs ∧ f c = true ∧ ∃ p, (s.placeTask t c none).prepare t = .ok p := by
  rw [Bool.and_eq_true] at h
  refine ⟨h.1, ?_⟩
  cases e : s.candidates (s.sketch t) with
  | nil => rw [e] at h; cases h.2
  | cons c cs =>
    rw [e] at h
    obtain ⟨h1, h2⟩ := (Bool.and_eq_true _ _).mp h.2
    obtain ⟨p, hp, _⟩ := prepared h2
    exact ⟨c, cs, rfl, h1, p, hp⟩

theorem refuses {s : State} {t : Task} {n : Nat}
    (h : (s.placeable 0 (s.sketch t) && (s.candidates (s.sketch t)).head?.any fun c => errorOf ((s.placeTask t c none).prepare t) == some n) = true) :
    s.placeable 0 (s.sketch t) = true ∧ ∃ c cs, s.candidates (s.sketch t) = c :: cs ∧ (s.placeTask t c none).prepare t = .error n := by
  rw [Bool.and_eq_true] at h
  refine ⟨h.1, ?_⟩
  cases e : s.candidates (s.sketch t) with
  | nil => rw [e] at h; cases h.2
  | cons c cs => rw [e] at h; exact ⟨c, cs, rfl, eq_error (by simpa using h.2)⟩

/-- A load of four rows of the engine, two of them fetched. -/
def loadRun : StreamRun := { storeRun 4 with cmd := aCommand .strmLd, row := 2 }

/-- The task with a geometry that no die has; the task, placed and running in region 0 on core 0. -/
def wideTask : Task := { aTask with hdr := oneBlock.set 7 (BitVec.ofNat 64 (2 + 7 * 2 ^ 24 + 2 ^ 27)) }
def placedTask : Task := { aTask with st := .placing, region := some 0, core := some 0 }
def runningTask : Task := { aTask with st := .running, region := some 0, core := some 0 }
def placing : State := lone placedTask 1 (block { owner := some 0 })
/-- The one task runs; a region as given, and elements besides. -/
def inPhase (g : Region) (t : Task) (es : List (ElemAt × Elem)) : State :=
  let s := lone t 1 (block { g with owner := some 0, task := some 0, committed := true })
  es.foldl (fun s x => s.setElem x.1 x.2) (s.setCore 0 { s.core 0 with run := .running })

/-- Several tasks in place of the one, and a second core that is free. -/
def several (ts : List Task) (w : Fin 8) (g : Region) : State :=
  let s := lone aTask w g
  { s with tasks := ts, cores := setF s.cores 1 { run := .stopped } }
/-- The same with block 0 of die 0 off, or with all blocks. -/
def dark (s : State) (all : Bool) : State := s.setDie 0 { s.die 0 with blkpwr := if all then 2 ^ 40 - 1 else 3 }
/-- A task for the whole die. -/
def bigTask (order : Nat) : Task := { aTask with id := 1, order, hdr := oneBlock.set 7 (BitVec.ofNat 64 (2 + 4 * 2 ^ 24 + 5 * 2 ^ 27)) }
/-- The task, bounded, with a share of the memory system. -/
def timedTask (bound share : Nat) : Task :=
  { aTask with hdr := ((oneBlock.set 0 (2 ^ 23 + nth oneBlock 0)).set 10 (BitVec.ofNat 64 bound)).set 12 (BitVec.ofNat 64 (share * 2 ^ 32)) }
/-- A stage of a group of two, whose image is at an address and whose range begins at `first`. -/
def stageOf (k first image : Nat) : Task :=
  { aTask with id := BitVec.ofNat 32 k
               hdr := ((oneBlock.set 13 (BitVec.ofNat 64 (3 + k * 2 ^ 16 + 2 * 2 ^ 20))).set 2 (BitVec.ofNat 64 first)).set 6 (BitVec.ofNat 64 image) }

theorem places_open {s : State} {t : Task}
    (h : (s.placeable 0 (s.sketch t) && (s.candidates (s.sketch t)).head?.any fun c => c.kind != 3 && prepares (s.placeTask t c none) t fun _ => true) = true) :
    ∃ u, PlacesOpen s 0 t u := by
  obtain ⟨hp, c, cs, hc, hk, p, hq⟩ := chooses h
  exact ⟨_, c, cs, p, hp, hc, by simpa using hk, hq, rfl⟩

/-- No worst-case time is less than the time of the launch. -/
theorem worst_from {t : Task} {w n : Nat} {clk : Fin 4} (h : IsWorstCase t w clk n) : 1000 ≤ n := by
  obtain ⟨_, k, hn, hk, _⟩ := h
  have pos : 0 < 672 * (if clk = 0 then 21 else if clk = 1 then 14 else 10) * 4600 * (if t.share = 0 then 1 else t.share) := by
    refine Nat.mul_pos (Nat.mul_pos (Nat.mul_pos (by decide) ?_) (by decide)) ?_ <;> split <;> try omega
    split <;> decide
  have : 1000 ≤ k := by
    refine Nat.le_of_mul_le_mul_left (c := 672 * (if clk = 0 then 21 else if clk = 1 then 14 else 10) * 4600 * (if t.share = 0 then 1 else t.share)) ?_ pos
    rw [Nat.mul_comm _ 1000]
    exact Nat.le_trans (by omega) hk
  omega

/-- The first placement of a bounded task takes 1001 ns, and the image suits. -/
theorem admits {s : State} {t : Task} (h : (s.candidates (s.sketch t)).head?.any (fun c => c.kind != 3 && decide (c.wait = 0) &&
      prepares (s.placeTask t c (some { time := 1001, comp := (t.cf, t.cw, t.ladders) })) t fun _ => true) = true)
    (hk : IsWorstCase t 0 (s.die 0).clk 1001) : ∃ c cs, s.candidates (s.sketch t) = [] ++ c :: cs ∧ IsWorstCase t c.wait (s.die 0).clk 1001 ∧ c.kind ≠ 3 ∧
      ∃ p, (s.placeTask t c (some { time := 1001, comp := (t.cf, t.cw, t.ladders) })).prepare t = .ok p := by
  cases e : s.candidates (s.sketch t) with
  | nil => rw [e] at h; cases h
  | cons c cs =>
    rw [e] at h
    simp only [List.head?_cons, Option.any_some, Bool.and_eq_true, decide_eq_true_eq, bne_iff_ne] at h
    obtain ⟨⟨h1, h2⟩, h3⟩ := h
    obtain ⟨p, hp, _⟩ := prepared h3
    exact ⟨c, cs, rfl, h2 ▸ hk, h1, p, hp⟩

/-- The first placement of one stage goes with the second of the other. -/
theorem pairs {A B : List Candidate} {pair : Candidate → Candidate → Bool}
    (h : (match A, B with
      | x :: _, w :: y :: _ => !pair x w && pair x y && x.kind != 3 && y.kind != 3
      | _, _ => false) = true) :
    ∃ x p' w y q', A = [] ++ x :: p' ∧ B = [w] ++ y :: q' ∧ pair x y = true ∧ pair x w = false ∧ x.kind ≠ 3 ∧ y.kind ≠ 3 := by
  split at h
  · rename_i x p' w y q'
    simp only [Bool.and_eq_true, Bool.not_eq_true', bne_iff_ne] at h
    exact ⟨x, p', w, y, q', rfl, rfl, h.1.1.2, h.1.1.1, h.1.2, h.2⟩
  · cases h

/-- Two stages that share nothing, by the tests of the group's selection. -/
def goTogether (s : State) (x y : Candidate) : Bool :=
  !y.clash x && decide ((if x.kind ≤ 2 then 1 else 0) + (if y.kind ≤ 2 then 1 else 0) ≤ (s.freeCores 0).length)

/-- Both stages placed, the first at its first placement, the second at its second. -/
def bothPlaced (s : State) (a b : Task) : State :=
  match s.candidates (s.sketch a), s.candidates (s.sketch b) with
  | x :: _, _ :: y :: _ => (s.placeTask a x none (if y.kind = 1 then y.region.toList else [])).placeTask b y none
  | _, _ => s

/-- Two tasks of the module: the first in order waits while the one taken first has no placement; a bounded task admitted, refused,
kept waiting by shares and by its blocks; the two stages of a group. -/
theorem witness_selection :
    (let s := several [aTask, { aTask with id := 2 }] 1 {}
     TwoToSelect s 0 aTask { aTask with id := 2 } ∧ aTask.bounded = false ∧ s.placeable 0 (s.sketch aTask) = true ∧ ∃ u, PlacesOpen s 0 aTask u) ∧
    (∀ n ∈ [0, 2], let s := dark (several [bigTask n, { aTask with order := 1 }] 1 {}) false
     TwoToSelect s 0 (bigTask n) { aTask with order := 1 } ∧ (bigTask n).bounded = false ∧ s.placeable 0 (s.sketch (bigTask n)) = true ∧
       s.candidates (s.sketch (bigTask n)) = [] ∧ s.placeable 0 (s.sketch { aTask with order := 1 }) = true) ∧
    (let s := dark (several [bigTask 2, { aTask with order := 1 }] 1 {}) false
     ∃ u, PlacesOpen s 0 { aTask with order := 1 } u) ∧
    (∀ n ∈ [0, 2000], let s := several [timedTask n 2] 1 {}
     OneToSelect s 0 (timedTask n 2) ∧ (timedTask n 2).bounded = true ∧ s.placeable 0 (s.sketch (timedTask n 2)) = true ∧
       s.candidates (s.sketch (timedTask n 2)) ≠ [] ∧ (timedTask n 2).bound = n ∧ (dark s true).candidates (s.sketch (timedTask n 2)) = []) ∧
    (let s := several [timedTask 2000 2] 1 {}
     ∃ c cs, s.candidates (s.sketch (timedTask 2000 2)) = [] ++ c :: cs ∧ IsWorstCase (timedTask 2000 2) c.wait (s.die 0).clk 1001 ∧ c.kind ≠ 3 ∧
       ∃ p, (s.placeTask (timedTask 2000 2) c (some { time := 1001, comp := ((timedTask 2000 2).cf, (timedTask 2000 2).cw, (timedTask 2000 2).ladders) })).prepare
         (timedTask 2000 2) = .ok p) ∧
    (let u : Task := { timedTask 0 255 with id := 9, st := .running }
     let s := several [timedTask 2000 2, u] 1 {}
     OneToSelect s 0 (timedTask 2000 2) ∧
       256 < ((s.tasks.filter fun u => decide (u.die = 0) && u.admittedNow).map Task.share).sum + (timedTask 2000 2).share) ∧
    (let a := stageOf 0 0 0x5000
     (∀ b ∈ [{ stageOf 1 0 0x5000 with st := .running }, stageOf 1 5 0x5000, stageOf 1 0 0x5000], let s := several [a, b] 1 {}
       TwoStages s 0 a b ∧ s.placeable 0 (s.sketch a) = true ∧ s.placeable 0 (s.sketch b) = true ∧ (dark s true).candidates (s.sketch a) = []) ∧
     (stageOf 1 5 0x5000).first ≠ a.first ∧
     (∃ x p' w y q', (several [a, stageOf 1 0 0x5000] 1 {}).candidates ((several [a, stageOf 1 0 0x5000] 1 {}).sketch a) = [] ++ x :: p' ∧
       (several [a, stageOf 1 0 0x5000] 1 {}).candidates ((several [a, stageOf 1 0 0x5000] 1 {}).sketch (stageOf 1 0 0x5000)) = [w] ++ y :: q' ∧
       goTogether (several [a, stageOf 1 0 0x5000] 1 {}) x y = true ∧ goTogether (several [a, stageOf 1 0 0x5000] 1 {}) x w = false ∧ x.kind ≠ 3 ∧ y.kind ≠ 3) ∧
     (let u := bothPlaced (several [a, stageOf 1 0 0x5000] 1 {}) a (stageOf 1 0 0x5000)
      prepares u a (fun _ => true) && prepares u (stageOf 1 0 0x5000) (fun _ => true)) = true ∧
     (errorOf ((bothPlaced (several [a, stageOf 1 0 0x5000] 7 {}) a (stageOf 1 0 0x5000)).prepare a)).isSome = true ∧
     (let u := bothPlaced (several [a, stageOf 1 0 0x5100] 1 {}) a (stageOf 1 0 0x5100)
      prepares u a (fun _ => true) && (errorOf (u.prepare (stageOf 1 0 0x5100))).isSome) = true) := by
  refine ⟨⟨?_, ?_, ?_, places_open ?_⟩, fun n hn => ⟨?_, ?_⟩, places_open ?_, fun n hn => ⟨?_, ?_⟩,
    admits ?_ ⟨by decide +kernel, 1001, by decide +kernel⟩, ⟨?_, ?_⟩, fun b hb => ⟨?_, ?_⟩, ?_, pairs ?_, ?_, ?_, ?_⟩
  all_goals first
    | (unfold TwoToSelect ReadyOn; decide +kernel) | (unfold OneToSelect ReadyOn; decide +kernel) | decide +kernel
    | (unfold TwoToSelect ReadyOn; revert n; decide +kernel) | (unfold OneToSelect ReadyOn; revert n; decide +kernel)
    | (unfold TwoStages ReadyOn; revert b; decide +kernel) | (revert n; decide +kernel) | (revert b; decide +kernel)

/-- A bound of 0 is never met. -/
theorem witness_refusal : let s := several [timedTask 0 2] 1 {}
    ∀ c ∈ s.candidates (s.sketch (timedTask 0 2)), ∀ n, IsWorstCase (timedTask 0 2) c.wait (s.die 0).clk n → (timedTask 0 2).bound < n := by
  intro s c _ n h
  have := worst_from h
  have b : (timedTask 0 2).bound = 0 := by decide +kernel
  omega

/-- The running task with its core halted, or not. -/
def ending (run : RunState) : State :=
  let s := inPhase { phase := .running } runningTask []
  s.setCore 0 { s.core 0 with run }

theorem witness_StreamsAndTasksMove :
    EnginesSettled (streaming { outq := [barrierTok 3, word 0 5] } []) ∧
    -- a task that the loader refuses, one placed in a new region, one in a region with its image, and one whose load begins
    (let s := lone aTask 7 {}
     s.placeable 0 (s.sketch aTask) = true ∧ ∃ c cs, s.candidates (s.sketch aTask) = c :: cs ∧ (s.placeTask aTask c none).prepare aTask = .error 5) ∧
    (let s := lone aTask 1 {}
     s.placeable 0 (s.sketch aTask) = true ∧ ∃ c cs, s.candidates (s.sketch aTask) = c :: cs ∧ (c.kind == 2) = true ∧
      ∃ p, (s.placeTask aTask c none).prepare aTask = .ok p) ∧
    (let s := lone aTask 1 (block {})
     s.placeable 0 (s.sketch aTask) = true ∧ ∃ c cs, s.candidates (s.sketch aTask) = c :: cs ∧
      (c.kind == 1 && c.region == some 0 && !(s.freeCores 0).isEmpty) = true ∧ ∃ p, (s.placeTask aTask c none).prepare aTask = .ok p) ∧
    (∃ p, placing.prepareKept placedTask (placing.core 0) = .ok p ∧ true = true) ∧
    (∃ p, placing.prepareKept placedTask { placing.core 0 with text := some placedTask.textKey } = .ok p ∧ true = true) ∧
    RegionQuiet (ending .halted) 0 0 (coreOf 0 0) ∧
    -- rows of an engine in every hold; heads of a store
    (∀ h ∈ [SourceHold.free, .draining 2, .upTo 2, .stopped], ∀ t ∈ [word 0 5, endOfRun, barrierTok 3], ∀ u ∈ [word 0 5, barrierTok 3], ∀ c ∈ [none, some loadRun],
      let s := streaming { outq := [t, u], hold := h, cur := c } []
      s.fe.se.outq = t :: u :: [] ∧ s.live s.focus 0x204 = true ∧ isStreamEngine s.focus = true ∧ 0 < s.credits s.focus 0 ∧
        s.fe.frozen = false ∧ s.fe.cancels = []) ∧
    ((barrierTok 3).hdr.kind = 2 ∧ 2 ≤ (barrierTok 3).hdr.seq.toNat % 8 ∧ endOfRun.hdr.kind = 3 ∧ (word 0 5).hdr.isTarget = true ∧
      (barrierTok 3).hdr.isTarget = false) ∧
    (∀ t ∈ [word 0 5, word 1 0, word 4 9, endOfRun, barrierTok 3], StoreTakes (streaming { cur := some (storeRun 8) } [t]) (storeRun 8) t) ∧
    ((storeRun 8).fmt ≠ 5 ∧ (storeRun 8).blockData = false) ∧
    (∀ a ∈ [at' 0 1 2, at' 1 1 5, at' 1 1 14], let s : State := { bed [(a, { resumes := 1 })] with focus := a }
      s.fe.resumes = 0 + 1 ∧ (tileKind s.focus.x s.focus.y = .ct ∧ s.focus.e = 14 ↔ a = at' 1 1 14)) ∧
    (∀ n ∈ [1, 2], let s : State := { bed [(at' 1 1 0, { wire := one (word 0 5) })] with focus := at' 1 1 0 }
     let s := s.setDie 0 { s.die 0 with blkpwr := BitVec.ofNat 64 n }
     s.power 0 1 1 = n ∧ 0 < s.waitingAt s.focus ∧ s.clockOn 0 = true ∧ (s.tile 0 1 1).woke = false ∧
       ((s.setTile 0 1 1 { woke := true }).tile 0 1 1).woke = true) ∧
    (∀ n ∈ [0, 2 ^ 45, 1], ∀ b : Bool, let t : Task := { aTask with spilled := true, predFailed := b }
      let s0 := lone t 1 {}
      let s : State := { s0.setTqu 0 { s0.tquOf 0 with spillBase := BitVec.ofNat 64 n } with marked := if n = 1 then [3] else [] }
      s.inBank 0 1 true = t :: [] ∧ 1 ∉ (s.tquOf 0).refillHeld ∧ (s.inBank 0 1 false).length < 256 ∧
        (EntryLost s ((s.tquOf 0).spillAt t.spillSlot) ↔ n ≠ 0)) ∧
    OneToSelect (lone aTask 1 {}) 0 aTask ∧ OneToSelect (lone aTask 7 {}) 0 aTask ∧ OneToSelect (lone aTask 1 (block {})) 0 aTask ∧
    (OneToSelect (lone wideTask 7 {}) 0 wideTask ∧ (lone wideTask 7 {}).placeable 0 ((lone wideTask 7 {}).sketch wideTask) = false) ∧
    (let s := (lone aTask 1 {}).setDie 0 { (lone aTask 1 {}).die 0 with blkpwr := 2 ^ 40 - 1 }
     OneToSelect s 0 aTask ∧ s.placeable 0 (s.sketch aTask) = true ∧ s.candidates (s.sketch aTask) = []) ∧
    (placing.awaiting 0 0 = some (placedTask, 0) ∧ (placing.region 0 0).present = true ∧ (placing.region 0 0).task = none ∧
      (placing.region 0 0).phase = .idle ∧ (placing.core 0).task = none ∧ placing.clockOn 0 = true ∧
      (placing.region 0 0).blocks.all (placing.blockUsable 0) = true ∧ (placing.region 0 0).image = some placedTask.imageKey ∧
      (placing.region 0 0).reflect = (placedTask.frame.getD (placing.region 0 0).frame).reflect ∧ placedTask.savedCore = none) ∧
    (∀ run ∈ [RunState.halted, .running], let s := ending run
     s.clockOn 0 = true ∧ (s.region 0 0).task = some runningTask.id ∧ s.task? runningTask.id = some runningTask ∧ runningTask.st = .running ∧
       (s.region 0 0).owner = some 0 ∧ (s.region 0 0).phase = .running ∧ s.sinks 0 0 = [] ∧ (s.core (coreOf 0 0)).run = run ∧
       (s.core (coreOf 0 0)).th = false ∧ s.edgesLeft 0 0 = true) ∧
    (ending .halted).coreRests (coreOf 0 0) = true ∧
    -- a placement in an idle region, for the state of a placed task
    (let s := lone aTask 1 (block {})
     (s.candidates (s.sketch aTask)).head?.any (fun c => c.kind != 2 && c.region == some 0) = true ∧ (s.freeCores aTask.die).head? = some 0) := by
  unfold StoreTakes OneToSelect ReadyOn EntryLost
  refine ⟨engines_settled (isNone_none (by decide +kernel)), refuses (by decide +kernel), chooses (f := fun c => c.kind == 2) (by decide +kernel),
    chooses (s := lone aTask 1 (block {})) (f := fun c => c.kind == 1 && c.region == some 0 && !((lone aTask 1 (block {})).freeCores 0).isEmpty)
      (by decide +kernel),
    prepared_kept (p := fun _ => true) (by decide +kernel), prepared_kept (p := fun _ => true) (by decide +kernel),
    region_quiet (by decide +kernel), ?_, ?_, ?_, ?_, ?_, ?_, ?_, ?_, ?_, ?_, ?_, ?_, ?_, ?_, ?_⟩ <;>
    decide +kernel

/-! What the driver asks -/

/-- An access of element 5 of tile (1, 1) that is withheld, or under way. -/
def withheldAt (b : Bool) : List (ElemAt × Elem) := [(at' 1 1 5, { pend := [{ store := false, mt := false, heads := [], hdr := {}, todo := [1], withheld := b }] })]

/-- The task bounded with a slack, or as a stage of group 3. -/
def boundedTask (slack : Int) : Task := { runningTask with hdr := (2 ^ 23 + nth oneBlock 0) :: oneBlock.drop 1, slack }
def stageTask (k : Nat) : Task := { runningTask with id := BitVec.ofNat 32 k, hdr := oneBlock.set 13 3, region := some (Fin.ofNat 16 k), core := some (Fin.ofNat 16 k) }
def grouped : State :=
  let s := inPhase { phase := .running } (stageTask 0) []
  { s.setRegion 0 1 { s.region 0 0 with owner := some 1, task := some 1, bx := 1 } with tasks := [stageTask 0, stageTask 1] }

theorem stages_afford {s : State} {d : Fin 4} {t : Task} (h : ∀ w ∈ s.tasks, ∀ q, w.region = some q → (s.region d q).phase = .running → Affords s w) :
    ∀ w, Stage s t w → ∀ q, w.region = some q → (s.region d q).phase = .running → Affords s w := fun w hw => h w hw.1

/-- Memory enough for no context block, or for some. -/
def withContexts (mib : Nat) : State :=
  let s := inPhase { phase := .draining 2 } runningTask []
  s.setTqu 0 { s.tquOf 0 with ctxCap := BitVec.ofNat 64 mib }

theorem witness_DriverCommandsTakeEffect :
    -- a task in each phase of its region: open, bounded with enough slack or too little, or a stage of a group
    (∀ ph ∈ [RegionPhase.running, .draining 2, .checkpoint, .freezing 2, .freezing 1, .saveHeld 1 2, .idle], ∀ t ∈ [runningTask, boundedTask 100000, boundedTask 0],
      let s := inPhase { phase := ph } t []
      RunsIn s 0 0 0 t ∧ t.group = 0 ∧ (s.region 0 0).phase = ph ∧ s.clockOn 0 = true ∧ t.core = some 0 ∧
        (Affords s t ↔ t.bounded = false ∨ t.slack = 100000)) ∧
    (RunsIn grouped 0 0 0 (stageTask 0) ∧ (stageTask 0).group ≠ 0 ∧ (grouped.region 0 0).phase = .running ∧ (grouped.region 0 1).phase = .running ∧
      ∀ w ∈ grouped.tasks, ∀ w' ∈ grouped.tasks, w.id = w'.id → w = w') ∧
    (∀ w, Stage grouped (stageTask 0) w → ∀ q, w.region = some q → (grouped.region 0 q).phase = .running → Affords grouped w) ∧
    Stage grouped (stageTask 0) (stageTask 1) ∧
    -- a drain: at rest, with a cache to write back, and with an access under way
    (let s := inPhase { phase := .draining 2 } runningTask []
     s.regionDrained 0 0 2 = true ∧ (s.region 0 0).cache = []) ∧
    (let s := inPhase { phase := .draining 2, cache := [(1, some (5, true, 0))] } runningTask []
     RunsIn s 0 0 0 runningTask ∧ s.regionDrained 0 0 2 = true ∧ (s.region 0 0).cache ≠ []) ∧
    (∀ b : Bool, let s := inPhase { phase := .draining 2 } runningTask (withheldAt b)
      RunsIn s 0 0 0 runningTask ∧ (s.region 0 0).phase = .draining 2 ∧ s.regionDrained 0 0 2 = false) ∧
    ((contextPlace (withContexts 0) 0 0 0 runningTask 1 2).1 = none ∧ (contextPlace (withContexts 16) 0 0 0 runningTask 1 2).1 = some 0) ∧
    -- a freeze-save: at rest, and with an access under way
    (let s := inPhase { phase := .freezing 2 } runningTask []
     (∀ a ∈ s.regionElems 0 0, s.elemBusy a = false) ∧ s.netBusy 0 0 = false ∧ s.flmOpen (coreOf 0 0) = false) ∧
    (let s := inPhase { phase := .freezing 2 } runningTask (withheldAt false)
     RunsIn s 0 0 0 runningTask ∧ ∃ a ∈ s.regionElems 0 0, s.elemBusy a = true) ∧
    -- a fault checkpoint in each phase that has one
    (∀ ph ∈ [RegionPhase.running, .draining 2, .freezing 2], let s := inPhase { phase := ph } runningTask (withheldAt true)
      (s.region 0 0).owner = some 0 ∧ s.withholds 0 0 = true ∧ s.clockOn 0 = true) ∧
    (inPhase { phase := .checkpoint } runningTask []).regionStill 0 0 = true ∧
    ((lone aTask 1 {}).task? aTask.id = some aTask ∧ aTask.region = none) ∧
    (∀ b : Bool, let s := inPhase { phase := .running } runningTask []
      let s := s.setTile 0 1 1 { s.tile 0 1 1 with trap := if b then #v[2 ^ 63, 0, 0, 0] else Vector.replicate 4 0 }
      RunsIn s 0 0 0 runningTask ∧ ((∃ x ∈ s.regionTiles 0 0, (getF (s.tile 0 x.1 x.2).trap 0).getLsbD 63 = true) ↔ b = true)) ∧
    (∀ st ∈ [TaskState.frozen, .ready], let t : Task := { aTask with st, needService := true }
     (lone t 1 {}).task? t.id = some t ∧ (t.st = .frozen ∧ t.needService = true ∨ t.st ≠ .frozen)) := by
  have group : ∀ w, Stage grouped (stageTask 0) w → ∀ q, w.region = some q → (grouped.region 0 q).phase = .running → Affords grouped w :=
    stages_afford (by unfold Affords; decide +kernel)
  unfold RunsIn Affords Stage at *
  refine ⟨?_, ?_, group, ?_, ?_, ?_, ?_, ?_, ?_, ?_, ?_, ?_, ?_, ?_, ?_⟩ <;> decide +kernel

/-- A load in progress; nothing staged; an image staged. A port that exists, one that does not, and a core without a region in task mode. -/
theorem witness_CommitAndResume : let s := withRegs issuing [(10, 0x120), (11, 0x150)]
    (withCore s fun k => { k with cfg := [{ cmd := aCommand .cfgLd, begun := true }] }).me.loading = true ∧
    s.me.loading = false ∧ s.me.staged = false ∧ (withCore s fun k => { k with staged := true }).me.staged = true ∧
    s.ownRegion s.cur = some 0 ∧ s.sv = true ∧ (s.rd 10).toNat = 0 * 2 ^ 18 + 0 * 2 ^ 13 + 1 * 2 ^ 8 + 2 * 2 ^ 4 ∧
    (s.region 0 0).present = true ∧ (s.region 0 0).owns 0 1 = true ∧ s.isPort (at' 0 1 2) = true ∧
    (s.rd 11).toNat = 0 * 2 ^ 18 + 0 * 2 ^ 13 + 1 * 2 ^ 8 + 5 * 2 ^ 4 ∧ s.isPort (at' 0 1 5) = false ∧
    (let u := withCore { s with cur := 1 } fun k => { k with status := 0 }
     u.sv = false ∧ u.ownRegion u.cur ≠ some 0) ∧
    -- PORTRES at a port of a running task, at a region without one, and at a core's queue, its cfg.ld, or neither
    (let s := inPhase { phase := .running } runningTask []
     let v : Word := BitVec.ofNat 64 (1 * 2 ^ 13 + 1 * 2 ^ 8 + 5 * 2 ^ 4)
     v.getLsbD 63 = false ∧ (s.portAt 0 v.toNat) = (at' 1 1 5, 0) ∧ (s.region 0 0).present = true ∧ (s.region 0 0).owns 1 1 = true ∧
       (s.region 0 0).task.bind s.task? = some runningTask ∧ runningTask.st = .running ∧ (s.region 0 1).task = none) ∧
    (let s0 := inPhase { phase := .running } runningTask []
     let s := s0.setCore 0 { s0.core 0 with queues := setF (s0.core 0).queues 3 [.cmd (aCommand .cpy) .waiting {} true], cfg := [{ cmd := aCommand .cfgLd }] }
     (∀ n ∈ [3, 8, 9], (BitVec.ofNat 64 (2 ^ 63 + n * 2 ^ 8) : Word).getLsbD 63 = true ∧ (BitVec.ofNat 64 (2 ^ 63 + n * 2 ^ 8) : Word).toNat / 2 ^ 8 % 16 = n) ∧
       getF (s.core 0).queues 3 = .cmd (aCommand .cpy) .waiting {} true :: [] ∧ (s.core 0).cfg = { cmd := aCommand .cfgLd } :: []) := by decide +kernel

/-! Invalidations, loads, the management space -/

/-- Dwords of memory from an address on. -/
def dwordsAt (a : Nat) (l : List Nat) : List Host.Cell :=
  (l.zipIdx.flatMap fun x => (List.range 8).map fun i => (a + 8 * x.2 + i, BitVec.ofNat 8 (x.1 / 256 ^ i))).filter fun c => c.2 != 0

/-- A queued load of die 2: its descriptor at 0x7000 asks  bytes of the object at 0x4000, of one section of a type. -/
def loadingObject (a type : Nat) : State :=
  { State.reset with
    mem := pages ++ dwordsAt 0x4000 [0x1_314F4747, 1, 64, 2 ^ 64 - 1, 0, 0, 0, 0, type, 64, 0, 0] ++ dwordsAt 0x7000 [a, 96, 0, 0x5000, 0x6000, 0x1000]
    host := { loads := [(2, 0x7000), (1, 0)] } }
def loadResult (d : Fin 4) (a type : Nat) : Except Refused State :=
  let s := loadingObject a type
  ({ s with host := { s.host with loads := [(1, 0)] } } : State).loadObject d ((List.range 8).map fun i => s.home (0x7000 / 8 + i))

theorem none_old {s : State} (h : ∀ k, (s.core k).order = []) (ht : s.tiles = []) (c : InvScope) : ¬ OldAccessWaits s c := by
  rintro (⟨k, w, x, hw, -⟩ | ⟨t, sl, p, hm, -⟩)
  · rw [h k] at hw; cases hw
  · rw [ht] at hm; cases hm

/-- An invalidation of everything at dies 0 and 1 and one of an eviction; core 0 may have a store ahead that ASID 0's page 5 sent to granule 1. -/
def invalidating (old : Bool) : State :=
  let w : GWrite := { granule := 1, mask := 0xFF, value := 1, xl := some { asid := 0, va := 0x5000, user := false } }
  let s := withCore (bed []) fun k => { k with order := if old then [.store w] else [] }
  { (s.setTqu 0 { s.tquOf 0 with inv := some .all }).setTqu 1 { s.tquOf 1 with inv := some .all } with
    ert := { dropping := [(.all, 0)], freeing := [(2, 3)] } }

theorem one_old : OldUseWaits (invalidating true) .all 0 :=
  .inl (.inl ⟨0, _, _, .head _, rfl, rfl, fun pa h => by
    have : (invalidating true).permit ((invalidating true).tables (dieOf 0) 0 0x5000) true false = .ok 0x5000 := eq_ok (by decide +kernel)
    rw [this] at h; cases h; decide⟩)

theorem not_old {s : State} (h : ∀ k, (s.core k).order = []) (ht : s.tiles = []) (hw : s.walks = []) (c : InvScope) (n : Nat) :
    ¬ OldUseWaits s c n := by
  rintro (h' | ⟨w, hm, -⟩)
  · exact none_old h ht c h'
  · rw [hw] at hm; cases hm

/-- A walk of an address is under way. -/
def walking (va left table : Nat) : State := { moving [] with walks := [{ who := .die 0, asid := 0, va, table, left, began := 0 }] }
def walked (va left table : Nat) : EntryRead := readEntry va (5 - left) ((walking va left table).levelEntry va (5 - left) table)

theorem witness_InvalidationsAndLoadsComplete :
    (∀ who ∈ [Asker.die 0, .core 3, .tile 0 1 2], Clocked (moving []) who.at' ∧ (moving []).tlbOf who = [] ∧
      (moving []).tlbOf (.die who.at') = [] ∧ (moving []).pageFor who 0 0x6000 ≠ none) ∧
    (∀ va left table, (walking va left table).walks[0]? = some { who := .die 0, asid := 0, va, table, left, began := 0 } ∧
      Clocked (walking va left table) 0) ∧
    walked 0x6000 5 0x1000 = .table 0x2000 ∧ walked 0x6000 3 0x3000 = .page { pa := 0x6000, bits := 30, w := true, u := true, na := false } ∧
    (walked 0xC000_0000 3 0x3000 = .fault ∧ ∀ x ∈ (walking 0xC000_0000 3 0x3000).tlbOf (.die 0), x.holds 0 0xC000_0000 = false) ∧
    (InFabric (at' 0 1 2) ∧ (moving []).extentOf (at' 0 1 2) 0 (4096 * 6) = none ∧ ((moving []).extents (at' 0 1 2)).length ≤ 256 ∧
      (moving []).translate 0 0 (4096 * 6) false false = .ok 0x6000 ∧
      (moving []).translate 0 0 (4096 * 0xC0000) false false = .error .translation) ∧
    (let s := moving [2 ^ 37]
     Clocked s 0 ∧ (s.elem (at' 0 1 2)).se.cur = some (reading [2 ^ 37]) ∧ (reading [2 ^ 37]).withheld = false ∧
       (s.elem (at' 0 1 2)).mayRead (reading [2 ^ 37]) = true ∧
       NotReached s (at' 0 1 2) (reading [2 ^ 37]).cmd.asid (2 ^ 37) false (reading [2 ^ 37]).cmd.user) ∧
    (∀ d : Fin 4, d.val < 2 → ∀ b, ((invalidating b).tquOf d).inv = some .all ∧ ((invalidating b).tquOf d).invAt = 0) ∧
    (∀ b, (invalidating b).ert.dropping = [(.all, 0)] ∧ (invalidating b).walks = []) ∧
    OldUseWaits (invalidating true) .all 0 ∧ ¬ OldUseWaits (invalidating false) .all 0 ∧
    ((∃ a n, Instr.invalidateRange 1 2 3 = .invalidateRange 1 a n) ∧ (∃ a, Instr.invalidateAsid 1 2 = .invalidateAsid 1 a)) ∧
    (∀ b : Bool, let s := State.reset.setTqu 1 { State.reset.tquOf 1 with inv := if b then some .all else none }
      (s.tquOf 1).invBusy = b ∧ s.focus.die = 0 ∧ ({ s with focus := { s.focus with die := 1 } } : State).focus.die ≠ 0) ∧
    (State.reset.host.loads.length < 16 ∧ 16 ≤ ({ State.reset with host := { loads := List.replicate 16 (0, 64) } } : State).host.loads.length) ∧
    ((loadingObject 0x4000 8).host.loads = (2, 0x7000) :: (1, 0) :: [] ∧ (loadingObject 0x4000 8).host.loadEnd = none ∧
      (loadingObject 0x4000 8).homeOf 0x7000 = some (.die 0) ∧ (loadingObject 0x4000 8).homeOf (2 ^ 45) = none) ∧
    (errorOf (loadResult 2 0x4000 9) = some (1, some 0) ∧ errorOf (loadResult 2 (2 ^ 50) 8) = some (18, none) ∧
      (errorOf (loadResult 0 0x4000 8)).isNone = true) ∧
    -- the status of a load is due, with an output of the die's loads on its way and without
    (∀ b : Bool, let s : State := { State.reset with
        host := { loadEnd := some (2, 0x7030, 1) }
        paths := if b then [(aPath, [.write (.device 2) aWrite])] else [] }
      s.host.loadEnd = some (2, 0x7030, 1) ∧ s.unlandedParty (.device 2) = b) := by
  refine ⟨by unfold Clocked; decide +kernel, fun _ _ _ => ⟨rfl, show ((moving []).die 0).clk ≠ 3 by decide +kernel⟩, by decide +kernel, by decide +kernel,
    by decide +kernel, ⟨by unfold InFabric; decide, by decide +kernel, by decide +kernel, eq_ok (by decide +kernel), eq_error (by decide +kernel)⟩,
    ⟨by unfold Clocked; decide +kernel, by decide +kernel, by decide +kernel, by decide +kernel, ⟨_, eq_error (e := .translation) (by decide +kernel)⟩⟩,
    by decide +kernel, by decide +kernel, one_old, not_old (by decide +kernel) rfl rfl _ _, ⟨⟨_, _, rfl⟩, _, rfl⟩, by decide +kernel, by decide +kernel,
    by decide +kernel, by decide +kernel, by decide +kernel⟩

/-- A firmware image at 0x40000000: magic, n, CRC; the first word of its trap table is all ones, the rest is zero. -/
def firmware (magic n crc : Nat) : State :=
  { State.reset with mem := dwordsAt 0x40000000 [magic + n * 2 ^ 32, crc, 0xFFFF_FFFF], host := { bootAddr := 0x40000000, dispSel := 0x10003 } }

theorem witness_ManagementTakesEffect :
    (∀ b : Bool, let s : State := { State.reset with host := { evten := b, held := [⟨1, 2, 3, 4⟩], evtBase := 0x8000, evtCap := 5, evtCons := if b then 0 else 7 } }
      s.host.held = ⟨1, 2, 3, 4⟩ :: [] ∧ s.host.evten = b ∧ (s.host.evtProd - s.host.evtCons).toNat ≠ 2 ^ (s.host.evtCap.toNat % 32) ∧
        s.host.evtBase.toNat % 32 = 0 ∧ s.host.evtBase.toNat + 32 * 2 ^ (s.host.evtCap.toNat % 32) ≤ 2 ^ 37) ∧
    (let s : State := { State.reset with host := { evten := true, held := [⟨1, 2, 3, 4⟩], evtProd := 1, evtCons := 0xFFFF_FFF1, evtCap := 4 } }
     (s.host.evtProd - s.host.evtCons).toNat = 2 ^ (s.host.evtCap.toNat % 32)) ∧
    (State.reset.host.tieren = false ∧ State.reset.host.linken = false) ∧
    (((bed []).core 0).run = .running ∧ ((lone aTask 1 {}).core 0).run = .stopped) ∧
    (∀ b : Bool, let s := State.reset.setPort 3 { State.reset.port 3 with en := b }
      (s.port 3).en = b) ∧
    (([1, 2, 3] : List Byte) ≠ [] ∧ 5 % 8 + ([1, 2, 3] : List Byte).length ≤ 8 ∧ State.reset.homeOf (8 * (5 / 8)) = some (.die 0) ∧
      State.reset.homeOf (8 * ((2 ^ 48 + 5) / 8)) = some .host ∧ State.reset.homeOf (8 * ((2 ^ 45 + 5) / 8)) = none) ∧
    (let s : State := { State.reset with marked := [2] }
     (∀ g ∈ s.marked, 8 * g + 8 ≤ 24 ∨ 24 + 8 ≤ 8 * g) ∧ ∃ g ∈ s.marked, 16 < 8 * g + 8 ∧ 8 * g < 16 + 8) ∧
    ((firmware 0x5A4B4657 1 0x2a96e5a8).bootCheck 0x40000000 true = 3 + 1 ∧ (firmware 1 1 0).bootCheck 0x40000000 false = 0 + 1 ∧
      (firmware 0x5A4B4657 0 0).bootCheck 0x40000000 false = 2 + 1) := by
  and_intros <;> decide +kernel

theorem crc_of_zeros (l : List Byte) (h : ∀ b ∈ l, b = 0) : l.foldl crcByte 0 = 0 := by
  induction l with
  | nil => rfl
  | cons c t ih =>
    have z : crcByte 0 0 = 0 := by decide
    rw [List.foldl_cons, h c List.mem_cons_self, z]
    exact ih fun b hb => h b (List.mem_cons_of_mem _ hb)

theorem byte_far {m : List Host.Cell} {a : Nat} (h : ∀ c ∈ m, c.1 < a) : Map.get (0 : Byte) a m = 0 := by
  induction m with
  | nil => rfl
  | cons c t ih =>
    have := h c List.mem_cons_self
    rw [Map.get, if_neg (by omega), ih fun x hx => h x (List.mem_cons_of_mem _ hx)]

/-- Four bytes of ones bring the CRC's register to zero, and zeros leave it there. -/
theorem witness_ManagementTakesEffect_boot : (firmware 0x5A4B4657 1 0xFFFF_FFFF).bootCheck 0x40000000 false = 0 ∧
    (firmware 0x5A4B4657 1 0).bootCheck 0x40000000 false = 1 + 1 := by
  have crc (v : Nat) (hv : (firmware 0x5A4B4657 1 v).mem.all fun c => decide (c.1 < 0x40000014))
      (ha : (List.range 4).map (fun i => (firmware 0x5A4B4657 1 v).byte (0x40000010 + i)) = [255, 255, 255, 255]) :
      crc32 ((List.range (4 + 4096)).map fun i => (firmware 0x5A4B4657 1 v).byte (0x40000000 + 16 + i)) = 0xFFFF_FFFF := by
    have tail : ∀ b ∈ ((List.range 4096).map (4 + ·)).map fun i => (firmware 0x5A4B4657 1 v).byte (0x40000000 + 16 + i), b = 0 := by
      intro b hb
      simp only [List.map_map, List.mem_map, Function.comp_apply] at hb
      obtain ⟨i, -, rfl⟩ := hb
      exact byte_far fun c hc => by
        have := of_decide_eq_true (List.all_eq_true.1 hv c hc)
        omega
    have head : [255, 255, 255, 255].foldl crcByte 0xFFFFFFFF = 0 := by decide +kernel
    rw [crc32, List.range_add, List.map_append, List.foldl_append, ha, head]
    have z := crc_of_zeros _ tail
    rw [z]
    decide
  constructor
  · have n : (firmware 0x5A4B4657 1 0xFFFF_FFFF).homeNat (0x40000000 + 4) 4 = 1 := by decide +kernel
    have f : (false || ((firmware 0x5A4B4657 1 0xFFFF_FFFF).homeOf 0x40000000).isNone || (firmware 0x5A4B4657 1 0xFFFF_FFFF).marked.any fun g =>
      decide (0x40000000 ≤ 8 * g + 7) && decide (8 * g < 0x40000000 + (4112 + 4 * 1))) = false := by decide +kernel
    have k : (firmware 0x5A4B4657 1 0xFFFF_FFFF).homeNat 0x40000000 4 = 0x5A4B4657 ∧ (firmware 0x5A4B4657 1 0xFFFF_FFFF).homeNat (0x40000000 + 8) 4 = 0xFFFF_FFFF := by decide +kernel
    rw [State.bootCheck, n, show 4112 + 4 * 1 - 16 = 4 + 4096 by decide, crc 0xFFFF_FFFF (by decide +kernel) (by decide +kernel), f, k.1, k.2]
    decide
  · have n : (firmware 0x5A4B4657 1 0).homeNat (0x40000000 + 4) 4 = 1 := by decide +kernel
    have f : (false || ((firmware 0x5A4B4657 1 0).homeOf 0x40000000).isNone || (firmware 0x5A4B4657 1 0).marked.any fun g =>
      decide (0x40000000 ≤ 8 * g + 7) && decide (8 * g < 0x40000000 + (4112 + 4 * 1))) = false := by decide +kernel
    have k : (firmware 0x5A4B4657 1 0).homeNat 0x40000000 4 = 0x5A4B4657 ∧ (firmware 0x5A4B4657 1 0).homeNat (0x40000000 + 8) 4 = 0 := by decide +kernel
    rw [State.bootCheck, n, show 4112 + 4 * 1 - 16 = 4 + 4096 by decide, crc 0 (by decide +kernel) (by decide +kernel), f, k.1, k.2]
    decide

/-! Resets, clocks, power, errors; Ethernet -/

/-- The running core, or another, in a run condition. -/
def inRun (c : Fin 64) (r : RunState) : State := State.reset.setCore c { State.reset.core c with run := r }

/-- Core 0 waits in its trap handler at pc 0: wait g3, [g1], device. -/
def waitingCore : State :=
  withCore (withRegs (bed []) [(1, 0x5000)]) fun k => { k with status := 0x19, waiting := true, code := [(0, BitVec.ofNat 32 (encodeNat (.wait 3 1 .device)))] }

def clocked (f : Die → Die) (bounded : Bool) : State :=
  let t : Task := { aTask with hdr := BitVec.ofNat 64 (2 ^ 23) :: oneBlock.drop 1, st := .frozen }
  let s : State := { State.reset with tasks := if bounded then [t] else [] }
  s.setDie 0 (f (s.die 0))

/-- One write under way to module 7 on port `k`; ports 4 and 9 lead there, `up` says which of them is up. -/
def underWay (k : Nat) (up : Bool × Bool) : State :=
  { State.reset with
    paths := [({ src := 0, dst := .module 7, k }, [.write .host { granule := 5, mask := 1, value := 1 }])]
    host := { linken := true, ngrt := setF State.reset.host.ngrt 7 0x210, ngUp := setF (setF State.reset.host.ngUp 4 up.1) 9 up.2 } }

theorem witness_OperationsTakeEffect :
    (∀ r ∈ [RunState.running, .held, .stopped, .halted], ((inRun 5 r).core 5).run = r) ∧
    ((waitingCore.core 0).th = true ∧ (waitingCore.core 0).waiting = true ∧ (waitingCore.core 0).run = .running ∧ (State.reset.core 0).th = false ∧
      decode (waitingCore.core 0).word = .wait 3 1 .device ∧ ∃ p, ({ waitingCore with cur := 0 } : State).checkData ((waitingCore.core 0).readG 1) 8 false = .ok p ∧ true = true) ∧
    (∀ st ∈ [(1 : Fin 4), 3], ∀ f ∈ [true, false], let s := clocked id (f && decide (st = 3))
      (s.die 0).clkBusy = false ∧ (s.die 0).clkHeld = false ∧ (s.die 0).trip = false ∧ (s.die 0).clk ≠ st ∧
        (s.boundedOn 0).isEmpty = !(f && decide (st = 3))) ∧
    (let s := clocked (fun k => { k with clkHeld := true, clkAsked := 2 }) false
     (s.die 0).clkHeld = true ∧ s.boundedOn 0 = []) ∧
    ((clocked (fun k => { k with clkBusy := true }) false).die 0).clkBusy = true ∧
    (∀ r, r < 16 → (State.reset.region 0 (Fin.ofNat 16 r)).present = false) ∧
    (let s := State.reset.setDie 0 { State.reset.die 0 with blkstat := 8 }
     (s.die 0).blkstat.getLsbD 3 = true ∧ (s.die 0).blkstat.getLsbD 4 = false) ∧
    (∀ b : Bool, let s : State := { State.reset with host := { linken := true, ngUp := setF State.reset.host.ngUp 4 b } }
      s.paths = [] ∧ ((List.finRange 64).all fun m => !(getF s.host.ngrt m).getLsbD 4) = true ∧ s.host.linken = true ∧ getF s.host.ngUp 4 = b) ∧
    (getF (underWay 4 (true, true)).host.ngUp 4 = true ∧
      ({ (underWay 4 (true, true)).host with ngUp := setF (underWay 4 (true, true)).host.ngUp 4 false } : HostSide).upPort 7 = some 9) ∧
    (let s := underWay 9 (false, false)
     s.host.linken = true ∧ getF s.host.ngUp 4 = false ∧ getF s.host.ngUp 9 = false ∧ (getF s.host.ngrt 7).getLsbD 4 = true) ∧
    (let s := State.reset.setDie 0 { State.reset.die 0 with cursor := { region := some 3 } }
     s.sending 0 3 = true ∧ s.sending 0 2 = false) ∧
    (placing.sending 0 0 = true ∧ placing.loadingTask 0 0 = some placedTask ∧ placing.task? placedTask.id = some placedTask) ∧
    (((bed []).core 0).task = none ∧ ((bed []).core 0).run = .running) ∧
    ((bed []).regionAt 0 1 1 = some 0 ∧ ((bed []).region 0 0).task = none) := by
  refine ⟨?_, ⟨?_, ?_, ?_, ?_, ?_, ok_with (p := fun _ => true) ?_⟩, ?_, ?_, ?_, ?_, ?_, ?_, ?_, ?_, ?_, ?_, ?_, ?_⟩ <;> decide +kernel

/-- Port 3 with its queue block at 0x100000: 64 entries a queue; index words as given; the first send and receive entries. -/
def ethPort (idx : List Nat) (l : List Nat) (f : EthPort → EthPort) : State :=
  let s : State := { State.reset with mem := dwordsAt 0x100000 idx ++ dwordsAt 0x101000 l ++ dwordsAt 0x102000 l }
  s.setPort 3 (f { en := true, lanes := 2, qbase := 0x100000, qcap := 6 })
def aPacket : Packet :=
  { msg := 7, tagged := false, matchBits := 5, job := 9, pid := 3, src := 1, srcPid := 2, rod := false, secure := false, length := 2, offset := 0, bytes := [1, 2] }
def aReceive : EthPost := { dwords := [1 + 2 * 2 ^ 32, 0x200000, 0, 0, 9 + 3 * 2 ^ 32, 77, 0, 0], id := 4 }

theorem witness_EthernetTakesEffect :
    (∀ op ∈ [1, 3], let s := ethPort [1, 0, 1, 0] [op + 2 * 2 ^ 32, 0x200000, 0, 0, 9, 0, 0, 0] id
      (s.port 3).en = true ∧ s.index 3 0 ≠ s.index 3 8 ∧ s.index 3 16 ≠ s.index 3 24 ∧
        (let l : List Word := (List.range 8).map fun i => s.ethRead ((s.port 3).qbase.toNat + 4096 + 64 * (s.index 3 8 % (s.port 3).size) + 8 * i)
         (s.setIndex 3 8 (s.index 3 8 + 1)).sendBad l = (op == 3)) ∧
        (let l : List Word := (List.range 8).map fun i =>
          s.ethRead ((s.port 3).qbase.toNat + 4096 + 64 * (s.port 3).size + 64 * (s.index 3 24 % (s.port 3).size) + 8 * i)
         (s.setIndex 3 24 (s.index 3 24 + 1)).recvBad l = (op == 3))) ∧
    (let s := ethPort [] [] id
     s.index 3 0 = s.index 3 8 ∧ s.index 3 16 = s.index 3 24) ∧
    (∀ b : Bool, let s := ethPort [] [] fun k => { k with recvs := [aReceive] }
      let k : Packet := { aPacket with secure := b, job := 9 }
      (s.port 3).en = true ∧ (s.port 3).lanes ≠ 0 ∧ k.secure = b ∧ (s.port 3).msgs = [] ∧ (s.port 3).recvs = aReceive :: [] ∧ takes aReceive k = true ∧
        takes aReceive { k with job := 8 } = false ∧ (s.port 3).connects (connOf k) = true ∧ k.msg ∉ (s.port 3).past ∧
        k.msg ∈ ((ethPort [] [] fun k => { k with past := [7] }).port 3).past ∧ (nth aReceive.dwords 1).toNat + k.offset + k.bytes.length ≤ 2 ^ 37 ∧
        k.offset + k.bytes.length ≤ (nth aReceive.dwords 0).toNat / 2 ^ 32) ∧
    (let m : EthMsg := { id := 7, post := aReceive.dwords, pkt := aPacket, got := [0], moved := 2 }
     ((ethPort [] [] fun k => { k with msgs := [m] }).port 3).msgs = m :: [] ∧ m.moved = m.pkt.length ∧ m.pkt.rod = false ∧
       -- an ordered message behind one of its connection that is not over
       (let n : EthMsg := { m with pkt := { aPacket with rod := true } }
        let s := ethPort [] [] fun k => { k with msgs := [n], ordered := [(1, 2, 6, none)] }
        (s.port 3).msgs = n :: [] ∧ n.pkt.rod = true ∧ (s.port 3).ordered = (n.pkt.src, n.pkt.srcPid, 6, none) :: [] ∧ 6 ≠ n.id)) ∧
    (∀ b : Bool, ((ethPort [] [] fun k => { k with sends := [{ aReceive with begun := b }] }).port 3).sends = { aReceive with begun := b } :: []) ∧
    (let s := ethPort [0, 0, 0, 0, 64] [] fun k => { k with held := [[1, 2, 3, 4]] }
     let k := s.port 3
     k.held = [[1, 2, 3, 4]] ∧ ([1, 2, 3, 4] : List Word).length = 4 ∧ 6 ≤ k.qcap.toNat % 16 ∧ k.qbase.toNat % 4096 = 0 ∧ k.qbase.toNat + 2 ^ 30 ≤ 2 ^ 37 ∧
       (s.index 3 32 + 2 ^ 32 - (1 : BitVec 32).toNat) % 2 ^ 32 ≠ k.size ∧ (s.index 3 32 + 2 ^ 32 - (0 : BitVec 32).toNat) % 2 ^ 32 = k.size) := by
  refine ⟨?_, ?_, ?_, ?_, ?_, ?_⟩ <;> decide +kernel

/-! Encodings and the machine as a whole -/

theorem witness_DecodeOfEncodeIsTheInstruction : (Instr.add ⟨1, 2, 3, true, false, false⟩).wellFormed = true ∧ (Instr.beginCmd true 4 5).wellFormedConfig = true := by decide
theorem witness_DecodedWordIsItsEncoding : decodeNat 0x00840801 = .ok (.sub ⟨4, 4, 1, false, false, false⟩) ∧ decodeConfigNat 0x84000000 = .ok .commit :=
  ⟨eq_ok (by decide), eq_ok (by decide)⟩

/-- addi g1, g1, -1 at the pc. -/
def stepping (l : List Move) : State := { withCore (bed []) fun k => { k with code := [(0, 0x2021_FFFF)] } with agenda := l }

theorem witness_StepRunsTheDecodedInstruction :
    ((stepping []).agenda = [] ∧ (stepping []).me.run = .running ∧ Clocked (stepping []) (dieOf (stepping []).cur) ∧ decode (stepping []).fetchWord = .addi 1 1 0xFFFF ∧
      ∃ t, exec (.addi 1 1 0xFFFF) (stepping []) = .next t) ∧
    (∃ l, (stepping [.core 0]).agenda = .core 0 :: l ∧ ((stepping [.core 0]).core 0).run = .running ∧ Clocked (stepping [.core 0]) (dieOf 0) ∧
      decode ((stepping [.core 0]).core 0).word = .addi 1 1 0xFFFF ∧ ∃ t, exec (.addi 1 1 0xFFFF) { stepping [.core 0] with agenda := l, cur := 0 } = .next t) ∧
    (∃ l, (stepping [.event .dly (at' 1 1 0)]).agenda = .event .dly (at' 1 1 0) :: l ∧ Instr.dly.ofCore = false ∧
      ∃ t, exec .dly { stepping [.event .dly (at' 1 1 0)] with agenda := l, focus := at' 1 1 0 } = .next t) ∧
    (∀ m ∈ [.tlbFill (.die 0) 0 0, .tlbDrop (.core 1) 0, .walkStart (.tile 0 1 1) 0 0, .walkStep 0, .patch (at' 1 1 5) 0], (stepping [m]).agenda = m :: []) ∧
    (State.reset.agenda = [] ∧ State.reset.me.run ≠ .running ∧ ((bed []).setDie 0 { (bed []).die 0 with clk := 3 }).agenda = [] ∧
      (((bed []).setDie 0 { (bed []).die 0 with clk := 3 }).die (dieOf (bed []).cur)).clk = 3) ∧
    (State.reset.doomed = [] ∧ State.reset.tasks = []) := by
  refine ⟨⟨rfl, by decide +kernel, by unfold Clocked; decide +kernel, by decide +kernel, _, rfl⟩,
    ⟨_, rfl, by decide +kernel, by unfold Clocked; decide +kernel, by decide +kernel, _, rfl⟩, ⟨_, rfl, rfl, _, rfl⟩, fun _ _ => rfl, by decide +kernel, by decide +kernel⟩

theorem witness_StepKeepsTheMemoryCanonical : memWf State.reset.mem = true ∧ memWf (bed []).mem = true := by decide

/-! ### Ill-formed terms (R129, R133, R137, R143, R144, R147, R211) -/

/-- A queue register above 7 in each place that can name one; lda.d unsigned; a second register of a kind without one; a register that
mtsr may not write; words that no core fetches. -/
theorem test_illFormed_refused : ∀ i ∈ ([.add ⟨1, 8, 2, true, false, false⟩, .add ⟨1, 2, 8, false, true, false⟩, .add ⟨8, 2, 3, false, false, true⟩,
    .clz ⟨1, 8, true, false⟩, .clz ⟨8, 1, false, true⟩, .peq ⟨1, 8, 2, true, false⟩, .peq ⟨1, 2, 8, false, true⟩, .ptst 1 8 true, .pget 8 true 1,
    .lda 1 2 .d true .device, .shape 1 2 3 .vec, .shape 1 2 3 .rank, .mtsr .cause 1, .mtsr .badaddr 1, .mtsr .prio 1, .mtsr .tags 1,
    .mtsr .widw 1, .commit, .illegalInstruction 0xFFFF_FFFF, .wAdd, .boot false []] : List Instr), i.wellFormed = false := by decide

theorem test_illFormedConfig_refused : ∀ i ∈ ([.beginCmd false 0 1, .beginCmd false 5 1, .beginCmd true 1 0, .beginCmd true 1 6, .bankQuiesce 1 0 true,
    .bankQuiesce 0 1 true, .add ⟨1, 2, 3, false, false, false⟩] : List Instr), i.wellFormedConfig = false := by decide

/-! ### Single steps; the results are those of the rules' tables and examples -/

/-- g1 after an instruction on g2 = `x` and g3 = `y`. -/
def result (i : Instr) (x y : Word) : Option Word := match exec i (withRegs (bed []) [(2, x), (3, y)]) with
  | .next t => some (t.rd 1)
  | .fault _ | .refused _ => none

/-- R355, R368: a store that an old entry has translated keeps INVSTAT busy, and the slots of an eviction held. -/
theorem test_invalidation_waits : ∀ b : Bool, (match exec .invalidationComplete { invalidating b with focus := at' 0 0 0 } with
    | .next t => some ((t.tquOf 0).invBusy, t.ert.freeing.isEmpty)
    | .fault _ | .refused _ => none) = some (b, !b) := by decide +kernel

/-- R353, R355: an access may use the entry that the cache holds after the tables have changed, until an invalidation drops it. -/
theorem test_tlb_old_entry :
    (({ (bed []).fillTlb (.die 0) 0 0x6000 with mem := [] } : State).translate 0 0 0x6008 true true).toOption = some 0x6008 ∧
    ((({ (bed []).fillTlb (.die 0) 0 0x6000 with mem := [] } : State).dropCovered .all).translate 0 0 0x6008 true true).toOption = none := by decide +kernel

/-- R153, R158, R362: the example of R158 alone leaves the inputs of l4 without routes and is refused with code 6. -/
theorem test_image_example_refused : (imageRefusal (freeSites 2 2 []) false (fun _ => none) [0x80900000, 0x04140040, 0x04140430, 0x04141FC4, 0x40000083,
    0x083C1300, 0x083C3000, 0x40000080, 0x84000000]).map (·.1) = some 6 := by decide +kernel

/-- R151 to R153, R259: a stream at se0 of (1,0) that a sink at jf0 of (1,1) takes passes every check that the manual states exactly, and
a delay node that feeds itself does only with an initial token. -/
theorem test_image_accepted :
    (let l := cfgItems [0x80480000, 0x02000204, 0x02001FC0, 0x40000021, 0x02004080, 0x021C028A, 0x021C0410, 0x021C0F00, 0x84000000]
     (Img.of (freeSites 1 1 l) (fun _ => none) l).refusal false l) = none ∧
    [0x200, 0x201].map (fun c => let l := cfgItems [0x80480000, 0x021A0003, 0x021A0DA0, 0x021A1DA0, 0x021A4000 + c, 0x84000000]
     (Img.of (freeSites 1 1 l) (fun _ => none) l).refusal false l) = [some (8, some (1, 1, 10)), none] := by decide +kernel

/-- Borderline rows of R170 to R173: shift counts modulo 64, the 32-bit wrap, counts of zero, high products, division corners. -/
theorem test_alu_results : ∀ x ∈ ([
    (.add ⟨1, 2, 3, false, false, false⟩, 2 ^ 64 - 1, 2, 1), (.andn ⟨1, 2, 3, false, false, false⟩, 0xFF, 0x0F, 0xF0), (.shl ⟨1, 2, 3, false, false, false⟩, 3, 65, 6),
    (.sar ⟨1, 2, 3, false, false, false⟩, 2 ^ 63, 62, 2 ^ 64 - 2), (.rotl ⟨1, 2, 3, false, false, false⟩, 2 ^ 63 + 1, 1, 3),
    (.min ⟨1, 2, 3, false, false, false⟩, 2 ^ 64 - 1, 1, 2 ^ 64 - 1), (.minu ⟨1, 2, 3, false, false, false⟩, 2 ^ 64 - 1, 1, 1),
    (.addw ⟨1, 2, 3, false, false, false⟩, 0x7FFF_FFFF, 1, 0xFFFF_FFFF_8000_0000), (.clz ⟨1, 2, false, false⟩, 0, 0, 64), (.ctz ⟨1, 2, false, false⟩, 8, 0, 3),
    (.popc ⟨1, 2, false, false⟩, 0xF0F, 0, 8), (.mulh ⟨1, 2, 3, false, false, false⟩, 2 ^ 64 - 1, 2, 2 ^ 64 - 1), (.mulhu ⟨1, 2, 3, false, false, false⟩, 2 ^ 64 - 1, 2, 1),
    (.div ⟨1, 2, 3, false, false, false⟩, 7, 0, 2 ^ 64 - 1), (.div ⟨1, 2, 3, false, false, false⟩, 2 ^ 63, 2 ^ 64 - 1, 2 ^ 63),
    (.div ⟨1, 2, 3, false, false, false⟩, 2 ^ 64 - 7, 2, 2 ^ 64 - 3), (.rem ⟨1, 2, 3, false, false, false⟩, 2 ^ 64 - 7, 2, 2 ^ 64 - 1),
    (.rem ⟨1, 2, 3, false, false, false⟩, 7, 0, 7), (.rem ⟨1, 2, 3, false, false, false⟩, 2 ^ 63, 2 ^ 64 - 1, 0), (.remu ⟨1, 2, 3, false, false, false⟩, 7, 4, 3),
    (.clt ⟨1, 2, 3, false, false, false⟩, 2 ^ 64 - 1, 0, 1), (.cltu ⟨1, 2, 3, false, false, false⟩, 2 ^ 64 - 1, 0, 0),
    (.addi 1 2 0xFFFF, 0, 0, 2 ^ 64 - 1), (.andi 1 2 0xFFFF, 2 ^ 64 - 1, 0, 0xFFFF), (.sltiu 1 2 0xFFFF, 5, 0, 1), (.lui 1 0x8000, 0, 0, 0xFFFF_FFFF_8000_0000),
    (.sari 1 2 63, 2 ^ 63, 0, 2 ^ 64 - 1), (.lih 1 2 0xABCD, 0, 0, 0xABCD_0000_0000)] : List (Instr × Nat × Nat × Nat)),
    result x.1 (BitVec.ofNat 64 x.2.1) (BitVec.ofNat 64 x.2.2.1) = some (BitVec.ofNat 64 x.2.2.2) := by decide +kernel

/-- Example of R211: on a region of 2 by 2 blocks, g5 = 200 + 48 × 2^32 and g6 = 1,000 at fp8 leave 128 + 48 × 2^32 and 992. -/
theorem test_shape_example :
    (let s := withRegs (bed []) [(5, 0x30_0000_00C8), (6, 1000)]
     match exec (.shape 2 5 6 .fp8) (s.setRegion 0 0 { s.region 0 0 with w := 2, h := 2 }) with
     | .next t => (t.rd 5, t.rd 6) == (0x30_0000_0080, 992)
     | .fault _ | .refused _ => false) = true := by decide +kernel

/-- What a firing of `i` emits on output `o`. -/
def emitted (i : Instr) (s : State) (o : Nat) : Option Token := match exec i s with
  | .next t => (getF (t.elem (at' 1 1 (5 + o))).wire 0).head?
  | .fault _ | .refused _ => none
def payload (w : Nat) (l : List Nat) : Nat := l.zipIdx.foldl (fun p x => p + x.1 * 2 ^ (w * x.2)) 0

/-- Example of R91: the tree of R90 over (2^50, 1, 1, −2^50, 0, ...) gives 1, in position 0 alone (R235). -/
theorem test_red_add_example :
    (emitted .redAdd (firing 0x184 [(1, 0x10)] #v[[tokenOf 0xFFFF (payload 64 [0x40C6_0000_0000_0000, 0x3FFE_0000_0000_0000, 0x3FFE_0000_0000_0000,
      0xC0C6_0000_0000_0000])], [], [], []]) 0).map (fun t => (t.hdr.lanes, t.pay)) = some (3, 0x3FFE_0000_0000_0000) := by decide +kernel

/-- Example of R230: i.add with G = 3. -/
theorem test_i_add_example :
    let s := firing 0x0C0 [(1, 0x30), (31, 4096)] #v[[tokenOf 0xDFFF (payload 32 [0xFFFF_FFFF, 0xFFFF_FFFF, 0xFFFF_FFFF, 0xFFFF_FFFF, 0, 0x8000_0000])],
      [tokenOf 0xFFFF (payload 32 [1, 0, 0, 2, 0, 0])], [], []]
    (emitted .iAdd s 0).map (fun t => (t.hdr.lanes, t.pay)) = some (0x0FFF, BitVec.ofNat 512 (payload 32 [0, 0, 0, 1, 1, 0x8000_0000])) ∧
      (emitted .iAdd s 1).map (fun t => (t.hdr.lanes, t.pay)) = some (0x000F, 1) := by decide +kernel

/-- Example of R236: vpack of (10, ..., 17), value 2 masked, with selector 0x95 and 0. -/
theorem test_vpack_example : ∀ x ∈ [(0x95, 0x003F, [10, 14, 17], 3), (0, 0, [], 0)],
    let s := firing 0x187 [(1, 0x10), (17, x.1)] #v[[tokenOf 0xFFCF (payload 64 [10, 11, 12, 13, 14, 15, 16, 17])], [], [], []]
    (emitted .vpack s 0).map (fun t => (t.hdr.kind, t.hdr.lanes, t.pay)) = some (0, BitVec.ofNat 16 x.2.1, BitVec.ofNat 512 (payload 64 x.2.2.1)) ∧
      (emitted .vpack s 1).map (fun t => (t.hdr.lanes, t.pay)) = some (1, BitVec.ofNat 512 x.2.2.2) := by decide +kernel

/-- Example of R82: index 0x0135 and scale half 0x01FA with the table's default contents. -/
theorem test_codebook_example : (List.range 8).map (fun j => cb2Weight 0x35 0x1FA ((State.reset.tableEntry (at' 7 0 0) 1)) j) =
    [0x3FFA_4000_0000_0000, 0xBFF3_0000_0000_0000, 0x3FF3_0000_0000_0000, 0xBFF3_0000_0000_0000, 0xBFF3_0000_0000_0000, 0x4003_3000_0000_0000, 0x3FFF_6000_0000_0000, 0xBFFB_C000_0000_0000] := by decide +kernel

/-- Example of R226: the commands of the line for l2 of tile (1, 1) as w.fma. -/
theorem test_configuration_example : [0x02120043, 0x02120430, 0x02123420, 0x02124800, 0x40000000, 0x403FFE00].map (fun w => (decodeConfigNat w).toOption) =
    [some (.configWrite 1 1 2 0 0x43), some (.configWrite 1 1 2 1 0x30), some (.configWrite 1 1 2 13 0x20), some (.configWrite 1 1 2 18 0),
     some (.configExtend 0), some (.configExtend 0x3FFE00)] := by decide

/-- Example of R34: widths 3, 2, 1 over 0 to 63. -/
theorem test_barrier_levels : [1, 8, 16, 32, 39].map (barrierLevel [3, 2, 1, 0, 0, 0]) = [some 0, some 1, some 1, some 2, some 0] := by decide

/-- The xacc example of R91: the exact sum is 2. -/
theorem test_exact_sum : (([0x40C6_0000_0000_0000, 0x3FFE_0000_0000_0000, 0x3FFE_0000_0000_0000, 0xC0C6_0000_0000_0000] : List Word).foldl Acc.add {}).read .rne =
    0x4002_0000_0000_0000 := by decide +kernel

def anExample : Task :=
  { aTask with hdr := [0x800000, 0, 0, 1023, 0, 2047, 0, 16800, 0, 0, 100000 * 2 ^ 32, 2100 + 10500 * 2 ^ 32, 65536 + 32 * 2 ^ 32, 0, 0, 0] }

/-- Example of R326: the bounded task of 16,800 commands and 2,048 text words takes 2,160,000 ns at 1.05 GHz. -/
theorem test_worst_case : (worstCase [anExample] 0 0, worstCase [anExample] 36000 0) = (some 2160000, some 2196000) := by decide +kernel

/-- R168: a trap of code 1 enters at its table entry, in supervisor mode with interrupts off (log 24). -/
theorem test_trap_entry :
    (match exec (.illegalInstruction 0xFFFF_FFFF) (withCore (bed []) fun k => { k with pc := 8, status := 1 }) with
     | .next t => (t.me.pc, t.me.trappc, t.me.status) == (0x3F010, 8, 0x1A)
     | .fault _ | .refused _ => false) = true := by decide +kernel

/-! ### Words written from the encodings of spec/05 -/

theorem test_decode_alu : ∀ x ∈ ([
    (0x026AA800, .add ⟨19, 10, 21, false, false, false⟩),
    (0x026AA801, .sub ⟨19, 10, 21, false, false, false⟩),
    (0x026AA802, .and ⟨19, 10, 21, false, false, false⟩),
    (0x026AA803, .or ⟨19, 10, 21, false, false, false⟩),
    (0x026AA804, .xor ⟨19, 10, 21, false, false, false⟩),
    (0x026AA805, .andn ⟨19, 10, 21, false, false, false⟩),
    (0x026AA806, .shl ⟨19, 10, 21, false, false, false⟩),
    (0x026AA807, .shr ⟨19, 10, 21, false, false, false⟩),
    (0x026AA808, .sar ⟨19, 10, 21, false, false, false⟩),
    (0x026AA809, .rotl ⟨19, 10, 21, false, false, false⟩),
    (0x026AA80A, .min ⟨19, 10, 21, false, false, false⟩),
    (0x026AA80B, .max ⟨19, 10, 21, false, false, false⟩),
    (0x026AA80C, .minu ⟨19, 10, 21, false, false, false⟩),
    (0x026AA80D, .maxu ⟨19, 10, 21, false, false, false⟩),
    (0x026AA811, .addw ⟨19, 10, 21, false, false, false⟩),
    (0x026AA812, .subw ⟨19, 10, 21, false, false, false⟩),
    (0x03D1000E, .clz ⟨30, 17, false, false⟩),
    (0x03D1000F, .ctz ⟨30, 17, false, false⟩),
    (0x03D10010, .popc ⟨30, 17, false, false⟩),
    (0x00610E00, .add ⟨3, 1, 1, true, true, false⟩),
    (0x00F1010E, .clz ⟨7, 17, false, true⟩)] : List (Nat × Instr)), (decodeNat x.1).toOption = some x.2 ∧ encodeNat x.2 = x.1 := by decide

theorem test_decode_mulDiv : ∀ x ∈ ([
    (0x07E18000, .mul ⟨31, 1, 16, false, false, false⟩),
    (0x07E18001, .mulh ⟨31, 1, 16, false, false, false⟩),
    (0x07E18002, .mulhu ⟨31, 1, 16, false, false, false⟩),
    (0x07E18003, .div ⟨31, 1, 16, false, false, false⟩),
    (0x07E18004, .divu ⟨31, 1, 16, false, false, false⟩),
    (0x07E18005, .rem ⟨31, 1, 16, false, false, false⟩),
    (0x07E18006, .remu ⟨31, 1, 16, false, false, false⟩)] : List (Nat × Instr)), (decodeNat x.1).toOption = some x.2 ∧ encodeNat x.2 = x.1 := by decide

theorem test_decode_cmpSel : ∀ x ∈ ([
    (0x0A6AA800, .ceq ⟨19, 10, 21, false, false, false⟩),
    (0x0A6AA808, .cne ⟨19, 10, 21, false, false, false⟩),
    (0x0A6AA810, .clt ⟨19, 10, 21, false, false, false⟩),
    (0x0A6AA818, .cltu ⟨19, 10, 21, false, false, false⟩),
    (0x0A6AA820, .cle ⟨19, 10, 21, false, false, false⟩),
    (0x0A6AA828, .cleu ⟨19, 10, 21, false, false, false⟩),
    (0x080AA846, .peq ⟨6, 10, 21, false, false⟩),
    (0x080AA84E, .pne ⟨6, 10, 21, false, false⟩),
    (0x080AA856, .plt ⟨6, 10, 21, false, false⟩),
    (0x080AA85E, .pltu ⟨6, 10, 21, false, false⟩),
    (0x080AA866, .ple ⟨6, 10, 21, false, false⟩),
    (0x080AA86E, .pleu ⟨6, 10, 21, false, false⟩),
    (0x08A63882, .sel ⟨5, 6, 7, false, false, false⟩ 2),
    (0x0805308B, .pand 3 5 6),
    (0x08053093, .por 3 5 6),
    (0x0805309B, .pxor 3 5 6),
    (0x080530A3, .pandn 3 5 6),
    (0x080700AC, .pnot 4 7),
    (0x081D00B1, .ptst 1 29 false),
    (0x08E000BC, .pget 7 false 4),
    (0x08E001BC, .pget 7 true 4)] : List (Nat × Instr)), (decodeNat x.1).toOption = some x.2 ∧ encodeNat x.2 = x.1 := by decide

theorem test_decode_port : ∀ x ∈ ([
    (0x0CB40000, .qpush 5 20),
    (0x0E850001, .qpop 20 5),
    (0x0E850002, .qlvl 20 5),
    (0x0E899003, .accrd 20 9 18),
    (0x0C090004, .accrst 9)] : List (Nat × Instr)), (decodeNat x.1).toOption = some x.2 ∧ encodeNat x.2 = x.1 := by decide

theorem test_decode_memOrd : ∀ x ∈ ([
    (0x10A400C8, .lda 5 4 .d false .device),
    (0x10A40070, .lda 5 4 .h true .system),
    (0x1004C984, .stl 4 25 .w .die)] : List (Nat × Instr)), (decodeNat x.1).toOption = some x.2 ∧ encodeNat x.2 = x.1 := by decide

theorem test_decode_atom : ∀ x ∈ ([
    (0x14A43020, .amoAdd ⟨5, 4, 6, false, false, true, .region⟩),
    (0x14A431A4, .amoMin ⟨5, 4, 6, true, false, true, .die⟩),
    (0x14A43248, .amoMax ⟨5, 4, 6, false, true, false, .device⟩),
    (0x14A433CC, .amoSwap ⟨5, 4, 6, true, true, false, .domain⟩),
    (0x14A43430, .amoCas ⟨5, 4, 6, false, false, true, .system⟩),
    (0x14A435A0, .amoAnd ⟨5, 4, 6, true, false, true, .region⟩),
    (0x14A43644, .amoOr ⟨5, 4, 6, false, true, false, .die⟩)] : List (Nat × Instr)), (decodeNat x.1).toOption = some x.2 ∧ encodeNat x.2 = x.1 := by decide

theorem test_decode_jr : ∀ x ∈ ([
    (0x1A3F0000, .jalr 17 31)] : List (Nat × Instr)), (decodeNat x.1).toOption = some x.2 ∧ encodeNat x.2 = x.1 := by decide

theorem test_decode_strc : ∀ x ∈ ([
    (0x1C170000, .sbar 23),
    (0x1C170010, .twaitAny 23),
    (0x1C170020, .twaitAll 23),
    (0x1D970030, .tfind 12 23),
    (0x1C170040, .tclr 23),
    (0x1C170050, .qfence 23),
    (0x1C450064, .shape 2 5 0 .rank),
    (0x1CF70070, .shpub 7 23),
    (0x1C000080, .cfgCmt),
    (0x1C170090, .resume 23)] : List (Nat × Instr)), (decodeNat x.1).toOption = some x.2 ∧ encodeNat x.2 = x.1 := by decide

theorem test_decode_immediate : ∀ x ∈ ([
    (0x21328001, .addi 9 18 0x8001),
    (0x25328001, .andi 9 18 0x8001),
    (0x29328001, .ori 9 18 0x8001),
    (0x2D328001, .xori 9 18 0x8001),
    (0x31328001, .slti 9 18 0x8001),
    (0x35328001, .sltiu 9 18 0x8001),
    (0x3932003F, .shli 9 18 63),
    (0x3D32003F, .shri 9 18 63),
    (0x4132003F, .sari 9 18 63),
    (0x45208001, .lui 9 0x8001),
    (0x49238001, .lih 9 3 0x8001)] : List (Nat × Instr)), (decodeNat x.1).toOption = some x.2 ∧ encodeNat x.2 = x.1 := by decide

theorem test_decode_loadStore : ∀ x ∈ ([
    (0x6132FFF8, .ldb 9 18 0xFFF8),
    (0x6532FFF8, .ldbu 9 18 0xFFF8),
    (0x6932FFF8, .ldh 9 18 0xFFF8),
    (0x6D32FFF8, .ldhu 9 18 0xFFF8),
    (0x7132FFF8, .ldw 9 18 0xFFF8),
    (0x7532FFF8, .ldwu 9 18 0xFFF8),
    (0x7932FFF8, .ldd 9 18 0xFFF8),
    (0x81327FF8, .stb 9 18 0x7FF8),
    (0x85327FF8, .sth 9 18 0x7FF8),
    (0x89327FF8, .stw 9 18 0x7FF8),
    (0x8D327FF8, .std 9 18 0x7FF8)] : List (Nat × Instr)), (decodeNat x.1).toOption = some x.2 ∧ encodeNat x.2 = x.1 := by decide

theorem test_decode_branch : ∀ x ∈ ([
    (0xA132FFFD, .beq 9 18 0xFFFD),
    (0xA532FFFD, .bne 9 18 0xFFFD),
    (0xA932FFFD, .blt 9 18 0xFFFD),
    (0xAD32FFFD, .bge 9 18 0xFFFD),
    (0xB132FFFD, .bltu 9 18 0xFFFD),
    (0xB532FFFD, .bgeu 9 18 0xFFFD),
    (0xB8A07FFF, .bpt 5 0x7FFF),
    (0xBCA07FFF, .bpf 5 0x7FFF),
    (0xC3FFFFFE, .j 0x3FFFFFE),
    (0xC6000000, .jal 0x2000000)] : List (Nat × Instr)), (decodeNat x.1).toOption = some x.2 ∧ encodeNat x.2 = x.1 := by decide

theorem test_decode_stream : ∀ x ∈ ([
    (0xCA663CA1, .strmLd ⟨19, 6, 7, 37, false, true⟩),
    (0xCE663CA2, .strmSt ⟨19, 6, 7, 37, true, false⟩),
    (0xD2663CA3, .strmGth ⟨19, 6, 7, 37, true, true⟩),
    (0xD6663CA0, .strmSct ⟨19, 6, 7, 37, false, false⟩)] : List (Nat × Instr)), (decodeNat x.1).toOption = some x.2 ∧ encodeNat x.2 = x.1 := by decide

theorem test_decode_engineQueue : ∀ x ∈ ([
    (0xD8A63CA0, .cpy 5 6 7 37),
    (0xDCA63CA0, .cpy2d 5 6 7 37),
    (0xE0A63CA0, .collAr 5 6 7 37 .fast),
    (0xE0A63CA5, .collAg 5 6 7 37 .canonical),
    (0xE0A63CAA, .collRs 5 6 7 37 .exact),
    (0xE0A63CAC, .collBc 5 6 7 37 .fast),
    (0xE0A63CB1, .collA2a 5 6 7 37 .canonical)] : List (Nat × Instr)), (decodeNat x.1).toOption = some x.2 ∧ encodeNat x.2 = x.1 := by decide

theorem test_decode_command : ∀ x ∈ ([
    (0xE47404A0, .flm .domain 20 37),
    (0xE9242A80, .enq 9 4 5 20),
    (0xEC063CA1, .cfgLd 6 7 37 true),
    (0xF1242CA0, .ertPin 9 4 5 37),
    (0xF12404A1, .ertProbe 9 4 37),
    (0xF12404A2, .ertEvict 9 4 37)] : List (Nat × Instr)), (decodeNat x.1).toOption = some x.2 ∧ encodeNat x.2 = x.1 := by decide

theorem test_decode_system : ∀ x ∈ ([
    (0xFC000FFF, .trap 4095),
    (0xFC001000, .eret),
    (0xFC402006, .mfsr 2 .tags),
    (0xFC402008, .mfsr 2 .widw),
    (0xFC153004, .mtsr .asid 21),
    (0xFC004800, .fence .system),
    (0xFD325600, .wait 9 18 .domain),
    (0xFC006000, .halt)] : List (Nat × Instr)), (decodeNat x.1).toOption = some x.2 ∧ encodeNat x.2 = x.1 := by decide

theorem test_decode_configuration : ∀ x ∈ ([
    (0x0A6F43FF, .configWrite 5 6 15 16 0x3FF),
    (0x7FFFFFFF, .configExtend 0x3FFFFFFF),
    (0x82980000, .beginCmd true 2 3),
    (0x84000000, .commit),
    (0x8A400000, .selectRegion 9),
    (0x8CA80000, .bankQuiesce 5 8 false),
    (0x8C008000, .bankQuiesce 0 0 true)] : List (Nat × Instr)), (decodeConfigNat x.1).toOption = some x.2 ∧ encodeConfigNat x.2 = x.1 := by decide

theorem test_illegal_unassignedFunction : ∀ w ∈ ([0x00210813, 0x04210807, 0x08210830, 0x0C210005, 0x10210200, 0x14210F00, 0x18210001, 0x1C0100A0, 0xFC007000, 0x4C000000, 0x7C000000, 0x90000000, 0xF4000000, 0xF8000000, 0xE0010834, 0xF0210823] : List Nat),
    (decodeNat w).toOption = none := by decide

theorem test_illegal_reservedField : ∀ w ∈ ([0x0021080E, 0x0021020E, 0x08210840, 0x0C210801, 0x102108C8, 0x10210001, 0x14210802, 0x18210800, 0x1C210000, 0x1C010001, 0x44210000, 0x48240000, 0x38210040, 0xB8210000, 0xC8210824, 0xE4210820, 0xEC210820, 0xFC200000, 0xFC001001, 0xFC004001, 0xFC016000] : List Nat),
    (decodeNat w).toOption = none := by decide

theorem test_illegal_registerField : ∀ w ∈ ([0x00290C00, 0x0D210000, 0x0C290001, 0x08080888, 0xD9010820, 0x1D010070, 0xB9000000] : List Nat),
    (decodeNat w).toOption = none := by decide

theorem test_illegal_systemRegister : ∀ w ∈ ([0xFC202009, 0xFC013001, 0xFC013006] : List Nat),
    (decodeNat w).toOption = none := by decide

end Sys2Proof.Tests
end

section
/-!
O34 (R104, R107). The RDC of one die: what enters it, what a line fill leaves in it, what a drop takes out, and that none of this touches
anything but that die's RDC.
-/
namespace Sys2Proof.Machine
open Sys2Proof.Safety

/-! ### The length of a map -/

theorem Map.length_del_le {α : Type} (k : Nat) (m : Map α) : (Map.del k m).length ≤ m.length := by
  induction m with
  | nil => exact Nat.le_refl _
  | cons x t ih =>
    by_cases h : x.1 = k <;> simp only [Map.del, h, if_true, if_false, List.length_cons] <;> omega

/-- A write lists at most one key more. -/
theorem Map.length_put_le {α : Type} [DecidableEq α] (d : α) (k : Nat) (v : α) (m : Map α) :
    (Map.put d k v m).length ≤ m.length + 1 := by
  induction m with
  | nil => by_cases hv : v = d <;> simp [Map.put, hv]
  | cons x t ih =>
    have hdel := Map.length_del_le k t
    obtain ⟨k', v'⟩ := x
    by_cases hk : k' = k
    · by_cases hv : v = d <;> simp only [Map.put, hk, hv, if_true, if_false, List.length_cons] <;> omega
    · by_cases h2 : k < k'
      · by_cases hv : v = d <;> simp only [Map.put, hk, h2, hv, if_true, if_false, List.length_cons] <;> omega
      · simp only [Map.put, hk, h2, if_false, List.length_cons]
        omega

/-! ### One die -/

@[simp] theorem State.die_setDie (s : State) (d : Fin 4) (k : Die) : (s.setDie d k).die d = k := by
  simp [State.die, State.setDie]
theorem State.die_setDie_ne (s : State) {d e : Fin 4} (k : Die) (h : e ≠ d) : (s.setDie d k).die e = s.die e := by
  simp [State.die, State.setDie, getF_setF_ne _ _ h]
@[simp] theorem State.setDie_setDie (s : State) (d : Fin 4) (k l : Die) : (s.setDie d k).setDie d l = s.setDie d l := by
  simp [State.setDie]
@[simp] theorem State.setDie_die (s : State) (d : Fin 4) : s.setDie d (s.die d) = s := by
  simp [State.die, State.setDie]

/-! ### Changes of the RDC of one die alone -/

/-- `t` is `s` but for the RDC of die `d`. -/
def RdcOnly (d : Fin 4) (s t : State) : Prop := ∃ m, t = s.setDie d { s.die d with rdc := m }

section
variable {d : Fin 4} {s t u : State}

theorem RdcOnly.refl (d : Fin 4) (s : State) : RdcOnly d s s := ⟨(s.die d).rdc, (s.setDie_die d).symm⟩

theorem RdcOnly.trans (h : RdcOnly d s t) (h' : RdcOnly d t u) : RdcOnly d s u := by
  obtain ⟨m, rfl⟩ := h
  obtain ⟨n, rfl⟩ := h'
  exact ⟨n, by simp⟩

theorem RdcOnly.home_eq (h : RdcOnly d s t) (g : Nat) : t.home g = s.home g := by
  obtain ⟨m, rfl⟩ := h
  rfl

theorem RdcOnly.die_eq (h : RdcOnly d s t) {e : Fin 4} (he : e ≠ d) : t.die e = s.die e := by
  obtain ⟨m, rfl⟩ := h
  exact s.die_setDie_ne _ he

theorem RdcOnly.memorySame (h : RdcOnly d s t) : MemorySame s t := by
  obtain ⟨m, rfl⟩ := h
  exact ⟨State.byte_congr rfl, State.mtByte_congr rfl rfl, fun _ _ => rfl⟩

end

theorem rdcOnly_setRdc (d : Fin 4) (s : State) (g : Nat) (v : Option Word) : RdcOnly d s (s.setRdc d g v) := ⟨_, rfl⟩

theorem rdcOnly_rdcRoom (d : Fin 4) (s : State) (g : Nat) : RdcOnly d s (s.rdcRoom d g) := by
  unfold State.rdcRoom
  split
  · exact .refl d s
  · dsimp only
    split
    · exact .refl d s
    · split
      · exact ⟨_, rfl⟩
      · exact .refl d s

theorem rdcOnly_putRdc (d : Fin 4) (s : State) (g : Nat) (v : Word) : RdcOnly d s (s.putRdc d g v) :=
  (rdcOnly_rdcRoom d s g).trans (rdcOnly_setRdc d _ g (some v))

/-! ### The copies after a change -/

theorem State.rdcOf_setRdc (s : State) (d : Fin 4) (g h : Nat) (v : Option Word) :
    (s.setRdc d g v).rdcOf d h = if h = g then v else s.rdcOf d h := by
  by_cases hg : h = g
  · subst hg; simp [State.rdcOf, State.setRdc]
  · simp [State.rdcOf, State.setRdc, hg, Map.get_put_ne _ _ _ hg]

/-- An RDC that is not full gives nothing up for a new copy (log 113). -/
theorem State.putRdc_of_room (s : State) (d : Fin 4) (g : Nat) (v : Word) (hroom : (s.die d).rdc.length < rdcCap) :
    s.putRdc d g v = s.setRdc d g (some v) := by
  simp [State.putRdc, State.rdcRoom, hroom]

/-! ### A line fill, granule by granule -/

/-- One step of a line fill: an absent copy of granule `h` is taken from its home. -/
def State.fillGranule (s : State) (d : Fin 4) (h : Nat) : State :=
  match s.rdcOf d h with
  | some _ => s
  | none => s.putRdc d h (s.home h)

/-- The granules of the 64-byte line of a granule. -/
def lineGranules (g : Nat) : List Nat := (List.range 8).map (g / 8 * 8 + ·)

theorem mem_lineGranules (g h : Nat) : h ∈ lineGranules g ↔ h / 8 = g / 8 := by
  simp only [lineGranules, List.mem_map, List.mem_range]
  constructor
  · rintro ⟨i, hi, rfl⟩; omega
  · intro hline; exact ⟨h % 8, by omega, by omega⟩

theorem State.fillLine_eq (s : State) (d : Fin 4) (g : Nat) :
    s.fillLine d g = (lineGranules g).foldl (fun s h => s.fillGranule d h) s := by
  rw [lineGranules, List.foldl_map]
  rfl

theorem State.fillGranule_of_some {s : State} {d : Fin 4} {h : Nat} {v : Word} (hv : s.rdcOf d h = some v) :
    s.fillGranule d h = s := by simp [State.fillGranule, hv]

theorem State.fillGranule_of_none {s : State} {d : Fin 4} {h : Nat} (hv : s.rdcOf d h = none) :
    s.fillGranule d h = s.putRdc d h (s.home h) := by simp [State.fillGranule, hv]

theorem rdcOnly_fillGranule (d : Fin 4) (s : State) (h : Nat) : RdcOnly d s (s.fillGranule d h) := by
  cases hv : s.rdcOf d h with
  | some v => rw [State.fillGranule_of_some hv]; exact .refl d s
  | none => rw [State.fillGranule_of_none hv]; exact rdcOnly_putRdc d s h _

theorem State.rdcOf_fillGranule (s : State) (d : Fin 4) (h j : Nat) (hroom : (s.die d).rdc.length < rdcCap) :
    (s.fillGranule d h).rdcOf d j = if j = h then some ((s.rdcOf d j).getD (s.home j)) else s.rdcOf d j := by
  cases hv : s.rdcOf d h with
  | some v =>
    rw [State.fillGranule_of_some hv]
    split
    · next hj => rw [hj, hv]; rfl
    · rfl
  | none =>
    rw [State.fillGranule_of_none hv, s.putRdc_of_room d h _ hroom, s.rdcOf_setRdc]
    split
    · next hj => rw [hj, hv]; rfl
    · rfl

theorem State.rdc_length_fillGranule_le (s : State) (d : Fin 4) (h : Nat) (hroom : (s.die d).rdc.length < rdcCap) :
    ((s.fillGranule d h).die d).rdc.length ≤ (s.die d).rdc.length + 1 := by
  cases hv : s.rdcOf d h with
  | some v => rw [State.fillGranule_of_some hv]; exact Nat.le_succ _
  | none =>
    rw [State.fillGranule_of_none hv, s.putRdc_of_room d h _ hroom, State.setRdc, State.die_setDie]
    exact Map.length_put_le _ _ _ _

theorem rdcOnly_fillGranules (d : Fin 4) (l : List Nat) (s : State) :
    RdcOnly d s (l.foldl (fun s h => s.fillGranule d h) s) := by
  induction l generalizing s with
  | nil => exact .refl d s
  | cons h l ih => exact (rdcOnly_fillGranule d s h).trans (ih _)

/-- With room for every granule of `l`, each of them has a copy afterwards, its old one or its home copy, and every other granule has what
it had. -/
theorem rdcOf_fillGranules (d : Fin 4) (l : List Nat) (s : State) (j : Nat) (hroom : (s.die d).rdc.length + l.length ≤ rdcCap) :
    (l.foldl (fun s h => s.fillGranule d h) s).rdcOf d j =
      if j ∈ l then some ((s.rdcOf d j).getD (s.home j)) else s.rdcOf d j := by
  induction l generalizing s with
  | nil => simp
  | cons h l ih =>
    rw [List.length_cons] at hroom
    have hlt : (s.die d).rdc.length < rdcCap := by omega
    have hlen := s.rdc_length_fillGranule_le d h hlt
    rw [List.foldl_cons, ih _ (by omega), s.rdcOf_fillGranule d h j hlt, (rdcOnly_fillGranule d s h).home_eq]
    by_cases hj : j = h <;> simp [hj]

theorem rdcOnly_fillLine (d : Fin 4) (s : State) (g : Nat) : RdcOnly d s (s.fillLine d g) := by
  rw [s.fillLine_eq]
  exact rdcOnly_fillGranules d _ s

theorem State.rdcOf_fillLine (s : State) (d : Fin 4) (g h : Nat) (hroom : (s.die d).rdc.length + 8 ≤ rdcCap) :
    (s.fillLine d g).rdcOf d h = if h / 8 = g / 8 then some ((s.rdcOf d h).getD (s.home h)) else s.rdcOf d h := by
  rw [s.fillLine_eq, rdcOf_fillGranules d _ s h (by simpa [lineGranules] using hroom)]
  simp only [mem_lineGranules]

/-! ### A read of a granule, by where its value comes from (R104) -/

theorem State.readGranule_of_local {s : State} {d : Fin 4} {g : Nat} (hl : s.isLocal d g = true) :
    s.readGranule d g = (s.home g, s) := by simp [State.readGranule, hl]

theorem State.readGranule_of_copy {s : State} {d : Fin 4} {g : Nat} {v : Word} (hl : s.isLocal d g = false) (hv : s.rdcOf d g = some v) :
    s.readGranule d g = (v, s) := by simp [State.readGranule, hl, hv]

theorem State.readGranule_of_absent {s : State} {d : Fin 4} {g : Nat} (hl : s.isLocal d g = false) (hv : s.rdcOf d g = none) :
    s.readGranule d g = (s.home g, s.fillLine d g) := by simp [State.readGranule, hl, hv]

/-! ### A drop of a copy (R107) -/

theorem exec_rdcDrop (d : Fin 4) (g : Nat) (s : State) :
    exec (.rdcDrop d g) s = .next (if s.unlanded d g then s else s.setRdc d g none) :=
  rfl

/-- Settles O34: a read is its three cases, a line fill is eight granule fills that change the RDC of the reader's die alone, and a drop is
one write of that RDC, made only where no write of the granule is under way. -/
theorem rdcFillsAbsentCopiesAndDropsLandedOnes : Obligations.RdcFillsAbsentCopiesAndDropsLandedOnes := by
  unfold Obligations.RdcFillsAbsentCopiesAndDropsLandedOnes
  intro d g s
  refine ⟨State.readGranule_of_local, fun v => State.readGranule_of_copy, fun hl hv => ?absent, fun hu => ?kept, fun hu => ?dropped⟩
  case absent =>
    have hfill := rdcOnly_fillLine d s g
    exact ⟨s.fillLine d g, State.readGranule_of_absent hl hv, hfill.memorySame, fun e => hfill.die_eq, fun hroom h => s.rdcOf_fillLine d g h hroom⟩
  case kept => rw [exec_rdcDrop, if_pos hu]
  case dropped =>
    have hdrop := rdcOnly_setRdc d s g none
    refine ⟨s.setRdc d g none, by simp [exec_rdcDrop, hu], by simp [s.rdcOf_setRdc], fun h hg => ?_, fun e => hdrop.die_eq, hdrop.memorySame⟩
    rw [s.rdcOf_setRdc, if_neg hg]

end Sys2Proof.Machine
end

section
/-!
O15 (R131, R177, R178). Branches and jumps: each instruction as `State.branch` or `State.jump`, what a jump does for an integer target, and
that a target relative to the pc is such an integer.
-/
namespace Sys2Proof.Machine
open Sys2Proof.Safety

/-! ### The instructions, by the operation they share -/

theorem exec_bpt (p : PReg) (off : BitVec 16) (s : State) : exec (.bpt p off) s = .next (s.branch (s.rdP p) off) := rfl
theorem exec_bpf (p : PReg) (off : BitVec 16) (s : State) : exec (.bpf p off) s = .next (s.branch (!s.rdP p) off) := rfl
theorem exec_j (off : BitVec 26) (s : State) : exec (.j off) s = .next (s.jump (branchTarget s.me.pc (off.signExtend 64)) id) := rfl
theorem exec_jal (off : BitVec 26) (s : State) :
    exec (.jal off) s = .next (s.jump (branchTarget s.me.pc (off.signExtend 64)) fun s => s.wr 31 (s.me.pc + 4)) := rfl
theorem exec_jalr (d a : Reg) (s : State) : exec (.jalr d a) s = .next (s.jump (s.rd a) fun s => s.wr d (s.me.pc + 4)) := rfl

/-- bge of R177, which the model gives as the negation of blt. -/
theorem not_cLt_eq (x y : Word) : (!cLt x y) = decide (y.toInt ≤ x.toInt) := by
  rw [cLt, BitVec.slt_eq_decide, ← decide_not, decide_eq_decide, Int.not_lt]
/-- bgeu of R177, which the model gives as the negation of bltu. -/
theorem not_cLtu_eq (x y : Word) : (!cLtu x y) = decide (y.toNat ≤ x.toNat) := by
  rw [cLtu, BitVec.ult_eq_decide, ← decide_not, decide_eq_decide, Nat.not_lt]
theorem cNe_eq (x y : Word) : cNe x y = decide (x ≠ y) := by
  rw [Bool.eq_iff_iff, cNe, bne_iff_ne, decide_eq_true_iff]

/-- Every register branch takes `State.branch` on the condition of its row of R177. -/
theorem exec_branchRows (s : State) (a b : Reg) (off : BitVec 16) :
    ∀ row ∈ branchRows, exec (row.1 a b off) s = .next (s.branch (row.2 (s.rd a) (s.rd b)) off) := by
  simp only [branchRows, List.forall_mem_cons]
  refine ⟨?beq, ?bne, ?blt, ?bge, ?bltu, ?bgeu, fun _ h => nomatch h⟩
  case beq => rfl
  case bne => rw [← cNe_eq]; rfl
  case blt => rfl
  case bge => rw [← not_cLt_eq]; rfl
  case bltu => rfl
  case bgeu => rw [← not_cLtu_eq]; rfl

/-! ### A jump to an integer target -/

/-- A link and then a jump. -/
theorem wroteReg_wr_setPc (s : State) (d : Reg) (v pc : Word) : WroteReg s ((s.wr d v).setPc pc) d v pc := by
  have heq : (s.wr d v).setPc pc = s.setMe { s.me.writeG d v with pc := pc } := by simp [State.setPc, State.wr]
  have hrd : ∀ q, ((s.wr d v).setPc pc).rd q = (s.me.writeG d v).readG q := fun q => by simp [State.rd, CoreState.readG]
  refine ⟨by rw [hrd, CoreState.readG_writeG], fun r h => by rw [hrd, CoreState.readG_writeG_ne _ _ h]; rfl, by simp, ?rest, ?others⟩
  case rest =>
    rw [heq, s.me_setMe]
    exact congrArg (fun k => { k with pc := s.me.pc }) (s.me.writeG_rest d v)
  case others =>
    rw [heq]
    exact ⟨othersSame_setMe _ _, restSame_setMe _ _, memorySame_setMe _ _ (s.me.writeG_priv d v)⟩

/-- An integer whose 64-bit word cannot be mistaken for a target in code memory unless it is one: a negative one wraps past the end. -/
def IsAddress (x : Int) : Prop := -2 ^ 63 ≤ x ∧ x < 2 ^ 64

theorem isAddress_toNat (v : Word) : IsAddress v.toNat := ⟨by omega, by exact_mod_cast v.isLt⟩

/-- The model's check of a target word is R131's check of the integer it stands for. -/
theorem target_traps_iff {x : Int} (hx : IsAddress x) :
    ((BitVec.ofInt 64 x).toNat % 4 ≠ 0 ∨ lastCode < (BitVec.ofInt 64 x).toNat) ↔ ¬ (0 ≤ x ∧ x ≤ 0x3FFFC ∧ x % 4 = 0) := by
  obtain ⟨hlo, hhi⟩ := hx
  rw [BitVec.toNat_ofInt, lastCode]
  omega

theorem State.jump_ofInt (s : State) (link : State → State) {x : Int} (hx : IsAddress x) :
    s.jump (BitVec.ofInt 64 x) link = if 0 ≤ x ∧ x ≤ 0x3FFFC ∧ x % 4 = 0 then (link s).setPc (BitVec.ofInt 64 x)
      else s.trap { cause := .fetchRange, bad := BitVec.ofInt 64 x } := by
  simp only [State.jump, target_traps_iff hx, ite_not]

theorem goesTo_jump (s : State) {x : Int} (hx : IsAddress x) : GoesTo s x (s.jump (BitVec.ofInt 64 x) id) := by
  rw [s.jump_ofInt id hx, GoesTo]
  split
  · exact onlyPc_setPc s _
  · rfl

theorem linksAndGoes_jump (s : State) (d : Reg) {x : Int} (hx : IsAddress x) :
    LinksAndGoes s d x (s.jump (BitVec.ofInt 64 x) fun s => s.wr d (s.me.pc + 4)) := by
  rw [s.jump_ofInt _ hx, LinksAndGoes]
  split
  · exact wroteReg_wr_setPc s d _ _
  · rfl

/-! ### Targets relative to the pc -/

theorem branchTarget_eq_ofInt {w : Nat} (pc : Word) (off : BitVec w) :
    branchTarget pc (off.signExtend 64) = BitVec.ofInt 64 (pc.toNat + 4 * off.toInt) := by
  rw [BitVec.ofInt_add, BitVec.ofInt_mul, BitVec.ofInt_natCast, BitVec.ofNat_toNat, BitVec.setWidth_eq]
  rfl

/-- From a pc in code memory, no offset of a branch or jump word reaches so far that its target wraps back into code memory. -/
theorem isAddress_relative {s : State} (hpc : PcOk s) {w : Nat} (hw : w ≤ 26) (off : BitVec w) :
    IsAddress (s.me.pc.toNat + 4 * off.toInt) := by
  obtain ⟨-, hlt⟩ := hpc
  have hpow : (2 : Int) ^ w ≤ 2 ^ 26 := by exact_mod_cast Nat.pow_le_pow_right (by decide : 0 < 2) hw
  have hlo : -2 ^ w ≤ 2 * off.toInt := BitVec.le_two_mul_toInt
  have hhi : 2 * off.toInt < 2 ^ w := BitVec.two_mul_toInt_lt
  constructor <;> omega

theorem goesTo_relative {s : State} (hpc : PcOk s) {w : Nat} (hw : w ≤ 26) (off : BitVec w) :
    GoesTo s (s.me.pc.toNat + 4 * off.toInt) (s.jump (branchTarget s.me.pc (off.signExtend 64)) id) := by
  rw [branchTarget_eq_ofInt]
  exact goesTo_jump s (isAddress_relative hpc hw off)

theorem State.branch_true (s : State) (off : BitVec 16) :
    s.branch true off = s.jump (branchTarget s.me.pc (off.signExtend 64)) id := rfl
theorem State.branch_false (s : State) (off : BitVec 16) : s.branch false off = s.advance := rfl

/-- A branch, by whether it is taken. -/
theorem branch_cases {s : State} (hpc : PcOk s) (c : Bool) (off : BitVec 16) :
    if c then GoesTo s (s.me.pc.toNat + 4 * off.toInt) (s.branch c off) else OnlyPc s (s.branch c off) (nextWord s) := by
  cases c with
  | true => rw [s.branch_true, if_pos rfl]; exact goesTo_relative hpc (by decide) off
  | false => rw [s.branch_false, if_neg (by decide)]; exact onlyPc_advance s

/-- Settles O15: each instruction is a branch or a jump, a target relative to the pc or in a register is an integer that its word does not
hide, and a jump checks that integer before it links. -/
theorem branchesAndJumpsReachTheirTargets : Obligations.BranchesAndJumpsReachTheirTargets := by
  unfold Obligations.BranchesAndJumpsReachTheirTargets
  intro s hpc
  refine ⟨fun row hrow a b off => ?branch, fun p off => ⟨?bpt, ?bpf⟩, fun off => ?j, fun off => ?jal, fun d a => ?jalr⟩
  case branch => exact ⟨_, exec_branchRows s a b off row hrow, branch_cases hpc _ off⟩
  case bpt => exact ⟨_, exec_bpt p off s, branch_cases hpc _ off⟩
  case bpf =>
    have hbranch := branch_cases hpc (!s.rdP p) off
    refine ⟨_, exec_bpf p off s, ?_⟩
    cases hp : s.rdP p <;> simpa [hp] using hbranch
  case j => exact ⟨_, exec_j off s, goesTo_relative hpc (Nat.le_refl 26) off⟩
  case jal =>
    have hlinks := linksAndGoes_jump s 31 (isAddress_relative hpc (Nat.le_refl 26) off)
    rw [← branchTarget_eq_ofInt] at hlinks
    exact ⟨_, exec_jal off s, hlinks⟩
  case jalr =>
    have hlinks := linksAndGoes_jump s d (isAddress_toNat (s.rd a))
    rw [BitVec.ofInt_natCast, BitVec.ofNat_toNat, BitVec.setWidth_eq] at hlinks
    exact ⟨_, exec_jalr d a s, hlinks⟩

end Sys2Proof.Machine
end

section
/-!
O25 (R209 to R211). shape: what grant_of answers, what a request comes to at each kind, and the one state that a granted shape leaves.
-/
namespace Sys2Proof.Machine
open Sys2Proof.Safety

/-! ### grant_of (R211) -/

theorem grantOf_of_lt {req gran : Nat} (max : Nat) (h : req < gran) : grantOf req max gran = none := if_pos h

/-- grant_of answers the one multiple of the granule that R211 asks for. -/
theorem grantOf_of_granted {req max gran g : Nat} (hg : Granted req max gran g) : grantOf req max gran = some g := by
  obtain ⟨hreq, hmod, hle, hlt⟩ := hg
  have hq : min req max / gran = g / gran := by
    rw [← Nat.div_mul_cancel (Nat.dvd_of_mod_eq_zero hmod)] at hle hlt
    refine Nat.div_eq_of_lt_le hle ?_
    rwa [Nat.succ_mul]
  rw [grantOf, if_neg (Nat.not_lt.mpr hreq), hq, Nat.mul_div_cancel' (Nat.dvd_of_mod_eq_zero hmod)]

/-- A request that reaches its granule is granted something. -/
theorem grantOf_of_le {req gran : Nat} (max : Nat) (h : gran ≤ req) : ∃ g, grantOf req max gran = some g :=
  ⟨_, if_neg (Nat.not_lt.mpr h)⟩

/-! ### Kinds (R210) -/

/-- The spec's table of R210 and the model's are one. -/
theorem shapeLimits_eq (kind : ShapeKind) (w h : Nat) :
    shapeLimits kind w h =
      ((shapeMax (ShapeKind.num kind) w h).1, (shapeMax (ShapeKind.num kind) w h).2.1, (shapeMax (ShapeKind.num kind) w h).2.2,
        shapeGranule (ShapeKind.num kind)) := by
  cases kind <;> rfl

theorem shapeKindNum_lt (kind : ShapeKind) : ShapeKind.num kind < 8 := by cases kind <;> decide

theorem isMatrixKind_num {kind : ShapeKind} (h : kind = .fp8 ∨ kind = .e2m1 ∨ kind = .bf16) : isMatrixKind (ShapeKind.num kind) = true := by
  rcases h with rfl | rfl | rfl <;> rfl

section
variable {kind : ShapeKind} (hkind : kind = .vec ∨ kind = .rank)
include hkind

theorem isMatrixKind_num_length : isMatrixKind (ShapeKind.num kind) = false := by rcases hkind with rfl | rfl <;> rfl
theorem shapeGranule_length : shapeGranule (ShapeKind.num kind) = 8 := by rcases hkind with rfl | rfl <;> rfl
theorem shapeKindNum_length : ShapeKind.num kind = if kind = .vec then 0 else 4 := by rcases hkind with rfl | rfl <;> rfl
theorem shapeMax_length (w h : Nat) : shapeMax (ShapeKind.num kind) w h = ((shapeMax (ShapeKind.num kind) w h).1, 0, 0) := by
  rcases hkind with rfl | rfl <;> rfl

end

/-! ### A grant for requests at a kind, in the order of the checks of R211 -/

section
variable {kind w h m n k : Nat}

theorem shapeGrant_m_refused (hk : isMatrixKind kind = true) (hm : m < 16) : shapeGrant kind w h m n k = .error 0 := by
  simp [shapeGrant, hk, grantOf_of_lt _ hm]

theorem shapeGrant_n_refused (hk : isMatrixKind kind = true) (hm : 16 ≤ m) (hn : n < 16) : shapeGrant kind w h m n k = .error 1 := by
  obtain ⟨gm, hgm⟩ := grantOf_of_le (shapeMax kind w h).1 hm
  simp [shapeGrant, hk, hgm, grantOf_of_lt _ hn]

theorem shapeGrant_k_refused (hk : isMatrixKind kind = true) (hm : 16 ≤ m) (hn : 16 ≤ n) (hlt : k < shapeGranule kind) :
    shapeGrant kind w h m n k = .error 2 := by
  obtain ⟨gm, hgm⟩ := grantOf_of_le (shapeMax kind w h).1 hm
  obtain ⟨gn, hgn⟩ := grantOf_of_le (shapeMax kind w h).2.1 hn
  simp [shapeGrant, hk, hgm, hgn, grantOf_of_lt _ hlt]

theorem shapeGrant_matrix {gm gn gk : Nat} (hk : isMatrixKind kind = true)
    (hm : Granted m (shapeMax kind w h).1 16 gm) (hn : Granted n (shapeMax kind w h).2.1 16 gn)
    (hgk : Granted k (shapeMax kind w h).2.2 (shapeGranule kind) gk) : shapeGrant kind w h m n k = .ok (gm, gn, gk) := by
  simp [shapeGrant, hk, grantOf_of_granted hm, grantOf_of_granted hn, grantOf_of_granted hgk]

theorem shapeGrant_length_refused {gran : Nat} (hk : isMatrixKind kind = false) (hgran : shapeGranule kind = gran) (hm : m < gran) :
    shapeGrant kind w h m n k = .error 3 := by
  simp [shapeGrant, hk, hgran, grantOf_of_lt _ hm]

theorem shapeGrant_length {gran gm : Nat} (hk : isMatrixKind kind = false) (hgran : shapeGranule kind = gran)
    (hm : Granted m (shapeMax kind w h).1 gran gm) : shapeGrant kind w h m n k = .ok (gm, 0, 0) := by
  simp [shapeGrant, hk, hgran, grantOf_of_granted hm]

end

/-! ### What the operands ask for (R211) -/

/-- m (or the length), n and k that operands ask for at a kind. -/
def shapeRequests (kind : ShapeKind) (x y : Word) : Nat × Nat × Nat :=
  let matrix := isMatrixKind (ShapeKind.num kind)
  (bits x.toNat 0 32, if matrix then bits x.toNat 32 32 else 0, if matrix then bits y.toNat 0 32 else 0)

/-- The half that must be zero at a kind: the upper one of gb at a matrix kind, else that of ga. -/
def shapeUpperHalf (kind : ShapeKind) (x y : Word) : Nat :=
  if isMatrixKind (ShapeKind.num kind) then bits y.toNat 32 32 else bits x.toNat 32 32

theorem bits_lower (v : Word) : bits v.toNat 0 32 = v.toNat % 2 ^ 32 := by rw [bits, Nat.pow_zero, Nat.div_one]
theorem bits_upper (v : Word) : bits v.toNat 32 32 = v.toNat / 2 ^ 32 := Nat.mod_eq_of_lt (Nat.div_lt_of_lt_mul v.isLt)

theorem shapeRequests_lt (kind : ShapeKind) (x y : Word) :
    (shapeRequests kind x y).1 < 2 ^ 32 ∧ (shapeRequests kind x y).2.1 < 2 ^ 32 ∧ (shapeRequests kind x y).2.2 < 2 ^ 32 := by
  have hbits (v lo : Nat) : bits v lo 32 < 2 ^ 32 := Nat.mod_lt _ (Nat.two_pow_pos 32)
  refine ⟨hbits _ _, ?_⟩
  cases hk : isMatrixKind (ShapeKind.num kind) <;> simp only [shapeRequests, hk]
  case false => exact ⟨Nat.two_pow_pos 32, Nat.two_pow_pos 32⟩
  case true => exact ⟨hbits _ _, hbits _ _⟩

section
variable {kind : ShapeKind}

theorem shapeRequests_matrix (hk : isMatrixKind (ShapeKind.num kind) = true) (x : Word) {y : Word} (hy : y.toNat < 2 ^ 32) :
    shapeRequests kind x y = (x.toNat % 2 ^ 32, x.toNat / 2 ^ 32, y.toNat) := by
  simp only [shapeRequests, hk, if_true, bits_lower, bits_upper, Nat.mod_eq_of_lt hy]

theorem shapeRequests_length (hk : isMatrixKind (ShapeKind.num kind) = false) {x : Word} (y : Word) (hx : x.toNat < 2 ^ 32) :
    shapeRequests kind x y = (x.toNat, 0, 0) := by
  simp only [shapeRequests, hk, Bool.false_eq_true, if_false, bits_lower, Nat.mod_eq_of_lt hx]

theorem shapeUpperHalf_matrix (hk : isMatrixKind (ShapeKind.num kind) = true) (x y : Word) :
    shapeUpperHalf kind x y = y.toNat / 2 ^ 32 := by
  rw [shapeUpperHalf, if_pos hk, bits_upper]

theorem shapeUpperHalf_length (hk : isMatrixKind (ShapeKind.num kind) = false) (x y : Word) :
    shapeUpperHalf kind x y = x.toNat / 2 ^ 32 := by
  rw [shapeUpperHalf, hk, if_neg (by decide), bits_upper]

end

/-! ### The state that a granted shape leaves -/

/-- The core that `State.grantShape` leaves, but for its pc. -/
def CoreState.grantShape (c : CoreState) (sh : ShReg) (reg : ShapeReg) (a b : Reg) (x : Word) : Option Word → CoreState
  | some y => (CoreState.writeG { c with sh := setF c.sh sh reg } a x).writeG b y
  | none => CoreState.writeG { c with sh := setF c.sh sh reg } a x

theorem CoreState.readG_writeG_eq_ite (c : CoreState) (d r : Reg) (v : Word) :
    (c.writeG d v).readG r = if r = 0 then 0 else if r = d then v else c.readG r := by
  by_cases hr : r = d
  · rw [hr, CoreState.readG_writeG, if_pos rfl]
  · rw [CoreState.readG_writeG_ne _ _ hr, if_neg hr]
    split
    · next h0 => rw [h0, CoreState.readG_zero]
    · rfl

theorem CoreState.writeG_sh (c : CoreState) (r : Reg) (v : Word) : (c.writeG r v).sh = c.sh := by
  unfold CoreState.writeG; split <;> rfl

section
variable (c : CoreState) (sh : ShReg) (reg : ShapeReg) (a b : Reg) (x : Word) (y : Option Word)

theorem CoreState.grantShape_sh : (c.grantShape sh reg a b x y).sh = setF c.sh sh reg := by
  cases y <;> simp [CoreState.grantShape, CoreState.writeG_sh]

theorem CoreState.grantShape_rest : { c.grantShape sh reg a b x y with g := c.g, sh := c.sh } = c := by
  have hga := congrArg (fun k => { k with sh := c.sh }) (CoreState.writeG_rest { c with sh := setF c.sh sh reg } a x)
  cases y with
  | none => exact hga
  | some y =>
    have hgb := CoreState.writeG_rest (CoreState.writeG { c with sh := setF c.sh sh reg } a x) b y
    exact (congrArg (fun k => { k with g := c.g, sh := c.sh }) hgb).trans hga

theorem CoreState.readG_grantShape (g : Reg) :
    (c.grantShape sh reg a b x y).readG g = if g = 0 then 0 else match y with
      | some y => if g = b then y else if g = a then x else c.readG g
      | none => if g = a then x else c.readG g := by
  by_cases h0 : g = 0
  · rw [h0, CoreState.readG_zero, if_pos rfl]
  · cases y <;> simp only [CoreState.grantShape, CoreState.readG_writeG_eq_ite, h0, if_false] <;> rfl

end

/-- The register, ga, then gb at a matrix kind, and on to the next word. -/
def State.grantShape (s : State) (sh : ShReg) (reg : ShapeReg) (a b : Reg) (x : Word) : Option Word → State
  | some y => (((s.setMe { s.me with sh := setF s.me.sh sh reg }).wr a x).wr b y).advance
  | none => ((s.setMe { s.me with sh := setF s.me.sh sh reg }).wr a x).advance

theorem State.grantShape_eq (s : State) (sh : ShReg) (reg : ShapeReg) (a b : Reg) (x : Word) (y : Option Word) :
    s.grantShape sh reg a b x y = s.setMe { s.me.grantShape sh reg a b x y with pc := s.nextPc } := by
  cases y <;> simp [State.grantShape, CoreState.grantShape, State.advance, State.setPc, State.wr, State.nextPc]

theorem State.grantShape_sh (s : State) (sh : ShReg) (reg : ShapeReg) (a b : Reg) (x : Word) (y : Option Word) :
    (s.grantShape sh reg a b x y).me.sh = setF s.me.sh sh reg := by
  rw [s.grantShape_eq, s.me_setMe, CoreState.grantShape_sh]

theorem shapeWrote_grantShape (s : State) (sh : ShReg) (reg : ShapeReg) (a b : Reg) (x : Word) (y : Option Word) :
    ShapeWrote s (s.grantShape sh reg a b x y) sh a b x y := by
  refine ⟨fun g => ?registers, fun o ho => ?shapes, ?frame⟩
  case registers =>
    rw [s.grantShape_eq, State.rd, s.me_setMe]
    exact s.me.readG_grantShape sh reg a b x y g
  case shapes => rw [s.grantShape_sh, getF_setF_ne _ _ ho]
  case frame =>
    have hframe : { (s.grantShape sh reg a b x y).me with g := s.me.g, sh := s.me.sh } = { s.me with pc := s.nextPc } := by
      rw [s.grantShape_eq, s.me_setMe]
      exact congrArg (fun c => { c with pc := s.nextPc }) (s.me.grantShape_rest sh reg a b x y)
    have hpc : { s.grantShape sh reg a b x y with
        cores := setF (s.grantShape sh reg a b x y).cores s.cur { s.me with pc := s.nextPc } } = s.advance := by
      rw [s.grantShape_eq]
      exact s.setMe_setMe _ _
    rw [hframe, hpc]
    exact onlyPc_advance s

/-- A register that the model fills holds what R209 says, whenever its requests fit their 32 bits. -/
theorem holdsGrant_granted {req : Nat × Nat × Nat} (hreq : req.1 < 2 ^ 32 ∧ req.2.1 < 2 ^ 32 ∧ req.2.2 < 2 ^ 32)
    (gr mx : Nat × Nat × Nat) {kind : Nat} (hkind : kind < 8) (s : State) (a b : Reg) (ran : Nat) :
    HoldsGrant { ShapeReg.granted req.1 req.2.1 req.2.2 gr mx kind (bits s.nextPc.toNat 2 16) a b with ran } req gr mx kind
      ((nextWord s).toNat / 4) a b := by
  obtain ⟨hm, hn, hk⟩ := hreq
  have hpcw : BitVec.ofNat 16 (bits s.nextPc.toNat 2 16) = BitVec.ofNat 16 ((nextWord s).toNat / 4) := by
    apply BitVec.eq_of_toNat_eq
    simp [bits, nextWord, s.nextPc_eq]
  have ha := a.isLt
  have hb := b.isLt
  exact ⟨Nat.mod_eq_of_lt hm, Nat.mod_eq_of_lt hn, Nat.mod_eq_of_lt hk, rfl, rfl, rfl, rfl, rfl, rfl, Nat.mod_eq_of_lt hkind, hpcw,
    Nat.mod_eq_of_lt ha, Nat.mod_eq_of_lt hb, rfl, rfl⟩

/-! ### The instruction -/

/-- The grants of an instruction on its core's region, or the info of its trap. -/
def shapeAnswer (kind : ShapeKind) (g : Region) (x y : Word) : Except Nat (Nat × Nat × Nat) :=
  let req := shapeRequests kind x y
  if shapeUpperHalf kind x y ≠ 0 then .error 5 else shapeGrant (ShapeKind.num kind) g.w g.h req.1 req.2.1 req.2.2

section
variable {kind : ShapeKind} (g : Region)

theorem shapeAnswer_matrix_malformed (hk : isMatrixKind (ShapeKind.num kind) = true) (x : Word) {y : Word} (hy : 2 ^ 32 ≤ y.toNat) :
    shapeAnswer kind g x y = .error 5 := by
  refine if_pos ?_
  rw [shapeUpperHalf_matrix hk]
  exact Nat.ne_of_gt (Nat.div_pos hy (Nat.two_pow_pos 32))

theorem shapeAnswer_length_malformed (hk : isMatrixKind (ShapeKind.num kind) = false) {x : Word} (y : Word) (hx : 2 ^ 32 ≤ x.toNat) :
    shapeAnswer kind g x y = .error 5 := by
  refine if_pos ?_
  rw [shapeUpperHalf_length hk]
  exact Nat.ne_of_gt (Nat.div_pos hx (Nat.two_pow_pos 32))

theorem shapeAnswer_matrix (hk : isMatrixKind (ShapeKind.num kind) = true) (x : Word) {y : Word} (hy : y.toNat < 2 ^ 32) :
    shapeAnswer kind g x y = shapeGrant (ShapeKind.num kind) g.w g.h (x.toNat % 2 ^ 32) (x.toNat / 2 ^ 32) y.toNat := by
  rw [shapeAnswer, shapeRequests_matrix hk x hy, shapeUpperHalf_matrix hk, Nat.div_eq_of_lt hy]
  rfl

theorem shapeAnswer_length (hk : isMatrixKind (ShapeKind.num kind) = false) {x : Word} (y : Word) (hx : x.toNat < 2 ^ 32) :
    shapeAnswer kind g x y = shapeGrant (ShapeKind.num kind) g.w g.h x.toNat 0 0 := by
  rw [shapeAnswer, shapeRequests_length hk y hx, shapeUpperHalf_length hk, Nat.div_eq_of_lt hx]
  rfl

end

/-- The place of the last shape among those that the core has run. -/
def CoreState.lastShape (c : CoreState) : Nat := (List.finRange 8).foldl (fun n i => max n (getF c.sh i).ran) 0

/-- The register that a grant fills. -/
def filledShape (s : State) (a b : Reg) (kind : ShapeKind) (g : Region) (gr : Nat × Nat × Nat) : ShapeReg :=
  let req := shapeRequests kind (s.rd a) (s.rd b)
  { ShapeReg.granted req.1 req.2.1 req.2.2 gr (shapeMax (ShapeKind.num kind) g.w g.h) (ShapeKind.num kind) (bits s.nextPc.toNat 2 16) a b
    with ran := s.me.lastShape + 1 }

/-- The trap or the grant of an answer. -/
def State.answerShape (s : State) (sh : ShReg) (a b : Reg) (kind : ShapeKind) (g : Region) : Except Nat (Nat × Nat × Nat) → State
  | .error i => s.trap (shapeTrap i)
  | .ok gr =>
    s.grantShape sh (filledShape s a b kind g gr) a b (grantWord (ShapeKind.num kind) gr)
      (if isMatrixKind (ShapeKind.num kind) then some (BitVec.ofNat 64 gr.2.2) else none)

theorem exec_shape_of_noRegion {s : State} (hr : s.ownRegion s.cur = none) (sh : ShReg) (a b : Reg) (kind : ShapeKind) :
    exec (.shape sh a b kind) s = .next (s.trap (shapeTrap 6)) := by
  simp [exec, execShape, hr]

theorem exec_shape_of_region {s : State} {r : Fin 16} (hr : s.ownRegion s.cur = some r) (sh : ShReg) (a b : Reg) (kind : ShapeKind) :
    let g := s.region (dieOf s.cur) r
    exec (.shape sh a b kind) s = .next (s.answerShape sh a b kind g (shapeAnswer kind g (s.rd a) (s.rd b))) := by
  intro g
  rw [exec, execShape, hr]
  refine congrArg _ ?_
  by_cases hup : shapeUpperHalf kind (s.rd a) (s.rd b) = 0
  · rw [shapeAnswer, if_neg (not_not_intro hup)]
    refine (if_neg (not_not_intro hup)).trans ?_
    simp only [shapeRequests]
    cases hgr : shapeGrant (ShapeKind.num kind) g.w g.h (bits (s.rd a).toNat 0 32)
      (if isMatrixKind (ShapeKind.num kind) then bits (s.rd a).toNat 32 32 else 0)
      (if isMatrixKind (ShapeKind.num kind) then bits (s.rd b).toNat 0 32 else 0) with
    | error i => rfl
    | ok gr => cases hk : isMatrixKind (ShapeKind.num kind) <;> simp only [State.answerShape, filledShape, shapeRequests, hk] <;> rfl
  · rw [shapeAnswer, if_pos hup]
    exact if_pos hup

section
variable {s : State} {r : Fin 16} (hr : s.ownRegion s.cur = some r) {a b : Reg} {kind : ShapeKind} (sh : ShReg)
include hr

theorem exec_shape_of_error {i : Nat} (h : shapeAnswer kind (s.region (dieOf s.cur) r) (s.rd a) (s.rd b) = .error i) :
    exec (.shape sh a b kind) s = .next (s.trap { cause := .shapeRequest, info := i }) := by
  rw [exec_shape_of_region hr, h]
  rfl

theorem exec_shape_of_ok {gr : Nat × Nat × Nat} (h : shapeAnswer kind (s.region (dieOf s.cur) r) (s.rd a) (s.rd b) = .ok gr) :
    ∃ t, exec (.shape sh a b kind) s = .next t ∧
      HoldsGrant (getF t.me.sh sh) (shapeRequests kind (s.rd a) (s.rd b)) gr
        (shapeMax (ShapeKind.num kind) (s.region (dieOf s.cur) r).w (s.region (dieOf s.cur) r).h) (ShapeKind.num kind)
        ((nextWord s).toNat / 4) a b ∧
      ShapeWrote s t sh a b (grantWord (ShapeKind.num kind) gr)
        (if isMatrixKind (ShapeKind.num kind) then some (BitVec.ofNat 64 gr.2.2) else none) := by
  refine ⟨_, by rw [exec_shape_of_region hr, h]; rfl, ?_, shapeWrote_grantShape s sh _ a b _ _⟩
  rw [s.grantShape_sh, getF_setF]
  exact holdsGrant_granted (shapeRequests_lt _ _ _) gr _ (shapeKindNum_lt kind) s a b _

end

/-- Settles O25: the instruction is the trap or the grant of its answer, the checks of R211 give the answer in their order, and the register
and the write-back of a grant are those of one state. -/
theorem shapeGrantsAndWritesBack : Obligations.ShapeGrantsAndWritesBack := by
  unfold Obligations.ShapeGrantsAndWritesBack
  intro sh a b s x y
  refine ⟨fun kind hr => exec_shape_of_noRegion hr sh a b kind, fun r hr => ⟨fun kind hkind => ?matrix, fun kind hkind => ?length⟩⟩
  case matrix =>
    have hk := isMatrixKind_num hkind
    have hanswer (hy : y < 2 ^ 32) := shapeAnswer_matrix (s.region (dieOf s.cur) r) hk (s.rd a) hy
    rw [shapeLimits_eq]
    refine ⟨fun hy => ?malformed, fun hy hm => ?m, fun hy hm hn => ?n, fun hy hm hn hlt => ?k, fun m n k hy hm hn hgk => ?granted⟩
    case malformed => exact exec_shape_of_error hr sh (shapeAnswer_matrix_malformed _ hk _ hy)
    case m => exact exec_shape_of_error hr sh ((hanswer hy).trans (shapeGrant_m_refused hk hm))
    case n => exact exec_shape_of_error hr sh ((hanswer hy).trans (shapeGrant_n_refused hk hm hn))
    case k => exact exec_shape_of_error hr sh ((hanswer hy).trans (shapeGrant_k_refused hk hm hn hlt))
    case granted =>
      have hok := exec_shape_of_ok hr sh ((hanswer hy).trans (shapeGrant_matrix hk hm hn hgk))
      rw [shapeRequests_matrix hk _ hy, grantWord, if_pos hk, if_pos hk] at hok
      exact hok
  case length =>
    have hk := isMatrixKind_num_length hkind
    have hanswer (hx : x < 2 ^ 32) := shapeAnswer_length (s.region (dieOf s.cur) r) hk (s.rd b) hx
    have hgran := shapeGranule_length hkind
    rw [shapeLimits_eq]
    refine ⟨fun hx => ?malformed, fun hx => ?short, fun m hx hm => ?granted⟩
    case malformed => exact exec_shape_of_error hr sh (shapeAnswer_length_malformed _ hk _ hx)
    case short =>
      have hlt : x < 2 ^ 32 := Nat.lt_trans hx (by decide)
      exact exec_shape_of_error hr sh ((hanswer hlt).trans (shapeGrant_length_refused hk hgran hx))
    case granted =>
      have hok := exec_shape_of_ok hr sh ((hanswer hx).trans (shapeGrant_length hk hgran hm))
      rw [shapeRequests_length hk _ hx, shapeMax_length hkind, grantWord, hk] at hok
      rw [← shapeKindNum_length hkind]
      exact hok

end Sys2Proof.Machine
end
